-- ==== Sys2Proof/Word.lean ====
section
/-! DEFINITION. The words the links carry: bytes, and the bit masks of events, show flags and mute masks. -/

namespace Sys2Proof

/-- One byte of the Engineer Link, the Band Link or the Show Link. -/
abbrev Byte := BitVec 8

/-- Sixteen bits: a mask over the show flags F0-F15 or over the events 0-15, bit n for number n. -/
abbrev Word16 := BitVec 16

/-- A mute mask: bit i names local index i (R165). -/
abbrev Word24 := BitVec 24

end Sys2Proof
end

