-- ==== Sys2Proof/Syntax.lean ====
section
/-! DEFINITION. The commands of the block: one constructor for each row of spec/opcode_table.json, with the row's operands.
Operands that arrive as bytes stay bytes, whatever their value: the meaning judges them, as the spec says. -/

namespace Sys2Proof

/-- A cell of the matrix, (Mm, Ss) (R1). -/
structure CellId where
  mix : Fin 16
  source : Fin 48
  deriving DecidableEq, Repr

/-- A station identity ST0-ST15. -/
abbrev StationId := Fin 16

/-- A cue slot C0-C95. -/
abbrev CueId := Fin 96

/-- A local index 0-23 of a station's map. -/
abbrev LocalIndex := Fin 24

/-- The two source ports (R167). -/
inductive Port where
  | a
  | b
  deriving DecidableEq, Repr

/-- What a source port delivered over the block just ended (R167, R168): whether its framing held for the whole span,
and the samples of its channels 0 to 63, 32 each, as fractions of full scale. A channel or a sample that is not listed
reads as 0. -/
structure PortBlock where
  good : Bool
  audio : List (List Rat)
  deriving DecidableEq, Repr

/-- A station's word as it arrives on the pair: its bytes, header first and check last. A whole word has five; a word that a
station breaks off has fewer, as the second word of a sending of eight bytes (R164, log 36). `driven` says whether the part is
driving the pair while the word comes, with REPLY-1, REPLY-2 or a DATA-IN word: it is then not received (R155, log 35). -/
structure BandWord where
  bytes : List Byte
  driven : Bool
  deriving DecidableEq, Repr

/-- A STOP as it arrives: its content bytes, which are not examined (R164), and whether the part is driving the pair while it
comes (R155, R157). -/
structure StopOperand where
  content : Word24
  driven : Bool
  deriving DecidableEq, Repr

/-- The link a cue command arrives on (R57: "from both links"). -/
inductive CueLink where
  | console
  | showLink
  deriving DecidableEq, Repr

/-- The operand of GOTO: one byte from the console (spec/09), two from the Show Link (R75). -/
inductive GotoOperand where
  | console (cue : Byte)
  | showLink (cue : Word16)
  deriving DecidableEq, Repr

/-- The two kinds of request that need a second word (R153). -/
inductive MaskKind where
  | muteSet
  | muteClear
  deriving DecidableEq, Repr

/-- The commands. The name of a row whose mnemonic is shared by two links or is a word of Lean is spelt out; LAWS.json
maps each constructor to its row. -/
inductive Instr where
  -- power and reset
  /-- POWER_ON (R195). -/
  | powerOn
  /-- RESET_PIN_ACTIVE (R195). -/
  | resetPinActive
  /-- RESET_PIN_RELEASE (R196). -/
  | resetPinRelease
  /-- STARTUP_DONE (R196). -/
  | startupDone
  -- the block clock
  /-- BLOCK_START (R174). -/
  | blockStart
  /-- BLOCK_END (R171): what the two ports delivered, and whether a station's break holds the pair at this moment. -/
  | blockEnd (portA portB : PortBlock) (stationHolds : Bool)
  /-- GLIDE_ENTRY_COMPLETE (R38), of the entry of one cell. -/
  | glideEntryComplete (cell : CellId)
  /-- CUE_DONE (R61). -/
  | cueDone
  /-- FOLLOW_WAIT_EXPIRY (R63). -/
  | followWaitExpiry
  /-- PORT_LOCK (R167). -/
  | portLock (port : Port)
  /-- PORT_LOSE_LOCK (R167). -/
  | portLoseLock (port : Port)
  -- Engineer Link bytes
  /-- SELECT_FRAME_START (R182). -/
  | selectFrameStart
  /-- HEADER (R182). -/
  | header (value : Byte)
  /-- FRAME_END (R187). -/
  | frameEnd
  /-- WRITE_CELLS (R188): one byte. -/
  | writeCells (value : Byte)
  /-- READ_CELLS (R189): one byte position; the byte received is not examined. -/
  | readCells (value : Byte)
  /-- REPLY_BYTE (R185): one COMMAND position that carries a reply byte; the byte received is ignored. -/
  | replyByte (value : Byte)
  /-- UNKNOWN_CODE (R184): one byte at a COMMAND position. It is the row's case where it is a code of neither page; any
  other byte there is what the command stream makes of it (log 6). -/
  | unknownCode (code : Byte)
  /-- OTHER_PAGE_CODE (R184): a code and its operand bytes. -/
  | otherPageCode (code : Byte) (operands : List Byte)
  -- BASIC page
  /-- NOP (R184). -/
  | nop
  /-- POSITION (R188). -/
  | position (mix source : Byte)
  /-- WALK (R188). -/
  | walk (mode : Byte)
  /-- FIELD (R188). -/
  | field (select : Byte)
  /-- PAGE (R184). -/
  | page (value : Byte)
  /-- STATUS (R191). -/
  | status
  /-- EVENTS (R194). -/
  | events
  /-- ENABLES (R193): the mask, sent more significant byte first. -/
  | enables (mask : Word16)
  /-- HUSH (R179). -/
  | hush (value : Byte)
  /-- SOFT_RESET (R197). -/
  | softReset
  -- EXTENDED page
  /-- LOCKOUT (R96). -/
  | lockout (level : Byte)
  /-- STATION_PROFILE (R87). -/
  | stationProfile (station priority admitted : Byte)
  /-- STATION_READ (R95). -/
  | stationRead (station : Byte)
  /-- MAP_LOAD (R91): the bytes after the code, station, count and four bytes an entry. -/
  | mapLoad (body : List Byte)
  /-- MAP_READ (R94). -/
  | mapRead (station : Byte)
  /-- CUE_LOAD (R70): the bytes after the code. -/
  | cueLoad (body : List Byte)
  /-- CUE_DELETE (R72). -/
  | cueDelete (slot : Byte)
  /-- CUE_READ (R74). -/
  | cueRead (slot : Byte)
  /-- CUE_POINTER (R69). -/
  | cuePointer (value : Byte)
  /-- GO (R65), from either link. -/
  | go (link : CueLink)
  /-- GOTO (R66), from either link. -/
  | goto (operand : GotoOperand)
  /-- STOP (R67). -/
  | stop
  /-- HOLD (R68), the console's. -/
  | hold (value : Byte)
  /-- HOLD_ON (R68), the Show Link's. -/
  | holdOn
  /-- HOLD_OFF (R68), the Show Link's. -/
  | holdOff
  /-- FLAGS_SET (R52), from either link. -/
  | flagsSet (link : CueLink) (mask : Word16)
  /-- FLAGS_CLEAR (R52), from either link. -/
  | flagsClear (link : CueLink) (mask : Word16)
  /-- LINK_RESET (R162). -/
  | linkReset
  /-- BREAK_COUNT_EXPIRY (R162): whether a station's break holds the pair at this moment. -/
  | breakCountExpiry (stationHolds : Bool)
  /-- SOURCE_MODE (R169). -/
  | sourceMode (value : Byte)
  /-- PATCH (R173): the bytes after the code, first source, count and channels. -/
  | patch (body : List Byte)
  /-- OUTPUT_MODE (R175). -/
  | outputMode (mix mode target : Byte)
  /-- CEILING_COMMAND (R177), the console's CEILING. -/
  | ceilingCommand (mix code : Byte)
  /-- HITS_READ (R178). -/
  | hitsRead
  /-- GLIDE_LENGTH (R41). -/
  | glideLength (value : Byte)
  /-- MIX_COPY (R25). -/
  | mixCopy (a b : Byte)
  /-- MIX_CLEAR (R26). -/
  | mixClear (mix : Byte)
  -- Band Link
  /-- WINDOW_OPEN (R150). -/
  | windowOpen
  /-- ATTN (R150): the word received in a mark slot, as it arrives. -/
  | attn (slot : StationId) (word : BandWord)
  /-- WINDOW_CLOSE (R151). -/
  | windowClose
  /-- REQUEST_1 (R153): the first word of a two-word request. -/
  | request1 (station : StationId) (kind : MaskKind) (operand : Word16)
  /-- REQUEST_WINDOW_EXPIRY (R153). -/
  | requestWindowExpiry
  /-- DAMAGED_REQUEST (R154): the word as it arrives. -/
  | damagedRequest (word : BandWord)
  /-- PHASE_ERROR (R155): the word as it arrives. -/
  | phaseError (word : BandWord)
  /-- HELLO (R127); the operand bytes are not examined (R165). -/
  | hello (station : StationId) (operand : Word16)
  /-- PING (R128). -/
  | ping (station : StationId) (operand : Word16)
  /-- OPEN (R129): the operand is the local index, unsigned. -/
  | openGrip (station : StationId) (index : Word16)
  /-- NEXT (R104). -/
  | nextGrip (station : StationId) (operand : Word16)
  /-- SET (R133): the operand is the level, unsigned. -/
  | setLevel (station : StationId) (level : Word16)
  /-- NUDGE (R135): the operand is the step, two's complement. -/
  | nudgeLevel (station : StationId) (amount : Word16)
  /-- PAN (R136): the operand is the pan, two's complement. -/
  | panCell (station : StationId) (pan : Word16)
  /-- MUTE_SET (R137). -/
  | muteSet (station : StationId) (mask : Word24)
  /-- MUTE_CLEAR (R137). -/
  | muteClear (station : StationId) (mask : Word24)
  /-- CLOSE (R130). -/
  | closeGrip (station : StationId) (operand : Word16)
  /-- RECALL (R139). -/
  | recallMap (station : StationId) (operand : Word16)
  /-- BAD_KIND_REQUEST (R126): a REQUEST-1 with the kind code given. -/
  | badKindRequest (station : StationId) (kind : Byte) (operand : Word16)
  /-- DATA_IN_WORD (R157). -/
  | dataInWord
  /-- STOP_WORD (R141, R157). -/
  | stopWord (station : StationId) (operand : StopOperand)
  /-- REPLY_SENT (R156). -/
  | replySent
  /-- ECHO (R158); the content bytes are not examined (R164). -/
  | echo (station : StationId) (content : Word24)
  /-- ECHO_WINDOW_EXPIRY (R158). -/
  | echoWindowExpiry
  /-- STRAY_WORD (R159): the word as it arrives. -/
  | strayWord (word : BandWord)
  /-- BAND_CHECK (R160): the word as it arrives. -/
  | bandCheck (word : BandWord)
  /-- BREAK_RECEIVED (R161). -/
  | breakReceived
  /-- BREAK_RELEASE (R161). -/
  | breakRelease
  -- Show Link
  /-- SHOW_CHARACTER (R76), with a good stop bit. -/
  | showCharacter (value : Byte)
  /-- SHOW_MESSAGE (R76): the fourth character of a message. -/
  | showMessage (value : Byte)
  /-- SHOW_FRAMING_ERROR (R76). -/
  | showFramingError
  /-- SHOW_GAP (R76). -/
  | showGap
  /-- BAD_CHECK_ECHO (R158): the word as it arrives. -/
  | badCheckEcho (word : BandWord)
  /-- OPENING_GAP_END (R157). -/
  | openingGapEnd
  deriving DecidableEq, Repr

end Sys2Proof
end

