-- ==== Sys2Proof/Machine/State.lean ====
section
/-! DEFINITION. The state of the block, one structure for each block of the spec's block diagram (spec/00), and its value
after the start-up clear. All of it is plain data. Levels, counts and indexes are numbers; bytes and masks are bits. -/

namespace Sys2Proof.Machine

/-- Why a step may stop with a fault. The spec gives the block none, so there is no constructor and no step faults. -/
inductive Fault where
  deriving DecidableEq, Repr

/-- Why a step may be refused. -/
inductive Refusal where
  /-- Raised by an arm of exec whose command has no meaning yet (no arm of this model). Safe: the model stops. -/
  | notModelled (mnemonic : String)
  deriving DecidableEq, Repr

/-- INIT and RUN (R195, R196). -/
inductive RunState where
  | init
  | run
  deriving DecidableEq, Repr

/-! ### MXS, the Matrix Store -/

/-- Who made a change (spec/00, Origins). -/
inductive Origin where
  | engineer
  | station (n : StationId)
  | cue (n : CueId)
  deriving DecidableEq, Repr

/-- One cell record (R1). The last writer is `none` for NONE. -/
structure Cell where
  level : Nat
  heard : Nat
  cap : Nat
  pan : Int
  muted : Bool
  writer : Option Origin
  deriving DecidableEq, Repr

/-- A cell as the start-up clear writes it (R1, R27). -/
def Cell.startUp : Cell :=
  { level := 0, heard := 0, cap := 200, pan := 0, muted := false, writer := none }

/-! ### GLU, the Glide Unit -/

/-- One entry of the glide list (R29). -/
structure GlideEntry where
  cell : CellId
  goal : Nat
  remaining : Nat
  tag : Option CueId
  deriving DecidableEq, Repr

/-! ### CUE, the Cue Engine -/

/-- The sense of a guard (R53). -/
inductive Sense where
  | allSet
  | allClear
  | anySet
  | anyClear
  deriving DecidableEq, Repr

structure Guard where
  mask : Word16
  sense : Sense
  deriving DecidableEq, Repr

/-- A follow-on with its follow wait: one is present exactly when the other is (R47). -/
structure FollowOn where
  cue : CueId
  wait : Nat
  deriving DecidableEq, Repr

/-- The target of a cue edit (R48). -/
inductive EditTarget where
  | mix (m : Fin 16)
  | all
  deriving DecidableEq, Repr

/-- The action of a cue edit (R48). -/
inductive EditAction where
  | level (v : Nat)
  | nudge (d : Int)
  | mute
  | unmute
  | pan (p : Int)
  deriving DecidableEq, Repr

structure CueEdit where
  target : EditTarget
  source : Fin 48
  action : EditAction
  deriving DecidableEq, Repr

/-- One cue record (R47). -/
structure CueRecord where
  guard : Option Guard
  alternate : Option CueId
  followOn : Option FollowOn
  fade : Nat
  setMask : Option Word16
  clearMask : Option Word16
  edits : List CueEdit
  deriving DecidableEq, Repr

/-- The running-cue record (R51). -/
structure RunningCue where
  cue : CueId
  outstanding : Nat
  followOn : Option FollowOn
  deriving DecidableEq, Repr

/-- The phase of the Cue Engine (R50). -/
inductive Phase where
  | idle
  | fading
  | followWait
  deriving DecidableEq, Repr

/-- What CUE holds (R47 to R52). The next pointer is `none` for END. -/
structure CueEngine where
  slots : Vector (Option CueRecord) 96
  poolUsed : Nat
  nextPointer : Option CueId
  running : Option RunningCue
  phase : Phase
  timer : Nat
  hold : Bool
  flags : Word16
  deriving DecidableEq, Repr

/-! ### STT and GRT, the Station Table and the Grip Table -/

/-- What a map entry lets the station do (R89). -/
inductive Right where
  | view
  | adjust
  | full
  deriving DecidableEq, Repr

structure MapEntry where
  cell : CellId
  right : Right
  deriving DecidableEq, Repr

/-- A station's map by local index (R88). -/
abbrev StationMap := Vector (Option MapEntry) 24

inductive StationState where
  | absent
  | attached
  | lost
  deriving DecidableEq, Repr

/-- One station record (R80). -/
structure Station where
  state : StationState
  admitted : Bool
  priority : Nat
  map : StationMap
  checkCount : Nat
  missRun : Nat
  idle : Nat
  deriving DecidableEq, Repr

/-- A station record as the start-up clear writes it (R80). -/
def Station.startUp : Station :=
  { state := .absent, admitted := true, priority := 1, map := Vector.replicate 24 none,
    checkCount := 0, missRun := 0, idle := 0 }

inductive Freshness where
  | fresh
  | stale
  deriving DecidableEq, Repr

/-- One grip (R100). -/
structure Grip where
  station : StationId
  index : LocalIndex
  cell : CellId
  right : Right
  state : Freshness
  deriving DecidableEq, Repr

/-! ### SRU, the Station Request Unit -/

/-- The kind of a station request (R122); `unnamed` is a code that names none of the eleven. -/
inductive RequestKind where
  | hello
  | ping
  | openGrip
  | nextGrip
  | setLevel
  | nudge
  | pan
  | muteSet
  | muteClear
  | closeGrip
  | recallMap
  | unnamed
  deriving DecidableEq, Repr

/-- The request in hand (R122): its operand as it travelled, 16 bits of REQUEST-1 and the mask of REQUEST-2. -/
structure Request where
  station : StationId
  kind : RequestKind
  operand : Word16
  mask : Word24
  deriving DecidableEq, Repr

/-- The status of a reply (R125, R166). -/
inductive Status where
  | ok
  | unmapped
  | noGrip
  | stale
  | denied
  | locked
  | badValue
  | notAttached
  | check
  | phase
  | done
  | stopped
  | mapChanged
  deriving DecidableEq, Repr

/-- The result and reply flags (R18, R125, R138). -/
structure Flags where
  z : Bool
  n : Bool
  v : Bool
  c : Bool
  m : Bool
  g : Bool
  s : Bool
  d : Bool
  deriving DecidableEq, Repr

/-- All flags clear. -/
def Flags.clear : Flags :=
  { z := false, n := false, v := false, c := false, m := false, g := false, s := false, d := false }

/-- A cell report with the index and right that travel with it (R19, R166). -/
structure EntryReport where
  index : LocalIndex
  right : Right
  level : Nat
  cap : Nat
  pan : Int
  muted : Bool
  gliding : Bool
  writer : Option Origin
  deriving DecidableEq, Repr

/-- A reply as SRU or BLC forms it (R124): the count payload is 0 and the report absent where there is none. -/
structure Reply where
  status : Status
  flags : Flags
  count : Nat
  report : Option EntryReport
  deriving DecidableEq, Repr

/-! ### BLC, the Band Link Controller -/

/-- The link state (R148). -/
inductive LinkState where
  | idle
  | window
  | selected
  | answering
  | sending
  | polling
  | resetting
  deriving DecidableEq, Repr

/-- How a RECALL transfer stands (R148). -/
inductive TransferEnd where
  | running
  | done
  | stopped
  | mapChanged
  | phase
  deriving DecidableEq, Repr

/-- The reply that ANSWERING will send, and whether it is settled: the CHECK and PHASE replies and the final reply of a
transfer are, and a good word in the turnaround before one has no effect (R155, R157). -/
structure Answer where
  reply : Reply
  settled : Bool
  deriving DecidableEq, Repr

/-- A word the part sends on the pair: eight bytes, header first (R164). -/
abbrev PartWord := List Byte

/-- The link record (R148) with the service order list (R149), the contender set of the open window (R150), the formed
reply (R156), the DATA-IN word in flight (R157) and the words last put on the pair. -/
structure LinkRecord where
  state : LinkState
  selected : Option StationId
  arrival : Option BandWord
  window : Nat
  cursor : Option LocalIndex
  wordsSent : Nat
  transferEnd : TransferEnd
  breakCount : Nat
  order : List StationId
  contenders : List StationId
  answer : Option Answer
  inFlight : Option PartWord
  sent : List PartWord
  deriving DecidableEq, Repr

/-- The service order after every reset (R149). -/
def LinkRecord.startOrder : List StationId := [0, 1, 2, 3, 4, 5, 6, 7, 8, 9, 10, 11, 12, 13, 14, 15]

/-- The link record as the start-up clear writes it (R148). -/
def LinkRecord.startUp : LinkRecord :=
  { state := .idle, selected := none, arrival := none, window := 0, cursor := none, wordsSent := 0,
    transferEnd := .running, breakCount := 0, order := LinkRecord.startOrder, contenders := [],
    answer := none, inFlight := none, sent := [] }

/-! ### SLR, the Show Link Receiver -/

/-- The partial message, and the block ends since its last character (R76). -/
structure ShowReceiver where
  chars : List Byte
  gap : Nat
  deriving DecidableEq, Repr

/-! ### ELI, the Engineer Link Interface -/

/-- The kind a header gives to the bytes after it (R182); `ignored` is the kind 3 that is no kind. -/
inductive ByteKind where
  | command
  | writeCells
  | readCells
  | ignored
  deriving DecidableEq, Repr

/-- How the next byte of the frame is read (R182). `cut` is a frame that the reset pin cut: bytes are ignored until
select goes inactive (R187). -/
inductive FrameState where
  | noFrame
  | headerDue
  | one (kind : ByteKind)
  | run (kind : ByteKind)
  | cut
  deriving DecidableEq, Repr

/-- The command whose last byte has not arrived (R183, R187): its bytes, code first, or that it is the load whose bytes
the staging buffer collects. -/
inductive Arrival where
  | none
  | bytes (held : List Byte)
  | staged
  deriving DecidableEq, Repr

/-- One byte of a formed reply, with the marks it clears when it goes out (R185, R194). -/
structure ReplyByte where
  value : Byte
  clears : Word16
  deriving DecidableEq, Repr

inductive Page where
  | basic
  | extended
  deriving DecidableEq, Repr

inductive WalkMode where
  | across
  | down
  deriving DecidableEq, Repr

inductive FieldSelect where
  | level
  | cap
  | pan
  | mute
  | heard
  deriving DecidableEq, Repr

/-- What ELI holds (R182 to R192) and the byte last shifted out (R183). The staging buffer holds a load's bytes, code
first. -/
structure EngineerLink where
  frame : FrameState
  arrival : Arrival
  reply : List ReplyByte
  page : Page
  pointer : CellId
  walk : WalkMode
  field : FieldSelect
  latch : Byte
  glideLength : Nat
  staging : Option (List Byte)
  refused : Bool
  dataOut : Byte
  deriving DecidableEq, Repr

/-- ELI as the start-up clear writes it (R192). -/
def EngineerLink.startUp : EngineerLink :=
  { frame := .noFrame, arrival := .none, reply := [], page := .basic, pointer := ⟨0, 0⟩, walk := .across,
    field := .level, latch := 0, glideLength := 8, staging := none, refused := false, dataOut := 0 }

/-! ### SRC, MIX and OUT -/

/-- A port record (R167). -/
structure PortRecord where
  locked : Bool
  badRun : Nat
  goodRun : Nat
  deriving DecidableEq, Repr

inductive SelectionMode where
  | auto
  | force (port : Port)
  deriving DecidableEq, Repr

/-- A channel of a source port, 0-63. -/
abbrev Channel := Fin 64

/-- One valid PATCH that waits for the next block start (R173). -/
structure PatchRun where
  first : Nat
  channels : List (Option Channel)
  deriving DecidableEq, Repr

/-- What SRC holds (R167 to R173). The active port and a patch entry are `none` for NONE and UNPATCHED. `captured` is the
audio of the block just ended, by channel, empty for silence (R168). -/
structure Sources where
  portA : PortRecord
  portB : PortRecord
  mode : SelectionMode
  active : Option Port
  patch : Vector (Option Channel) 48
  pending : List PatchRun
  captured : List (List Rat)
  deriving DecidableEq, Repr

/-- SRC as the start-up clear writes it (R167, R169, R172, R180). -/
def Sources.startUp : Sources :=
  { portA := ⟨false, 0, 0⟩, portB := ⟨false, 0, 0⟩, mode := .auto, active := none,
    patch := Vector.ofFn (fun s : Fin 48 => some (s.castLE (by decide))),
    pending := [], captured := [] }

inductive OutputMode where
  | off
  | normal
  | tone
  | mirror
  deriving DecidableEq, Repr

/-- An output record (R175). -/
structure OutputRecord where
  mode : OutputMode
  target : Fin 16
  ceiling : Nat
  hits : Nat
  fadeIn : Nat
  deriving DecidableEq, Repr

/-- Sample pairs, left and right, as fractions of full scale: the sums or the output of one mix over one block. -/
abbrev StereoBlock := List (Rat × Rat)

/-- A block of 32 silent sample pairs. -/
def StereoBlock.silence : StereoBlock := List.replicate 32 (0, 0)

/-- What OUT holds (R175), the blocks last delivered on the output link (R176) and the place of the tone generator in its
cycle of 48 samples (R176). -/
structure Outputs where
  records : Vector OutputRecord 16
  hush : Bool
  delivered : Vector StereoBlock 16
  tone : Nat
  deriving DecidableEq, Repr

/-- OUT as the start-up clear writes it (R175, R180). -/
def Outputs.startUp : Outputs :=
  { records := Vector.ofFn (fun m : Fin 16 => { mode := .normal, target := m, ceiling := 200, hits := 0, fadeIn := 32 }),
    hush := false, delivered := Vector.replicate 16 StereoBlock.silence, tone := 0 }

/-! ### EVL, the Event Latch -/

/-- The sixteen marks and the sixteen enables, bit n for event n (R193). -/
structure EventLatch where
  marks : Word16
  enables : Word16
  deriving DecidableEq, Repr

/-- EVL after the start-up clear and after SOFT RESET (R193). -/
def EventLatch.startUp : EventLatch := { marks := 0, enables := 0xFFFF#16 }

/-- CUE as the start-up clear writes it (R50, R79). -/
def CueEngine.startUp : CueEngine :=
  { slots := Vector.replicate 96 none, poolUsed := 0, nextPointer := none, running := none, phase := .idle,
    timer := 0, hold := false, flags := 0 }

/-- The whole state. `resetPin` is true while the pin is active. `free` counts the free values read so far, and is the
model's own (log 20). `pending` is the queue of commands that wait, the first to be taken first. -/
structure State where
  run : RunState
  resetPin : Bool
  cells : Vector Cell 768
  glides : List GlideEntry
  cue : CueEngine
  stations : Vector Station 16
  lockout : Nat
  grips : Vector (Option Grip) 16
  inHand : Option Request
  link : LinkRecord
  slr : ShowReceiver
  eli : EngineerLink
  src : Sources
  out : Outputs
  evl : EventLatch
  free : Nat
  pending : List Instr
  deriving DecidableEq, Repr

/-- The machine right after reset: in INIT, with every block's state as the start-up clear writes it (R195), the reset pin
inactive (log 5), nothing waiting. -/
def State.reset : State :=
  { run := .init
    resetPin := false
    cells := Vector.replicate 768 Cell.startUp
    glides := []
    cue := CueEngine.startUp
    stations := Vector.replicate 16 Station.startUp
    lockout := 0
    grips := Vector.replicate 16 none
    inHand := none
    link := LinkRecord.startUp
    slr := { chars := [], gap := 0 }
    eli := EngineerLink.startUp
    src := Sources.startUp
    out := Outputs.startUp
    evl := EventLatch.startUp
    free := 0
    pending := [] }

end Sys2Proof.Machine
end

