-- ==== Sys2Proof/Machine/Ops.lean ====
section
/-! DEFINITION. The named operations over the state: one update for each field, tables by index, cells, stations, grips,
cue slots, and the event latch. The block has no addressed memory and takes no exceptions, so there are none here. -/

namespace Sys2Proof.Machine

/-! ### One update for each field of the state -/

def State.setRun (s : State) (x : RunState) : State := { s with run := x }
def State.setResetPin (s : State) (x : Bool) : State := { s with resetPin := x }
def State.setCells (s : State) (x : Vector Cell 768) : State := { s with cells := x }
def State.setGlides (s : State) (x : List GlideEntry) : State := { s with glides := x }
def State.setCue (s : State) (x : CueEngine) : State := { s with cue := x }
def State.setStations (s : State) (x : Vector Station 16) : State := { s with stations := x }
def State.setLockout (s : State) (x : Nat) : State := { s with lockout := x }
def State.setGrips (s : State) (x : Vector (Option Grip) 16) : State := { s with grips := x }
def State.setInHand (s : State) (x : Option Request) : State := { s with inHand := x }
def State.setLink (s : State) (x : LinkRecord) : State := { s with link := x }
def State.setSlr (s : State) (x : ShowReceiver) : State := { s with slr := x }
def State.setEli (s : State) (x : EngineerLink) : State := { s with eli := x }
def State.setSrc (s : State) (x : Sources) : State := { s with src := x }
def State.setOut (s : State) (x : Outputs) : State := { s with out := x }
def State.setEvl (s : State) (x : EventLatch) : State := { s with evl := x }
def State.setFree (s : State) (x : Nat) : State := { s with free := x }
def State.setPending (s : State) (x : List Instr) : State := { s with pending := x }

/-! ### Tables -/

/-- The entry of a table at an index. -/
def tableGet {α : Type} {n : Nat} (t : Vector α n) (i : Fin n) : α := t[i.val]'i.isLt

/-- A table with the entry at one index replaced. -/
def tableSet {α : Type} {n : Nat} (t : Vector α n) (i : Fin n) (x : α) : Vector α n := t.set i.val x i.isLt

/-! ### Cells -/

/-- Where a cell stands in the table of 768. -/
def cellIndex (c : CellId) : Fin 768 := ⟨c.mix.val * 48 + c.source.val, by omega⟩

def State.cell (s : State) (c : CellId) : Cell := tableGet s.cells (cellIndex c)

def State.setCell (s : State) (c : CellId) (x : Cell) : State := s.setCells (tableSet s.cells (cellIndex c) x)

/-- A cell's goal: 0 while it is muted, otherwise its set level (R3). -/
def goalOf (x : Cell) : Nat := if x.muted then 0 else x.level

/-- The cell with its heard level replaced (written by GLU alone, R1). -/
def State.setHeard (s : State) (c : CellId) (h : Nat) : State := s.setCell c { s.cell c with heard := h }

/-! ### Stations, grips, cue slots, output records -/

def State.station (s : State) (n : StationId) : Station := tableGet s.stations n

def State.setStation (s : State) (n : StationId) (x : Station) : State := s.setStations (tableSet s.stations n x)

/-- The grip in a station's place, none where the place is empty (R100). -/
def State.grip (s : State) (n : StationId) : Option Grip := tableGet s.grips n

def State.setGrip (s : State) (n : StationId) (x : Option Grip) : State := s.setGrips (tableSet s.grips n x)

def State.slot (s : State) (n : CueId) : Option CueRecord := tableGet s.cue.slots n

def State.outputRecord (s : State) (m : Fin 16) : OutputRecord := tableGet s.out.records m

def State.setOutputRecord (s : State) (m : Fin 16) (x : OutputRecord) : State :=
  s.setOut { s.out with records := tableSet s.out.records m x }

/-- What comes about in RUN alone: during INIT nothing changes but by the start-up clear (R195). -/
def inRun (f : State → State) (s : State) : State := if s.run = .run then f s else s

/-! ### Events -/

/-- The sixteen events (spec/10, The event latch). -/
inductive Event where
  | startupDone
  | stationAttached
  | stationLost
  | bandReset
  | bandCheck
  | showCheck
  | sourceSwitch
  | sourceLost
  | sourceRestored
  | cueFired
  | cueSkipped
  | cueRefused
  | cueDone
  | glideFull
  | ceiling
  | lockoutHit
  deriving DecidableEq, Repr

/-- The mark of an event: the bit at its number (spec/10, The event latch). -/
def eventMark : Event → Word16
  | .startupDone => 0x0001
  | .stationAttached => 0x0002
  | .stationLost => 0x0004
  | .bandReset => 0x0008
  | .bandCheck => 0x0010
  | .showCheck => 0x0020
  | .sourceSwitch => 0x0040
  | .sourceLost => 0x0080
  | .sourceRestored => 0x0100
  | .cueFired => 0x0200
  | .cueSkipped => 0x0400
  | .cueRefused => 0x0800
  | .cueDone => 0x1000
  | .glideFull => 0x2000
  | .ceiling => 0x4000
  | .lockoutHit => 0x8000

/-- A block reports an event: its mark is set (R193); a report made during INIT is discarded (R195). -/
def State.report (s : State) (e : Event) : State :=
  if s.run = .run then s.setEvl { s.evl with marks := s.evl.marks ||| eventMark e } else s

/-- Whether an event's mark is set. -/
def State.latched (s : State) (e : Event) : Bool := decide (s.evl.marks &&& eventMark e ≠ 0)

/-- The attention line: active while a set mark has its enable on (R193). -/
def State.attention (s : State) : Bool := decide (s.evl.marks &&& s.evl.enables ≠ 0)

end Sys2Proof.Machine
end

