-- ==== Sys2Proof/Machine/Flags.lean ====
section
/-! DEFINITION. Every flag the spec computes: the result flags of a change, the reply flags of a request, and the bytes
they and the STATUS reply travel in. -/

namespace Sys2Proof.Machine

/-- Bit `k` of a byte, set or clear. -/
def flagBit (b : Bool) (k : Nat) : Byte := if b then (1#8) <<< k else 0

/-- Z, N, M and G of a cell as it stands (R18, R125); V, C, S and D clear. -/
def cellFlags (x : Cell) (gliding : Bool) : Flags :=
  { Flags.clear with
    z := decide (x.level = 0)
    n := decide (x.level < 200)
    m := x.muted
    g := gliding }

/-- The result flags of a change: those of the cell once step 5 is done, with the clamp's V and C (R18). -/
def resultFlags (x : Cell) (gliding heldAtCap heldAtZero : Bool) : Flags :=
  { cellFlags x gliding with v := heldAtCap, c := heldAtZero }

/-- The flags byte of REPLY-1 (R166). -/
def flagsByte (f : Flags) : Byte :=
  flagBit f.z 0 ||| flagBit f.n 1 ||| flagBit f.v 2 ||| flagBit f.c 3 |||
  flagBit f.m 4 ||| flagBit f.g 5 ||| flagBit f.s 6 ||| flagBit f.d 7

/-- The status byte of REPLY-1 (R166). -/
def statusCode : Status → Byte
  | .ok => 0x00
  | .unmapped => 0x01
  | .noGrip => 0x02
  | .stale => 0x03
  | .denied => 0x04
  | .locked => 0x05
  | .badValue => 0x06
  | .notAttached => 0x07
  | .check => 0x08
  | .phase => 0x09
  | .done => 0x0A
  | .stopped => 0x0B
  | .mapChanged => 0x0C

/-- The byte of a STATUS reply (R191). -/
def statusReplyByte (s : State) : Byte :=
  flagBit (decide (s.run = .run)) 0 ||| flagBit s.attention 1 ||| flagBit s.out.hush 2 ||| flagBit s.cue.hold 3 |||
  flagBit (decide (s.eli.page = .extended)) 4 ||| flagBit (decide (s.cue.phase ≠ .idle)) 5 ||| flagBit s.eli.refused 6

/-- Whether a guard passes on the show flags (R53); a cue without a guard passes. -/
def guardPasses (g : Option Guard) (flags : Word16) : Bool :=
  match g with
  | none => true
  | some g =>
    match g.sense with
    | .allSet => decide (flags &&& g.mask = g.mask)
    | .allClear => decide (flags &&& g.mask = 0)
    | .anySet => decide (flags &&& g.mask ≠ 0)
    | .anyClear => decide (flags &&& g.mask ≠ g.mask)

end Sys2Proof.Machine
end

