-- ==== Sys2Proof/Machine/Operands.lean ====
section
/-! DEFINITION. Every operand form: bytes as numbers, the console's command codes and what each carries, the staged loads and
PATCH read from their bytes, the Band Link words built and read (spec/09 Codes and encodings; spec/07 Word layouts). -/

namespace Sys2Proof.Machine

/-! ### Bytes -/

def byteOfNat (n : Nat) : Byte := BitVec.ofNat 8 n

/-- A number as a signed byte, two's complement. -/
def byteOfInt (p : Int) : Byte := BitVec.ofInt 8 p

/-- Two bytes, more significant first (spec/09). -/
def twoBytes (n : Nat) : List Byte := [byteOfNat (n / 256), byteOfNat n]

/-- A 16-bit value from two bytes, more significant first; a flag or event mask reads the same way (spec/09, spec/10). -/
def word16 (hi lo : Byte) : Word16 := hi ++ lo

def hiByte (w : Word16) : Byte := w.extractLsb' 8 8

def loByte (w : Word16) : Byte := w.extractLsb' 0 8

/-- A byte as a member of a range of n numbers, none when it is above the range. -/
def inRange (n : Nat) (b : Byte) : Option (Fin n) := if h : b.toNat < n then some ⟨b.toNat, h⟩ else none

/-- A byte that means yes or no: 1 or 0, none for any other value. -/
def yesNo (b : Byte) : Option Bool := if b = 0 then some false else if b = 1 then some true else none

/-- A level code in a byte, none above 220 (spec/00, Level code). -/
def levelOf (b : Byte) : Option Nat := if b.toNat ≤ 220 then some b.toNat else none

/-- A pan code in a signed byte, none outside -32..+32 (spec/00, Pan code). -/
def panOf (b : Byte) : Option Int := if -32 ≤ b.toInt ∧ b.toInt ≤ 32 then some b.toInt else none

/-- A nudge in a signed byte, none outside -40..+40 (R7). -/
def nudgeOf (b : Byte) : Option Int := if -40 ≤ b.toInt ∧ b.toInt ≤ 40 then some b.toInt else none

/-- A right in a byte (spec/09, Operand values). -/
def rightOf (b : Byte) : Option Right :=
  if b = 0 then some .view else if b = 1 then some .adjust else if b = 2 then some .full else none

def rightCode : Right → Nat
  | .view => 0
  | .adjust => 1
  | .full => 2

/-- An output mode in a byte (spec/09, Operand values). -/
def outputModeOf (b : Byte) : Option OutputMode :=
  if b = 0 then some .off else if b = 1 then some .normal else if b = 2 then some .tone
  else if b = 3 then some .mirror else none

/-- A selection mode in a byte (spec/09, SOURCE MODE). -/
def selectionModeOf (b : Byte) : Option SelectionMode :=
  if b = 0 then some .auto else if b = 1 then some (.force .a) else if b = 2 then some (.force .b) else none

/-- A walk mode in a byte (R188). -/
def walkModeOf (b : Byte) : Option WalkMode := if b = 0 then some .across else if b = 1 then some .down else none

/-- A field select in a byte (R188). -/
def fieldOf (b : Byte) : Option FieldSelect :=
  if b = 0 then some .level else if b = 1 then some .cap else if b = 2 then some .pan
  else if b = 3 then some .mute else if b = 4 then some .heard else none

/-- A page in a byte (R184). -/
def pageOf (b : Byte) : Option Page := if b = 0 then some .basic else if b = 1 then some .extended else none

/-- A guard's sense in a byte (spec/09, CUE LOAD). -/
def senseOf (b : Byte) : Option Sense :=
  if b = 0 then some .allSet else if b = 1 then some .allClear else if b = 2 then some .anySet
  else if b = 3 then some .anyClear else none

def senseCode : Sense → Byte
  | .allSet => 0
  | .allClear => 1
  | .anySet => 2
  | .anyClear => 3

/-! ### The console's command codes (spec/09, the command table) -/

inductive ConsoleCode where
  | nop | position | walk | field | page | status | events | enables | hush | softReset
  | lockout | stationProfile | stationRead | mapLoad | mapRead | cueLoad | cueDelete | cueRead | cuePointer
  | go | goto | stop | hold | flagsSet | flagsClear | linkReset | sourceMode | patch | outputMode | ceiling
  | hitsRead | glideLength | mixCopy | mixClear
  deriving DecidableEq, Repr

def codeByte : ConsoleCode → Byte
  | .nop => 0x00
  | .position => 0x01
  | .walk => 0x02
  | .field => 0x03
  | .page => 0x04
  | .status => 0x05
  | .events => 0x06
  | .enables => 0x07
  | .hush => 0x08
  | .softReset => 0x09
  | .lockout => 0x20
  | .stationProfile => 0x21
  | .stationRead => 0x22
  | .mapLoad => 0x23
  | .mapRead => 0x24
  | .cueLoad => 0x25
  | .cueDelete => 0x26
  | .cueRead => 0x27
  | .cuePointer => 0x28
  | .go => 0x29
  | .goto => 0x2A
  | .stop => 0x2B
  | .hold => 0x2C
  | .flagsSet => 0x2D
  | .flagsClear => 0x2E
  | .linkReset => 0x2F
  | .sourceMode => 0x30
  | .patch => 0x31
  | .outputMode => 0x32
  | .ceiling => 0x33
  | .hitsRead => 0x34
  | .glideLength => 0x35
  | .mixCopy => 0x36
  | .mixClear => 0x37

def allCodes : List ConsoleCode :=
  [.nop, .position, .walk, .field, .page, .status, .events, .enables, .hush, .softReset,
   .lockout, .stationProfile, .stationRead, .mapLoad, .mapRead, .cueLoad, .cueDelete, .cueRead, .cuePointer,
   .go, .goto, .stop, .hold, .flagsSet, .flagsClear, .linkReset, .sourceMode, .patch, .outputMode, .ceiling,
   .hitsRead, .glideLength, .mixCopy, .mixClear]

/-- The code a byte is, none for a byte of neither page (R184). -/
def codeOf (b : Byte) : Option ConsoleCode := allCodes.find? (fun c => decide (codeByte c = b))

/-- The page a code belongs to; PAGE belongs to both (R184). -/
def codeOnPage (c : ConsoleCode) (p : Page) : Bool :=
  match c with
  | .page => true
  | .nop | .position | .walk | .field | .status | .events | .enables | .hush | .softReset => decide (p = .basic)
  | _ => decide (p = .extended)

/-- How the number of operand bytes of a code is fixed (R184). -/
inductive OperandShape where
  | fixed (n : Nat)
  | mapLoad
  | cueLoad
  | patch
  deriving DecidableEq, Repr

def codeShape : ConsoleCode → OperandShape
  | .nop | .status | .events | .softReset | .go | .stop | .linkReset | .hitsRead => .fixed 0
  | .walk | .field | .page | .hush | .lockout | .stationRead | .mapRead | .cueDelete | .cueRead | .cuePointer
  | .goto | .hold | .sourceMode | .glideLength | .mixClear => .fixed 1
  | .position | .enables | .flagsSet | .flagsClear | .ceiling | .mixCopy => .fixed 2
  | .stationProfile | .outputMode => .fixed 3
  | .mapLoad => .mapLoad
  | .cueLoad => .cueLoad
  | .patch => .patch

/-- Whether a code is one of the two staged loads (R190). -/
def isLoad (c : ConsoleCode) : Bool := decide (c = .mapLoad ∨ c = .cueLoad)

/-! ### CUE LOAD (spec/09, CUE LOAD; R70, R71) -/

/-- An optional item: its presence byte and its bytes. Any presence byte but 0 is counted as present (R71). -/
structure RawItem where
  presence : Byte
  bytes : List Byte
  deriving DecidableEq, Repr

/-- A CUE LOAD cut into its items, not yet judged. -/
structure RawCueLoad where
  slot : Byte
  guard : RawItem
  alternate : RawItem
  followOn : RawItem
  fadeHi : Byte
  fadeLo : Byte
  setMask : RawItem
  clearMask : RawItem
  edits : List Byte
  deriving DecidableEq, Repr

/-- An optional item of `n` bytes off the front, none when bytes are still to come. -/
def takeItem (n : Nat) : List Byte → Option (RawItem × List Byte)
  | [] => none
  | p :: rest =>
    if p = 0 then some ({ presence := p, bytes := [] }, rest)
    else if rest.length < n then none
    else some ({ presence := p, bytes := rest.take n }, rest.drop n)

/-- A CUE LOAD off the front of the bytes after its code, none when bytes are still to come (R184: read as sent). -/
def parseCueLoad (bs : List Byte) : Option (RawCueLoad × List Byte) := do
  let slot ← bs.head?
  let (guard, bs) ← takeItem 3 bs.tail
  let (alternate, bs) ← takeItem 1 bs
  let (followOn, bs) ← takeItem 3 bs
  let fadeHi ← bs.head?
  let fadeLo ← bs.tail.head?
  let (setMask, bs) ← takeItem 2 (bs.drop 2)
  let (clearMask, bs) ← takeItem 2 bs
  let count ← bs.head?
  let bs := bs.tail
  if bs.length < 4 * count.toNat then none
  else
    some ({ slot := slot, guard := guard, alternate := alternate, followOn := followOn, fadeHi := fadeHi, fadeLo := fadeLo,
            setMask := setMask, clearMask := clearMask, edits := bs.take (4 * count.toNat) },
          bs.drop (4 * count.toNat))

/-- An item as it is judged: absent for presence 0, read for presence 1; the load is refused for any other presence byte
and for bytes that do not read. -/
def readItem {α : Type} (read : List Byte → Option α) (i : RawItem) : Option (Option α) :=
  if i.presence = 0 then some none
  else if i.presence = 1 then (read i.bytes).map some
  else none

def readGuard : List Byte → Option Guard
  | [hi, lo, sense] => (senseOf sense).map (fun q => { mask := word16 hi lo, sense := q })
  | _ => none

def readCue : List Byte → Option CueId
  | [c] => inRange 96 c
  | _ => none

def readFollowOn : List Byte → Option FollowOn
  | [c, hi, lo] => (inRange 96 c).map (fun k => { cue := k, wait := (word16 hi lo).toNat })
  | _ => none

def readMask : List Byte → Option Word16
  | [hi, lo] => some (word16 hi lo)
  | _ => none

/-- The target byte of an edit: a mix, or 255 for ALL. -/
def targetOf (b : Byte) : Option EditTarget :=
  if b = 255 then some .all else (inRange 16 b).map EditTarget.mix

/-- The action and value bytes of an edit; the value is not examined for MUTE and UNMUTE. -/
def actionOf (a v : Byte) : Option EditAction :=
  if a = 0 then (levelOf v).map EditAction.level
  else if a = 1 then (nudgeOf v).map EditAction.nudge
  else if a = 2 then some .mute
  else if a = 3 then some .unmute
  else if a = 4 then (panOf v).map EditAction.pan
  else none

def readEdit (target source action value : Byte) : Option CueEdit := do
  let t ← targetOf target
  let src ← inRange 48 source
  let a ← actionOf action value
  some { target := t, source := src, action := a }

/-- The edits, four bytes each; none if one of them is refused. -/
def readEdits : List Byte → Option (List CueEdit)
  | [] => some []
  | t :: src :: a :: v :: rest => do
    let e ← readEdit t src a v
    let es ← readEdits rest
    some (e :: es)
  | _ => none

/-- A cue load as R71 judges it, but for the pool: none when it is refused. -/
def readCueLoad (r : RawCueLoad) : Option (CueId × CueRecord) := do
  let slot ← inRange 96 r.slot
  let guard ← readItem readGuard r.guard
  let alternate ← readItem readCue r.alternate
  let followOn ← readItem readFollowOn r.followOn
  let fade := (word16 r.fadeHi r.fadeLo).toNat
  let setMask ← readItem readMask r.setMask
  let clearMask ← readItem readMask r.clearMask
  let edits ← readEdits r.edits
  if 4095 < fade ∨ edits.length < 1 ∨ 24 < edits.length then none
  else
    some (slot, { guard := guard, alternate := alternate, followOn := followOn, fade := fade,
                  setMask := setMask, clearMask := clearMask, edits := edits })

/-! ### MAP LOAD (R91) and PATCH (R173) -/

/-- One entry of a MAP LOAD: index, mix, source, right. -/
def readMapEntry (index mix source right : Byte) : Option (LocalIndex × MapEntry) := do
  let i ← inRange 24 index
  let m ← inRange 16 mix
  let src ← inRange 48 source
  let r ← rightOf right
  some (i, { cell := ⟨m, src⟩, right := r })

/-- The entries, four bytes each; none if one of them is refused. -/
def readMapEntries : List Byte → Option (List (LocalIndex × MapEntry))
  | [] => some []
  | i :: m :: src :: r :: rest => do
    let e ← readMapEntry i m src r
    let es ← readMapEntries rest
    some (e :: es)
  | _ => none

/-- A map that holds exactly the entries given (R92). -/
def mapOfEntries (es : List (LocalIndex × MapEntry)) : StationMap :=
  es.foldl (fun m e => tableSet m e.1 (some e.2)) (Vector.replicate 24 none)

/-- A MAP LOAD as R91 judges it, from the bytes after its code: none when it is refused. -/
def readMapLoad : List Byte → Option (StationId × StationMap)
  | station :: count :: body => do
    let n ← inRange 16 station
    let es ← readMapEntries body
    if 24 < count.toNat ∨ es.length ≠ count.toNat then none
    else if (es.map (·.1)).Nodup ∧ (es.map (·.2.cell)).Nodup then some (n, mapOfEntries es)
    else none
  | _ => none

/-- A channel byte of PATCH: 0-63, or 255 for UNPATCHED (R173). -/
def readChannel (b : Byte) : Option (Option Channel) :=
  if b = 255 then some none else (inRange 64 b).map some

/-- A PATCH as R173 judges it, from the bytes after its code: none when it is refused. -/
def readPatch : List Byte → Option PatchRun
  | first :: count :: body => do
    let channels ← body.mapM readChannel
    if 47 < first.toNat ∨ count = 0 ∨ 48 < first.toNat + count.toNat ∨ channels.length ≠ count.toNat then none
    else some { first := first.toNat, channels := channels }
  | _ => none

/-- Whether the operand bytes received complete a command of a shape (R184). -/
def operandsComplete (shape : OperandShape) (ops : List Byte) : Bool :=
  match shape, ops with
  | .fixed n, ops => decide (n ≤ ops.length)
  | .mapLoad, _ :: count :: body => decide (4 * count.toNat ≤ body.length)
  | .patch, _ :: count :: body => decide (count.toNat ≤ body.length)
  | .cueLoad, ops => (parseCueLoad ops).isSome
  | _, _ => false

/-! ### Band Link words (R164, R165, R166) -/

/-- The phase tags that a station's word can carry to some effect; every other tag is `other` (R164). -/
inductive WordTag where
  | attn
  | request1
  | request2
  | stop
  | echo
  | other
  deriving DecidableEq, Repr

/-- A byte of a word by its place: header 0, content 1 to 3 (R164). It is read of words with a good check alone, which are
whole; a byte that never came would read as 0. -/
def wordByte (w : BandWord) (place : Nat) : Byte := w.bytes.getD place 0

/-- The tag in the high four bits of the header. -/
def wordTag (w : BandWord) : WordTag :=
  match ((wordByte w 0).extractLsb' 4 4).toNat with
  | 2 => .attn
  | 4 => .request1
  | 5 => .request2
  | 9 => .stop
  | 11 => .echo
  | _ => .other

/-- The station ID in the low four bits of the header. -/
def wordStation (w : BandWord) : StationId := Fin.ofNat 16 ((wordByte w 0).extractLsb' 0 4).toNat

/-- The check byte of the bytes before it (R164). -/
def checkOf (bs : List Byte) : Byte := bs.foldl (· ^^^ ·) 0xA5

/-- Whether a station's word has a good check (R164): five bytes, the last of them the check of the four before it. A word
broken off before its fifth byte is damaged. -/
def checkGood (w : BandWord) : Bool :=
  match w.bytes with
  | [h, c1, c2, c3, k] => decide (k = checkOf [h, c1, c2, c3])
  | _ => false

/-- A header byte (R164). -/
def wordHeader (tag : Nat) (n : StationId) : Byte := byteOfNat (tag * 16 + n.val)

/-- A station's word with a good check, sent while the part listens. -/
def stationWord (tag : Nat) (n : StationId) (c1 c2 c3 : Byte) : BandWord :=
  { bytes := [wordHeader tag n, c1, c2, c3, checkOf [wordHeader tag n, c1, c2, c3]], driven := false }

/-- REQUEST-1: kind code and operand, more significant byte first (R164, R165). -/
def request1Word (n : StationId) (kind : Byte) (operand : Word16) : BandWord :=
  stationWord 4 n kind (hiByte operand) (loByte operand)

/-- REQUEST-2: the mute mask, indices 16 to 23 in byte 1, 8 to 15 in byte 2, 0 to 7 in byte 3 (R165). -/
def request2Word (n : StationId) (mask : Word24) : BandWord :=
  stationWord 5 n (mask.extractLsb' 16 8) (mask.extractLsb' 8 8) (mask.extractLsb' 0 8)

/-- A station's word whose content is not examined (R164). -/
def plainWord (tag : Nat) (n : StationId) (content : Word24) : BandWord :=
  stationWord tag n (content.extractLsb' 16 8) (content.extractLsb' 8 8) (content.extractLsb' 0 8)

/-- The operand of a REQUEST-1 (R165). -/
def wordOperand (w : BandWord) : Word16 := word16 (wordByte w 2) (wordByte w 3)

/-- The mask of a REQUEST-2 (R165). -/
def wordMask (w : BandWord) : Word24 := wordByte w 1 ++ wordByte w 2 ++ wordByte w 3

/-- The kind code of REQUEST-1 (R165). -/
def requestKind (b : Byte) : RequestKind :=
  match b.toNat with
  | 0x01 => .hello
  | 0x02 => .ping
  | 0x03 => .openGrip
  | 0x04 => .nextGrip
  | 0x05 => .setLevel
  | 0x06 => .nudge
  | 0x07 => .pan
  | 0x08 => .muteSet
  | 0x09 => .muteClear
  | 0x0A => .closeGrip
  | 0x0B => .recallMap
  | _ => .unnamed

/-- Whether a kind needs a second word (R153). -/
def needsMask (k : RequestKind) : Bool := decide (k = .muteSet ∨ k = .muteClear)

/-- The kind code of a two-word request (R165). -/
def maskKindCode : MaskKind → Byte
  | .muteSet => 0x08
  | .muteClear => 0x09

/-- A word of the part: header, six content bytes, check (R164). -/
def partWord (tag : Nat) (n : StationId) (content : List Byte) : PartWord :=
  let body := wordHeader tag n :: content
  body ++ [checkOf body]

def zeroContent : List Byte := [0, 0, 0, 0, 0, 0]

def windowWord : PartWord := partWord 1 0 zeroContent

def selectWord (n : StationId) : PartWord := partWord 3 n zeroContent

def pollWord (n : StationId) : PartWord := partWord 10 n zeroContent

/-- The last writer's kind, in two bits (R166). -/
def writerKind : Option Origin → Nat
  | none => 0
  | some .engineer => 1
  | some (.station _) => 2
  | some (.cue _) => 3

/-- The last writer's number (R166). -/
def writerNumber : Option Origin → Nat
  | none => 0
  | some .engineer => 0
  | some (.station n) => n.val
  | some (.cue n) => n.val

/-- The six bytes of an entry report (R166). -/
def reportBytes (r : EntryReport) : List Byte :=
  [byteOfNat r.index.val, byteOfNat r.level, byteOfNat r.cap, byteOfInt r.pan,
   flagBit r.muted 0 ||| flagBit r.gliding 1 ||| byteOfNat (writerKind r.writer * 4) ||| byteOfNat (rightCode r.right * 16),
   byteOfNat (writerNumber r.writer)]

/-- REPLY-1 (R164, R166). -/
def reply1Word (n : StationId) (r : Reply) : PartWord :=
  partWord 6 n [statusCode r.status, flagsByte r.flags, byteOfNat r.count, 0, 0, 0]

/-- REPLY-2: the entry report, or zero (R164, R166). -/
def reply2Word (n : StationId) (r : Reply) : PartWord :=
  partWord 7 n (match r.report with
    | none => zeroContent
    | some e => reportBytes e)

/-- DATA-IN (R164). -/
def dataInWord (n : StationId) (e : EntryReport) : PartWord := partWord 8 n (reportBytes e)

end Sys2Proof.Machine
end

