-- ==== Sys2Proof/Machine/Glides.lean ====
section
/-! DEFINITION. The Glide Unit (spec/02): hand-offs, tag notices, the block-end advance, the tag strip and the emptying. -/

namespace Sys2Proof.Machine

/-- The glide list holds at most this many entries (R29, R30). -/
def glideRoom : Nat := 64

/-- The cell's entry in the glide list, if it has one. -/
def State.glideOf (s : State) (c : CellId) : Option GlideEntry := s.glides.find? (fun e => decide (e.cell = c))

/-- Whether GLU holds an entry for the cell: flag G (R18, R35). -/
def State.gliding (s : State) (c : CellId) : Bool := (s.glideOf c).isSome

/-! ### Tag notices -/

/-- TAG GAINED c: the running cue's outstanding count rises by 1 (R36, R51). -/
def tagGained (c : CueId) (s : State) : State :=
  match s.cue.running with
  | none => s
  | some r =>
    if r.cue = c then s.setCue { s.cue with running := some { r with outstanding := r.outstanding + 1 } } else s

/-- TAG LOST c: the running cue's outstanding count falls by 1 (R36, R51). -/
def tagLost (c : CueId) (s : State) : State :=
  match s.cue.running with
  | none => s
  | some r =>
    if r.cue = c then s.setCue { s.cue with running := some { r with outstanding := r.outstanding - 1 } } else s

/-- The notices for an entry whose tag was one value and is another, absent where there is no entry: lost, then gained
(the table of R36). -/
def tagNotices (before after : Option CueId) (s : State) : State :=
  if before = after then s
  else
    let s := match before with
      | none => s
      | some c => tagLost c s
    match after with
    | none => s
    | some c => tagGained c s

/-! ### Taking a hand-off -/

/-- A hand-off of length 0: the heard level becomes the goal and any entry is removed (R32). -/
def glideJump (c : CellId) (goal : Nat) (s : State) : State :=
  let tag := (s.glideOf c).bind (·.tag)
  let s := tagNotices tag none s
  let s := s.setGlides (s.glides.filter (fun e => decide (e.cell ≠ c)))
  s.setHeard c goal

/-- A hand-off for a cell that has an entry: the entry is retargeted in place (R33). -/
def glideRetarget (e : GlideEntry) (goal length : Nat) (tag : Option CueId) (s : State) : State :=
  let s := tagNotices e.tag tag s
  s.setGlides (s.glides.map (fun x =>
    if x.cell = e.cell then { x with goal := goal, remaining := length, tag := tag } else x))

/-- A hand-off for a cell without an entry, with room: an entry is appended at the tail (R34). -/
def glideAppend (c : CellId) (goal length : Nat) (tag : Option CueId) (s : State) : State :=
  let s := tagNotices none tag s
  s.setGlides (s.glides ++ [{ cell := c, goal := goal, remaining := length, tag := tag }])

/-- A hand-off for a cell without an entry, with none to spare: the cell jumps and GLIDE_FULL is latched (R34). -/
def glideOverflow (c : CellId) (goal : Nat) (s : State) : State :=
  (s.setHeard c goal).report .glideFull

/-- GLU takes a hand-off: the four cases, decided in the order of spec/02, Taking a hand-off. -/
def handOff (c : CellId) (goal length : Nat) (tag : Option CueId) (s : State) : State :=
  if length = 0 then glideJump c goal s
  else
    match s.glideOf c with
    | some e => glideRetarget e goal length tag s
    | none => if s.glides.length < glideRoom then glideAppend c goal length tag s else glideOverflow c goal s

/-! ### Strip, advance, empty -/

/-- Every tag is removed from the list, with no notice (R37). -/
def stripTags (s : State) : State := s.setGlides (s.glides.map (fun e => { e with tag := none }))

/-- One step of a heard level toward a goal, the fraction dropped toward zero (R38). -/
def glideStep (heard goal remaining : Nat) : Nat :=
  ((heard : Int) + Int.tdiv ((goal : Int) - (heard : Int)) (remaining : Int)).toNat

/-- An entry's last step: the heard level becomes the goal, and TAG LOST is sent if the entry is tagged (R38). The caller
takes the entry off the list. -/
def glideFinish (e : GlideEntry) (s : State) : State := tagNotices e.tag none (s.setHeard e.cell e.goal)

/-- Each entry advanced once, oldest first: the entries that stay, and the state with heard levels and notices (R38). -/
def advanceEntries : List GlideEntry → State → List GlideEntry × State
  | [], s => ([], s)
  | e :: rest, s =>
    if e.remaining ≤ 1 then advanceEntries rest (glideFinish e s)
    else
      let moved := s.setHeard e.cell (glideStep (s.cell e.cell).heard e.goal e.remaining)
      let r := advanceEntries rest moved
      ({ e with remaining := e.remaining - 1 } :: r.1, r.2)

/-- GLU's block-end advance (R38). -/
def glideAdvance (s : State) : State :=
  let r := advanceEntries s.glides s
  r.2.setGlides r.1

/-- The completion of one cell's entry, the part of the advance that the table lists as GLIDE_ENTRY_COMPLETE: it comes
about only for an entry whose remaining count is 1 (R38). -/
def glideComplete (c : CellId) (s : State) : State :=
  match s.glideOf c with
  | none => s
  | some e =>
    if e.remaining = 1 then
      let s := glideFinish e s
      s.setGlides (s.glides.filter (fun x => decide (x.cell ≠ c)))
    else s

/-- SOFT RESET at GLU and MXS: every heard level becomes its cell's goal and the list is emptied, with no notice and no
event (R28, R44). -/
def glideEmpty (s : State) : State :=
  (s.setCells (s.cells.map (fun x => { x with heard := goalOf x }))).setGlides []

end Sys2Proof.Machine
end

