-- ==== Sys2Proof/Machine/Matrix.lean ====
section
/-! DEFINITION. The Matrix Store (spec/01): the change path, and the compound operations MIX COPY and MIX CLEAR. -/

namespace Sys2Proof.Machine

/-- The kinds of change (R7). -/
inductive ChangeKind where
  | level (v : Nat)
  | nudge (d : Int)
  | mute
  | unmute
  | pan (p : Int)
  | cap (v : Nat)
  deriving DecidableEq, Repr

/-- A change as it is presented to MXS (R7). -/
structure Change where
  cell : CellId
  kind : ChangeKind
  origin : Origin
  length : Nat
  tag : Option CueId
  deriving DecidableEq, Repr

/-- What step 1 forms: the cell with its new field values, and whether the value was held at the cap (V) or at 0 (C). -/
structure Clamped where
  cell : Cell
  heldAtCap : Bool
  heldAtZero : Bool
  deriving DecidableEq, Repr

/-- Step 1, the clamp (R10 to R13). -/
def clampChange (k : ChangeKind) (x : Cell) : Clamped :=
  match k with
  | .level v => { cell := { x with level := min v x.cap }, heldAtCap := decide (x.cap < v), heldAtZero := false }
  | .nudge d =>
    let sum := (x.level : Int) + d
    if (x.cap : Int) < sum then { cell := { x with level := x.cap }, heldAtCap := true, heldAtZero := false }
    else if sum < 0 then { cell := { x with level := 0 }, heldAtCap := false, heldAtZero := true }
    else { cell := { x with level := sum.toNat }, heldAtCap := false, heldAtZero := false }
  | .mute => { cell := { x with muted := true }, heldAtCap := false, heldAtZero := false }
  | .unmute => { cell := { x with muted := false }, heldAtCap := false, heldAtZero := false }
  | .pan p => { cell := { x with pan := p }, heldAtCap := false, heldAtZero := false }
  | .cap v => { cell := { x with cap := v, level := min x.level v }, heldAtCap := false, heldAtZero := false }

/-- Step 2, the no-op test: set level, muted, pan and cap as they were (R14). -/
def isNoOp (before after : Cell) : Bool :=
  decide (after.level = before.level ∧ after.muted = before.muted ∧ after.pan = before.pan ∧ after.cap = before.cap)

/-- Whether a grip is the originating grip of a change of this origin on its own cell (R16, R107). -/
def isOriginating (o : Origin) (g : Grip) : Bool := decide (o = .station g.station)

/-- Step 4, the stale marks: every grip that names the cell, except the originating grip (R16, R106). -/
def markStale (c : CellId) (o : Origin) (s : State) : State :=
  s.setGrips (s.grips.map (fun p => p.map (fun g =>
    if g.cell = c ∧ isOriginating o g = false then { g with state := .stale } else g)))

/-- Steps 3 to 5 for a change that is not a no-op: record, stale marks, goal hand-off (R15, R16, R17). -/
def applyChange (ch : Change) (before after : Cell) (s : State) : State :=
  let s := s.setCell ch.cell { after with writer := some ch.origin }
  let s := markStale ch.cell ch.origin s
  if goalOf before ≠ goalOf after ∨ s.gliding ch.cell = true then handOff ch.cell (goalOf after) ch.length ch.tag s
  else s

/-- The change path, steps 1 to 5 (R9): what the matrix, the grips, the glide list and the outstanding count become. -/
def takeChange (ch : Change) (s : State) : State :=
  let before := s.cell ch.cell
  let r := clampChange ch.kind before
  if isNoOp before r.cell then s else applyChange ch before r.cell s

/-- The result flags of a change taken in state `s` (R18): formed once step 5 is done. -/
def changeFlags (ch : Change) (s : State) : Flags :=
  let r := clampChange ch.kind (s.cell ch.cell)
  let t := takeChange ch s
  resultFlags (t.cell ch.cell) (t.gliding ch.cell) r.heldAtCap r.heldAtZero

/-- A compound operation: its changes in their order, nothing between them (R9). -/
def takeChanges (chs : List Change) (s : State) : State := chs.foldl (fun s ch => takeChange ch s) s

/-- A change of origin ENGINEER: the engineer glide length in force, no tag (R7, R40). -/
def engineerChange (s : State) (c : CellId) (k : ChangeKind) : Change :=
  { cell := c, kind := k, origin := .engineer, length := s.eli.glideLength, tag := none }

/-- A change of origin STATION n: glide length 8, no tag (R7, R40). -/
def stationChange (n : StationId) (c : CellId) (k : ChangeKind) : Change :=
  { cell := c, kind := k, origin := .station n, length := 8, tag := none }

/-- The 144 changes of MIX COPY a→b, read from `a` as it stands when the operation is taken (R25). -/
def mixCopyChanges (a b : Fin 16) (s : State) : List Change :=
  (List.finRange 48).flatMap (fun src =>
    let x := s.cell ⟨a, src⟩
    [engineerChange s ⟨b, src⟩ (.pan x.pan),
     engineerChange s ⟨b, src⟩ (.level x.level),
     engineerChange s ⟨b, src⟩ (if x.muted then .mute else .unmute)])

def mixCopy (a b : Fin 16) (s : State) : State := takeChanges (mixCopyChanges a b s) s

/-- The 96 changes of MIX CLEAR m (R26). -/
def mixClearChanges (m : Fin 16) (s : State) : List Change :=
  (List.finRange 48).flatMap (fun src =>
    [engineerChange s ⟨m, src⟩ (.level 0), engineerChange s ⟨m, src⟩ .unmute])

def mixClear (m : Fin 16) (s : State) : State := takeChanges (mixClearChanges m s) s

end Sys2Proof.Machine
end

