-- ==== Sys2Proof/Machine/Cues.lean ====
section
/-! DEFINITION. The Cue Engine (spec/03): guards and chains, the fire, completion and follow-ons, the commands of both links,
and what CUE LOAD and CUE DELETE do to the slots. -/

namespace Sys2Proof.Machine

/-- Each fire may make up to this many evaluations (R54). -/
def chainLimit : Nat := 8

/-- The edit pool's places (R49). -/
def poolSize : Nat := 1024

/-! ### Slots -/

def State.occupied (s : State) (n : CueId) : Bool := (s.slot n).isSome

/-- The lowest occupied slot, `none` if none is. -/
def lowestOccupied (s : State) : Option CueId := (List.finRange 96).find? (fun k => s.occupied k)

/-- The lowest occupied slot above a cue, `none` for END (R55, R60, R72). -/
def lowestAbove (c : CueId) (s : State) : Option CueId :=
  (List.finRange 96).find? (fun k => decide (c < k) && s.occupied k)

/-- The pool places a slot uses: its edit count, 0 when it is empty (R49). -/
def slotEdits (r : Option CueRecord) : Nat :=
  match r with
  | none => 0
  | some r => r.edits.length

/-! ### The chain -/

/-- How a chain of evaluations ends (R54). -/
inductive ChainEnd where
  | fires (c : CueId) (r : CueRecord)
  | skips (c : CueId)
  | refuses
  deriving DecidableEq, Repr

/-- The chain from a cue, with the evaluations it may still make (R54). -/
def chain : Nat → CueId → State → ChainEnd
  | 0, _, _ => .refuses
  | fuel + 1, c, s =>
    match s.slot c with
    | none => .refuses
    | some r =>
      if guardPasses r.guard s.cue.flags then .fires c r
      else
        match r.alternate with
        | some a => chain fuel a s
        | none => .skips c

/-! ### The fire -/

/-- The change kind of an edit's action (R48). -/
def actionKind : EditAction → ChangeKind
  | .level v => .level v
  | .nudge d => .nudge d
  | .mute => .mute
  | .unmute => .unmute
  | .pan p => .pan p

/-- The mixes of a target: one, or M0 to M15 in turn (R48, R59). -/
def targetMixes : EditTarget → List (Fin 16)
  | .mix m => [m]
  | .all => List.finRange 16

/-- The changes of cue c's edits, in list order (R59). -/
def cueChanges (c : CueId) (r : CueRecord) : List Change :=
  r.edits.flatMap (fun e => (targetMixes e.target).map (fun m =>
    { cell := ⟨m, e.source⟩, kind := actionKind e.action, origin := .cue c, length := r.fade, tag := some c }))

/-- Step 2, supersede: a running cue loses its tags and its record, and a follow wait ends (R58). -/
def supersede (s : State) : State :=
  let s := if s.cue.running.isSome then stripTags s else s
  s.setCue { s.cue with running := none, timer := 0 }

/-- Step 3, the new record (R58). -/
def makeRecord (c : CueId) (r : CueRecord) (s : State) : State :=
  s.setCue { s.cue with running := some { cue := c, outstanding := 0, followOn := r.followOn } }

/-- The show flags after a cue's masks: the set mask first, then the clear mask (R52, R60). -/
def maskedFlags (r : CueRecord) (flags : Word16) : Word16 :=
  let flags := match r.setMask with
    | some m => flags ||| m
    | none => flags
  match r.clearMask with
  | some m => flags &&& ~~~m
  | none => flags

/-- The next pointer after cue c fires: its follow-on, else the lowest occupied slot above it (R60, step 6). -/
def pointerAfter (c : CueId) (r : CueRecord) (s : State) : Option CueId :=
  match r.followOn with
  | some f => some f.cue
  | none => lowestAbove c s

/-- Steps 5 to 7: masks, next pointer, phase; CUE_FIRED is latched (R60). -/
def finishFire (c : CueId) (r : CueRecord) (s : State) : State :=
  (s.setCue { s.cue with
    flags := maskedFlags r s.cue.flags
    nextPointer := pointerAfter c r s
    phase := .fading }).report .cueFired

/-- Steps 2 to 7 of the fire of a cue whose guard passed (R58 to R60). -/
def fireCue (c : CueId) (r : CueRecord) (s : State) : State :=
  finishFire c r (takeChanges (cueChanges c r) (makeRecord c r (supersede s)))

/-- A skip (R55). -/
def skipCue (c : CueId) (s : State) : State :=
  (s.setCue { s.cue with nextPointer := lowestAbove c s }).report .cueSkipped

/-- A refused fire (R56). -/
def refuseFire (s : State) : State := s.report .cueRefused

/-- A fire whose chain begins at a cue, taken whole (R57). -/
def fire (c : CueId) (s : State) : State :=
  match chain chainLimit c s with
  | .fires f r => fireCue f r s
  | .skips k => skipCue k s
  | .refuses => refuseFire s

/-- A fire of the next pointer; END is refused (R56, R57). -/
def fireNext (s : State) : State :=
  match s.cue.nextPointer with
  | none => refuseFire s
  | some c => fire c s

/-! ### Completion and the follow wait -/

/-- The follow-on handling of R62, the record just dropped. -/
def followOnHandling (f : Option FollowOn) (s : State) : State :=
  match f with
  | none => s.setCue { s.cue with phase := .idle }
  | some f =>
    let s := s.setCue { s.cue with nextPointer := some f.cue, phase := .idle }
    if s.cue.hold then s
    else if f.wait = 0 then fireNext s
    else s.setCue { s.cue with phase := .followWait, timer := f.wait }

/-- The completion check in FADING: at an outstanding count of 0 the cue has completed (R61). -/
def completionCheck (s : State) : State :=
  match s.cue.phase, s.cue.running with
  | .fading, some r =>
    if r.outstanding = 0 then
      let s := s.report .cueDone
      followOnHandling r.followOn (s.setCue { s.cue with running := none })
    else s
  | _, _ => s

/-- The follow-wait timer reaching 0: IDLE, and the next pointer is fired (R63). -/
def expireFollowWait (s : State) : State := fireNext (s.setCue { s.cue with timer := 0, phase := .idle })

/-- The follow-wait timer at its last block end (R63); at any other moment nothing comes about (log 3). -/
def expireFollowTimer (s : State) : State :=
  if s.cue.phase = .followWait ∧ s.cue.timer ≤ 1 then expireFollowWait s else s

/-- CUE's block-end work, after GLU's advance (R61, R63). -/
def cueBlockEnd (s : State) : State :=
  match s.cue.phase with
  | .idle => s
  | .fading => completionCheck s
  | .followWait =>
    if s.cue.timer ≤ 1 then expireFollowWait s else s.setCue { s.cue with timer := s.cue.timer - 1 }

/-! ### Commands -/

/-- GOTO n: above 95 the fire is refused (R56, R66). -/
def cueGoto (n : Nat) (s : State) : State := if h : n < 96 then fire ⟨n, h⟩ s else refuseFire s

/-- STOP (R67). -/
def cueStop (s : State) : State :=
  match s.cue.phase with
  | .idle => s
  | .fading =>
    let s := stripTags s
    s.setCue { s.cue with running := none, phase := .idle }
  | .followWait => s.setCue { s.cue with timer := 0, phase := .idle }

/-- HOLD_ON: the flag, and a follow wait ends with its follow-on left on the pointer (R68). -/
def cueHoldOn (s : State) : State :=
  match s.cue.phase with
  | .followWait => s.setCue { s.cue with hold := true, timer := 0, phase := .idle }
  | _ => s.setCue { s.cue with hold := true }

/-- HOLD_OFF: the flag alone (R68). -/
def cueHoldOff (s : State) : State := s.setCue { s.cue with hold := false }

def cueFlagsSet (mask : Word16) (s : State) : State := s.setCue { s.cue with flags := s.cue.flags ||| mask }

def cueFlagsClear (mask : Word16) (s : State) : State := s.setCue { s.cue with flags := s.cue.flags &&& ~~~mask }

/-- CUE POINTER, its operand judged (R69). -/
def cueSetPointer (p : Option CueId) (s : State) : State := s.setCue { s.cue with nextPointer := p }

/-- A slot is emptied or written, and the pool's used count follows it (R49, R71, R72). -/
def writeSlot (n : CueId) (r : Option CueRecord) (s : State) : State :=
  s.setCue { s.cue with
    slots := tableSet s.cue.slots n r
    poolUsed := s.cue.poolUsed - slotEdits (s.slot n) + slotEdits r }

/-- CUE DELETE n: the slot is emptied, and a next pointer that names it moves up (R72). -/
def cueDelete (n : CueId) (s : State) : State :=
  let s := writeSlot n none s
  if s.cue.nextPointer = some n then s.setCue { s.cue with nextPointer := lowestAbove n s } else s

/-- Whether a load of a record into a slot fits the pool: the slot's former edits are released first (R49, R71). -/
def loadFits (n : CueId) (r : CueRecord) (s : State) : Bool :=
  decide (s.cue.poolUsed - slotEdits (s.slot n) + r.edits.length ≤ poolSize)

/-- SOFT RESET at CUE (R50, R78). -/
def cueSoftReset (s : State) : State :=
  s.setCue { s.cue with
    nextPointer := lowestOccupied s, running := none, phase := .idle, timer := 0, hold := false, flags := 0 }

end Sys2Proof.Machine
end

