-- ==== Sys2Proof/Machine/Stations.lean ====
section
/-! DEFINITION. The Station Table and the Grip Table (spec/04, spec/05): what changes a station's record, its map and its grip. -/

namespace Sys2Proof.Machine

/-! ### Maps -/

/-- The entry of a map at a local index. -/
def mapAt (m : StationMap) (i : LocalIndex) : Option MapEntry := tableGet m i

/-- The present local indices of a map, ascending (R90). -/
def presentIndices (m : StationMap) : List LocalIndex := (List.finRange 24).filter (fun i => (mapAt m i).isSome)

/-- The number of present entries (R88). -/
def presentCount (m : StationMap) : Nat := (presentIndices m).length

/-- The lowest present index. -/
def lowestPresent (m : StationMap) : Option LocalIndex := (presentIndices m).head?

/-- The lowest present index above an index. -/
def nextPresent (m : StationMap) (i : LocalIndex) : Option LocalIndex :=
  (presentIndices m).find? (fun k => decide (i < k))

/-- The index that NEXT opens: above the grip's if there is one, else the lowest, wrapping (R90, R104). -/
def nextIndex (m : StationMap) (held : Option LocalIndex) : Option LocalIndex :=
  match held with
  | none => lowestPresent m
  | some i =>
    match nextPresent m i with
    | some k => some k
    | none => lowestPresent m

/-! ### Grips -/

/-- The station's place is emptied (R112, R113). -/
def dropGrip (n : StationId) (s : State) : State := s.setGrip n none

/-- Every place is emptied (R114). -/
def dropAllGrips (s : State) : State := s.setGrips (Vector.replicate 16 none)

/-- A new FRESH grip from a present map entry, in place of what the station held (R103, R104, R105). -/
def makeGrip (n : StationId) (i : LocalIndex) (e : MapEntry) (s : State) : State :=
  s.setGrip n (some { station := n, index := i, cell := e.cell, right := e.right, state := .fresh })

/-- The station's grip becomes FRESH (R108 to R110). -/
def refreshGrip (n : StationId) (s : State) : State :=
  s.setGrip n ((s.grip n).map (fun g => { g with state := .fresh }))

/-! ### The station record -/

/-- A record of a station that becomes ABSENT: miss run and idle blocks 0 (R81, R84). -/
def Station.toAbsent (x : Station) : Station := { x with state := .absent, missRun := 0, idle := 0 }

/-- A station that is not ABSENT becomes ABSENT, and its grip is dropped in the same step (R81). -/
def makeAbsent (n : StationId) (s : State) : State :=
  if (s.station n).state = .absent then s else dropGrip n (s.setStation n (s.station n).toAbsent)

/-- BLC's report that the station answered (R82). -/
def stationAnswered (n : StationId) (s : State) : State := s.setStation n { s.station n with missRun := 0 }

/-- BLC's report that the station missed: at the third miss an ATTACHED station becomes LOST (R81, R82). -/
def stationMissed (n : StationId) (s : State) : State :=
  let x := s.station n
  if 3 ≤ x.missRun then s
  else
    let s := s.setStation n { x with missRun := x.missRun + 1 }
    if x.missRun + 1 = 3 ∧ x.state = .attached then
      let s := s.setStation n { s.station n with state := .lost }
      (dropGrip n s).report .stationLost
    else s

/-- A damaged or stray word is charged to a station, saturating at 255 (R83). -/
def chargeStation (n : StationId) (s : State) : State :=
  s.setStation n { s.station n with checkCount := min ((s.station n).checkCount + 1) 255 }

/-- The idle blocks become 0: at a win and at an answered poll (R84). -/
def clearIdle (n : StationId) (s : State) : State := s.setStation n { s.station n with idle := 0 }

/-- HELLO at STT: ATTACHED from every state, the grip dropped, STATION_ATTACHED latched (R127). -/
def attachStation (n : StationId) (s : State) : State :=
  (dropGrip n (s.setStation n { s.station n with state := .attached })).report .stationAttached

/-- One record at a block end: the idle blocks rise in ATTACHED and LOST, saturating, and are held at 0 in ABSENT (R84). -/
def Station.idleTick (x : Station) : Station :=
  { x with idle := if x.state = .absent then 0 else min (x.idle + 1) 65535 }

/-- STT's block-end work (R84). -/
def idleBlockEnd (s : State) : State := s.setStations (s.stations.map Station.idleTick)

/-- A station not admitted at the end of its transaction becomes ABSENT: the change of admission that R86 defers. -/
def completeDeferred (n : StationId) (s : State) : State :=
  if (s.station n).admitted then s else makeAbsent n s

/-- STATION PROFILE, its operands judged (R86, R87). A station that BLC does not hold selected becomes ABSENT at once when
its admission is taken away. -/
def applyProfile (n : StationId) (priority : Nat) (admitted : Bool) (s : State) : State :=
  let s := s.setStation n { s.station n with priority := priority, admitted := admitted }
  if admitted = false ∧ s.link.selected ≠ some n then makeAbsent n s else s

/-- A MAP LOAD that passed its checks, applied whole: map replaced, grip dropped, a running RECALL transfer to the station
ends with MAP_CHANGED (R92, R142). -/
def applyMapLoad (n : StationId) (m : StationMap) (s : State) : State :=
  let s := dropGrip n (s.setStation n { s.station n with map := m })
  if s.link.state = .sending ∧ s.link.selected = some n ∧ s.link.transferEnd = .running then
    s.setLink { s.link with transferEnd := .mapChanged }
  else s

/-- The effect of a link reset on STT and GRT: every station ABSENT, every grip dropped (R99, R114). -/
def resetStations (s : State) : State := dropAllGrips (s.setStations (s.stations.map Station.toAbsent))

/-- Whether a station's edits are refused LOCKED (R97). -/
def lockedOut (n : StationId) (s : State) : Bool := decide ((s.station n).priority ≤ s.lockout)

/-! ### Reports -/

/-- The report of a cell as it stands, with the index and right that travel with it (R19, R140, R166). -/
def entryReport (i : LocalIndex) (r : Right) (c : CellId) (s : State) : EntryReport :=
  let x := s.cell c
  { index := i, right := r, level := x.level, cap := x.cap, pan := x.pan, muted := x.muted,
    gliding := s.gliding c, writer := x.writer }

end Sys2Proof.Machine
end

