-- ==== Sys2Proof/Machine/Requests.lean ====
section
/-! DEFINITION. The Station Request Unit (spec/06): what each request does and replies. A request is executed whole on the state
as it stands (R123). -/

namespace Sys2Proof.Machine

/-- What an execution leaves: the state, and the reply, or none when it started a RECALL transfer (R122, R139). -/
structure Executed where
  state : State
  reply : Option Reply
  deriving DecidableEq, Repr

/-- A reply without payload, all flags clear (R124, R125). -/
def plainReply (st : Status) : Reply := { status := st, flags := Flags.clear, count := 0, report := none }

/-- A reply with a count payload, all flags clear (R124). -/
def countReply (st : Status) (n : Nat) : Reply := { plainReply st with count := n }

/-- A request answered without effect. -/
def answered (st : Status) (s : State) : Executed := { state := s, reply := some (plainReply st) }

/-- LOCKED, with LOCKOUT_HIT latched (R97). -/
def answeredLocked (s : State) : Executed := answered .locked (s.report .lockoutHit)

/-- HELLO (R127). -/
def requestHello (n : StationId) (s : State) : Executed :=
  { state := attachStation n s, reply := some (countReply .ok (presentCount (s.station n).map)) }

/-- The reply to OPEN and NEXT: index, right, report, and the flags of the cell as it stands (R124, R125). -/
def gripReply (i : LocalIndex) (e : MapEntry) (s : State) : Reply :=
  { status := .ok, flags := cellFlags (s.cell e.cell) (s.gliding e.cell), count := 0,
    report := some (entryReport i e.right e.cell s) }

/-- A grip is made at an index, or the request is answered UNMAPPED with the grip as it was (R103, R104, R129). -/
def openAt (n : StationId) (i : Option LocalIndex) (s : State) : Executed :=
  match i with
  | none => answered .unmapped s
  | some i =>
    match mapAt (s.station n).map i with
    | none => answered .unmapped s
    | some e => { state := makeGrip n i e s, reply := some (gripReply i e s) }

/-- OPEN i, the index as it travelled; above 23 it is UNMAPPED (R129). -/
def requestOpen (n : StationId) (i : Nat) (s : State) : Executed :=
  openAt n (if h : i < 24 then some ⟨i, h⟩ else none) s

/-- NEXT (R90, R104). -/
def requestNext (n : StationId) (s : State) : Executed :=
  openAt n (nextIndex (s.station n).map ((s.grip n).map (·.index))) s

/-- CLOSE (R130). -/
def requestClose (n : StationId) (s : State) : Executed :=
  match s.grip n with
  | none => answered .noGrip s
  | some _ => answered .ok (dropGrip n s)

/-- A change through the grip: presented to MXS, the grip then FRESH; the reply carries the flags MXS formed, S when the
grip was STALE, and a report formed after the change (R125, R133, R135, R136). -/
def throughGrip (n : StationId) (g : Grip) (k : ChangeKind) (s : State) : Executed :=
  let ch := stationChange n g.cell k
  let t := refreshGrip n (takeChange ch s)
  { state := t
    reply := some
      { status := .ok
        flags := { changeFlags ch s with s := decide (g.state = .stale) }
        count := 0
        report := some (entryReport g.index g.right g.cell t) } }

/-- SET refused STALE: the grip becomes FRESH, the reply shows the cell as it stands (R108, R125, R134). -/
def refusedStale (n : StationId) (g : Grip) (s : State) : Executed :=
  { state := refreshGrip n s
    reply := some
      { status := .stale
        flags := { cellFlags (s.cell g.cell) (s.gliding g.cell) with s := true }
        count := 0
        report := some (entryReport g.index g.right g.cell s) } }

/-- SET v: checks 2 to 6 of R131 in their order, then applied. -/
def requestSet (n : StationId) (v : Nat) (s : State) : Executed :=
  match s.grip n with
  | none => answered .noGrip s
  | some g =>
    if 220 < v then answered .badValue s
    else if g.right = .view then answered .denied s
    else if lockedOut n s then answeredLocked s
    else if g.state = .stale then refusedStale n g s
    else throughGrip n g (.level v) s

/-- NUDGE d: checks 2 to 5 of R131, then applied whatever the grip's state. -/
def requestNudge (n : StationId) (d : Int) (s : State) : Executed :=
  match s.grip n with
  | none => answered .noGrip s
  | some g =>
    if d < -40 ∨ 40 < d then answered .badValue s
    else if g.right = .view then answered .denied s
    else if lockedOut n s then answeredLocked s
    else throughGrip n g (.nudge d) s

/-- PAN p: checks 2 to 5 of R131, then applied whatever the grip's state. -/
def requestPan (n : StationId) (p : Int) (s : State) : Executed :=
  match s.grip n with
  | none => answered .noGrip s
  | some g =>
    if p < -32 ∨ 32 < p then answered .badValue s
    else if g.right ≠ .full then answered .denied s
    else if lockedOut n s then answeredLocked s
    else throughGrip n g (.pan p) s

/-! ### Mute masks -/

/-- The present entries that a mask names, ascending (R137). -/
def namedEntries (m : StationMap) (mask : Word24) : List (LocalIndex × MapEntry) :=
  (List.finRange 24).filterMap (fun i => if mask.getLsbD i.val then (mapAt m i).map (fun e => (i, e)) else none)

/-- The named entries whose change is presented: right ADJUST or FULL (R137). -/
def presentedEntries (m : StationMap) (mask : Word24) : List (LocalIndex × MapEntry) :=
  (namedEntries m mask).filter (fun p => decide (p.2.right ≠ .view))

/-- All present entries of a map. -/
def presentEntries (m : StationMap) : List MapEntry := (List.finRange 24).filterMap (mapAt m)

/-- The changes of a mask request: one compound operation (R137). -/
def maskChanges (n : StationId) (k : ChangeKind) (m : StationMap) (mask : Word24) : List Change :=
  (presentedEntries m mask).map (fun p => stationChange n p.2.cell k)

/-- Whether step 3 refreshes the grip: its index was presented (R110, R137). -/
def maskRefreshes (g : Option Grip) (presented : List (LocalIndex × MapEntry)) : Bool :=
  match g with
  | none => false
  | some g => presented.any (fun p => decide (p.1 = g.index))

/-- The flags of a mask request, on the state once the compound operation is complete (R138). -/
def maskFlags (m : StationMap) (mask : Word24) (refreshedStale : Bool) (s : State) : Flags :=
  let named := (namedEntries m mask).map (·.2)
  let all := presentEntries m
  { Flags.clear with
    z := !all.isEmpty && all.all (fun e => (s.cell e.cell).muted)
    m := !named.isEmpty && named.all (fun e => (s.cell e.cell).muted)
    g := named.any (fun e => s.gliding e.cell)
    s := refreshedStale
    d := named.any (fun e => decide (e.right = .view)) }

/-- MUTE-SET and MUTE-CLEAR: lockout check, changes, refresh (R137, R138). -/
def requestMask (n : StationId) (k : ChangeKind) (mask : Word24) (s : State) : Executed :=
  if lockedOut n s then answeredLocked s
  else
    let m := (s.station n).map
    let presented := presentedEntries m mask
    let refreshes := maskRefreshes (s.grip n) presented
    let wasStale := decide ((s.grip n).map (·.state) = some Freshness.stale)
    let t := takeChanges (maskChanges n k m mask) s
    let t := if refreshes then refreshGrip n t else t
    { state := t
      reply := some
        { status := .ok, flags := maskFlags m mask (refreshes && wasStale) t, count := presented.length, report := none } }

/-! ### Execution -/

/-- RECALL: the transfer is started; BLC takes it from here (R139). -/
def requestRecall (s : State) : Executed := { state := s, reply := none }

/-- SRU executes a request (R126 and the rule of each kind). -/
def executeRequest (r : Request) (s : State) : Executed :=
  if (s.station r.station).state ≠ .attached ∧ r.kind ≠ .hello then answered .notAttached s
  else
    match r.kind with
    | .hello => requestHello r.station s
    | .ping => answered .ok s
    | .openGrip => requestOpen r.station r.operand.toNat s
    | .nextGrip => requestNext r.station s
    | .setLevel => requestSet r.station r.operand.toNat s
    | .nudge => requestNudge r.station r.operand.toInt s
    | .pan => requestPan r.station r.operand.toInt s
    | .muteSet => requestMask r.station .mute r.mask s
    | .muteClear => requestMask r.station .unmute r.mask s
    | .closeGrip => requestClose r.station s
    | .recallMap => requestRecall s
    | .unnamed => answered .badValue s

end Sys2Proof.Machine
end

