-- ==== Sys2Proof/Machine/Band.lean ====
section
/-! DEFINITION. The Band Link Controller (spec/07): windows and arbitration, transactions, RECALL transfers, polls, the reception
of any word in any link state, and the link reset. -/

namespace Sys2Proof.Machine

/-- The block ends of a request window and of an echo window (R151, R152). -/
def windowLength : Nat := 3

/-- An ATTACHED station is due for a poll from this many idle blocks on (R152). -/
def pollDue : Nat := 750

/-! ### Windows and arbitration -/

/-- The link being IDLE in RUN, a window opens (R150). -/
def openWindow (s : State) : State :=
  if s.run = .run ∧ s.link.state = .idle then
    s.setLink { s.link with state := .window, contenders := [], sent := [windowWord] }
  else s

/-- The station of a list, in its order, that ranks highest, the earliest among equals (R151, R152). -/
def firstHighest (rank : StationId → Nat) : List StationId → Option StationId
  | [] => none
  | n :: rest =>
    match firstHighest rank rest with
    | none => some n
    | some k => if rank n < rank k then some k else some n

/-- The contenders that count at the close: those still admitted, in service order (R151). -/
def closingContenders (s : State) : List StationId :=
  s.link.order.filter (fun n => decide (n ∈ s.link.contenders) && (s.station n).admitted)

/-- The winner of a window: highest priority, then earliest in the service order (R151). -/
def windowWinner (s : State) : Option StationId :=
  firstHighest (fun n => (s.station n).priority) (closingContenders s)

/-- The stations due for a presence poll, in service order (R152). -/
def dueStations (s : State) : List StationId :=
  s.link.order.filter (fun n => decide ((s.station n).state = .attached ∧ pollDue ≤ (s.station n).idle))

/-- The station to poll: longest idle, then earliest in the service order (R152). -/
def pollChoice (s : State) : Option StationId := firstHighest (fun n => (s.station n).idle) (dueStations s)

/-- The service order after a win: the winner at the tail (R149). -/
def toTail (n : StationId) (order : List StationId) : List StationId := order.filter (fun k => decide (k ≠ n)) ++ [n]

/-- A window closes into a selection (R151). -/
def selectStation (n : StationId) (s : State) : State :=
  (clearIdle n s).setLink { s.link with
    state := .selected, selected := some n, window := windowLength, contenders := [],
    order := toTail n s.link.order, sent := [selectWord n] }

/-- An empty window closes into a presence poll (R152). -/
def pollStation (n : StationId) (s : State) : State :=
  s.setLink { s.link with
    state := .polling, selected := some n, window := windowLength, contenders := [], sent := [pollWord n] }

/-- The end of slot 15 (R151). -/
def closeWindow (s : State) : State :=
  if s.run = .run ∧ s.link.state = .window then
    match windowWinner s with
    | some n => selectStation n s
    | none =>
      match pollChoice s with
      | some n => pollStation n s
      | none => s.setLink { s.link with state := .idle, contenders := [] }
  else s

/-! ### The end of a transaction -/

/-- The link record with no transaction in it, IDLE. -/
def restLink (l : LinkRecord) : LinkRecord :=
  { l with
    state := .idle, selected := none, arrival := none, window := 0, cursor := none, wordsSent := 0,
    transferEnd := .running, answer := none, inFlight := none }

/-- A transaction ends: BLC reports it, STT completes a deferred loss of admission, the link is IDLE (R86, R156). -/
def endTransaction (s : State) : State :=
  let s := match s.link.selected with
    | some n => completeDeferred n s
    | none => s
  s.setLink (restLink s.link)

/-- REPLY-1 and REPLY-2 have gone out (R156), with the selected station's ID in their headers (log 34). -/
def sendReply (s : State) : State :=
  if s.run = .run ∧ s.link.state = .answering then
    match s.link.selected, s.link.answer with
    | some n, some a =>
      let s := endTransaction s
      s.setLink { s.link with sent := [reply1Word n a.reply, reply2Word n a.reply] }
    | _, _ => endTransaction s
  else s

/-- The link goes to ANSWERING with a reply (R153, R154, R155, R157). -/
def answerWith (r : Reply) (settled : Bool) (s : State) : State :=
  s.setLink { s.link with
    state := .answering, arrival := none, window := 0, cursor := none, inFlight := none,
    answer := some { reply := r, settled := settled } }

/-- The transfer that SRU starts: the cursor at the lowest present entry, the opening gap; with no present entry the
transfer is over at once, DONE with 0 words (R139, R157, log 15). -/
def startTransfer (n : StationId) (s : State) : State :=
  let first := lowestPresent (s.station n).map
  s.setLink { s.link with
    state := .sending, arrival := none, window := 0, wordsSent := 0, inFlight := none, cursor := first,
    transferEnd := if first = none then .done else .running }

/-- BLC hands a whole request to SRU, which executes it at that moment (R122, R153). -/
def handToSru (r : Request) (s : State) : State :=
  let done := executeRequest r (s.setInHand (some r))
  let s := done.state.setInHand none
  match done.reply with
  | some reply => answerWith reply false s
  | none => startTransfer r.station s

/-! ### RECALL transfers -/

/-- The next DATA-IN word starts: its report is formed now and the word is in flight (R140, R157), with the selected
station's ID in its header (log 34). -/
def startWord (n : StationId) (i : LocalIndex) (e : MapEntry) (s : State) : State :=
  let w := dataInWord n (entryReport i e.right e.cell s)
  s.setLink { s.link with cursor := some i, inFlight := some w, sent := [w] }

/-- The final reply of a transfer (R144, R155): the status it ended with and the count of words sent; PHASE has no
payload. -/
def finalReply (l : LinkRecord) : Reply :=
  match l.transferEnd with
  | .running => countReply .done l.wordsSent
  | .done => countReply .done l.wordsSent
  | .stopped => countReply .stopped l.wordsSent
  | .mapChanged => countReply .mapChanged l.wordsSent
  | .phase => plainReply .phase

/-- The test of the transfer end between two words (R157): the next word starts, or the final reply follows. -/
def continueTransfer (s : State) : State :=
  match s.link.transferEnd, s.link.selected, s.link.cursor with
  | .running, some n, some i =>
    match mapAt (s.station n).map i with
    | some e => startWord n i e s
    | none => answerWith (finalReply s.link) true s
  | _, _, _ => answerWith (finalReply s.link) true s

/-- The opening listen gap ends (R157). -/
def endOpeningGap (s : State) : State :=
  if s.run = .run ∧ s.link.state = .sending ∧ s.link.inFlight = none then continueTransfer s else s

/-- The next present index above the cursor in the selected station's map. -/
def cursorAfter (s : State) : Option LocalIndex :=
  match s.link.selected, s.link.cursor with
  | some n, some i => nextPresent (s.station n).map i
  | _, _ => none

/-- A DATA-IN word has gone out with its listen gap: counted, the cursor moves, DONE when none is left (R140, R157). -/
def endWord (s : State) : State :=
  if s.run = .run ∧ s.link.state = .sending ∧ s.link.inFlight ≠ none then
    let next := cursorAfter s
    continueTransfer (s.setLink { s.link with
      inFlight := none, wordsSent := s.link.wordsSent + 1, cursor := next,
      transferEnd := if s.link.transferEnd = .running ∧ next = none then .done else s.link.transferEnd })
  else s

/-- STOP in a listen gap while the transfer runs (R141, R157): with no entry left to send after the word in flight it is
DONE, otherwise STOPPED. -/
def takeStop (s : State) : State :=
  let last := decide (s.link.inFlight ≠ none) && (cursorAfter s).isNone
  s.setLink { s.link with transferEnd := if last then .done else .stopped }

/-! ### Reception of a word -/

/-- A word with a bad check is always reported (R160). -/
def reportBadCheck (s : State) : State := s.report .bandCheck

/-- A good word from the selected station in SELECTED (R153, R155). A phase error charges no check count: R83 lists none, while
the last words of R160 can be read as having it in one (log 37). -/
def receiveSelected (n : StationId) (w : BandWord) (s : State) : State :=
  match s.link.arrival with
  | none =>
    if wordTag w = .request1 then
      let s := stationAnswered n s
      let kind := requestKind (wordByte w 1)
      if needsMask kind then s.setLink { s.link with arrival := some w }
      else handToSru { station := n, kind := kind, operand := wordOperand w, mask := 0 } s
    else answerWith (plainReply .phase) true s
  | some first =>
    if wordTag w = .request2 then
      handToSru { station := n, kind := requestKind (wordByte first 1), operand := wordOperand first, mask := wordMask w } s
    else answerWith (plainReply .phase) true s

/-- A good word from the selected station in the turnaround of ANSWERING (R155): a phase error, without a
charge (log 37), unless the reply is settled. A word that comes while REPLY-1 and REPLY-2 go out is not received (receiveWord). -/
def receiveAnswering (s : State) : State :=
  match s.link.answer with
  | some a => if a.settled then s else answerWith (plainReply .phase) true s
  | none => s

/-- A good word from the selected station in a listen gap of SENDING (R141, R155, R157); a phase error is not charged (log 37).
A word that comes while a DATA-IN word goes out is not received (receiveWord). -/
def receiveSending (w : BandWord) (s : State) : State :=
  if s.link.transferEnd ≠ .running then s
  else if wordTag w = .stop then takeStop s
  else s.setLink { s.link with transferEnd := .phase }

/-- A good word from the polled station (R158): an ECHO answers the poll, and every other word is discarded. An ATTN, which
arrives outside any window, is charged to its station (R83, R159); a word of another tag is not (log 33). -/
def receivePolling (n : StationId) (w : BandWord) (s : State) : State :=
  match wordTag w with
  | .echo => endTransaction (clearIdle n (stationAnswered n s))
  | .attn => chargeStation n s
  | _ => s

/-- A good-check word in WINDOW, with the mark slot it arrives in, if any (R150, R159). -/
def receiveWindow (slot : Option StationId) (w : BandWord) (s : State) : State :=
  let n := wordStation w
  if slot = some n ∧ wordTag w = .attn then
    if (s.station n).admitted then
      if n ∈ s.link.contenders then s else s.setLink { s.link with contenders := n :: s.link.contenders }
    else s
  else chargeStation n s

/-- A good-check word while a station is selected: the station's own word, or an intruder (R155, R159). -/
def receiveFrom (w : BandWord) (own : StationId → State) (s : State) : State :=
  match s.link.selected with
  | some n => if wordStation w = n then own n else chargeStation (wordStation w) s
  | none => chargeStation (wordStation w) s

/-- A good-check word, by link state. While the pair is held in a break no word arrives (log 14). -/
def receiveGood (slot : Option StationId) (w : BandWord) (s : State) : State :=
  match s.link.state with
  | .idle => chargeStation (wordStation w) s
  | .window => receiveWindow slot w s
  | .selected => receiveFrom w (fun n => receiveSelected n w s) s
  | .answering => receiveFrom w (fun _ => receiveAnswering s) s
  | .sending => receiveFrom w (fun _ => receiveSending w s) s
  | .polling => receiveFrom w (fun n => receivePolling n w s) s
  | .resetting => s

/-- A missed presence poll or request window: the miss is reported and the transaction ends (R153, R158). -/
def missAndEnd (s : State) : State :=
  endTransaction (match s.link.selected with
    | some n => stationMissed n s
    | none => s)

/-- A word with a bad check, by link state (R150, R154, R155, R157, R158, R159, R160). -/
def receiveBad (s : State) : State :=
  let charged := match s.link.selected with
    | some n => chargeStation n s
    | none => s
  match s.link.state with
  | .idle => reportBadCheck s
  | .window => reportBadCheck s
  | .selected => answerWith (plainReply .check) true (reportBadCheck charged)
  | .answering => reportBadCheck charged
  | .sending => reportBadCheck charged
  | .polling => missAndEnd (reportBadCheck s)
  | .resetting => s

/-- A station's word arrives, in RUN; in INIT every word is discarded (R163). A word that comes while the part drives the pair,
sending REPLY-1, REPLY-2 or a DATA-IN word, is not received (R155, R157): which moments those are inside ANSWERING and SENDING
is an outside fact, as the turnarounds and gaps are, and comes with the word (log 35). -/
def receiveWord (slot : Option StationId) (w : BandWord) (s : State) : State :=
  if s.run = .run ∧ w.driven = false then
    if checkGood w then receiveGood slot w s else receiveBad s
  else s

/-- The words of a mask request (R153): REQUEST-2 where REQUEST-1 of that kind is held from that station, both words
where it is not (log 9). -/
def receiveMaskRequest (n : StationId) (kind : MaskKind) (mask : Word24) (s : State) : State :=
  let held := match s.link.arrival with
    | some w => decide (s.link.selected = some n ∧ (wordByte w 1) = maskKindCode kind)
    | none => false
  let s := if held then s else receiveWord none (request1Word n (maskKindCode kind) 0) s
  receiveWord none (request2Word n mask) s

/-! ### Windows at a block end -/

/-- The request window count reaching 0 (R153). -/
def expireRequestWindow (s : State) : State :=
  if s.run = .run ∧ s.link.state = .selected ∧ s.link.window ≤ 1 then missAndEnd s else s

/-- The echo window count reaching 0 (R158). -/
def expireEchoWindow (s : State) : State :=
  if s.run = .run ∧ s.link.state = .polling ∧ s.link.window ≤ 1 then missAndEnd s else s

/-- The break count reaching 0: the pair is released, and the link is IDLE unless a station's break holds it (R162). -/
def expireBreakCount (stationHolds : Bool) (s : State) : State :=
  if s.run = .run ∧ s.link.state = .resetting ∧ s.link.breakCount = 1 then
    s.setLink { s.link with breakCount := 0, state := if stationHolds then .resetting else .idle }
  else s

/-- BLC's block-end work (R153, R158, R162). -/
def linkBlockEnd (stationHolds : Bool) (s : State) : State :=
  match s.link.state with
  | .selected =>
    if s.link.window ≤ 1 then expireRequestWindow s else s.setLink { s.link with window := s.link.window - 1 }
  | .polling =>
    if s.link.window ≤ 1 then expireEchoWindow s else s.setLink { s.link with window := s.link.window - 1 }
  | .resetting =>
    if s.link.breakCount ≤ 1 then expireBreakCount stationHolds s
    else s.setLink { s.link with breakCount := s.link.breakCount - 1 }
  | _ => s

/-! ### Link reset -/

/-- Steps 1 to 3 of a link reset, and the link RESETTING with a break count: 0 for a received break, 2 for one the part
sends (R161, R162, R163). A request in hand is taken away (R145). -/
def linkReset (breakCount : Nat) (s : State) : State :=
  let s := (resetStations s).setInHand none
  s.setLink { restLink s.link with
    state := .resetting, breakCount := breakCount, order := LinkRecord.startOrder, contenders := [] }

/-- A received break is recognised (R161): ignored in INIT, and no second reset while the link is RESETTING. -/
def receiveBreak (s : State) : State :=
  if s.run = .run ∧ s.link.state ≠ .resetting then (linkReset 0 s).report .bandReset else s

/-- The stations release the pair (R161): RESETTING ends unless the part's own break still holds it. -/
def releaseBreak (s : State) : State :=
  if s.run = .run ∧ s.link.state = .resetting ∧ s.link.breakCount = 0 then s.setLink { s.link with state := .idle } else s

/-- LINK RESET, issued by the console (R162). -/
def issueLinkReset (s : State) : State := (linkReset 2 s).report .bandReset

end Sys2Proof.Machine
end

