-- ==== Sys2Proof/Machine/BandCommands.lean ====
section
/-! DEFINITION. The meanings of the Band Link's commands: BLC's schedule, the words of stations, breaks (spec/06, spec/07). -/

namespace Sys2Proof.Machine

/-! ### Windows and transactions -/

/-- The link being IDLE in RUN, a window opens (R150). -/
def execWindowOpen (s : State) : Host.Outcome State Fault Refusal := .next (openWindow s)

/-- A word received in a mark slot (R150). -/
def execAttn (slot : StationId) (w : BandWord) (s : State) : Host.Outcome State Fault Refusal :=
  .next (receiveWord (some slot) w s)

/-- The end of slot 15 (R151, R152). -/
def execWindowClose (s : State) : Host.Outcome State Fault Refusal := .next (closeWindow s)

/-- The request window count, at its last block end, reaches 0 (R153). -/
def execRequestWindowExpiry (s : State) : Host.Outcome State Fault Refusal := .next (expireRequestWindow s)

/-- REPLY-2 has gone out (R156). -/
def execReplySent (s : State) : Host.Outcome State Fault Refusal := .next (sendReply s)

/-! ### Requests -/

/-- The first word of a two-word request (R153). -/
def execRequest1 (n : StationId) (k : MaskKind) (operand : Word16) (s : State) : Host.Outcome State Fault Refusal :=
  .next (receiveWord none (request1Word n (maskKindCode k) operand) s)

/-- HELLO (R127). -/
def execHello (n : StationId) (operand : Word16) (s : State) : Host.Outcome State Fault Refusal :=
  .next (receiveWord none (request1Word n 0x01 operand) s)

/-- PING (R128). -/
def execPing (n : StationId) (operand : Word16) (s : State) : Host.Outcome State Fault Refusal :=
  .next (receiveWord none (request1Word n 0x02 operand) s)

/-- OPEN (R129). -/
def execOpenGrip (n : StationId) (index : Word16) (s : State) : Host.Outcome State Fault Refusal :=
  .next (receiveWord none (request1Word n 0x03 index) s)

/-- NEXT (R104). -/
def execNextGrip (n : StationId) (operand : Word16) (s : State) : Host.Outcome State Fault Refusal :=
  .next (receiveWord none (request1Word n 0x04 operand) s)

/-- SET (R133, R134). -/
def execSetLevel (n : StationId) (level : Word16) (s : State) : Host.Outcome State Fault Refusal :=
  .next (receiveWord none (request1Word n 0x05 level) s)

/-- NUDGE (R135). -/
def execNudgeLevel (n : StationId) (amount : Word16) (s : State) : Host.Outcome State Fault Refusal :=
  .next (receiveWord none (request1Word n 0x06 amount) s)

/-- PAN (R136). -/
def execPanCell (n : StationId) (pan : Word16) (s : State) : Host.Outcome State Fault Refusal :=
  .next (receiveWord none (request1Word n 0x07 pan) s)

/-- MUTE-SET (R137, R138). -/
def execMuteSet (n : StationId) (mask : Word24) (s : State) : Host.Outcome State Fault Refusal :=
  .next (receiveMaskRequest n .muteSet mask s)

/-- MUTE-CLEAR (R137, R138). -/
def execMuteClear (n : StationId) (mask : Word24) (s : State) : Host.Outcome State Fault Refusal :=
  .next (receiveMaskRequest n .muteClear mask s)

/-- CLOSE (R130). -/
def execCloseGrip (n : StationId) (operand : Word16) (s : State) : Host.Outcome State Fault Refusal :=
  .next (receiveWord none (request1Word n 0x0A operand) s)

/-- RECALL (R139). -/
def execRecall (n : StationId) (operand : Word16) (s : State) : Host.Outcome State Fault Refusal :=
  .next (receiveWord none (request1Word n 0x0B operand) s)

/-- A REQUEST-1 with the kind code given (R126). -/
def execBadKindRequest (n : StationId) (kind : Byte) (operand : Word16) (s : State) : Host.Outcome State Fault Refusal :=
  .next (receiveWord none (request1Word n kind operand) s)

/-! ### Transfers -/

/-- The opening listen gap of a transfer ends (R157). -/
def execOpeningGapEnd (s : State) : Host.Outcome State Fault Refusal := .next (endOpeningGap s)

/-- A DATA-IN word and its listen gap complete (R157). -/
def execDataInWord (s : State) : Host.Outcome State Fault Refusal := .next (endWord s)

/-- STOP (R141, R157): received in a listen gap, not while the part drives the pair. -/
def execStopWord (n : StationId) (operand : StopOperand) (s : State) : Host.Outcome State Fault Refusal :=
  .next (receiveWord none { plainWord 9 n operand.content with driven := operand.driven } s)

/-! ### Polls -/

/-- ECHO (R158). -/
def execEcho (n : StationId) (content : Word24) (s : State) : Host.Outcome State Fault Refusal :=
  .next (receiveWord none (plainWord 11 n content) s)

/-- The echo window count, at its last block end, reaches 0 (R158). -/
def execEchoWindowExpiry (s : State) : Host.Outcome State Fault Refusal := .next (expireEchoWindow s)

/-! ### Words by what is wrong with them -/

/-- A damaged request, the word as it arrives (R154). -/
def execDamagedRequest (w : BandWord) (s : State) : Host.Outcome State Fault Refusal := .next (receiveWord none w s)

/-- A phase error, the word as it arrives (R155). -/
def execPhaseError (w : BandWord) (s : State) : Host.Outcome State Fault Refusal := .next (receiveWord none w s)

/-- A stray word, the word as it arrives (R159). -/
def execStrayWord (w : BandWord) (s : State) : Host.Outcome State Fault Refusal := .next (receiveWord none w s)

/-- A word with a bad check, the word as it arrives (R160). -/
def execBandCheck (w : BandWord) (s : State) : Host.Outcome State Fault Refusal := .next (receiveWord none w s)

/-- A word with a bad check in POLLING, the word as it arrives (R158). -/
def execBadCheckEcho (w : BandWord) (s : State) : Host.Outcome State Fault Refusal := .next (receiveWord none w s)

/-! ### Breaks -/

/-- The break count, at its last block end, reaches 0 (R162). -/
def execBreakCountExpiry (stationHolds : Bool) (s : State) : Host.Outcome State Fault Refusal :=
  .next (expireBreakCount stationHolds s)

/-- A break held for one block (R161). -/
def execBreakReceived (s : State) : Host.Outcome State Fault Refusal := .next (receiveBreak s)

/-- The pair is released (R161). -/
def execBreakRelease (s : State) : Host.Outcome State Fault Refusal := .next (releaseBreak s)

end Sys2Proof.Machine
end

