-- ==== Sys2Proof/Config.lean ====
section
/-! DEFINITION. What the spec leaves to one part: free values. None has a body, so no proof can lean on a value of one. -/

namespace Sys2Proof.Config

/-- Where inside its bound the part's own factor of a code's place in its decade of 40 lies (R174 gives gains as real
numbers, and no number format). Free value, log 17. Only its reading clamped to 0..1 is used (`Machine.unitClamp`). -/
opaque gainFraction : Nat → Rat

/-- The same for the left and right pan factors, by the angle in 128ths of a half turn (R174). Free value, log 17. -/
opaque panFraction : Nat → Rat

/-- The same for the samples of the tone, by the angle in 24ths of a half turn (R176). Free value, log 18. -/
opaque toneFraction : Nat → Rat

/-- The value byte that a CUE READ reply carries for a MUTE or UNMUTE edit, which CUE LOAD does not examine (spec/09,
CUE LOAD item 9). Fresh at each reading, by the model's counter. Free value, log 20. -/
opaque muteEditByte : Nat → Byte

end Sys2Proof.Config
end

