-- ==== Sys2Proof/Machine/Audio.lean ====
section
/-! DEFINITION. Source ports, patch, mix sums and output stage (spec/08). The factors of R174 are real numbers; the model
holds each as the whole number of 48-bit fractions below it, plus a free fraction of one such unit (log 17). -/

namespace Sys2Proof.Machine

/-! ### Factors -/

/-- The unit of the factors' bounds: one part in 2 to the 48. -/
def factorUnit : Rat := ((2 ^ 48 : Nat) : Rat)

/-- A free value read inside 0..1. -/
def unitClamp (x : Rat) : Rat := if x < 0 then 0 else if 1 < x then 1 else x

/-- A factor of which only the 48-bit floor is known: the floor and a free fraction of one unit. -/
def boundedFactor (floor : Nat) (fraction : Rat) : Rat := ((floor : Rat) + unitClamp fraction) / factorUnit

/-- The greatest number of `bits` bits, added to `acc`, that passes a test that only small numbers pass. -/
def rootSearch (ok : Nat → Bool) : Nat → Nat → Nat
  | 0, acc => acc
  | k + 1, acc => rootSearch ok k (if ok (acc + 2 ^ k) then acc + 2 ^ k else acc)

/-- The 48-bit floor of 10 to the power r / 40 (R174). -/
def decadeFloor (r : Nat) : Nat := rootSearch (fun n => decide (n ^ 40 ≤ 10 ^ r * 2 ^ (48 * 40))) 52 0

/-- 10 to the power r / 40, for the place r of a code in its decade of 40 codes (R174): exact at 0, else bounded. -/
def decadeFactor (r : Nat) : Rat := if r = 0 then 1 else boundedFactor (decadeFloor r) (Config.gainFraction r)

/-- The gain of a level code (R174): 0 for code 0, else 10 to the power (L - 200) / 40, the factor of the code's place in
its decade by a whole power of ten. So 40 codes more are ten times the gain. -/
def gain (l : Nat) : Rat :=
  if l = 0 then 0 else decadeFactor (l % 40) * (((10 ^ (l / 40) : Nat) : Rat) / ((10 ^ 5 : Nat) : Rat))

/-- The 48-bit floors of the cosine of k times 90/64 degrees, k from 0 to 64 (R174, Pan). -/
def cosineFloors : List Nat :=
  [281474976710656, 281390201710184, 281135927774059, 280712308067393, 280119597762857] ++
  [279358153886974, 278428435105064, 277331001444957, 276066513959653, 274635734329132] ++
  [273039524401542, 271278845674059, 269354758713710, 267268422518536, 265021093819447] ++
  [262614126323217, 260048969897066, 257327169695305, 254450365228603, 251420289376399] ++
  [248238767343085, 244907715558569, 241429140523889, 237805137602575, 234037889758477] ++
  [230129666240828, 226082821217338, 221899792356127, 217583099357370, 213135342435515] ++
  [208559200753021, 203857430806524, 199032864766430, 194088408770918, 189027041175396] ++
  [183851810758447, 178565834885358, 173172297630341, 167674447858561, 162075597269142] ++
  [156379118400326, 150588442597977, 144707057948671, 138738507178602, 132686385519576] ++
  [126554338543377, 120346059965811, 114065289421750, 107715810212517, 101301447026966] ++
  [94826063637631, 88293560573336, 81707872769660, 75072967198681, 68392840479422] ++
  [61671516470430, 54913043845964, 48121493657215, 41300956880066, 34455541950835] ++
  [27589372291508, 20706583825945, 13811322488556, 6907741726937, 0]

/-- The cosine of k times 90/64 degrees (R174, Pan): exact at 0 and 90 degrees, else bounded. -/
def panCosine (k : Nat) : Rat :=
  if k = 0 then 1 else if 64 ≤ k then 0 else boundedFactor (cosineFloors.getD k 0) (Config.panFraction k)

/-- The left pan factor of a pan code: the cosine of ((p + 32) / 64) times 90 degrees (R174). -/
def panLeft (p : Int) : Rat := panCosine (p + 32).toNat

/-- The right pan factor: the sine of the same angle, which is the cosine of the rest of the quarter turn (R174). -/
def panRight (p : Int) : Rat := panCosine (32 - p).toNat

/-- The 48-bit floors of the sine of k times 7.5 degrees, k from 0 to 12. -/
def sineFloors : List Nat :=
  [0, 36739856915269, 72851084692506, 107715810212517, 140737488355328] ++
  [171351109052575, 199032864766430, 223309112981796, 243764480361061, 260048969897066] ++
  [271883949458936, 279066919265092, 281474976710656]

/-- The sine of k times 7.5 degrees in the first quarter turn: exact at 0, 30 and 90 degrees, else bounded. -/
def quarterSine (k : Nat) : Rat :=
  if k = 0 then 0 else if k = 4 then 1 / 2 else if 12 ≤ k then 1
  else boundedFactor (sineFloors.getD k 0) (Config.toneFraction k)

/-- The sine at place k of a cycle of 48 samples. -/
def cycleSine (k : Nat) : Rat :=
  if k ≤ 12 then quarterSine k
  else if k ≤ 24 then quarterSine (24 - k)
  else if k ≤ 36 then - quarterSine (k - 24)
  else - quarterSine (48 - k)

/-! ### Source ports and selection -/

/-- A port record after one block is judged: the six rows of R167. -/
def judgePort (good : Bool) (r : PortRecord) : PortRecord :=
  if r.locked then
    if good then { r with badRun := 0 }
    else if r.badRun < 3 then { r with badRun := r.badRun + 1 }
    else { locked := false, badRun := 0, goodRun := 0 }
  else
    if good then
      if r.goodRun < 15 then { r with goodRun := r.goodRun + 1 }
      else { locked := true, badRun := 0, goodRun := 0 }
    else { r with goodRun := 0 }

/-- The other port. -/
def otherPort : Port → Port
  | .a => .b
  | .b => .a

def Sources.port (x : Sources) : Port → PortRecord
  | .a => x.portA
  | .b => x.portB

def Sources.setPort (x : Sources) (p : Port) (r : PortRecord) : Sources :=
  match p with
  | .a => { x with portA := r }
  | .b => { x with portB := r }

/-- What the evaluation of R170 makes the active port, and the event it latches. -/
structure Selection where
  active : Option Port
  event : Option Event
  deriving DecidableEq, Repr

/-- The evaluation of the active port, both port records updated: the two tables of R170. -/
def selectPort (x : Sources) : Selection :=
  match x.mode, x.active with
  | .auto, some p =>
    if (x.port p).locked then { active := some p, event := none }
    else if (x.port (otherPort p)).locked then { active := some (otherPort p), event := some .sourceSwitch }
    else { active := none, event := some .sourceLost }
  | .auto, none =>
    if x.portA.locked then { active := some .a, event := some .sourceRestored }
    else if x.portB.locked then { active := some .b, event := some .sourceRestored }
    else { active := none, event := none }
  | .force p, some q =>
    if (x.port p).locked then
      if q = p then { active := some p, event := none } else { active := some p, event := some .sourceSwitch }
    else { active := none, event := some .sourceLost }
  | .force p, none =>
    if (x.port p).locked then { active := some p, event := some .sourceRestored }
    else { active := none, event := none }

/-- The audio that the next sums use: the block of the port that was active during it, if judged good (R168, R172). -/
def captureBlock (active : Option Port) (a b : PortBlock) : List (List Rat) :=
  match active with
  | none => []
  | some .a => if a.good then a.audio else []
  | some .b => if b.good then b.audio else []

/-- SRC's block-end work: the block captured, both ports judged, the active port evaluated (R167, R168, R170). -/
def sourceBlockEnd (a b : PortBlock) (s : State) : State :=
  let x := { s.src with
    captured := captureBlock s.src.active a b
    portA := judgePort a.good s.src.portA
    portB := judgePort b.good s.src.portB }
  let r := selectPort x
  let s := s.setSrc { x with active := r.active }
  match r.event with
  | none => s
  | some e => s.report e

/-- The 16th consecutive good block of a NO_LOCK port (R167). -/
def lockPort (p : Port) (s : State) : State :=
  let r := s.src.port p
  if s.run = .run ∧ r.locked = false ∧ r.goodRun = 15 then s.setSrc (s.src.setPort p (judgePort true r)) else s

/-- The 4th consecutive bad block of a LOCKED port (R167). -/
def loseLock (p : Port) (s : State) : State :=
  let r := s.src.port p
  if s.run = .run ∧ r.locked = true ∧ r.badRun = 3 then s.setSrc (s.src.setPort p (judgePort false r)) else s

/-! ### The patch -/

/-- One run of patch entries written into the table, from a source upward (R173). -/
def writePatchRun (first : Nat) : List (Option Channel) → Vector (Option Channel) 48 → Vector (Option Channel) 48
  | [], t => t
  | c :: rest, t => writePatchRun (first + 1) rest (if h : first < 48 then tableSet t ⟨first, h⟩ c else t)

/-- All pending patches are written, in the order they were taken (R173). -/
def applyPatches (s : State) : State :=
  s.setSrc { s.src with
    patch := s.src.pending.foldl (fun t r => writePatchRun r.first r.channels t) s.src.patch
    pending := [] }

/-! ### The mix sums -/

/-- The samples a source feeds into the sums: those of its patched channel in the captured block, silence when it is
UNPATCHED or nothing was captured (R168, R172). -/
def sourceSamples (x : Sources) (src : Fin 48) : List Rat :=
  match tableGet x.patch src with
  | none => []
  | some ch => (x.captured.getD ch.val []).take 32

/-- A block with a contribution added, sample by sample; a sample not listed adds nothing. -/
def addContribution (left right : Rat) : StereoBlock → List Rat → StereoBlock
  | [], _ => []
  | block, [] => block
  | p :: block, x :: xs => (p.1 + x * left, p.2 + x * right) :: addContribution left right block xs

/-- The left and right sums of a mix over one block (R174). -/
def mixSum (m : Fin 16) (s : State) : StereoBlock :=
  (List.finRange 48).foldl (fun block src =>
    let x := s.cell ⟨m, src⟩
    addContribution (gain x.heard * panLeft x.pan) (gain x.heard * panRight x.pan) block (sourceSamples s.src src))
    StereoBlock.silence

/-! ### The output stage -/

def ratAbs (x : Rat) : Rat := if x < 0 then -x else x

def ratMax (x y : Rat) : Rat := if x < y then y else x

/-- The largest absolute sample value over both channels (R177). -/
def blockPeak (b : StereoBlock) : Rat := b.foldl (fun p x => ratMax p (ratMax (ratAbs x.1) (ratAbs x.2))) 0

def scaleBlock (k : Rat) (b : StereoBlock) : StereoBlock := b.map (fun x => (x.1 * k, x.2 * k))

/-- A sample held within full scale (R176, step 5). -/
def clipSample (x : Rat) : Rat := if x < -1 then -1 else if 1 < x then 1 else x

/-- The tone: a 1 kHz sine at -20 dBFS, 48 samples to the cycle, the same in both channels (R176). -/
def toneBlock (place : Nat) : StereoBlock :=
  (List.range 32).map (fun i =>
    let x := gain 160 * cycleSine ((place + i) % 48)
    (x, x))

/-- Whether a mix's output is silenced by its mode or by hush (R176, step 1). -/
def outputSilenced (m : Fin 16) (s : State) : Bool := decide ((s.outputRecord m).mode = .off) || s.out.hush

/-- The block a mix's mode chooses (R176, step 2). -/
def outputSource (m : Fin 16) (s : State) : StereoBlock :=
  match (s.outputRecord m).mode with
  | .off => StereoBlock.silence
  | .normal => mixSum m s
  | .mirror => mixSum (s.outputRecord m).target s
  | .tone => toneBlock s.out.tone

/-- Whether the mix's block is scaled down to its ceiling (R177); a silenced mix is not checked. -/
def exceedsCeiling (m : Fin 16) (s : State) : Bool :=
  !outputSilenced m s && decide (gain (s.outputRecord m).ceiling < blockPeak (outputSource m s))

/-- The mix's output block (R176). -/
def outputBlock (m : Fin 16) (s : State) : StereoBlock :=
  if outputSilenced m s then StereoBlock.silence
  else
    let r := s.outputRecord m
    let b := outputSource m s
    let b := if exceedsCeiling m s then scaleBlock (gain r.ceiling / blockPeak b) b else b
    let b := scaleBlock ((r.fadeIn : Rat) / 32) b
    b.map (fun x => (clipSample x.1, clipSample x.2))

/-- The output record after a block start: a scaled block is a hit, saturating (R177). -/
def countHit (m : Fin 16) (s : State) : OutputRecord :=
  let r := s.outputRecord m
  if exceedsCeiling m s then { r with hits := min (r.hits + 1) 65535 } else r

/-- The tone generator runs on by one block (R176, log 18). -/
def nextTone (place : Nat) : Nat := (place + 32) % 48

/-- OUT's work at a block start in RUN (R176, R177). -/
def formOutputs (s : State) : State :=
  let t := s.setOut { s.out with
    records := Vector.ofFn (fun m => countHit m s)
    delivered := Vector.ofFn (fun m => outputBlock m s)
    tone := nextTone s.out.tone }
  if (List.finRange 16).any (fun m => exceedsCeiling m s) then t.report .ceiling else t

/-- A block start: pending patches, sums, outputs (R173, R174, R176); in INIT every output delivers silence. -/
def blockStart (s : State) : State :=
  if s.run = .run then formOutputs (applyPatches s)
  else s.setOut { s.out with delivered := Vector.replicate 16 StereoBlock.silence, tone := nextTone s.out.tone }

/-- OUT's block-end work: with hush off, each fade-in position below 32 rises by 1 (R179). -/
def fadeBlockEnd (s : State) : State :=
  if s.out.hush then s
  else s.setOut { s.out with records := s.out.records.map (fun r => { r with fadeIn := if r.fadeIn < 32 then r.fadeIn + 1 else r.fadeIn }) }

/-! ### Commands -/

/-- HUSH (R179). -/
def setHush (on : Bool) (s : State) : State :=
  if on && !s.out.hush then
    s.setOut { s.out with hush := true, records := s.out.records.map (fun r => { r with fadeIn := 0 }) }
  else s.setOut { s.out with hush := on }

/-- OUTPUT MODE, its operands judged: the target for MIRROR only; leaving OFF starts a fade-in (R175). -/
def setOutputMode (m : Fin 16) (mode : OutputMode) (target : Option (Fin 16)) (s : State) : State :=
  let r := s.outputRecord m
  s.setOutputRecord m { r with
    mode := mode
    target := target.getD r.target
    fadeIn := if r.mode = .off ∧ mode ≠ .off then 0 else r.fadeIn }

def setCeiling (m : Fin 16) (code : Nat) (s : State) : State :=
  s.setOutputRecord m { s.outputRecord m with ceiling := code }

/-- Every hit count becomes 0 (R178). -/
def clearHits (s : State) : State :=
  s.setOut { s.out with records := s.out.records.map (fun r => { r with hits := 0 }) }

def setSourceMode (m : SelectionMode) (s : State) : State := s.setSrc { s.src with mode := m }

def addPatch (r : PatchRun) (s : State) : State := s.setSrc { s.src with pending := s.src.pending ++ [r] }

/-- SOFT RESET at SRC and OUT (R169, R175, R180). -/
def outputSoftReset (s : State) : State :=
  (setSourceMode .auto s).setOut { s.out with
    hush := false, records := s.out.records.map (fun r => { r with hits := 0, fadeIn := 32 }) }

end Sys2Proof.Machine
end

