-- ==== Sys2Proof/Machine/Show.lean ====
section
/-! DEFINITION. The Show Link Receiver (spec/03, The Show Link): characters, messages, framing errors and the gap. -/

namespace Sys2Proof.Machine

/-- The partial message is discarded or emptied. -/
def clearPartial (s : State) : State := s.setSlr { chars := [], gap := 0 }

/-- The partial message is discarded and SHOW_CHECK is latched (R76). -/
def discardMessage (s : State) : State := (clearPartial s).report .showCheck

/-- A message with a good check and a known kind, as CUE takes it; none for an unknown kind (R75, R76). -/
def showCommand (kind hi lo : Byte) (s : State) : Option State :=
  match kind.toNat with
  | 1 => some (fireNext s)
  | 2 => some (cueGoto (word16 hi lo).toNat s)
  | 3 => some (cueFlagsSet (word16 hi lo) s)
  | 4 => some (cueFlagsClear (word16 hi lo) s)
  | 5 => some (cueHoldOn s)
  | 6 => some (cueHoldOff s)
  | _ => none

/-- The four bytes are checked and passed to CUE, or discarded (R75, R76). -/
def takeMessage (b0 b1 b2 b3 : Byte) (s : State) : State :=
  if b0 + b1 + b2 + b3 = 0xFF then
    match showCommand b0 b1 b2 (clearPartial s) with
    | some t => t
    | none => discardMessage s
  else discardMessage s

/-- A character with a good stop bit, in RUN (R76); in INIT it is discarded (R77). -/
def showCharacter (b : Byte) (s : State) : State :=
  if s.run = .run then
    match s.slr.chars with
    | [b0, b1, b2] => takeMessage b0 b1 b2 b s
    | held => s.setSlr { chars := held ++ [b], gap := 0 }
  else s

/-- The fourth character of a message, where three are held (R76). -/
def showFourth (b : Byte) (s : State) : State := if s.slr.chars.length = 3 then showCharacter b s else s

/-- The four characters of a message: kind, operand high and low, check (R75). -/
def messageChars (kind : Byte) (operand : Word16) : List Byte :=
  [kind, hiByte operand, loByte operand, 0xFF - kind - hiByte operand - loByte operand]

/-- A message sent whole, its four characters one after the other (R75, R76, log 6). -/
def showMessageOf (kind : Byte) (operand : Word16) (s : State) : State :=
  (messageChars kind operand).foldl (fun s b => showCharacter b s) s

/-- A character with a bad stop bit (R76). -/
def showFramingError (s : State) : State := if s.run = .run then discardMessage s else s

/-- The second block end without a character discards a partial message (R76). -/
def showGap (s : State) : State :=
  if s.run = .run ∧ s.slr.chars ≠ [] ∧ s.slr.gap = 1 then discardMessage s else s

/-- SLR's block-end work (R76). -/
def showBlockEnd (s : State) : State :=
  if s.slr.chars = [] then s
  else if 1 ≤ s.slr.gap then discardMessage s
  else s.setSlr { s.slr with gap := s.slr.gap + 1 }

end Sys2Proof.Machine
end

