-- ==== Sys2Proof/Machine/System.lean ====
section
/-! DEFINITION. What acts on every block at once: entering INIT and RUN, SOFT RESET, and the block end (spec/10, R171). -/

namespace Sys2Proof.Machine

/-- The frame after the part enters INIT: a frame in progress is cut, and bytes are ignored until select goes inactive
(R187). -/
def cutFrame : FrameState → FrameState
  | .noFrame => .noFrame
  | _ => .cut

/-- The part enters INIT: everything in progress is dropped and the start-up clear writes every block's state (R195). The
free-value counter and the waiting commands are the model's own and stay. -/
def enterInit (pinActive : Bool) (s : State) : State :=
  { State.reset with
    resetPin := pinActive
    eli := { EngineerLink.startUp with frame := cutFrame s.eli.frame }
    free := s.free
    pending := s.pending }

/-- The reset pin is released; the start-up clear will complete (R196). -/
def releasePin (s : State) : State := s.setResetPin false

/-- The start-up clear completes: RUN, and STARTUP_DONE is latched (R196). It does not while the pin is active (R195). -/
def completeStartUp (s : State) : State :=
  if s.run = .init ∧ s.resetPin = false then (s.setRun .run).report .startupDone else s

/-- ELI after SOFT RESET: frame state, staging buffer and refused indicator kept (R192). -/
def eliSoftReset (s : State) : State :=
  s.setEli { s.eli with
    page := .basic, pointer := ⟨0, 0⟩, walk := .across, field := .level, latch := 0, glideLength := 8 }

/-- SOFT RESET, taken whole across all blocks (R197 and the rules its table names). -/
def softReset (s : State) : State :=
  let s := glideEmpty s
  let s := cueSoftReset s
  let s := (linkReset 2 s).setLockout 0
  let s := outputSoftReset s
  (eliSoftReset s).setEvl EventLatch.startUp

/-- A block end: every block does its block-end work (R171); in INIT it finds nothing to advance (R195). CUE's check comes
after GLU's advance (R61, R63). -/
def blockEnd (a b : PortBlock) (stationHolds : Bool) (s : State) : State :=
  if s.run = .run then
    let s := sourceBlockEnd a b s
    let s := glideAdvance s
    let s := cueBlockEnd s
    let s := idleBlockEnd s
    let s := linkBlockEnd stationHolds s
    let s := fadeBlockEnd s
    showBlockEnd s
  else s

end Sys2Proof.Machine
end

