-- ==== Sys2Proof/Machine/BlockCommands.lean ====
section
/-! DEFINITION. The meanings of the block clock's commands: block start, block end, and the parts of a block end that the table lists as events of their own (log 4). -/

namespace Sys2Proof.Machine

/-- A block start (R173, R174, R176, R177). -/
def execBlockStart (s : State) : Host.Outcome State Fault Refusal := .next (blockStart s)

/-- A block end: every block's block-end work (R171). -/
def execBlockEnd (a b : PortBlock) (stationHolds : Bool) (s : State) : Host.Outcome State Fault Refusal :=
  .next (blockEnd a b stationHolds s)

/-- An entry with remaining 1 completes (R38). -/
def execGlideEntryComplete (c : CellId) (s : State) : Host.Outcome State Fault Refusal := .next (inRun (glideComplete c) s)

/-- CUE's completion check in FADING, and the follow-on handling (R61, R62). -/
def execCueDone (s : State) : Host.Outcome State Fault Refusal := .next (inRun completionCheck s)

/-- The follow-wait timer, at its last block end, reaches 0 (R63). -/
def execFollowWaitExpiry (s : State) : Host.Outcome State Fault Refusal := .next (inRun expireFollowTimer s)

/-- A NO_LOCK port's 16th consecutive good block (R167). -/
def execPortLock (p : Port) (s : State) : Host.Outcome State Fault Refusal := .next (lockPort p s)

/-- A LOCKED port's 4th consecutive bad block (R167). -/
def execPortLoseLock (p : Port) (s : State) : Host.Outcome State Fault Refusal := .next (loseLock p s)

end Sys2Proof.Machine
end

