-- ==== Sys2Proof/Machine/Engineer.lean ====
section
/-! DEFINITION. The Engineer Link Interface (spec/09): frames and headers, the command stream, what each console command does
once it is taken, replies, cell bytes and the frame end. -/

namespace Sys2Proof.Machine

/-- A refusal at the Engineer Link (R186). -/
def refuseConsole (s : State) : State := s.setEli { s.eli with refused := true }

/-- A reply is formed: its bytes wait for the COMMAND positions that follow (R185). -/
def formReply (bytes : List Byte) (s : State) : State :=
  s.setEli { s.eli with reply := bytes.map (fun b => { value := b, clears := 0 }) }

/-! ### What each command does when it is taken -/

def takePosition (mix source : Byte) (s : State) : State :=
  match inRange 16 mix, inRange 48 source with
  | some m, some src => s.setEli { s.eli with pointer := ⟨m, src⟩ }
  | _, _ => refuseConsole s

def takeWalk (mode : Byte) (s : State) : State :=
  match walkModeOf mode with
  | some w => s.setEli { s.eli with walk := w }
  | none => refuseConsole s

def takeField (select : Byte) (s : State) : State :=
  match fieldOf select with
  | some f => s.setEli { s.eli with field := f }
  | none => refuseConsole s

def takePage (value : Byte) (s : State) : State :=
  match pageOf value with
  | some p => s.setEli { s.eli with page := p }
  | none => refuseConsole s

/-- STATUS (R191): the reply is formed, then the refused indicator is cleared. -/
def takeStatus (s : State) : State :=
  let s := formReply [statusReplyByte s] s
  s.setEli { s.eli with refused := false }

/-- EVENTS (R194): two bytes, events 8 to 15 first; each clears, as it goes out, the marks it returns. -/
def takeEvents (s : State) : State :=
  s.setEli { s.eli with
    reply := [{ value := hiByte s.evl.marks, clears := s.evl.marks &&& 0xFF00#16 },
              { value := loByte s.evl.marks, clears := s.evl.marks &&& 0x00FF#16 }] }

/-- ENABLES (R193). -/
def takeEnables (mask : Word16) (s : State) : State := s.setEvl { s.evl with enables := mask }

/-- HUSH (R179). -/
def takeHush (value : Byte) (s : State) : State :=
  match yesNo value with
  | some on => setHush on s
  | none => refuseConsole s

/-- LOCKOUT (R96). -/
def takeLockout (level : Byte) (s : State) : State :=
  if level.toNat ≤ 7 then s.setLockout level.toNat else refuseConsole s

/-- STATION PROFILE (R87). -/
def takeStationProfile (station priority admitted : Byte) (s : State) : State :=
  match inRange 16 station, inRange 8 priority, yesNo admitted with
  | some n, some p, some a => applyProfile n p.val a s
  | _, _, _ => refuseConsole s

/-- A station state in the STATION READ reply (spec/09). -/
def stationStateCode : StationState → Byte
  | .absent => 0
  | .attached => 1
  | .lost => 2

/-- The grip byte of the STATION READ reply (spec/09). -/
def gripByte : Option Grip → Byte
  | none => 255
  | some g => byteOfNat g.index.val ||| flagBit (decide (g.state = .stale)) 7

/-- The ten bytes of a STATION READ reply (R95, spec/09). -/
def stationReadBytes (n : StationId) (s : State) : List Byte :=
  let x := s.station n
  [stationStateCode x.state, flagBit x.admitted 0, byteOfNat x.priority, byteOfNat x.checkCount, byteOfNat x.missRun] ++
  twoBytes x.idle ++ [byteOfNat (presentCount x.map), gripByte (s.grip n), byteOfNat s.lockout]

/-- STATION READ (R95): the reply is formed, then the check count is cleared. -/
def takeStationRead (station : Byte) (s : State) : State :=
  match inRange 16 station with
  | some n => (formReply (stationReadBytes n s) s).setStation n { s.station n with checkCount := 0 }
  | none => refuseConsole s

/-- Three bytes of a MAP READ reply (spec/09). -/
def mapSlotBytes : Option MapEntry → List Byte
  | none => [255, 255, 255]
  | some e => [byteOfNat e.cell.mix.val, byteOfNat e.cell.source.val, byteOfNat (rightCode e.right)]

/-- MAP READ (R94). -/
def takeMapRead (station : Byte) (s : State) : State :=
  match inRange 16 station with
  | some n => formReply ((List.finRange 24).flatMap (fun i => mapSlotBytes (mapAt (s.station n).map i))) s
  | none => refuseConsole s

/-- CUE DELETE (R72). -/
def takeCueDelete (slot : Byte) (s : State) : State :=
  match inRange 96 slot with
  | some n => cueDelete n s
  | none => refuseConsole s

def phaseCode : Phase → Byte
  | .idle => 0
  | .fading => 1
  | .followWait => 2

/-- A cue number in a reply byte, 255 for none or END (spec/09). -/
def cueByte : Option CueId → Byte
  | none => 255
  | some n => byteOfNat n.val

/-- A mask in two bytes, F8 to F15 first (spec/09). -/
def maskBytes (m : Word16) : List Byte := [hiByte m, loByte m]

/-- The engine summary of CUE READ (R74, spec/09). -/
def engineSummary (s : State) : List Byte :=
  let e := s.cue
  [cueByte e.nextPointer, phaseCode e.phase, cueByte (e.running.map (·.cue)),
   byteOfNat ((e.running.map (·.outstanding)).getD 0)] ++
  twoBytes e.timer ++ [flagBit e.hold 0] ++ maskBytes e.flags ++ twoBytes e.poolUsed

/-- An optional item of a cue record: presence 0, or presence 1 and its bytes (spec/09). -/
def itemBytes {α : Type} (f : α → List Byte) : Option α → List Byte
  | none => [0]
  | some x => 1 :: f x

def targetByte : EditTarget → Byte
  | .mix m => byteOfNat m.val
  | .all => 255

/-- The action and value bytes of an edit. The value byte of MUTE and UNMUTE is a free value (log 20). -/
def actionBytes (freeIndex : Nat) : EditAction → List Byte
  | .level v => [0, byteOfNat v]
  | .nudge d => [1, byteOfInt d]
  | .mute => [2, Config.muteEditByte freeIndex]
  | .unmute => [3, Config.muteEditByte freeIndex]
  | .pan p => [4, byteOfInt p]

/-- The edits of a record, four bytes each, free values numbered from `freeIndex` on. -/
def editsBytes (freeIndex : Nat) : List CueEdit → List Byte
  | [] => []
  | e :: rest =>
    [targetByte e.target, byteOfNat e.source.val] ++ actionBytes freeIndex e.action ++ editsBytes (freeIndex + 1) rest

/-- A cue record in the order of CUE LOAD items 2 to 9 (R74, spec/09). -/
def cueRecordBytes (freeIndex : Nat) (r : CueRecord) : List Byte :=
  itemBytes (fun g : Guard => maskBytes g.mask ++ [senseCode g.sense]) r.guard ++
  itemBytes (fun c : CueId => [byteOfNat c.val]) r.alternate ++
  itemBytes (fun f : FollowOn => byteOfNat f.cue.val :: twoBytes f.wait) r.followOn ++
  twoBytes r.fade ++ itemBytes maskBytes r.setMask ++ itemBytes maskBytes r.clearMask ++
  [byteOfNat r.edits.length] ++ editsBytes freeIndex r.edits

/-- The slot part of a CUE READ reply: the occupied byte, and the record (R74). -/
def cueSlotBytes (freeIndex : Nat) : Option CueRecord → List Byte
  | none => [0]
  | some r => 1 :: cueRecordBytes freeIndex r

/-- CUE READ (R74). The free-value counter moves past the edits read. -/
def takeCueRead (slot : Byte) (s : State) : State :=
  match inRange 96 slot with
  | some n => (formReply (engineSummary s ++ cueSlotBytes s.free (s.slot n)) s).setFree (s.free + slotEdits (s.slot n))
  | none => refuseConsole s

/-- CUE POINTER (R69): an occupied slot, or 255 for END. -/
def takeCuePointer (value : Byte) (s : State) : State :=
  if value = 255 then cueSetPointer none s
  else
    match inRange 96 value with
    | some n => if s.occupied n then cueSetPointer (some n) s else refuseConsole s
    | none => refuseConsole s

/-- The console's GOTO: above 95 it is refused at the Engineer Link (R66). -/
def takeGoto (cue : Byte) (s : State) : State :=
  match inRange 96 cue with
  | some n => fire n s
  | none => refuseConsole s

/-- HOLD (R68). -/
def takeHold (value : Byte) (s : State) : State :=
  match yesNo value with
  | some on => if on then cueHoldOn s else cueHoldOff s
  | none => refuseConsole s

/-- SOURCE MODE (R169). -/
def takeSourceMode (value : Byte) (s : State) : State :=
  match selectionModeOf value with
  | some m => setSourceMode m s
  | none => refuseConsole s

/-- PATCH (R173): a valid run waits for the next block start. -/
def takePatch (body : List Byte) (s : State) : State :=
  match readPatch body with
  | some r => addPatch r s
  | none => refuseConsole s

/-- OUTPUT MODE (R175): the target is examined only when the mode is MIRROR. -/
def takeOutputMode (mix mode target : Byte) (s : State) : State :=
  match inRange 16 mix, outputModeOf mode with
  | some m, some o =>
    if o = .mirror then
      match inRange 16 target with
      | some t => setOutputMode m o (some t) s
      | none => refuseConsole s
    else setOutputMode m o none s
  | _, _ => refuseConsole s

/-- CEILING (R177). -/
def takeCeiling (mix code : Byte) (s : State) : State :=
  match inRange 16 mix, levelOf code with
  | some m, some c => setCeiling m c s
  | _, _ => refuseConsole s

/-- The 32 bytes of a HITS READ reply (R178). -/
def hitsBytes (s : State) : List Byte := (List.finRange 16).flatMap (fun m => twoBytes (s.outputRecord m).hits)

/-- HITS READ (R178): the reply is formed, then every hit count is cleared. -/
def takeHitsRead (s : State) : State := clearHits (formReply (hitsBytes s) s)

/-- GLIDE LENGTH (R41): every value of the byte is in range. -/
def takeGlideLength (value : Byte) (s : State) : State := s.setEli { s.eli with glideLength := value.toNat }

/-- MIX COPY (R25). -/
def takeMixCopy (a b : Byte) (s : State) : State :=
  match inRange 16 a, inRange 16 b with
  | some x, some y => mixCopy x y s
  | _, _ => refuseConsole s

/-- MIX CLEAR (R26). -/
def takeMixClear (mix : Byte) (s : State) : State :=
  match inRange 16 mix with
  | some m => mixClear m s
  | none => refuseConsole s

/-- A command of the current page, its operands complete, passed to its owner (R184). The two loads are not taken here:
the staging buffer holds them for the frame end (R190). -/
def takeCode (code : ConsoleCode) (ops : List Byte) (s : State) : State :=
  match code, ops with
  | .nop, _ => s
  | .position, [m, src] => takePosition m src s
  | .walk, [v] => takeWalk v s
  | .field, [v] => takeField v s
  | .page, [v] => takePage v s
  | .status, _ => takeStatus s
  | .events, _ => takeEvents s
  | .enables, [hi, lo] => takeEnables (word16 hi lo) s
  | .hush, [v] => takeHush v s
  | .softReset, _ => softReset s
  | .lockout, [v] => takeLockout v s
  | .stationProfile, [n, p, a] => takeStationProfile n p a s
  | .stationRead, [n] => takeStationRead n s
  | .mapRead, [n] => takeMapRead n s
  | .cueDelete, [n] => takeCueDelete n s
  | .cueRead, [n] => takeCueRead n s
  | .cuePointer, [v] => takeCuePointer v s
  | .go, _ => fireNext s
  | .goto, [c] => takeGoto c s
  | .stop, _ => cueStop s
  | .hold, [v] => takeHold v s
  | .flagsSet, [hi, lo] => cueFlagsSet (word16 hi lo) s
  | .flagsClear, [hi, lo] => cueFlagsClear (word16 hi lo) s
  | .linkReset, _ => issueLinkReset s
  | .sourceMode, [v] => takeSourceMode v s
  | .patch, body => takePatch body s
  | .outputMode, [m, o, t] => takeOutputMode m o t s
  | .ceiling, [m, c] => takeCeiling m c s
  | .hitsRead, _ => takeHitsRead s
  | .glideLength, [v] => takeGlideLength v s
  | .mixCopy, [a, b] => takeMixCopy a b s
  | .mixClear, [m] => takeMixClear m s
  | _, _ => s

/-! ### The command stream -/

/-- The bytes received of the command in arrival, code first (R183). -/
def heldBytes (e : EngineerLink) : List Byte :=
  match e.arrival with
  | .none => []
  | .bytes bs => bs
  | .staged => e.staging.getD []

/-- Whether the command in arrival, with the code just decoded if it is its first byte, is the load that the staging buffer
holds: the first of the frame, on the EXTENDED page (R190). -/
def takesBuffer (e : EngineerLink) (code : ConsoleCode) : Bool :=
  match e.arrival with
  | .staged => true
  | .bytes _ => false
  | .none => isLoad code && decide (e.page = .extended) && e.staging.isNone

/-- A command read through to its last byte: refused on the other page, and for a second load in a frame (R184, R190). -/
def judgeCommand (code : ConsoleCode) (ops : List Byte) (s : State) : State :=
  if codeOnPage code s.eli.page = false ∨ isLoad code = true then refuseConsole s else takeCode code ops s

/-- A byte of the command stream in RUN, no reply byte being due (R183, R184, R190). -/
def collectByte (b : Byte) (s : State) : State :=
  let held := heldBytes s.eli ++ [b]
  match codeOf (held.headD 0) with
  | none => refuseConsole (s.setEli { s.eli with arrival := .none })
  | some code =>
    let whole := operandsComplete (codeShape code) held.tail
    if takesBuffer s.eli code then
      s.setEli { s.eli with staging := some held, arrival := if whole then .none else .staged }
    else if whole then judgeCommand code held.tail (s.setEli { s.eli with arrival := .none })
    else s.setEli { s.eli with arrival := .bytes held }

/-- A reply byte goes out, and the marks it returned as set are cleared (R185, R194). -/
def sendReplyByte (r : ReplyByte) (rest : List ReplyByte) (s : State) : State :=
  (s.setEli { s.eli with reply := rest, dataOut := r.value }).setEvl
    { s.evl with marks := s.evl.marks &&& ~~~r.clears }

/-- A byte at a COMMAND position (R183, R184, R185). In INIT the STATUS code is taken and every other byte ignored (R187). -/
def streamByte (b : Byte) (s : State) : State :=
  match s.eli.reply with
  | r :: rest => sendReplyByte r rest s
  | [] =>
    let s := s.setEli { s.eli with dataOut := 0 }
    if s.run = .run then collectByte b s
    else if b = codeByte .status then takeStatus s
    else s

/-! ### Frames -/

/-- Select becomes active (R182). -/
def startFrame (s : State) : State :=
  if s.eli.frame = .noFrame then s.setEli { s.eli with frame := .headerDue } else s

/-- The kind in bits 1-0 of a header (R182). -/
def headerKind (b : Byte) : ByteKind :=
  match (b.extractLsb' 0 2).toNat with
  | 0 => .command
  | 1 => .writeCells
  | 2 => .readCells
  | _ => .ignored

/-- A header byte (R182): its continuation flag in bit 7; kind 3 is refused. -/
def takeHeader (b : Byte) (s : State) : State :=
  let kind := headerKind b
  let s := s.setEli { s.eli with frame := if b.getLsbD 7 then .one kind else .run kind, dataOut := 0 }
  if kind = .ignored then refuseConsole s else s

/-- A byte sent as a header: one where a header is due, an ignored byte at an ignored position; no header can come
elsewhere (R182, log 3). -/
def headerByte (b : Byte) (s : State) : State :=
  match s.eli.frame with
  | .headerDue => takeHeader b s
  | .one .ignored => s.setEli { s.eli with frame := .headerDue, dataOut := 0 }
  | .run .ignored => s.setEli { s.eli with dataOut := 0 }
  | _ => s

/-- How the byte after one of a kind is read, for a frame in which a byte of that kind can come; where a header is due, the
console's header of that kind, continuation set, comes before it (log 6). None where no such byte can come. -/
def frameAfter (kind : ByteKind) (f : FrameState) : Option FrameState :=
  match f with
  | .headerDue => some .headerDue
  | .one k => if k = kind then some .headerDue else none
  | .run k => if k = kind then some (.run k) else none
  | .noFrame => none
  | .cut => none

/-- One byte sent as a byte of a kind: at an ignored position it is ignored; where no byte of that kind can come nothing
happens (log 3, log 6). -/
def byteOfKind (kind : ByteKind) (act : State → State) (s : State) : State :=
  match s.eli.frame with
  | .one .ignored => s.setEli { s.eli with frame := .headerDue, dataOut := 0 }
  | .run .ignored => s.setEli { s.eli with dataOut := 0 }
  | f =>
    match frameAfter kind f with
    | none => s
    | some g =>
      let t := act s
      t.setEli { t.eli with frame := g }

/-- A COMMAND position that carries a reply byte; none comes while no reply byte is due (R185, log 3). -/
def replyPosition (b : Byte) (s : State) : State :=
  if s.eli.reply = [] then s else byteOfKind .command (streamByte b) s

/-- Bytes delivered one after the other at COMMAND positions of the frame (R183, log 6); nothing happens where no COMMAND
byte can come (log 3). -/
def sendBytes (bytes : List Byte) (s : State) : State :=
  match frameAfter .command s.eli.frame with
  | none => s
  | some g =>
    let t := bytes.foldl (fun s b => streamByte b s) s
    t.setEli { t.eli with frame := g }

/-- The bytes of a whole command, code first (R184). -/
def sendCommand (code : ConsoleCode) (ops : List Byte) (s : State) : State := sendBytes (codeByte code :: ops) s

/-! ### Cell bytes -/

/-- One step of the walk pointer (R188). -/
def walkStep (w : WalkMode) (c : CellId) : CellId :=
  match w with
  | .across => if c.source = 47 then ⟨c.mix + 1, 0⟩ else ⟨c.mix, c.source + 1⟩
  | .down => if c.mix = 15 then ⟨0, c.source + 1⟩ else ⟨c.mix + 1, c.source⟩

/-- The change a WRITE-CELLS byte presents, by field, none when the write is ignored (R188). -/
def writtenChange (f : FieldSelect) (b : Byte) : Option ChangeKind :=
  match f with
  | .level => (levelOf b).map ChangeKind.level
  | .cap => (levelOf b).map ChangeKind.cap
  | .pan => (panOf b).map ChangeKind.pan
  | .mute => (yesNo b).map (fun on => if on then ChangeKind.mute else ChangeKind.unmute)
  | .heard => none

def advancePointer (s : State) : State := s.setEli { s.eli with pointer := walkStep s.eli.walk s.eli.pointer }

/-- A WRITE-CELLS byte (R188); in INIT it is ignored and the pointer stays (R187). -/
def writeCell (b : Byte) (s : State) : State :=
  let s := s.setEli { s.eli with dataOut := 0 }
  if s.run = .run then
    advancePointer (match writtenChange s.eli.field b with
      | some k => takeChange (engineerChange s s.eli.pointer k) s
      | none => refuseConsole s)
  else s

/-- What a READ-CELLS byte loads into the latch (R189). -/
def fetchedByte (f : FieldSelect) (x : Cell) : Byte :=
  match f with
  | .level => byteOfNat x.level
  | .cap => byteOfNat x.cap
  | .pan => byteOfInt x.pan
  | .mute => flagBit x.muted 0
  | .heard => byteOfNat x.heard

/-- A READ-CELLS byte (R189): the latch is sent, then loaded, then the pointer advances. In INIT the position is ignored
(R187). -/
def readCell (s : State) : State :=
  if s.run = .run then
    advancePointer (s.setEli { s.eli with dataOut := s.eli.latch, latch := fetchedByte s.eli.field (s.cell s.eli.pointer) })
  else s.setEli { s.eli with dataOut := 0 }

/-! ### The frame end -/

/-- A staged CUE LOAD at its owner (R71). -/
def applyCueLoad (body : List Byte) (s : State) : State :=
  match (parseCueLoad body).bind (fun p => readCueLoad p.1) with
  | some (n, r) => if loadFits n r s then writeSlot n (some r) s else refuseConsole s
  | none => refuseConsole s

/-- A staged MAP LOAD at its owner (R91, R92). -/
def applyStagedMap (body : List Byte) (s : State) : State :=
  match readMapLoad body with
  | some (n, m) => applyMapLoad n m s
  | none => refuseConsole s

/-- The staged load is passed to its owner (R190). -/
def applyStaged (s : State) : State :=
  match s.eli.staging with
  | none => s
  | some bytes =>
    let s := s.setEli { s.eli with staging := none }
    match codeOf (bytes.headD 0) with
    | some .mapLoad => applyStagedMap bytes.tail s
    | some .cueLoad => applyCueLoad bytes.tail s
    | _ => s

/-- An incomplete command is dropped and refused, with the staging buffer if it is the load there (R187). -/
def dropIncomplete (s : State) : State :=
  match s.eli.arrival with
  | .none => s
  | .bytes _ => refuseConsole (s.setEli { s.eli with arrival := .none })
  | .staged => refuseConsole (s.setEli { s.eli with arrival := .none, staging := none })

/-- Select becomes inactive (R187): incomplete command, staged load, frame state, in this order; a cut frame ends with no
such processing. No load is applied in INIT (R79, R195). -/
def endFrame (s : State) : State :=
  match s.eli.frame with
  | .noFrame => s
  | .cut => s.setEli { s.eli with frame := .noFrame }
  | _ =>
    let s := inRun applyStaged (dropIncomplete s)
    s.setEli { s.eli with frame := .noFrame, arrival := .none, reply := [] }

end Sys2Proof.Machine
end

