-- ==== Sys2Proof/Machine/ConsoleCommands.lean ====
section
/-! DEFINITION. The meanings of the Engineer Link's bytes and of the commands of its two pages (spec/09 and the owners' chapters). A command is delivered as its bytes, code first (log 6). GO, GOTO and the flag commands, which come on either link, are in CueCommands.lean. -/

namespace Sys2Proof.Machine

/-! ### Frames and bytes -/

/-- Select becomes active (R182). -/
def execSelectFrameStart (s : State) : Host.Outcome State Fault Refusal := .next (startFrame s)

/-- A header byte (R182). -/
def execHeader (b : Byte) (s : State) : Host.Outcome State Fault Refusal := .next (headerByte b s)

/-- Select becomes inactive (R187, R190). -/
def execFrameEnd (s : State) : Host.Outcome State Fault Refusal := .next (endFrame s)

/-- A WRITE-CELLS byte (R188). -/
def execWriteCells (b : Byte) (s : State) : Host.Outcome State Fault Refusal :=
  .next (byteOfKind .writeCells (writeCell b) s)

/-- A READ-CELLS position (R189); the byte received is not examined. -/
def execReadCells (_b : Byte) (s : State) : Host.Outcome State Fault Refusal := .next (byteOfKind .readCells readCell s)

/-- A COMMAND position that carries a reply byte (R185). -/
def execReplyByte (b : Byte) (s : State) : Host.Outcome State Fault Refusal := .next (replyPosition b s)

/-- A byte at a COMMAND position, a code of neither page where the row's case holds (R184). -/
def execUnknownCode (b : Byte) (s : State) : Host.Outcome State Fault Refusal :=
  .next (byteOfKind .command (streamByte b) s)

/-- A code of the other page with its operands (R184). -/
def execOtherPageCode (code : Byte) (ops : List Byte) (s : State) : Host.Outcome State Fault Refusal :=
  .next (sendBytes (code :: ops) s)

/-! ### BASIC page -/

/-- NOP (R184). -/
def execNop (s : State) : Host.Outcome State Fault Refusal := .next (sendCommand .nop [] s)

/-- POSITION (R188). -/
def execPosition (m src : Byte) (s : State) : Host.Outcome State Fault Refusal :=
  .next (sendCommand .position [m, src] s)

/-- WALK (R188). -/
def execWalk (v : Byte) (s : State) : Host.Outcome State Fault Refusal := .next (sendCommand .walk [v] s)

/-- FIELD (R188). -/
def execField (v : Byte) (s : State) : Host.Outcome State Fault Refusal := .next (sendCommand .field [v] s)

/-- PAGE (R184). -/
def execPage (v : Byte) (s : State) : Host.Outcome State Fault Refusal := .next (sendCommand .page [v] s)

/-- STATUS (R191). -/
def execStatus (s : State) : Host.Outcome State Fault Refusal := .next (sendCommand .status [] s)

/-- EVENTS (R194). -/
def execEvents (s : State) : Host.Outcome State Fault Refusal := .next (sendCommand .events [] s)

/-- ENABLES (R193). -/
def execEnables (mask : Word16) (s : State) : Host.Outcome State Fault Refusal :=
  .next (sendCommand .enables [hiByte mask, loByte mask] s)

/-- HUSH (R179). -/
def execHush (v : Byte) (s : State) : Host.Outcome State Fault Refusal := .next (sendCommand .hush [v] s)

/-- SOFT RESET (R197). -/
def execSoftReset (s : State) : Host.Outcome State Fault Refusal := .next (sendCommand .softReset [] s)

/-! ### EXTENDED page -/

/-- LOCKOUT (R96). -/
def execLockout (v : Byte) (s : State) : Host.Outcome State Fault Refusal := .next (sendCommand .lockout [v] s)

/-- STATION PROFILE (R87). -/
def execStationProfile (n p a : Byte) (s : State) : Host.Outcome State Fault Refusal :=
  .next (sendCommand .stationProfile [n, p, a] s)

/-- STATION READ (R95). -/
def execStationRead (n : Byte) (s : State) : Host.Outcome State Fault Refusal := .next (sendCommand .stationRead [n] s)

/-- MAP LOAD (R91, R190): it is staged; the frame end applies it. -/
def execMapLoad (body : List Byte) (s : State) : Host.Outcome State Fault Refusal := .next (sendCommand .mapLoad body s)

/-- MAP READ (R94). -/
def execMapRead (n : Byte) (s : State) : Host.Outcome State Fault Refusal := .next (sendCommand .mapRead [n] s)

/-- CUE LOAD (R70, R190): it is staged; the frame end applies it. -/
def execCueLoad (body : List Byte) (s : State) : Host.Outcome State Fault Refusal := .next (sendCommand .cueLoad body s)

/-- CUE DELETE (R72). -/
def execCueDelete (n : Byte) (s : State) : Host.Outcome State Fault Refusal := .next (sendCommand .cueDelete [n] s)

/-- CUE READ (R74). -/
def execCueRead (n : Byte) (s : State) : Host.Outcome State Fault Refusal := .next (sendCommand .cueRead [n] s)

/-- CUE POINTER (R69). -/
def execCuePointer (v : Byte) (s : State) : Host.Outcome State Fault Refusal := .next (sendCommand .cuePointer [v] s)

/-- STOP (R67). -/
def execStop (s : State) : Host.Outcome State Fault Refusal := .next (sendCommand .stop [] s)

/-- HOLD (R68). -/
def execHold (v : Byte) (s : State) : Host.Outcome State Fault Refusal := .next (sendCommand .hold [v] s)

/-- LINK RESET (R162). -/
def execLinkReset (s : State) : Host.Outcome State Fault Refusal := .next (sendCommand .linkReset [] s)

/-- SOURCE MODE (R169). -/
def execSourceMode (v : Byte) (s : State) : Host.Outcome State Fault Refusal := .next (sendCommand .sourceMode [v] s)

/-- PATCH (R173). -/
def execPatch (body : List Byte) (s : State) : Host.Outcome State Fault Refusal := .next (sendCommand .patch body s)

/-- OUTPUT MODE (R175). -/
def execOutputMode (m mode target : Byte) (s : State) : Host.Outcome State Fault Refusal :=
  .next (sendCommand .outputMode [m, mode, target] s)

/-- CEILING (R177). -/
def execCeilingCommand (m code : Byte) (s : State) : Host.Outcome State Fault Refusal :=
  .next (sendCommand .ceiling [m, code] s)

/-- HITS READ (R178). -/
def execHitsRead (s : State) : Host.Outcome State Fault Refusal := .next (sendCommand .hitsRead [] s)

/-- GLIDE LENGTH (R41). -/
def execGlideLength (v : Byte) (s : State) : Host.Outcome State Fault Refusal := .next (sendCommand .glideLength [v] s)

/-- MIX COPY (R25). -/
def execMixCopy (a b : Byte) (s : State) : Host.Outcome State Fault Refusal := .next (sendCommand .mixCopy [a, b] s)

/-- MIX CLEAR (R26). -/
def execMixClear (m : Byte) (s : State) : Host.Outcome State Fault Refusal := .next (sendCommand .mixClear [m] s)

end Sys2Proof.Machine
end

