-- ==== Sys2Proof/Machine/CueCommands.lean ====
section
/-! DEFINITION. The meanings of the cue commands that come on either link (spec/03, R57): from the console as a command's
bytes, from the show controller as a message's four characters (log 6). -/

namespace Sys2Proof.Machine

/-- GO (R65). -/
def execGo (link : CueLink) (s : State) : Host.Outcome State Fault Refusal :=
  .next (match link with
    | .console => sendCommand .go [] s
    | .showLink => showMessageOf 1 0 s)

/-- GOTO n (R66). -/
def execGoto (operand : GotoOperand) (s : State) : Host.Outcome State Fault Refusal :=
  .next (match operand with
    | .console cue => sendCommand .goto [cue] s
    | .showLink cue => showMessageOf 2 cue s)

/-- FLAGS SET, FLAGS_SET (R52). -/
def execFlagsSet (link : CueLink) (mask : Word16) (s : State) : Host.Outcome State Fault Refusal :=
  .next (match link with
    | .console => sendCommand .flagsSet [hiByte mask, loByte mask] s
    | .showLink => showMessageOf 3 mask s)

/-- FLAGS CLEAR, FLAGS_CLEAR (R52). -/
def execFlagsClear (link : CueLink) (mask : Word16) (s : State) : Host.Outcome State Fault Refusal :=
  .next (match link with
    | .console => sendCommand .flagsClear [hiByte mask, loByte mask] s
    | .showLink => showMessageOf 4 mask s)

end Sys2Proof.Machine
end

