-- ==== Sys2Proof/Machine/PowerCommands.lean ====
section
/-! DEFINITION. The meanings of the power and reset commands (spec/10). -/

namespace Sys2Proof.Machine

/-- Power becoming good: INIT, and the start-up clear (R195). The reset pin has the level it has. -/
def execPowerOn (s : State) : Host.Outcome State Fault Refusal := .next (enterInit s.resetPin s)

/-- The reset pin becomes active: INIT, from the beginning (R195). -/
def execResetPinActive (s : State) : Host.Outcome State Fault Refusal := .next (enterInit true s)

/-- The reset pin is released (R196). -/
def execResetPinRelease (s : State) : Host.Outcome State Fault Refusal := .next (releasePin s)

/-- The start-up clear completes: RUN, STARTUP_DONE latched (R196). -/
def execStartupDone (s : State) : Host.Outcome State Fault Refusal := .next (completeStartUp s)

end Sys2Proof.Machine
end

