-- ==== Sys2Proof/Machine/ShowCommands.lean ====
section
/-! DEFINITION. The meanings of the Show Link's characters and messages (spec/03). -/

namespace Sys2Proof.Machine

/-- A character with a good stop bit (R76, R77). -/
def execShowCharacter (b : Byte) (s : State) : Host.Outcome State Fault Refusal := .next (showCharacter b s)

/-- The fourth character of a message (R76). -/
def execShowMessage (b : Byte) (s : State) : Host.Outcome State Fault Refusal := .next (showFourth b s)

/-- A character with a bad stop bit (R76). -/
def execShowFramingError (s : State) : Host.Outcome State Fault Refusal := .next (showFramingError s)

/-- The second block end since the last character of a partial message (R76). -/
def execShowGap (s : State) : Host.Outcome State Fault Refusal := .next (showGap s)

/-- HOLD_ON, a Show Link message (R68, R75). -/
def execHoldOn (s : State) : Host.Outcome State Fault Refusal := .next (showMessageOf 5 0 s)

/-- HOLD_OFF, a Show Link message (R68, R75). -/
def execHoldOff (s : State) : Host.Outcome State Fault Refusal := .next (showMessageOf 6 0 s)

end Sys2Proof.Machine
end

