-- ==== Sys2Proof/Machine/Dispatch.lean ====
section
/-! DEFINITION. One arm for each command: the call of its meaning. -/

namespace Sys2Proof.Machine

def exec (i : Instr) (s : State) : Host.Outcome State Fault Refusal :=
  match i with
  | .powerOn => Sys2Proof.Machine.execPowerOn s
  | .resetPinActive => Sys2Proof.Machine.execResetPinActive s
  | .resetPinRelease => Sys2Proof.Machine.execResetPinRelease s
  | .startupDone => Sys2Proof.Machine.execStartupDone s
  | .blockStart => Sys2Proof.Machine.execBlockStart s
  | .blockEnd portA portB stationHolds => Sys2Proof.Machine.execBlockEnd portA portB stationHolds s
  | .glideEntryComplete cell => Sys2Proof.Machine.execGlideEntryComplete cell s
  | .cueDone => Sys2Proof.Machine.execCueDone s
  | .followWaitExpiry => Sys2Proof.Machine.execFollowWaitExpiry s
  | .portLock port => Sys2Proof.Machine.execPortLock port s
  | .portLoseLock port => Sys2Proof.Machine.execPortLoseLock port s
  | .selectFrameStart => Sys2Proof.Machine.execSelectFrameStart s
  | .header value => Sys2Proof.Machine.execHeader value s
  | .frameEnd => Sys2Proof.Machine.execFrameEnd s
  | .writeCells value => Sys2Proof.Machine.execWriteCells value s
  | .readCells value => Sys2Proof.Machine.execReadCells value s
  | .replyByte value => Sys2Proof.Machine.execReplyByte value s
  | .unknownCode code => Sys2Proof.Machine.execUnknownCode code s
  | .otherPageCode code operands => Sys2Proof.Machine.execOtherPageCode code operands s
  | .nop => Sys2Proof.Machine.execNop s
  | .position mix source => Sys2Proof.Machine.execPosition mix source s
  | .walk mode => Sys2Proof.Machine.execWalk mode s
  | .field select => Sys2Proof.Machine.execField select s
  | .page value => Sys2Proof.Machine.execPage value s
  | .status => Sys2Proof.Machine.execStatus s
  | .events => Sys2Proof.Machine.execEvents s
  | .enables mask => Sys2Proof.Machine.execEnables mask s
  | .hush value => Sys2Proof.Machine.execHush value s
  | .softReset => Sys2Proof.Machine.execSoftReset s
  | .lockout level => Sys2Proof.Machine.execLockout level s
  | .stationProfile station priority admitted => Sys2Proof.Machine.execStationProfile station priority admitted s
  | .stationRead station => Sys2Proof.Machine.execStationRead station s
  | .mapLoad body => Sys2Proof.Machine.execMapLoad body s
  | .mapRead station => Sys2Proof.Machine.execMapRead station s
  | .cueLoad body => Sys2Proof.Machine.execCueLoad body s
  | .cueDelete slot => Sys2Proof.Machine.execCueDelete slot s
  | .cueRead slot => Sys2Proof.Machine.execCueRead slot s
  | .cuePointer value => Sys2Proof.Machine.execCuePointer value s
  | .go link => Sys2Proof.Machine.execGo link s
  | .goto operand => Sys2Proof.Machine.execGoto operand s
  | .stop => Sys2Proof.Machine.execStop s
  | .hold value => Sys2Proof.Machine.execHold value s
  | .holdOn => Sys2Proof.Machine.execHoldOn s
  | .holdOff => Sys2Proof.Machine.execHoldOff s
  | .flagsSet link mask => Sys2Proof.Machine.execFlagsSet link mask s
  | .flagsClear link mask => Sys2Proof.Machine.execFlagsClear link mask s
  | .linkReset => Sys2Proof.Machine.execLinkReset s
  | .breakCountExpiry stationHolds => Sys2Proof.Machine.execBreakCountExpiry stationHolds s
  | .sourceMode value => Sys2Proof.Machine.execSourceMode value s
  | .patch body => Sys2Proof.Machine.execPatch body s
  | .outputMode mix mode target => Sys2Proof.Machine.execOutputMode mix mode target s
  | .ceilingCommand mix code => Sys2Proof.Machine.execCeilingCommand mix code s
  | .hitsRead => Sys2Proof.Machine.execHitsRead s
  | .glideLength value => Sys2Proof.Machine.execGlideLength value s
  | .mixCopy a b => Sys2Proof.Machine.execMixCopy a b s
  | .mixClear mix => Sys2Proof.Machine.execMixClear mix s
  | .windowOpen => Sys2Proof.Machine.execWindowOpen s
  | .attn slot word => Sys2Proof.Machine.execAttn slot word s
  | .windowClose => Sys2Proof.Machine.execWindowClose s
  | .request1 station kind operand => Sys2Proof.Machine.execRequest1 station kind operand s
  | .requestWindowExpiry => Sys2Proof.Machine.execRequestWindowExpiry s
  | .damagedRequest word => Sys2Proof.Machine.execDamagedRequest word s
  | .phaseError word => Sys2Proof.Machine.execPhaseError word s
  | .hello station operand => Sys2Proof.Machine.execHello station operand s
  | .ping station operand => Sys2Proof.Machine.execPing station operand s
  | .openGrip station index => Sys2Proof.Machine.execOpenGrip station index s
  | .nextGrip station operand => Sys2Proof.Machine.execNextGrip station operand s
  | .setLevel station level => Sys2Proof.Machine.execSetLevel station level s
  | .nudgeLevel station amount => Sys2Proof.Machine.execNudgeLevel station amount s
  | .panCell station pan => Sys2Proof.Machine.execPanCell station pan s
  | .muteSet station mask => Sys2Proof.Machine.execMuteSet station mask s
  | .muteClear station mask => Sys2Proof.Machine.execMuteClear station mask s
  | .closeGrip station operand => Sys2Proof.Machine.execCloseGrip station operand s
  | .recallMap station operand => Sys2Proof.Machine.execRecall station operand s
  | .badKindRequest station kind operand => Sys2Proof.Machine.execBadKindRequest station kind operand s
  | .dataInWord => Sys2Proof.Machine.execDataInWord s
  | .stopWord station operand => Sys2Proof.Machine.execStopWord station operand s
  | .replySent => Sys2Proof.Machine.execReplySent s
  | .echo station content => Sys2Proof.Machine.execEcho station content s
  | .echoWindowExpiry => Sys2Proof.Machine.execEchoWindowExpiry s
  | .strayWord word => Sys2Proof.Machine.execStrayWord word s
  | .bandCheck word => Sys2Proof.Machine.execBandCheck word s
  | .breakReceived => Sys2Proof.Machine.execBreakReceived s
  | .breakRelease => Sys2Proof.Machine.execBreakRelease s
  | .showCharacter value => Sys2Proof.Machine.execShowCharacter value s
  | .showMessage value => Sys2Proof.Machine.execShowMessage value s
  | .showFramingError => Sys2Proof.Machine.execShowFramingError s
  | .showGap => Sys2Proof.Machine.execShowGap s
  | .badCheckEcho word => Sys2Proof.Machine.execBadCheckEcho word s
  | .openingGapEnd => Sys2Proof.Machine.execOpeningGapEnd s

end Sys2Proof.Machine
end

