-- ==== Sys2Proof/Safety.lean ====
section
/-! DEFINITION. What statements are made of: when a command reaches its meaning (the frame, the page, the link ready for it), and
the laws of the block that every step is to keep. -/

namespace Sys2Proof.Machine

/-! ### When a command is taken -/

/-- A frame in which the next byte can be a COMMAND byte, a header being sent first where one is due (R182, log 6). -/
def commandFrame (f : FrameState) : Prop := f = .headerDue ∨ f = .one .command ∨ f = .run .command

/-- How the frame is read after a byte of the kind that can come (R182): a run goes on, anything else waits for a header. -/
def frameRest : FrameState → FrameState
  | .run k => .run k
  | _ => .headerDue

/-- The console's command stream stands between two commands, in RUN, on a page, and no reply byte is due (R183 to R185). -/
structure CommandReady (p : Page) (s : State) : Prop where
  run : s.run = .run
  frame : commandFrame s.eli.frame
  arrival : s.eli.arrival = .none
  reply : s.eli.reply = []
  page : s.eli.page = p

/-- ELI after a command without a reply has been delivered at positions that carry no reply byte (R182, R183). -/
def eliAfter (s : State) : EngineerLink := { s.eli with frame := frameRest s.eli.frame, dataOut := 0 }

/-- What a command refused at the Engineer Link leaves: the refused indicator, and nothing else but the delivery (R186). -/
def refusedAfter (s : State) : State := s.setEli { eliAfter s with refused := true }

/-- A cell byte of a kind can come next, in RUN (R182, R188, R189). -/
structure CellByteReady (k : ByteKind) (s : State) : Prop where
  run : s.run = .run
  frame : s.eli.frame = .headerDue ∨ s.eli.frame = .one k ∨ s.eli.frame = .run k

/-- The pair waits for the request of a station (R153), no word of it being held. -/
structure RequestReady (n : StationId) (s : State) : Prop where
  run : s.run = .run
  link : s.link.state = .selected
  selected : s.link.selected = some n
  arrival : s.link.arrival = none

/-- Where a mask request of a kind finds its link: waiting for the request, REQUEST-1 then coming with it (log 9), or
holding REQUEST-1 of that kind (R153); and the state in which it is executed, the station's answer reported. -/
def MaskReady (n : StationId) (k : MaskKind) (s u : State) : Prop :=
  (RequestReady n s ∧ u = s.setStation n { s.station n with missRun := 0 }) ∨
  (s.run = .run ∧ s.link.state = .selected ∧ s.link.selected = some n ∧
    (∃ operand, s.link.arrival = some (request1Word n (maskKindCode k) operand)) ∧ u = s)

/-- The command of a mask request (R137). -/
def maskCommand (k : MaskKind) (n : StationId) (mask : Word24) : Instr :=
  match k with
  | .muteSet => .muteSet n mask
  | .muteClear => .muteClear n mask

/-- The Show Link Receiver stands between two messages, in RUN (R76). -/
structure MessageReady (s : State) : Prop where
  run : s.run = .run
  chars : s.slr.chars = []

/-- Where a cue command of either link finds its link (R57): the console's stream between two commands on the EXTENDED
page, or the receiver between two messages. -/
def CueInputReady (link : CueLink) (s : State) : Prop :=
  match link with
  | .console => CommandReady .extended s
  | .showLink => MessageReady s

/-- The state in which a cue command of a link reaches CUE: only the link's own delivery has happened. -/
def cueInput (link : CueLink) (s : State) : State :=
  match link with
  | .console => s.setEli (eliAfter s)
  | .showLink => s.setSlr { chars := [], gap := 0 }

/-- A cell as the start-up clear writes it, field by field (R27). -/
def Cell.cleared (x : Cell) : Prop :=
  x.level = 0 ∧ x.heard = 0 ∧ x.cap = 200 ∧ x.pan = 0 ∧ x.muted = false ∧ x.writer = none

/-- The link record when a reply waits for its turnaround (R156). -/
def answeringLink (r : Reply) (settled : Bool) (l : LinkRecord) : LinkRecord :=
  { l with
    state := .answering, arrival := none, window := 0, cursor := none, inFlight := none,
    answer := some { reply := r, settled := settled } }

/-- A request has been executed: it is in hand no more, and the reply SRU formed waits for its turnaround (R122, R156). -/
def replied (r : Reply) (s : State) : State := (s.setInHand none).setLink (answeringLink r false s.link)

/-- BLC has made the reply itself (CHECK or PHASE): it is settled (R154, R155). -/
def repliedByBlc (st : Status) (s : State) : State := s.setLink (answeringLink (plainReply st) true s.link)

/-- The link record when no transaction is in it (R156). -/
def idleLink (l : LinkRecord) : LinkRecord :=
  { l with
    state := .idle, selected := none, arrival := none, window := 0, cursor := none, wordsSent := 0,
    transferEnd := .running, answer := none, inFlight := none }

/-- The reply to a change through a grip: the flags MXS formed, S for a grip that was STALE, and the report of the cell as
the change left it (R124, R125). -/
def editReply (g : Grip) (ch : Change) (s : State) : Reply :=
  { status := .ok
    flags := { changeFlags ch s with s := decide (g.state = .stale) }
    count := 0
    report := some (entryReport g.index g.right g.cell (takeChange ch s)) }

/-- A station's edit passes the checks of R131 but the value's and the stale one: attached, a grip, the right, the lockout. -/
structure EditAllowed (n : StationId) (g : Grip) (s : State) : Prop where
  ready : RequestReady n s
  attached : (s.station n).state = .attached
  grip : s.grip n = some g
  right : g.right ≠ .view
  lockout : s.lockout < (s.station n).priority

/-! ### Frames -/

/-- Everything but the matrix, the glide list, the Cue Engine, the grips and the event latch is as it was. -/
structure OuterFrame (s t : State) : Prop where
  run : t.run = s.run
  resetPin : t.resetPin = s.resetPin
  stations : t.stations = s.stations
  lockout : t.lockout = s.lockout
  inHand : t.inHand = s.inHand
  link : t.link = s.link
  slr : t.slr = s.slr
  eli : t.eli = s.eli
  src : t.src = s.src
  out : t.out = s.out
  free : t.free = s.free
  pending : t.pending = s.pending

/-- What changes of the matrix reach beside the cells, the glide list and the grips: of the Cue Engine the running cue's
outstanding count, of the event latch the mark of GLIDE_FULL (R34, R36). -/
structure MatrixFrame (s t : State) : Prop where
  outer : OuterFrame s t
  cue : t.cue = { s.cue with running := t.cue.running }
  running : t.cue.running = s.cue.running ∨
    ∃ r k, s.cue.running = some r ∧ t.cue.running = some { r with outstanding := k }
  marks : t.evl = s.evl ∨ t.evl = { s.evl with marks := s.evl.marks ||| eventMark .glideFull }

/-- What GLU's advance at a block end does to cells and glide list (R38): an entry with one block left completes, one with
more moves a step, and a cell without an entry stays. -/
structure GlidesAdvanced (s t : State) : Prop where
  done : ∀ e ∈ s.glides, e.remaining = 1 → t.cell e.cell = { s.cell e.cell with heard := e.goal }
  moved : ∀ e ∈ s.glides, 2 ≤ e.remaining →
    t.cell e.cell = { s.cell e.cell with
      heard := ((s.cell e.cell).heard + Int.tdiv ((e.goal : Int) - (s.cell e.cell).heard) e.remaining).toNat }
  still : ∀ c, s.gliding c = false → t.cell c = s.cell c
  glides : t.glides = (s.glides.filter (fun e => decide (1 < e.remaining))).map
    (fun e => { e with remaining := e.remaining - 1 })

/-- The tagged entries of a cue that the advance of a block end completes: its count falls by so many (R36, R38). -/
def tagsLost (c : CueId) (s : State) : Nat :=
  (s.glides.filter (fun e => decide (e.remaining ≤ 1 ∧ e.tag = some c))).length

/-- What a fire of cue `f` leaves (R58 to R60), beside its changes to the matrix: the record, the phase, the flags, the
next pointer, and CUE_FIRED latched. -/
structure Fired (f : CueId) (r : CueRecord) (s t : State) : Prop where
  phase : t.cue.phase = .fading
  running : ∃ k, t.cue.running = some { cue := f, outstanding := k, followOn := r.followOn }
  timer : t.cue.timer = 0
  flags : t.cue.flags = (s.cue.flags ||| r.setMask.getD 0) &&& ~~~(r.clearMask.getD 0)
  pointer : t.cue.nextPointer =
    match r.followOn with
    | some x => some x.cue
    | none => lowestAbove f s
  kept : t.cue.slots = s.cue.slots ∧ t.cue.poolUsed = s.cue.poolUsed ∧ t.cue.hold = s.cue.hold
  event : t.latched .cueFired = true
  others : ∀ e, e ≠ .cueFired → e ≠ .glideFull → t.latched e = s.latched e
  enables : t.evl.enables = s.evl.enables
  outer : OuterFrame s t
  matrix : t.cells = (takeChanges (cueChanges f r) (makeRecord f r (supersede s))).cells
  glides : t.glides = (takeChanges (cueChanges f r) (makeRecord f r (supersede s))).glides
  grips : t.grips = (takeChanges (cueChanges f r) (makeRecord f r (supersede s))).grips

/-! ### Laws -/

/-- Codes in their ranges, and the set level under the cap (R1, R5). -/
def Cell.lawful (x : Cell) : Prop := x.level ≤ x.cap ∧ x.cap ≤ 220 ∧ x.heard ≤ 220 ∧ -32 ≤ x.pan ∧ x.pan ≤ 32

/-- An entry's goal is its cell's goal, and it has block ends to go (R29, R30). -/
def GlideEntry.lawful (s : State) (e : GlideEntry) : Prop :=
  e.goal = goalOf (s.cell e.cell) ∧ 1 ≤ e.remaining ∧ e.remaining ≤ 4095

/-- The values of an edit are in their ranges (R48). -/
def CueEdit.lawful (e : CueEdit) : Prop :=
  match e.action with
  | .level v => v ≤ 220
  | .nudge d => -40 ≤ d ∧ d ≤ 40
  | .mute => True
  | .unmute => True
  | .pan p => -32 ≤ p ∧ p ≤ 32

/-- A record's fields are in their ranges (R47). -/
def CueRecord.lawful (r : CueRecord) : Prop :=
  r.fade ≤ 4095 ∧ 1 ≤ r.edits.length ∧ r.edits.length ≤ 24 ∧ (∀ e ∈ r.edits, e.lawful) ∧
    ∀ f, r.followOn = some f → f.wait ≤ 65535

/-- Every occupied slot holds a record in range (R47, R48). -/
def slotsLawful (s : State) : Prop := ∀ n r, s.slot n = some r → r.lawful

/-- The engineer glide length is a byte's value (R41). -/
def glideLengthLawful (s : State) : Prop := s.eli.glideLength ≤ 255

/-- The laws of the matrix and of the glide list (R5, R30, R31), with the ranges they rest on. -/
structure MatrixLaw (s : State) : Prop where
  cells : ∀ c, (s.cell c).lawful
  room : s.glides.length ≤ glideRoom
  once : (s.glides.map (·.cell)).Nodup
  goals : ∀ e ∈ s.glides, e.lawful s
  heard : ∀ c, s.gliding c = false → (s.cell c).heard = goalOf (s.cell c)
  slots : slotsLawful s
  length : glideLengthLawful s

/-- The edits that a table's slots hold together (R49). -/
def editTotal (t : Vector (Option CueRecord) 96) : Nat := (t.toList.map slotEdits).sum

/-- The law of the edit pool (R49). -/
structure PoolLaw (s : State) : Prop where
  slots : slotsLawful s
  used : s.cue.poolUsed = editTotal s.cue.slots
  room : s.cue.poolUsed ≤ poolSize

/-- The number of tagged entries of a glide list (R51). -/
def taggedCount (l : List GlideEntry) : Nat := (l.filter (fun e => e.tag.isSome)).length

/-- The law of the running-cue record (R51), with the phase it is present in and the timer's rest value (R50). -/
structure CueLaw (s : State) : Prop where
  once : (s.glides.map (·.cell)).Nodup
  present : s.cue.phase = .fading ↔ s.cue.running.isSome = true
  counted : ∀ r, s.cue.running = some r →
    r.outstanding = taggedCount s.glides ∧ ∀ e ∈ s.glides, ∀ c, e.tag = some c → c = r.cue
  untagged : s.cue.running = none → ∀ e ∈ s.glides, e.tag = none
  timer : s.cue.phase ≠ .followWait → s.cue.timer = 0

/-- The law of the grips (R101), with the place's own station (R100). -/
structure GripLaw (s : State) : Prop where
  own : ∀ n g, s.grip n = some g → g.station = n
  attached : ∀ n g, s.grip n = some g → (s.station n).state = .attached
  entry : ∀ n g, s.grip n = some g → mapAt (s.station n).map g.index = some { cell := g.cell, right := g.right }

/-- The law of the service order list: each of the 16 station IDs exactly once (R149). -/
def OrderLaw (s : State) : Prop := s.link.order.Nodup ∧ s.link.order.length = 16

/-- No map names one cell in two entries (R88). -/
def StationMap.lawful (m : StationMap) : Prop :=
  ∀ (i j : LocalIndex) (e f : MapEntry), mapAt m i = some e → mapAt m j = some f → e.cell = f.cell → i = j

/-- The counters of the stations and the levels that decide their rights are in their ranges (R80), and no station's map
names one cell in two entries (R88). -/
structure StationLaw (s : State) : Prop where
  priority : ∀ n, (s.station n).priority ≤ 7
  checks : ∀ n, (s.station n).checkCount ≤ 255
  misses : ∀ n, (s.station n).missRun ≤ 3
  idle : ∀ n, (s.station n).idle ≤ 65535
  absent : ∀ n, (s.station n).state = .absent → (s.station n).idle = 0
  lockout : s.lockout ≤ 7
  maps : ∀ n, StationMap.lawful (s.station n).map

/-- The runs of the port records and the fields of the output records are in their ranges (R167, R175). -/
structure PortOutputLaw (s : State) : Prop where
  badRun : ∀ p, (s.src.port p).badRun ≤ 3
  goodRun : ∀ p, (s.src.port p).goodRun ≤ 15
  ceiling : ∀ m, (s.outputRecord m).ceiling ≤ 220
  hits : ∀ m, (s.outputRecord m).hits ≤ 65535
  fadeIn : ∀ m, (s.outputRecord m).fadeIn ≤ 32

end Sys2Proof.Machine
end

