-- ==== Sys2Proof/Certificates/Slice0/Obligations.lean ====
section
/-! DEFINITION. The statements for the provers. -/

open Sys2Proof Sys2Proof.Machine

/-! ### The block and its laws -/

/-- A step takes the command at the front of the queue and runs it on the state with the queue's rest; with nothing waiting
it changes nothing (the model's form, log 2). -/
def Obligations.StepTakesTheFrontCommand : Prop :=
  (∀ (c : Instr) (rest : List Instr) (s : State), s.pending = c :: rest → step s = exec c (s.setPending rest)) ∧
  ∀ s : State, s.pending = [] → step s = .next s

/-- The state after reset holds the values of the start-up clear.
It rests on the model's choice of log 5. -/
def Obligations.ResetHoldsTheStartUpValues : Prop :=
  let s := State.reset
  s.run = .init ∧ (∀ c, (s.cell c).cleared) ∧ s.glides = [] ∧ (∀ n, s.slot n = none) ∧ s.cue.poolUsed = 0 ∧
  s.cue.nextPointer = none ∧ s.cue.running = none ∧ s.cue.phase = .idle ∧ s.cue.timer = 0 ∧ s.cue.hold = false ∧
  s.cue.flags = 0 ∧
  (∀ n, (s.station n).state = .absent ∧ (s.station n).admitted = true ∧ (s.station n).priority = 1 ∧
    (∀ i, mapAt (s.station n).map i = none) ∧ (s.station n).checkCount = 0 ∧ (s.station n).missRun = 0 ∧
    (s.station n).idle = 0) ∧
  s.lockout = 0 ∧ (∀ n, s.grip n = none) ∧ s.inHand = none ∧
  s.link.state = .idle ∧ s.link.selected = none ∧ s.link.arrival = none ∧ s.link.window = 0 ∧ s.link.cursor = none ∧
  s.link.wordsSent = 0 ∧ s.link.transferEnd = .running ∧ s.link.breakCount = 0 ∧ s.link.order = List.finRange 16 ∧
  s.slr.chars = [] ∧
  s.eli.frame = .noFrame ∧ s.eli.page = .basic ∧ s.eli.pointer = ⟨0, 0⟩ ∧ s.eli.walk = .across ∧ s.eli.field = .level ∧
  s.eli.latch = 0 ∧ s.eli.glideLength = 8 ∧ s.eli.staging = none ∧ s.eli.refused = false ∧
  s.src.portA = ⟨false, 0, 0⟩ ∧ s.src.portB = ⟨false, 0, 0⟩ ∧ s.src.mode = .auto ∧ s.src.active = none ∧
  (∀ x : Fin 48, (tableGet s.src.patch x).map (·.val) = some x.val) ∧ s.src.pending = [] ∧
  (∀ m, s.outputRecord m = { mode := .normal, target := m, ceiling := 200, hits := 0, fadeIn := 32 }) ∧
  s.out.hush = false ∧ s.evl.marks = 0 ∧ s.evl.enables = 0xFFFF#16

/-- The laws of the block hold in the state after reset. -/
def Obligations.TheLawsHoldAtReset : Prop :=
  MatrixLaw State.reset ∧ PoolLaw State.reset ∧ CueLaw State.reset ∧ GripLaw State.reset ∧ OrderLaw State.reset ∧
    StationLaw State.reset ∧ PortOutputLaw State.reset

/-- Every step keeps: set levels under their caps, codes in range, at most 64 entries and never two for a cell, every
entry's goal its cell's goal, every cell without an entry heard at its goal (R5, R30, R31). -/
def Obligations.EveryStepKeepsTheMatrixLaw : Prop :=
  ∀ s t : State, MatrixLaw s → step s = .next t → MatrixLaw t

/-- Every step keeps: the outstanding count is the number of tagged entries, all of them the running cue's; the record is
present exactly in FADING, and the timer runs in FOLLOW_WAIT alone (R50, R51). -/
def Obligations.EveryStepKeepsTheCueLaw : Prop :=
  ∀ s t : State, CueLaw s → step s = .next t → CueLaw t

/-- Every step keeps: a grip is held only while ATTACHED, and it is the present map entry at its index (R101). -/
def Obligations.EveryStepKeepsTheGripLaw : Prop :=
  ∀ s t : State, GripLaw s → step s = .next t → GripLaw t

/-- Every step keeps: the service order list holds each of the 16 station IDs exactly once (R149). -/
def Obligations.EveryStepKeepsTheOrderLaw : Prop :=
  ∀ s t : State, OrderLaw s → step s = .next t → OrderLaw t

/-- Every step keeps: the pool's used count is the sum of the slots' edit counts, at most 1024, and every record is in
range (R47, R49). -/
def Obligations.EveryStepKeepsThePoolLaw : Prop :=
  ∀ s t : State, PoolLaw s → step s = .next t → PoolLaw t

/-- Every step keeps the ranges of the station records and of the lockout level (R80), no map naming a cell twice (R88);
and the ranges of the port runs, ceilings, hit counts and fade-in positions (R167, R175). -/
def Obligations.EveryStepKeepsTheStationLaw : Prop :=
  (∀ s t : State, StationLaw s → step s = .next t → StationLaw t) ∧
  ∀ s t : State, PortOutputLaw s → step s = .next t → PortOutputLaw t

/-! ### Power, reset and start-up -/

/-- Power becoming good and the reset pin becoming active put the part in INIT with the start-up clear written; a frame in
progress is cut (R195). The pin's release, and the completion of the start-up clear: RUN, with STARTUP_DONE latched and
nothing else changed; while the pin is active it does not complete (R195, R196).
It rests on the model's choices of log 25, log 30. -/
def Obligations.StartUpEntersInitAndCompletesIntoRun : Prop :=
  (∀ s : State,
     let cleared (pin : Bool) : State :=
       { State.reset with
         resetPin := pin
         eli := { EngineerLink.startUp with frame := if s.eli.frame = .noFrame then .noFrame else .cut }
         free := s.free
         pending := s.pending }
     exec .powerOn s = .next (cleared s.resetPin) ∧ exec .resetPinActive s = .next (cleared true)) ∧
  ((∀ s : State, exec .resetPinRelease s = .next (s.setResetPin false)) ∧
   (∀ s : State, s.run = .init → s.resetPin = false →
     exec .startupDone s = .next ((s.setRun .run).setEvl { s.evl with marks := s.evl.marks ||| 1#16 })) ∧
   ∀ s : State, s.run = .init → s.resetPin = true → exec .startupDone s = .next s)

/-- While the part is in INIT no cell, entry, map, grip, cue or station record changes but by the start-up clear (R195). -/
def Obligations.InitHoldsTheShow : Prop :=
  ∀ (c : Instr) (s : State), s.run = .init → c ≠ .powerOn → c ≠ .resetPinActive →
    ∃ t, exec c s = .next t ∧ t.cells = s.cells ∧ t.glides = s.glides ∧ t.cue = s.cue ∧ t.stations = s.stations ∧
      t.lockout = s.lockout ∧ t.grips = s.grips

/-! ### The change path and the glides -/

/-- LEVEL v (R10): the lesser of v and the cap, V when v was above the cap, the rest of the record as it was. -/
def Obligations.LevelIsClampedAtTheCap : Prop :=
  ∀ (ch : Change) (v : Nat) (s : State), ch.kind = .level v →
    let x := s.cell ch.cell
    let y := (takeChange ch s).cell ch.cell
    y.level = min v x.cap ∧ y.muted = x.muted ∧ y.pan = x.pan ∧ y.cap = x.cap ∧
      (changeFlags ch s).v = decide (x.cap < v) ∧ (changeFlags ch s).c = false

/-- NUDGE d (R11): the sum held between 0 and the cap, V when it was above the cap, C when it was below 0; where the set
level does not move nothing changes at all. -/
def Obligations.NudgeIsHeldBetweenZeroAndTheCap : Prop :=
  ∀ (ch : Change) (d : Int) (s : State), ch.kind = .nudge d → (s.cell ch.cell).level ≤ (s.cell ch.cell).cap →
    let x := s.cell ch.cell
    let y := (takeChange ch s).cell ch.cell
    (y.level : Int) = max 0 (min ((x.level : Int) + d) x.cap) ∧ y.muted = x.muted ∧ y.pan = x.pan ∧ y.cap = x.cap ∧
      (changeFlags ch s).v = decide ((x.cap : Int) < x.level + d) ∧
      (changeFlags ch s).c = decide ((x.level : Int) + d < 0) ∧ (y.level = x.level → takeChange ch s = s)

/-- CAP v (R12): the cap becomes v and pulls the set level down to it; neither V nor C. PAN, MUTE and UNMUTE (R13): their one
field; a change that finds it so already changes nothing at all. -/
def Obligations.CapPanAndMuteWriteTheirFields : Prop :=
  (∀ (ch : Change) (v : Nat) (s : State), ch.kind = .cap v →
     let x := s.cell ch.cell
     let y := (takeChange ch s).cell ch.cell
     y.cap = v ∧ y.level = min x.level v ∧ y.muted = x.muted ∧ y.pan = x.pan ∧
       (changeFlags ch s).v = false ∧ (changeFlags ch s).c = false) ∧
  ((∀ (ch : Change) (p : Int) (s : State), ch.kind = .pan p →
     let x := s.cell ch.cell
     let y := (takeChange ch s).cell ch.cell
     y.pan = p ∧ y.level = x.level ∧ y.cap = x.cap ∧ y.muted = x.muted ∧
       (changeFlags ch s).v = false ∧ (changeFlags ch s).c = false ∧ (x.pan = p → takeChange ch s = s)) ∧
   (∀ (ch : Change) (on : Bool) (s : State), ch.kind = (if on then .mute else .unmute) →
     let x := s.cell ch.cell
     let y := (takeChange ch s).cell ch.cell
     y.muted = on ∧ y.level = x.level ∧ y.cap = x.cap ∧ y.pan = x.pan ∧
       (changeFlags ch s).v = false ∧ (changeFlags ch s).c = false ∧ (x.muted = on → takeChange ch s = s)))

/-- Last writer, stale marks (R14, R15, R16): a change that leaves set level, muted, pan and cap as they were changes
nothing; any other writes its origin and marks every grip on the cell STALE but the originating one. Goal hand-off (R17):
with the record written and the grips marked, GLU is handed the goal when it moved or an entry exists, and nothing
otherwise. No change writes a field of another cell. -/
def Obligations.AChangeRecordsItsOriginAndMarksGrips : Prop :=
  ∀ (ch : Change) (s : State),
    let x := s.cell ch.cell
    let y := (clampChange ch.kind x).cell
    let same := y.level = x.level ∧ y.muted = x.muted ∧ y.pan = x.pan ∧ y.cap = x.cap
    (same → takeChange ch s = s) ∧
    (¬ same →
      ((takeChange ch s).cell ch.cell).writer = some ch.origin ∧
      ∀ n, (takeChange ch s).grip n =
        (s.grip n).map (fun g => if g.cell = ch.cell ∧ ch.origin ≠ .station g.station then { g with state := .stale } else g)) ∧
    (¬ same →
      let m := (s.setCell ch.cell { y with writer := some ch.origin }).setGrips (takeChange ch s).grips
      takeChange ch s =
        if goalOf x ≠ goalOf y ∨ s.gliding ch.cell = true then handOff ch.cell (goalOf y) ch.length ch.tag m else m) ∧
    ∀ d, d ≠ ch.cell → (takeChange ch s).cell d = s.cell d

/-- The result flags describe the cell as it stands once the change is taken, and what the clamp did (R18): Z always comes
with N. -/
def Obligations.ResultFlagsDescribeTheCell : Prop :=
  ∀ (ch : Change) (s : State),
    let x := s.cell ch.cell
    let y := (takeChange ch s).cell ch.cell
    let f := changeFlags ch s
    (f.z = true ↔ y.level = 0) ∧ (f.n = true ↔ y.level < 200) ∧ (f.z = true → f.n = true) ∧ f.m = y.muted ∧
      (f.g = true ↔ ∃ e ∈ (takeChange ch s).glides, e.cell = ch.cell) ∧
      (f.v = true ↔ (∃ v, ch.kind = .level v ∧ x.cap < v) ∨ ∃ d, ch.kind = .nudge d ∧ (x.cap : Int) < x.level + d) ∧
      (f.c = true ↔ ∃ d, ch.kind = .nudge d ∧ (x.level : Int) + d < 0) ∧ f.s = false ∧ f.d = false

/-- A hand-off (R32, R33, R34): length 0 jumps and removes the entry; otherwise an entry is retargeted in place, a cell
without one gets one at the tail while there is room, and with a full list it jumps with GLIDE_FULL latched. -/
def Obligations.AHandOffJumpsRetargetsOrAppends : Prop :=
  ∀ (c : CellId) (goal length : Nat) (tag : Option CueId) (s : State),
    let t := handOff c goal length tag s
    (length = 0 →
      t.cell c = { s.cell c with heard := goal } ∧ t.glides = s.glides.filter (fun e => decide (e.cell ≠ c)) ∧
        t.evl = s.evl) ∧
    (length ≠ 0 → s.gliding c = true →
      t.cells = s.cells ∧ t.evl = s.evl ∧
        t.glides = s.glides.map (fun e =>
          if e.cell = c then { e with goal := goal, remaining := length, tag := tag } else e)) ∧
    (length ≠ 0 → s.gliding c = false → s.glides.length < 64 →
      t.cells = s.cells ∧ t.evl = s.evl ∧
        t.glides = s.glides ++ [{ cell := c, goal := goal, remaining := length, tag := tag }]) ∧
    (length ≠ 0 → s.gliding c = false → 64 ≤ s.glides.length → s.run = .run →
      t.cell c = { s.cell c with heard := goal } ∧ t.glides = s.glides ∧ t.latched .glideFull = true) ∧
    (∀ d, d ≠ c → t.cell d = s.cell d) ∧ MatrixFrame s t ∧ t.grips = s.grips

/-- An entry whose remaining count is 1 completes (R38): the heard level becomes the goal, the entry leaves the list, and
the running cue's count falls by 1 if the entry carried its tag.
It rests on the model's choice of log 4. -/
def Obligations.AnEntryWithOneBlockLeftCompletes : Prop :=
  ∀ (c : CellId) (e : GlideEntry) (s : State), s.run = .run → s.glideOf c = some e → e.remaining = 1 →
    ∃ t, exec (.glideEntryComplete c) s = .next t ∧
      t.cell c = { s.cell c with heard := e.goal } ∧ (∀ d, d ≠ c → t.cell d = s.cell d) ∧
      t.glides = s.glides.filter (fun x => decide (x.cell ≠ c)) ∧ t.grips = s.grips ∧ MatrixFrame s t ∧ t.evl = s.evl ∧
      ∀ r, s.cue.running = some r →
        t.cue.running = some (if e.tag = some r.cue then { r with outstanding := r.outstanding - 1 } else r)

/-! ### The block clock -/

/-- A block end moves every entry one step (R38), in every phase in which CUE has nothing to complete or fire at it: IDLE, a
fading cue whose count stays above 0, and a follow wait with two block ends or more to go. The running cue's count falls by the
tagged entries that complete (R36).
It rests on the model's choice of log 28. -/
def Obligations.ABlockEndAdvancesTheGlides : Prop :=
  ∀ (a b : PortBlock) (h : Bool) (s : State), s.run = .run → (s.glides.map (·.cell)).Nodup →
    (s.cue.phase = .idle ∨
      (s.cue.phase = .fading ∧ ∃ r, s.cue.running = some r ∧ tagsLost r.cue s < r.outstanding) ∨
      (s.cue.phase = .followWait ∧ 2 ≤ s.cue.timer)) →
    ∃ t, exec (.blockEnd a b h) s = .next t ∧ GlidesAdvanced s t ∧
      t.cue = { s.cue with
        running := s.cue.running.map (fun r => { r with outstanding := r.outstanding - tagsLost r.cue s })
        timer := if s.cue.phase = .followWait then s.cue.timer - 1 else s.cue.timer } ∧
      t.eli = s.eli ∧ t.pending = s.pending

/-- A block end counts (R84, R179): the idle blocks of every station but the one BLC holds selected, and the fade-in of
every mix. -/
def Obligations.ABlockEndCountsIdleBlocksAndFadeIns : Prop :=
  ∀ (a b : PortBlock) (h : Bool) (s : State), s.run = .run →
    ∃ t, exec (.blockEnd a b h) s = .next t ∧
      (∀ n, s.link.selected ≠ some n → t.station n =
        { s.station n with
          idle := if (s.station n).state = .absent then 0 else min ((s.station n).idle + 1) 65535 }) ∧
      (∀ m, t.outputRecord m =
        { s.outputRecord m with
          fadeIn := if s.out.hush = false ∧ (s.outputRecord m).fadeIn < 32 then (s.outputRecord m).fadeIn + 1
            else (s.outputRecord m).fadeIn }) ∧
      t.lockout = s.lockout ∧ t.out.hush = s.out.hush ∧ t.eli = s.eli

/-- A port's record after a block is judged, by the six rows of R167; the 16th good block in a row that locks a port, and the 4th
bad one in a row that unlocks it, are commands of their own too (log 4). The block end captures, for the sums that follow, the
block of the port that was active during it if it was good; otherwise, and while the active port was NONE, every source is
silent in those sums, as an UNPATCHED source always is (R168, R172; log 19). -/
def Obligations.PortsAreJudgedAtTheBlockEnd : Prop :=
  (∀ (a b : PortBlock) (h : Bool) (s : State) (p : Port), s.run = .run →
     ∃ t, exec (.blockEnd a b h) s = .next t ∧
       (let r := s.src.port p
        let good := (match p with
          | .a => a
          | .b => b).good
        (r.locked = true → good = true → t.src.port p = { r with badRun := 0 }) ∧
        (r.locked = true → good = false → r.badRun < 3 → t.src.port p = { r with badRun := r.badRun + 1 }) ∧
        (r.locked = true → good = false → r.badRun = 3 → t.src.port p = { locked := false, badRun := 0, goodRun := 0 }) ∧
        (r.locked = false → good = true → r.goodRun < 15 → t.src.port p = { r with goodRun := r.goodRun + 1 }) ∧
        (r.locked = false → good = true → r.goodRun = 15 → t.src.port p = { locked := true, badRun := 0, goodRun := 0 }) ∧
        (r.locked = false → good = false → t.src.port p = { r with goodRun := 0 })) ∧
       t.src.mode = s.src.mode ∧ t.src.patch = s.src.patch ∧ t.src.pending = s.src.pending) ∧
  (∀ (a b : PortBlock) (h : Bool) (s : State), s.run = .run →
     let block (p : Port) : PortBlock := match p with
       | .a => a
       | .b => b
     ∃ t, exec (.blockEnd a b h) s = .next t ∧
       (∀ p, s.src.active = some p → (block p).good = true → t.src.captured = (block p).audio) ∧
       ((s.src.active = none ∨ ∃ p, s.src.active = some p ∧ (block p).good = false) →
         (∀ src, sourceSamples t.src src = []) ∧ ∀ m, mixSum m t = StereoBlock.silence)) ∧
  (∀ (x : Sources) (src : Fin 48),
     (tableGet x.patch src = none → sourceSamples x src = []) ∧
     ∀ ch, tableGet x.patch src = some ch → sourceSamples x src = (x.captured.getD ch.val []).take 32) ∧
  ((∀ (p : Port) (s : State), s.run = .run → (s.src.port p).locked = false → (s.src.port p).goodRun = 15 →
     exec (.portLock p) s = .next (s.setSrc (s.src.setPort p { locked := true, badRun := 0, goodRun := 0 }))) ∧
   ∀ (p : Port) (s : State), s.run = .run → (s.src.port p).locked = true → (s.src.port p).badRun = 3 →
     exec (.portLoseLock p) s = .next (s.setSrc (s.src.setPort p { locked := false, badRun := 0, goodRun := 0 })))

/-- The active port after a block end, on the new lock states, and the event it latches (R170). -/
def Obligations.TheActivePortFollowsTheLocks : Prop :=
  ∀ (a b : PortBlock) (h : Bool) (s : State), s.run = .run →
    ∃ t, exec (.blockEnd a b h) s = .next t ∧
      (s.src.mode = .auto →
        (∀ p, s.src.active = some p → (t.src.port p).locked = true → t.src.active = some p) ∧
        (∀ p, s.src.active = some p → (t.src.port p).locked = false → (t.src.port (otherPort p)).locked = true →
          t.src.active = some (otherPort p) ∧ t.latched .sourceSwitch = true) ∧
        (∀ p, s.src.active = some p → (t.src.port p).locked = false → (t.src.port (otherPort p)).locked = false →
          t.src.active = none ∧ t.latched .sourceLost = true) ∧
        (s.src.active = none → t.src.portA.locked = true →
          t.src.active = some .a ∧ t.latched .sourceRestored = true) ∧
        (s.src.active = none → t.src.portA.locked = false → t.src.portB.locked = true →
          t.src.active = some .b ∧ t.latched .sourceRestored = true) ∧
        (s.src.active = none → t.src.portA.locked = false → t.src.portB.locked = false → t.src.active = none)) ∧
      (∀ x, s.src.mode = .force x →
        ((t.src.port x).locked = true → t.src.active = some x) ∧
        ((t.src.port x).locked = true → s.src.active = some (otherPort x) → t.latched .sourceSwitch = true) ∧
        ((t.src.port x).locked = true → s.src.active = none → t.latched .sourceRestored = true) ∧
        ((t.src.port x).locked = false → t.src.active = none) ∧
        ((t.src.port x).locked = false → s.src.active ≠ none → t.latched .sourceLost = true))

/-- A block start in RUN (R173, R176, R177): pending patches are written, and every mix delivers silence when it is OFF or
hushed, else its source scaled to its ceiling where it exceeds it, faded and clipped; a scaled block is a hit and latches
CEILING. In INIT every output delivers silence. A pending run replaces its entries from its first source upward and no other
(R173). A sum is the total over the 48 sources of sample, gain of the heard level and pan factor (R174): the gains by the law of
the level codes, ten times for 40 codes more, inside one part in 2 to the 48, and the pan factors by the cosine's double angle and
the constant power, inside the bounds of log 17. The tone is a sine of 48 samples to the cycle with a tenth of full scale as its
peak, the same in both channels, inside the bound of log 18; its generator moves on by a block at every block start, in INIT too,
so that the blocks join (R176).
It rests on the model's choices of log 17, log 18. -/
def Obligations.ABlockStartFormsTheOutputs : Prop :=
  (∀ s : State, s.run = .run →
    ∃ t, exec .blockStart s = .next t ∧
      t.src = { s.src with
        patch := s.src.pending.foldl (fun t r => writePatchRun r.first r.channels t) s.src.patch
        pending := [] } ∧
      (∀ m, ((s.outputRecord m).mode = .off ∨ s.out.hush = true) →
        tableGet t.out.delivered m = StereoBlock.silence ∧ t.outputRecord m = s.outputRecord m) ∧
      (∀ m, (s.outputRecord m).mode ≠ .off → s.out.hush = false →
        let u := s.setSrc t.src
        let r := s.outputRecord m
        let block := match r.mode with
          | .normal => mixSum m u
          | .mirror => mixSum r.target u
          | _ => toneBlock s.out.tone
        let hot := gain r.ceiling < blockPeak block
        (¬ hot → t.outputRecord m = r ∧
          tableGet t.out.delivered m = (scaleBlock ((r.fadeIn : Rat) / 32) block).map
            (fun x => (clipSample x.1, clipSample x.2))) ∧
        (hot → t.outputRecord m = { r with hits := min (r.hits + 1) 65535 } ∧ t.latched .ceiling = true ∧
          tableGet t.out.delivered m =
            (scaleBlock ((r.fadeIn : Rat) / 32) (scaleBlock (gain r.ceiling / blockPeak block) block)).map
              (fun x => (clipSample x.1, clipSample x.2)))) ∧
      t.out.tone = (s.out.tone + 32) % 48 ∧
      t.cells = s.cells ∧ t.glides = s.glides ∧ t.cue = s.cue ∧ t.link = s.link ∧ t.eli = s.eli) ∧
  (∀ s : State, s.run = .init → ∃ t, exec .blockStart s = .next t ∧ t.out.tone = (s.out.tone + 32) % 48 ∧
    ∀ m, tableGet t.out.delivered m = StereoBlock.silence) ∧
  (∀ place : Nat, (toneBlock place).length = 32 ∧ ∀ i < 32, ∃ x : Rat,
    (toneBlock place).getD i (0, 0) = (x, x) ∧
    |(x : ℝ) - Real.sin (2 * Real.pi * (place + i) / 48) / 10| * (10 * 2 ^ 48) ≤ 1 ∧
    ∀ q j, j < 32 → (q + j) % 48 = (place + i) % 48 → (toneBlock q).getD j (0, 0) = (x, x)) ∧
  (∀ (first : Nat) (channels : List (Option Channel)) (patch : Vector (Option Channel) 48) (src : Fin 48),
    tableGet (writePatchRun first channels patch) src =
      if first ≤ src.val ∧ src.val < first + channels.length then channels.getD (src.val - first) none
      else tableGet patch src) ∧
  (∀ (m : Fin 16) (s : State), (mixSum m s).length = 32 ∧ ∀ i < 32,
    let total (factor : Int → Rat) : Rat := ((List.finRange 48).map (fun src =>
      (sourceSamples s.src src).getD i 0 * gain (s.cell ⟨m, src⟩).heard * factor (s.cell ⟨m, src⟩).pan)).sum
    (mixSum m s).getD i (0, 0) = (total panLeft, total panRight)) ∧
  (gain 0 = 0 ∧ gain 200 = 1 ∧ (∀ l, 1 ≤ l → gain (l + 40) = 10 * gain l) ∧
    ∀ l, 1 ≤ l → l ≤ 220 → ∃ lo hi : Rat, 0 ≤ lo ∧ lo ≤ gain l ∧ gain l ≤ hi ∧ (hi - lo) * 2 ^ 48 ≤ 1 ∧
      lo ^ 40 * 10 ^ 200 ≤ 10 ^ l ∧ 10 ^ l ≤ hi ^ 40 * 10 ^ 200) ∧
  (panLeft (-32) = 1 ∧ panLeft 32 = 0 ∧ ∀ p : Int, -32 ≤ p → p ≤ 32 →
    0 ≤ panLeft p ∧ panRight p = panLeft (-p) ∧ |panLeft p ^ 2 + panRight p ^ 2 - 1| * 2 ^ 46 ≤ 1 ∧
      (p ≤ 0 → |2 * panLeft p ^ 2 - 1 - panLeft (2 * p + 32)| * 2 ^ 45 ≤ 1))

/-- The running cue's count is 0 at CUE's check (R61, R62): CUE_DONE is latched, the record is dropped, and the follow-on
is parked, waited for or fired at once. The follow-wait timer at its last block end (R63): IDLE, and the next pointer is
fired; at a block end before it the timer falls by 1. Both as commands of their own (log 4) and inside BLOCK_END, where they
come after GLU's advance.
It rests on the model's choices of log 4, log 28. -/
def Obligations.ACueCompletesAndItsFollowOnRuns : Prop :=
  (∀ (r : RunningCue) (s : State), s.run = .run → s.cue.phase = .fading → s.cue.running = some r → r.outstanding = 0 →
     let done := s.setEvl { s.evl with marks := s.evl.marks ||| 0x1000#16 }
     (r.followOn = none →
       exec .cueDone s = .next (done.setCue { s.cue with running := none, phase := .idle })) ∧
     (∀ f, r.followOn = some f → s.cue.hold = true →
       exec .cueDone s = .next (done.setCue { s.cue with running := none, nextPointer := some f.cue, phase := .idle })) ∧
     (∀ f, r.followOn = some f → s.cue.hold = false → f.wait ≠ 0 →
       exec .cueDone s = .next (done.setCue
         { s.cue with running := none, nextPointer := some f.cue, phase := .followWait, timer := f.wait })) ∧
     ∀ f, r.followOn = some f → s.cue.hold = false → f.wait = 0 →
       exec .cueDone s =
         .next (fireNext (done.setCue { s.cue with running := none, nextPointer := some f.cue, phase := .idle }))) ∧
  ((∀ s : State, s.run = .run → s.cue.phase = .followWait → s.cue.timer = 1 →
     exec .followWaitExpiry s = .next (fireNext (s.setCue { s.cue with timer := 0, phase := .idle }))) ∧
   ∀ (a b : PortBlock) (h : Bool) (s : State), s.run = .run → s.cue.phase = .followWait → 2 ≤ s.cue.timer →
     ∃ t, exec (.blockEnd a b h) s = .next t ∧ t.cue.phase = .followWait ∧ t.cue.timer = s.cue.timer - 1 ∧
       t.cue.nextPointer = s.cue.nextPointer ∧ t.cue.hold = s.cue.hold ∧ t.cue.flags = s.cue.flags ∧
       t.cue.slots = s.cue.slots) ∧
  (∀ (a b : PortBlock) (h : Bool) (r : RunningCue) (s : State), s.run = .run → (s.glides.map (·.cell)).Nodup →
     s.cue.phase = .fading → s.cue.running = some r → r.outstanding ≤ tagsLost r.cue s →
     ∃ t, exec (.blockEnd a b h) s = .next t ∧ t.latched .cueDone = true ∧
       (r.followOn = none → GlidesAdvanced s t ∧ t.cue = { s.cue with running := none, phase := .idle }) ∧
       (∀ f, r.followOn = some f → s.cue.hold = true → GlidesAdvanced s t ∧
         t.cue = { s.cue with running := none, nextPointer := some f.cue, phase := .idle }) ∧
       (∀ f, r.followOn = some f → s.cue.hold = false → f.wait ≠ 0 → GlidesAdvanced s t ∧
         t.cue = { s.cue with running := none, nextPointer := some f.cue, phase := .followWait, timer := f.wait }) ∧
       ∀ f, r.followOn = some f → s.cue.hold = false → f.wait = 0 → ∃ u, GlidesAdvanced s u ∧
         u.cue = { s.cue with running := none, nextPointer := some f.cue, phase := .idle } ∧ u.run = .run ∧
         t.cells = (fireNext u).cells ∧ t.glides = (fireNext u).glides ∧ t.cue = (fireNext u).cue ∧
         ∀ e, (fireNext u).latched e = true → t.latched e = true) ∧
  ∀ (a b : PortBlock) (h : Bool) (s : State), s.run = .run → (s.glides.map (·.cell)).Nodup →
     s.cue.phase = .followWait → s.cue.timer = 1 → s.cue.running = none →
     ∃ t u, exec (.blockEnd a b h) s = .next t ∧ GlidesAdvanced s u ∧ u.cue = { s.cue with timer := 0, phase := .idle } ∧
       u.run = .run ∧ t.cells = (fireNext u).cells ∧ t.glides = (fireNext u).glides ∧ t.cue = (fireNext u).cue ∧
       ∀ e, (fireNext u).latched e = true → t.latched e = true

/-! ### Cues -/

/-- The chain of evaluations (R54): an empty slot refuses, a passing guard fires, a failing one leads to the alternate or
skips; no more than 8 evaluations are made. The four senses of a guard (R53), and a cue without one. -/
def Obligations.TheChainMakesEightEvaluations : Prop :=
  (chainLimit = 8 ∧
   (∀ c s, chain 0 c s = .refuses) ∧
   (∀ k c s, s.slot c = none → chain (k + 1) c s = .refuses) ∧
   (∀ k c r s, s.slot c = some r → guardPasses r.guard s.cue.flags = true → chain (k + 1) c s = .fires c r) ∧
   (∀ k c r a s, s.slot c = some r → guardPasses r.guard s.cue.flags = false → r.alternate = some a →
     chain (k + 1) c s = chain k a s) ∧
   ∀ k c r s, s.slot c = some r → guardPasses r.guard s.cue.flags = false → r.alternate = none →
     chain (k + 1) c s = .skips c) ∧
  (∀ (mask flags : Word16),
     guardPasses none flags = true ∧
     (guardPasses (some ⟨mask, .allSet⟩) flags = true ↔ ∀ i, mask.getLsbD i = true → flags.getLsbD i = true) ∧
     (guardPasses (some ⟨mask, .allClear⟩) flags = true ↔ ∀ i, mask.getLsbD i = true → flags.getLsbD i = false) ∧
     (guardPasses (some ⟨mask, .anySet⟩) flags = true ↔ ∃ i, mask.getLsbD i = true ∧ flags.getLsbD i = true) ∧
     (guardPasses (some ⟨mask, .anyClear⟩) flags = true ↔ ∃ i, mask.getLsbD i = true ∧ flags.getLsbD i = false))

/-- GO and GOTO, from either link, fire the cue their chain ends at (R57 to R60, R65, R66). The changes of the fire are the
edits in list order, ALL as M0 to M15 in turn, of origin CUE c, with the fade as their length and the cue's tag, taken one after
the other (R59); before them the running cue's tags and record and a follow wait are gone, and the new record stands (R58).
It rests on the model's choice of log 6. -/
def Obligations.GoAndGotoFireTheCue : Prop :=
  (∀ (link : CueLink) (c f : CueId) (r : CueRecord) (s : State), CueInputReady link s → s.cue.nextPointer = some c →
    chain chainLimit c s = .fires f r → ∃ t, exec (.go link) s = .next t ∧ Fired f r (cueInput link s) t) ∧
  (∀ (b : Byte) (f : CueId) (r : CueRecord) (s : State) (h : b.toNat < 96), CueInputReady .console s →
    chain chainLimit ⟨b.toNat, h⟩ s = .fires f r →
    ∃ t, exec (.goto (.console b)) s = .next t ∧ Fired f r (cueInput .console s) t) ∧
  (∀ (w : Word16) (f : CueId) (r : CueRecord) (s : State) (h : w.toNat < 96), CueInputReady .showLink s →
    chain chainLimit ⟨w.toNat, h⟩ s = .fires f r →
    ∃ t, exec (.goto (.showLink w)) s = .next t ∧ Fired f r (cueInput .showLink s) t) ∧
  ((∀ (c : CueId) (r : CueRecord), cueChanges c r = r.edits.flatMap (fun e =>
      (match e.target with
        | .mix m => [m]
        | .all => List.finRange 16).map (fun m =>
          { cell := ⟨m, e.source⟩
            kind := match e.action with
              | .level v => .level v
              | .nudge d => .nudge d
              | .mute => .mute
              | .unmute => .unmute
              | .pan p => .pan p
            origin := .cue c, length := r.fade, tag := some c }))) ∧
   (∀ s, takeChanges [] s = s) ∧ (∀ ch chs s, takeChanges (ch :: chs) s = takeChanges chs (takeChange ch s)) ∧
   ∀ (c : CueId) (r : CueRecord) (s : State), makeRecord c r (supersede s) =
     (s.setGlides (if s.cue.running.isSome then s.glides.map (fun e => { e with tag := none }) else s.glides)).setCue
       { s.cue with running := some { cue := c, outstanding := 0, followOn := r.followOn }, timer := 0 })

/-- A GO on END, and a GO or a GOTO on an empty slot or on a chain that refuses, latch CUE_REFUSED and do nothing else; a chain
that skips moves the pointer above the skipped cue and latches CUE_SKIPPED; a GOTO above 95 is refused by CUE from the Show Link, by
the Engineer Link from the console (R55, R56, R66).
It rests on the model's choice of log 6. -/
def Obligations.GoIsRefusedOrSkips : Prop :=
  (∀ (link : CueLink) (s : State), CueInputReady link s → s.cue.nextPointer = none →
    exec (.go link) s = .next ((cueInput link s).setEvl { s.evl with marks := s.evl.marks ||| 0x0800#16 })) ∧
  (∀ (link : CueLink) (c : CueId) (s : State), CueInputReady link s → s.cue.nextPointer = some c →
    s.slot c = none ∨ chain chainLimit c s = .refuses →
    exec (.go link) s = .next ((cueInput link s).setEvl { s.evl with marks := s.evl.marks ||| 0x0800#16 })) ∧
  (∀ (link : CueLink) (c k : CueId) (s : State), CueInputReady link s → s.cue.nextPointer = some c →
    chain chainLimit c s = .skips k →
    exec (.go link) s = .next (((cueInput link s).setCue { s.cue with nextPointer := lowestAbove k s }).setEvl
      { s.evl with marks := s.evl.marks ||| 0x0400#16 })) ∧
  (∀ (link : CueLink) (n : CueId) (s : State), CueInputReady link s →
    let goto : Instr := .goto (match link with
      | .console => .console (byteOfNat n.val)
      | .showLink => .showLink (BitVec.ofNat 16 n.val))
    (s.slot n = none ∨ chain chainLimit n s = .refuses →
      exec goto s = .next ((cueInput link s).setEvl { s.evl with marks := s.evl.marks ||| 0x0800#16 })) ∧
    ∀ k, chain chainLimit n s = .skips k →
      exec goto s = .next (((cueInput link s).setCue { s.cue with nextPointer := lowestAbove k s }).setEvl
        { s.evl with marks := s.evl.marks ||| 0x0400#16 })) ∧
  (∀ (w : Word16) (s : State), CueInputReady .showLink s → 95 < w.toNat →
    exec (.goto (.showLink w)) s =
      .next ((cueInput .showLink s).setEvl { s.evl with marks := s.evl.marks ||| 0x0800#16 })) ∧
  ∀ (b : Byte) (s : State), CueInputReady .console s → 95 < b.toNat →
    exec (.goto (.console b)) s = .next (refusedAfter s)

/-- STOP in the three phases (R67); hold (R68) and the show flags (R52), from the links that have them.
It rests on the model's choice of log 6. -/
def Obligations.StopHoldAndFlagsAreWritten : Prop :=
  (∀ s : State, CommandReady .extended s →
     (s.cue.phase = .fading →
       exec .stop s = .next (((cueInput .console s).setGlides (s.glides.map (fun e => { e with tag := none }))).setCue
         { s.cue with running := none, phase := .idle })) ∧
     (s.cue.phase = .followWait →
       exec .stop s = .next ((cueInput .console s).setCue { s.cue with timer := 0, phase := .idle })) ∧
     (s.cue.phase = .idle → exec .stop s = .next (cueInput .console s))) ∧
  ((∀ s : State, MessageReady s → s.cue.phase ≠ .followWait →
     exec .holdOn s = .next ((cueInput .showLink s).setCue { s.cue with hold := true })) ∧
   (∀ s : State, MessageReady s → s.cue.phase = .followWait →
     exec .holdOn s = .next ((cueInput .showLink s).setCue { s.cue with hold := true, timer := 0, phase := .idle })) ∧
   (∀ s : State, MessageReady s →
     exec .holdOff s = .next ((cueInput .showLink s).setCue { s.cue with hold := false })) ∧
   (∀ s : State, CommandReady .extended s → s.cue.phase ≠ .followWait →
     exec (.hold 1) s = .next ((cueInput .console s).setCue { s.cue with hold := true })) ∧
   (∀ s : State, CommandReady .extended s → s.cue.phase = .followWait →
     exec (.hold 1) s = .next ((cueInput .console s).setCue { s.cue with hold := true, timer := 0, phase := .idle })) ∧
   (∀ s : State, CommandReady .extended s →
     exec (.hold 0) s = .next ((cueInput .console s).setCue { s.cue with hold := false })) ∧
   (∀ (v : Byte) (s : State), CommandReady .extended s → v ≠ 0 → v ≠ 1 → exec (.hold v) s = .next (refusedAfter s)) ∧
   (∀ (link : CueLink) (mask : Word16) (s : State), CueInputReady link s →
     exec (.flagsSet link mask) s = .next ((cueInput link s).setCue { s.cue with flags := s.cue.flags ||| mask })) ∧
   ∀ (link : CueLink) (mask : Word16) (s : State), CueInputReady link s →
     exec (.flagsClear link mask) s = .next ((cueInput link s).setCue { s.cue with flags := s.cue.flags &&& ~~~mask }))

/-- CUE POINTER and CUE DELETE (R69, R72).
It rests on the model's choices of log 6, log 31. -/
def Obligations.PointerAndDeleteMoveTheList : Prop :=
  (∀ (n : CueId) (s : State), CommandReady .extended s → (s.slot n).isSome = true →
    exec (.cuePointer (byteOfNat n.val)) s = .next ((cueInput .console s).setCue { s.cue with nextPointer := some n })) ∧
  (∀ s : State, CommandReady .extended s →
    exec (.cuePointer 255) s = .next ((cueInput .console s).setCue { s.cue with nextPointer := none })) ∧
  (∀ (v : Byte) (s : State), CommandReady .extended s → v ≠ 255 →
    (∀ n : CueId, n.val = v.toNat → s.slot n = none) → exec (.cuePointer v) s = .next (refusedAfter s)) ∧
  (∀ (n : CueId) (s : State), CommandReady .extended s →
    ∃ t, exec (.cueDelete (byteOfNat n.val)) s = .next t ∧ t.slot n = none ∧ (∀ m, m ≠ n → t.slot m = s.slot m) ∧
      t.cue.poolUsed = s.cue.poolUsed - slotEdits (s.slot n) ∧
      (s.cue.nextPointer = some n → t.cue.nextPointer = lowestAbove n t) ∧
      (s.cue.nextPointer ≠ some n → t.cue.nextPointer = s.cue.nextPointer) ∧
      t = (cueInput .console s).setCue { s.cue with
        slots := t.cue.slots, poolUsed := t.cue.poolUsed, nextPointer := t.cue.nextPointer }) ∧
  ∀ (v : Byte) (s : State), CommandReady .extended s → 95 < v.toNat →
    exec (.cueDelete v) s = .next (refusedAfter s)

/-! ### The Engineer Link -/

/-- A frame begins with a header, whose continuation flag and kind say how the next bytes are read; kind 3 is refused
(R182). The frame end (R187): with nothing incomplete and nothing staged it clears the frame state alone; an incomplete
command is dropped and refused.
It rests on the model's choices of log 7, log 25. -/
def Obligations.FramesBeginWithHeadersAndDropTheIncomplete : Prop :=
  ((∀ s : State, s.eli.frame = .noFrame →
     exec .selectFrameStart s = .next (s.setEli { s.eli with frame := .headerDue })) ∧
   (∀ (b : Byte) (s : State), s.eli.frame = .headerDue → headerKind b ≠ .ignored →
     exec (.header b) s = .next (s.setEli { s.eli with
       frame := if b.getLsbD 7 then .one (headerKind b) else .run (headerKind b), dataOut := 0 })) ∧
   (∀ (b : Byte) (s : State), s.eli.frame = .headerDue → headerKind b = .ignored →
     exec (.header b) s = .next (s.setEli { s.eli with
       frame := if b.getLsbD 7 then .one .ignored else .run .ignored, dataOut := 0, refused := true })) ∧
   headerKind 0x80 = .command ∧ headerKind 0x01 = .writeCells ∧ headerKind 0x82 = .readCells ∧ headerKind 0x03 = .ignored) ∧
  ((∀ s : State, s.eli.frame ≠ .noFrame → s.eli.frame ≠ .cut → s.eli.arrival = .none → s.eli.staging = none →
     exec .frameEnd s = .next (s.setEli { s.eli with frame := .noFrame, reply := [] })) ∧
   (∀ (held : List Byte) (s : State), s.eli.frame ≠ .noFrame → s.eli.frame ≠ .cut → s.eli.arrival = .bytes held →
     s.eli.staging = none →
     exec .frameEnd s = .next (s.setEli { s.eli with frame := .noFrame, arrival := .none, reply := [], refused := true })) ∧
   (∀ s : State, s.eli.frame ≠ .noFrame → s.eli.frame ≠ .cut → s.eli.arrival = .staged →
     exec .frameEnd s = .next (s.setEli
       { s.eli with frame := .noFrame, arrival := .none, reply := [], staging := none, refused := true })) ∧
   ∀ s : State, s.eli.frame = .cut → exec .frameEnd s = .next (s.setEli { s.eli with frame := .noFrame }))

/-- A staged MAP LOAD at the frame end (R91, R92): the map is replaced whole, the station's grip is dropped, a running
transfer to it ends with MAP_CHANGED; a load that does not read is refused. Which loads do not read, and the map of one that
does, entry by entry (R91). -/
def Obligations.TheFrameEndAppliesAMapLoad : Prop :=
  (∀ (body : List Byte) (s : State), s.run = .run → s.eli.frame ≠ .noFrame → s.eli.frame ≠ .cut →
    s.eli.arrival = .none → s.eli.staging = some (0x23#8 :: body) →
    (∀ n m, readMapLoad body = some (n, m) → ∃ t, exec .frameEnd s = .next t ∧
      t.station n = { s.station n with map := m } ∧ (∀ k, k ≠ n → t.station k = s.station k) ∧
      t.grip n = none ∧ (∀ k, k ≠ n → t.grip k = s.grip k) ∧
      t.link = { s.link with transferEnd :=
        if s.link.state = .sending ∧ s.link.selected = some n ∧ s.link.transferEnd = .running then .mapChanged
        else s.link.transferEnd } ∧
      t.eli = { s.eli with frame := .noFrame, reply := [], staging := none } ∧
      t.cells = s.cells ∧ t.glides = s.glides ∧ t.cue = s.cue ∧ t.evl = s.evl) ∧
    (readMapLoad body = none →
      exec .frameEnd s = .next (s.setEli { s.eli with frame := .noFrame, reply := [], staging := none, refused := true }))) ∧
  ∀ (n count : Byte) (es : List (Byte × Byte × Byte × Byte)), es.length = count.toNat →
    let body := n :: count :: es.flatMap (fun e => [e.1, e.2.1, e.2.2.1, e.2.2.2])
    let bad := 15 < n.toNat ∨ 24 < es.length ∨
      (∃ e ∈ es, 23 < e.1.toNat ∨ 15 < e.2.1.toNat ∨ 47 < e.2.2.1.toNat ∨ 2 < e.2.2.2.toNat) ∨
      ¬ (es.map (fun e => e.1)).Nodup ∨ ¬ (es.map (fun e => (e.2.1, e.2.2.1))).Nodup
    (bad → readMapLoad body = none) ∧
    (¬ bad → ∃ k m, readMapLoad body = some (k, m) ∧ k.val = n.toNat ∧
      (∀ e ∈ es, ∀ i : LocalIndex, i.val = e.1.toNat → ∃ x, mapAt m i = some x ∧ x.cell.mix.val = e.2.1.toNat ∧
        x.cell.source.val = e.2.2.1.toNat ∧
        x.right = if e.2.2.2 = 0 then .view else if e.2.2.2 = 1 then .adjust else .full) ∧
      ∀ i : LocalIndex, (∀ e ∈ es, e.1.toNat ≠ i.val) → mapAt m i = none)

/-- A staged CUE LOAD at the frame end (R49, R71): the slot is written and the pool's count follows, or the load is
refused and nothing of CUE changes. How the bytes are cut into the load's items, a presence byte other than 0 counting as
present; the loads that R71 refuses; and what is read of a load that holds a record's own values (R70, R71). -/
def Obligations.TheFrameEndAppliesACueLoad : Prop :=
  (∀ (body rest : List Byte) (raw : RawCueLoad) (s : State), s.run = .run → s.eli.frame ≠ .noFrame → s.eli.frame ≠ .cut →
    s.eli.arrival = .none → s.eli.staging = some (0x25#8 :: body) → parseCueLoad body = some (raw, rest) →
    let refused := s.setEli { s.eli with frame := .noFrame, reply := [], staging := none, refused := true }
    (∀ n r, readCueLoad raw = some (n, r) →
      s.cue.poolUsed - slotEdits (s.slot n) + r.edits.length ≤ 1024 →
      exec .frameEnd s = .next ((s.setEli { s.eli with frame := .noFrame, reply := [], staging := none }).setCue
        { s.cue with
          slots := tableSet s.cue.slots n (some r)
          poolUsed := s.cue.poolUsed - slotEdits (s.slot n) + r.edits.length })) ∧
    (∀ n r, readCueLoad raw = some (n, r) →
      1024 < s.cue.poolUsed - slotEdits (s.slot n) + r.edits.length → exec .frameEnd s = .next refused) ∧
    (readCueLoad raw = none → exec .frameEnd s = .next refused)) ∧
  (∀ (raw : RawCueLoad) (count : Byte) (rest : List Byte),
    let sent (k : Nat) (i : RawItem) : Prop :=
      (i.presence = 0 ∧ i.bytes = []) ∨ (i.presence ≠ 0 ∧ i.bytes.length = k)
    let item (i : RawItem) : List Byte := i.presence :: i.bytes
    sent 3 raw.guard → sent 1 raw.alternate → sent 3 raw.followOn → sent 2 raw.setMask → sent 2 raw.clearMask →
    raw.edits.length = 4 * count.toNat →
    parseCueLoad ([raw.slot] ++ item raw.guard ++ item raw.alternate ++ item raw.followOn ++ [raw.fadeHi, raw.fadeLo] ++
      item raw.setMask ++ item raw.clearMask ++ [count] ++ raw.edits ++ rest) = some (raw, rest)) ∧
  (∀ (raw : RawCueLoad) (es : List (Byte × Byte × Byte × Byte)),
    raw.edits = es.flatMap (fun e => [e.1, e.2.1, e.2.2.1, e.2.2.2]) →
    (95 < raw.slot.toNat ∨
      (∃ i ∈ [raw.guard, raw.alternate, raw.followOn, raw.setMask, raw.clearMask], 1 < i.presence.toNat) ∨
      (raw.guard.presence = 1 ∧ ∃ hi lo q : Byte, raw.guard.bytes = [hi, lo, q] ∧ 3 < q.toNat) ∨
      (raw.alternate.presence = 1 ∧ ∃ c : Byte, raw.alternate.bytes = [c] ∧ 95 < c.toNat) ∨
      (raw.followOn.presence = 1 ∧ ∃ c hi lo : Byte, raw.followOn.bytes = [c, hi, lo] ∧ 95 < c.toNat) ∨
      4095 < raw.fadeHi.toNat * 256 + raw.fadeLo.toNat ∨ es.length < 1 ∨ 24 < es.length ∨
      ∃ e ∈ es, (15 < e.1.toNat ∧ e.1 ≠ 255) ∨ 47 < e.2.1.toNat ∨ 4 < e.2.2.1.toNat ∨
        (e.2.2.1 = 0 ∧ 220 < e.2.2.2.toNat) ∨ (e.2.2.1 = 1 ∧ (e.2.2.2.toInt < -40 ∨ 40 < e.2.2.2.toInt)) ∨
        (e.2.2.1 = 4 ∧ (e.2.2.2.toInt < -32 ∨ 32 < e.2.2.2.toInt))) →
    readCueLoad raw = none) ∧
  ∀ (n : CueId) (r : CueRecord) (value : Byte), r.lawful →
    let mask (w : Word16) : List Byte := [hiByte w, loByte w]
    readCueLoad
      { slot := byteOfNat n.val
        guard := match r.guard with
          | none => ⟨0, []⟩
          | some g => ⟨1, mask g.mask ++ [match g.sense with
            | .allSet => 0
            | .allClear => 1
            | .anySet => 2
            | .anyClear => 3]⟩
        alternate := match r.alternate with
          | none => ⟨0, []⟩
          | some c => ⟨1, [byteOfNat c.val]⟩
        followOn := match r.followOn with
          | none => ⟨0, []⟩
          | some f => ⟨1, [byteOfNat f.cue.val, byteOfNat (f.wait / 256), byteOfNat f.wait]⟩
        fadeHi := byteOfNat (r.fade / 256)
        fadeLo := byteOfNat r.fade
        setMask := match r.setMask with
          | none => ⟨0, []⟩
          | some w => ⟨1, mask w⟩
        clearMask := match r.clearMask with
          | none => ⟨0, []⟩
          | some w => ⟨1, mask w⟩
        edits := r.edits.flatMap (fun e =>
          [match e.target with
            | .mix m => byteOfNat m.val
            | .all => 255, byteOfNat e.source.val] ++
          match e.action with
            | .level v => [0, byteOfNat v]
            | .nudge d => [1, byteOfInt d]
            | .mute => [2, value]
            | .unmute => [3, value]
            | .pan p => [4, byteOfInt p]) } = some (n, r)

/-- A load sent whole on the EXTENDED page takes the free staging buffer and changes nothing else; a second load of the frame
is read through and refused, and the first stays staged as it is (R190).
It rests on the model's choice of log 6. -/
def Obligations.LoadsWaitInTheStagingBuffer : Prop :=
  (∀ (n count : Byte) (body : List Byte) (s : State), CommandReady .extended s → s.eli.staging = none →
    body.length = 4 * count.toNat →
    exec (.mapLoad (n :: count :: body)) s =
      .next (s.setEli { eliAfter s with staging := some (0x23#8 :: n :: count :: body) })) ∧
  (∀ (body : List Byte) (s : State), CommandReady .extended s → s.eli.staging = none →
    (parseCueLoad body).isSome = true → (∀ pre rest, body = pre ++ rest → rest ≠ [] → parseCueLoad pre = none) →
    exec (.cueLoad body) s = .next (s.setEli { eliAfter s with staging := some (0x25#8 :: body) })) ∧
  (∀ (n count : Byte) (body first : List Byte) (s : State), CommandReady .extended s → s.eli.staging = some first →
    body.length = 4 * count.toNat →
    exec (.mapLoad (n :: count :: body)) s = .next (s.setEli { eliAfter s with staging := some first, refused := true })) ∧
  ∀ (body first : List Byte) (s : State), CommandReady .extended s → s.eli.staging = some first →
    (parseCueLoad body).isSome = true → (∀ pre rest, body = pre ++ rest → rest ≠ [] → parseCueLoad pre = none) →
    exec (.cueLoad body) s = .next (s.setEli { eliAfter s with staging := some first, refused := true })

/-- A WRITE-CELLS byte presents one ENGINEER change for the pointer cell, or is ignored and refused; the pointer advances
either way (R188).
It rests on the model's choices of log 6 (where a header is due, it comes before the byte) and log 7. -/
def Obligations.WriteCellsPresentsOneChange : Prop :=
  ∀ (b : Byte) (s : State), CellByteReady .writeCells s →
    let rest (e : EngineerLink) : EngineerLink :=
      { e with frame := frameRest s.eli.frame, dataOut := 0, pointer := walkStep s.eli.walk s.eli.pointer }
    let presents (k : ChangeKind) : Prop :=
      exec (.writeCells b) s = .next ((takeChange
        { cell := s.eli.pointer, kind := k, origin := .engineer, length := s.eli.glideLength, tag := none } s).setEli
          (rest s.eli))
    let ignored : Prop := exec (.writeCells b) s = .next (s.setEli { rest s.eli with refused := true })
    (s.eli.field = .level → (b.toNat ≤ 220 → presents (.level b.toNat)) ∧ (220 < b.toNat → ignored)) ∧
    (s.eli.field = .cap → (b.toNat ≤ 220 → presents (.cap b.toNat)) ∧ (220 < b.toNat → ignored)) ∧
    (s.eli.field = .pan → (-32 ≤ b.toInt ∧ b.toInt ≤ 32 → presents (.pan b.toInt)) ∧
      (b.toInt < -32 ∨ 32 < b.toInt → ignored)) ∧
    (s.eli.field = .mute → (b = 1 → presents .mute) ∧ (b = 0 → presents .unmute) ∧ (b ≠ 0 → b ≠ 1 → ignored)) ∧
    (s.eli.field = .heard → ignored)

/-- A READ-CELLS position sends the hold latch, loads it with the selected field of the pointer cell, and advances the
pointer (R189), by one of the two walks (R188).
It rests on the model's choices of log 6 (where a header is due, it comes before the byte) and log 7 (the byte shifted out). -/
def Obligations.ReadCellsGoesThroughTheLatch : Prop :=
  (∀ (b : Byte) (s : State), CellByteReady .readCells s →
     let x := s.cell s.eli.pointer
     exec (.readCells b) s = .next (s.setEli { s.eli with
       frame := frameRest s.eli.frame
       dataOut := s.eli.latch
       latch := match s.eli.field with
         | .level => byteOfNat x.level
         | .cap => byteOfNat x.cap
         | .pan => byteOfInt x.pan
         | .mute => if x.muted then 1 else 0
         | .heard => byteOfNat x.heard
       pointer := walkStep s.eli.walk s.eli.pointer })) ∧
  (∀ c : CellId,
     (c.source.val < 47 → ∀ d, walkStep .across c = d → d.mix = c.mix ∧ d.source.val = c.source.val + 1) ∧
     (c.source.val = 47 → c.mix.val < 15 → ∀ d, walkStep .across c = d → d.mix.val = c.mix.val + 1 ∧ d.source = 0) ∧
     (c.mix.val < 15 → ∀ d, walkStep .down c = d → d.source = c.source ∧ d.mix.val = c.mix.val + 1) ∧
     (c.mix.val = 15 → c.source.val < 47 → ∀ d, walkStep .down c = d → d.source.val = c.source.val + 1 ∧ d.mix = 0) ∧
     (c.mix.val = 15 → c.source.val = 47 → walkStep .across c = ⟨0, 0⟩ ∧ walkStep .down c = ⟨0, 0⟩))

/-- A COMMAND position with a reply byte due sends it, ignores the byte received, and clears the marks that an EVENTS
byte returned as set (R185, R194).
It rests on the model's choice of log 6 (where a header is due, it comes before the position). -/
def Obligations.ReplyBytesGoOut : Prop :=
  ∀ (b : Byte) (r : ReplyByte) (rest : List ReplyByte) (s : State), commandFrame s.eli.frame →
    s.eli.reply = r :: rest →
    exec (.replyByte b) s = .next ((s.setEli
      { s.eli with frame := frameRest s.eli.frame, reply := rest, dataOut := r.value }).setEvl
        { s.evl with marks := s.evl.marks &&& ~~~r.clears })

/-- A code of neither page, and a code of the other page with its operands, are refused and change nothing else (R184).
It rests on the model's choice of log 6. -/
def Obligations.UnknownAndOtherPageCodesAreRefused : Prop :=
  (∀ (b : Byte) (p : Page) (s : State), CommandReady p s → codeOf b = none →
    exec (.unknownCode b) s = .next (refusedAfter s)) ∧
  ∀ (c : ConsoleCode) (ops : List Byte) (p : Page) (s : State), CommandReady p s → codeOnPage c p = false →
    operandsComplete (codeShape c) ops = true →
    (∀ pre rest, ops = pre ++ rest → rest ≠ [] → operandsComplete (codeShape c) pre = false) →
    exec (.otherPageCode (codeByte c) ops) s = .next (refusedAfter s)

/-- The BASIC commands that set ELI's own state, in and out of range (R184, R188); PAGE is taken on either page (R184).
It rests on the model's choice of log 6. -/
def Obligations.BasicSettingsAreTakenOrRefused : Prop :=
  (∀ s : State, CommandReady .basic s →
     exec .nop s = .next (s.setEli (eliAfter s)) ∧
     (∀ c : CellId, exec (.position (byteOfNat c.mix.val) (byteOfNat c.source.val)) s =
       .next (s.setEli { eliAfter s with pointer := c })) ∧
     (∀ m src : Byte, 15 < m.toNat ∨ 47 < src.toNat → exec (.position m src) s = .next (refusedAfter s)) ∧
     exec (.walk 0) s = .next (s.setEli { eliAfter s with walk := .across }) ∧
     exec (.walk 1) s = .next (s.setEli { eliAfter s with walk := .down }) ∧
     (∀ v : Byte, v ≠ 0 → v ≠ 1 → exec (.walk v) s = .next (refusedAfter s)) ∧
     exec (.field 0) s = .next (s.setEli { eliAfter s with field := .level }) ∧
     exec (.field 1) s = .next (s.setEli { eliAfter s with field := .cap }) ∧
     exec (.field 2) s = .next (s.setEli { eliAfter s with field := .pan }) ∧
     exec (.field 3) s = .next (s.setEli { eliAfter s with field := .mute }) ∧
     exec (.field 4) s = .next (s.setEli { eliAfter s with field := .heard }) ∧
     (∀ v : Byte, 4 < v.toNat → exec (.field v) s = .next (refusedAfter s))) ∧
  (∀ (p : Page) (s : State), CommandReady p s →
     exec (.page 0) s = .next (s.setEli { eliAfter s with page := .basic }) ∧
     exec (.page 1) s = .next (s.setEli { eliAfter s with page := .extended }) ∧
     ∀ v : Byte, v ≠ 0 → v ≠ 1 → exec (.page v) s = .next (refusedAfter s))

/-- STATUS forms its byte and clears the refused indicator; EVENTS forms two bytes, each to clear the marks it returns;
ENABLES takes its mask (R191, R193, R194). In INIT STATUS is taken too, and every other byte at a COMMAND position is ignored
without being refused (R187).
It rests on the model's choice of log 6. -/
def Obligations.StatusEventsAndEnables : Prop :=
  (∀ s : State, s.run = .init → commandFrame s.eli.frame → s.eli.reply = [] →
    (∃ v : Byte, exec .status s =
      .next (s.setEli { eliAfter s with reply := [{ value := v, clears := 0 }], refused := false }) ∧
      v.getLsbD 0 = false ∧ v.getLsbD 1 = decide (s.evl.marks &&& s.evl.enables ≠ 0) ∧ v.getLsbD 2 = s.out.hush ∧
      v.getLsbD 3 = s.cue.hold ∧ v.getLsbD 4 = decide (s.eli.page = .extended) ∧
      v.getLsbD 5 = decide (s.cue.phase ≠ .idle) ∧ v.getLsbD 6 = s.eli.refused ∧ v.getLsbD 7 = false) ∧
    ∀ b : Byte, b ≠ 0x05 → exec (.unknownCode b) s = .next (s.setEli (eliAfter s))) ∧
  ∀ s : State, CommandReady .basic s →
    (∃ v : Byte, exec .status s =
      .next (s.setEli { eliAfter s with reply := [{ value := v, clears := 0 }], refused := false }) ∧
      v.getLsbD 0 = true ∧ v.getLsbD 1 = decide (s.evl.marks &&& s.evl.enables ≠ 0) ∧ v.getLsbD 2 = s.out.hush ∧
      v.getLsbD 3 = s.cue.hold ∧ v.getLsbD 4 = false ∧ v.getLsbD 5 = decide (s.cue.phase ≠ .idle) ∧
      v.getLsbD 6 = s.eli.refused ∧ v.getLsbD 7 = false) ∧
    (∃ hi lo : ReplyByte, exec .events s = .next (s.setEli { eliAfter s with reply := [hi, lo] }) ∧
      (∀ i < 8, hi.value.getLsbD i = s.evl.marks.getLsbD (i + 8) ∧ lo.value.getLsbD i = s.evl.marks.getLsbD i) ∧
      hi.clears = s.evl.marks &&& 0xFF00#16 ∧ lo.clears = s.evl.marks &&& 0x00FF#16) ∧
    ∀ mask : Word16, exec (.enables mask) s = .next ((s.setEli (eliAfter s)).setEvl { s.evl with enables := mask })

/-- HUSH (R179).
It rests on the model's choice of log 6. -/
def Obligations.HushSilencesAndFadesIn : Prop :=
  ∀ s : State, CommandReady .basic s →
    (s.out.hush = false → ∃ t, exec (.hush 1) s = .next t ∧ t.out.hush = true ∧
      (∀ m, t.outputRecord m = { s.outputRecord m with fadeIn := 0 }) ∧
      t = (s.setEli (eliAfter s)).setOut { s.out with hush := true, records := t.out.records }) ∧
    (s.out.hush = true → exec (.hush 1) s = .next (s.setEli (eliAfter s))) ∧
    exec (.hush 0) s = .next ((s.setEli (eliAfter s)).setOut { s.out with hush := false }) ∧
    ∀ v : Byte, v ≠ 0 → v ≠ 1 → exec (.hush v) s = .next (refusedAfter s)

/-- SOFT RESET (R197 and the rules its table names): what it clears and what it keeps.
It rests on the model's choices of log 6, log 26. -/
def Obligations.SoftResetKeepsTheShow : Prop :=
  ∀ s : State, CommandReady .basic s → ∃ t, exec .softReset s = .next t ∧
    (∀ c, t.cell c = { s.cell c with heard := if (s.cell c).muted then 0 else (s.cell c).level }) ∧ t.glides = [] ∧
    t.cue = { s.cue with
      nextPointer := lowestOccupied s, running := none, phase := .idle, timer := 0, hold := false, flags := 0 } ∧
    (∀ n, t.station n = { s.station n with state := .absent, missRun := 0, idle := 0 }) ∧ t.lockout = 0 ∧
    (∀ n, t.grip n = none) ∧ t.inHand = none ∧ t.slr = s.slr ∧
    t.link = { idleLink s.link with
      state := .resetting, breakCount := 2, order := List.finRange 16, contenders := [] } ∧
    t.src = { s.src with mode := .auto } ∧
    (∀ m, t.outputRecord m = { s.outputRecord m with hits := 0, fadeIn := 32 }) ∧ t.out.hush = false ∧
    t.eli = { eliAfter s with
      page := .basic, pointer := ⟨0, 0⟩, walk := .across, field := .level, latch := 0, glideLength := 8 } ∧
    t.evl = { marks := 0, enables := 0xFFFF#16 } ∧ t.run = .run

/-- The EXTENDED commands that set one value, in and out of range (R41, R96, R169, R177).
It rests on the model's choice of log 6. -/
def Obligations.ExtendedSettingsAreTakenOrRefused : Prop :=
  ∀ s : State, CommandReady .extended s →
    let u := s.setEli (eliAfter s)
    (∀ v : Byte, v.toNat ≤ 7 → exec (.lockout v) s = .next (u.setLockout v.toNat)) ∧
    (∀ v : Byte, 7 < v.toNat → exec (.lockout v) s = .next (refusedAfter s)) ∧
    exec (.sourceMode 0) s = .next (u.setSrc { s.src with mode := .auto }) ∧
    exec (.sourceMode 1) s = .next (u.setSrc { s.src with mode := .force .a }) ∧
    exec (.sourceMode 2) s = .next (u.setSrc { s.src with mode := .force .b }) ∧
    (∀ v : Byte, 2 < v.toNat → exec (.sourceMode v) s = .next (refusedAfter s)) ∧
    (∀ (m : Fin 16) (c : Byte), c.toNat ≤ 220 → exec (.ceilingCommand (byteOfNat m.val) c) s =
      .next (u.setOutputRecord m { s.outputRecord m with ceiling := c.toNat })) ∧
    (∀ m c : Byte, 15 < m.toNat ∨ 220 < c.toNat → exec (.ceilingCommand m c) s = .next (refusedAfter s)) ∧
    ∀ v : Byte, exec (.glideLength v) s = .next (s.setEli { eliAfter s with glideLength := v.toNat })

/-- OUTPUT MODE (R175), with 0 OFF, 1 NORMAL, 2 TONE, 3 MIRROR: the target is written for MIRROR alone, leaving OFF puts the
fade-in position at 0. PATCH (R173): a valid run, its channel bytes 0 to 63 or 255 for UNPATCHED, waits for the next block start;
any other is refused.
It rests on the model's choice of log 6. -/
def Obligations.OutputModeAndPatchAreTakenOrRefused : Prop :=
  (∀ s : State, CommandReady .extended s →
     let u := s.setEli (eliAfter s)
     (∀ (m : Fin 16) (b target : Byte) (mode : OutputMode),
       (b = 0 ∧ mode = .off) ∨ (b = 1 ∧ mode = .normal) ∨ (b = 2 ∧ mode = .tone) →
       exec (.outputMode (byteOfNat m.val) b target) s = .next (u.setOutputRecord m { s.outputRecord m with
         mode := mode
         fadeIn := if (s.outputRecord m).mode = .off ∧ mode ≠ .off then 0 else (s.outputRecord m).fadeIn })) ∧
     (∀ m k : Fin 16, exec (.outputMode (byteOfNat m.val) 3 (byteOfNat k.val)) s =
       .next (u.setOutputRecord m { s.outputRecord m with
         mode := .mirror, target := k
         fadeIn := if (s.outputRecord m).mode = .off then 0 else (s.outputRecord m).fadeIn })) ∧
     ∀ m b target : Byte, 15 < m.toNat ∨ 3 < b.toNat ∨ (b = 3 ∧ 15 < target.toNat) →
       exec (.outputMode m b target) s = .next (refusedAfter s)) ∧
  (∀ (first count : Byte) (body : List Byte) (s : State), CommandReady .extended s → body.length = count.toNat →
     (∀ channels : List (Option Channel), body = channels.map (fun c => match c with
         | none => 255
         | some k => byteOfNat k.val) → count ≠ 0 → first.toNat + count.toNat ≤ 48 →
       exec (.patch (first :: count :: body)) s = .next ((s.setEli (eliAfter s)).setSrc
         { s.src with pending := s.src.pending ++ [{ first := first.toNat, channels := channels }] })) ∧
     ((∃ b ∈ body, 63 < b.toNat ∧ b ≠ 255) ∨ count = 0 ∨ 48 < first.toNat + count.toNat ∨ 47 < first.toNat →
       exec (.patch (first :: count :: body)) s = .next (refusedAfter s)))

/-- STATION PROFILE (R86, R87): priority and admission are written; a station that BLC does not hold selected becomes
ABSENT when its admission is taken away, and loses its grip.
It rests on the model's choice of log 6. -/
def Obligations.StationProfileWritesTheRecord : Prop :=
  ∀ s : State, CommandReady .extended s →
    let u := s.setEli (eliAfter s)
    (∀ (n : StationId) (p : Byte), p.toNat ≤ 7 → exec (.stationProfile (byteOfNat n.val) p 1) s =
      .next (u.setStation n { s.station n with priority := p.toNat, admitted := true })) ∧
    (∀ (n : StationId) (p : Byte), p.toNat ≤ 7 → (s.link.selected = some n ∨ (s.station n).state = .absent) →
      exec (.stationProfile (byteOfNat n.val) p 0) s =
        .next (u.setStation n { s.station n with priority := p.toNat, admitted := false })) ∧
    (∀ (n : StationId) (p : Byte), p.toNat ≤ 7 → s.link.selected ≠ some n → (s.station n).state ≠ .absent →
      exec (.stationProfile (byteOfNat n.val) p 0) s =
        .next ((u.setStation n { s.station n with
          priority := p.toNat, admitted := false, state := .absent, missRun := 0, idle := 0 }).setGrip n none)) ∧
    ∀ n p a : Byte, 15 < n.toNat ∨ 7 < p.toNat ∨ 1 < a.toNat →
      exec (.stationProfile n p a) s = .next (refusedAfter s)

/-- The read commands of the EXTENDED page form their whole reply at once, byte by byte as spec/09 lays it out, and clear what
they are to clear (R74, R94, R95, R178). The value byte of a MUTE or UNMUTE edit is whatever it is (log 20). A station above 15
and a slot above 95 are refused.
It rests on the model's choices of log 6, log 20. -/
def Obligations.ReadCommandsFormTheirReplies : Prop :=
  ∀ s : State, CommandReady .extended s →
    let reply (bytes : List Byte) : State :=
      s.setEli { eliAfter s with reply := bytes.map (fun b => { value := b, clears := 0 }) }
    let two (v : Nat) : List Byte := [byteOfNat (v / 256), byteOfNat v]
    let mask (w : Word16) : List Byte := [hiByte w, loByte w]
    let yes (b : Bool) : Byte := if b then 1 else 0
    let cue (c : Option CueId) : Byte := match c with
      | none => 255
      | some k => byteOfNat k.val
    (∀ n : StationId, exec (.stationRead (byteOfNat n.val)) s =
      .next ((reply (
        [match (s.station n).state with
          | .absent => 0
          | .attached => 1
          | .lost => 2,
         yes (s.station n).admitted, byteOfNat (s.station n).priority, byteOfNat (s.station n).checkCount,
         byteOfNat (s.station n).missRun] ++ two (s.station n).idle ++
        [byteOfNat ((List.finRange 24).filter (fun i => (mapAt (s.station n).map i).isSome)).length,
         match s.grip n with
          | none => 255
          | some g => byteOfNat (if g.state = .stale then g.index.val + 128 else g.index.val),
         byteOfNat s.lockout])).setStation n { s.station n with checkCount := 0 })) ∧
    (∀ n : StationId, exec (.mapRead (byteOfNat n.val)) s =
      .next (reply ((List.finRange 24).flatMap (fun i => match mapAt (s.station n).map i with
        | none => [255, 255, 255]
        | some e => [byteOfNat e.cell.mix.val, byteOfNat e.cell.source.val, match e.right with
          | .view => 0
          | .adjust => 1
          | .full => 2])))) ∧
    (∃ t, exec .hitsRead s = .next t ∧ (∀ m, t.outputRecord m = { s.outputRecord m with hits := 0 }) ∧
      t = (reply ((List.finRange 16).flatMap (fun m => two (s.outputRecord m).hits))).setOut
        { s.out with records := t.out.records }) ∧
    (∀ n : CueId, ∃ value : Nat → Byte,
      let summary : List Byte :=
        [cue s.cue.nextPointer,
         match s.cue.phase with
          | .idle => 0
          | .fading => 1
          | .followWait => 2,
         cue (s.cue.running.map (·.cue)),
         match s.cue.running with
          | none => 0
          | some r => byteOfNat r.outstanding] ++
        two s.cue.timer ++ [yes s.cue.hold] ++ mask s.cue.flags ++ two s.cue.poolUsed
      let record (r : CueRecord) : List Byte :=
        (match r.guard with
          | none => [0]
          | some g => [1] ++ mask g.mask ++ [match g.sense with
            | .allSet => 0
            | .allClear => 1
            | .anySet => 2
            | .anyClear => 3]) ++
        (match r.alternate with
          | none => [0]
          | some c => [1, byteOfNat c.val]) ++
        (match r.followOn with
          | none => [0]
          | some f => [1, byteOfNat f.cue.val] ++ two f.wait) ++
        two r.fade ++
        (match r.setMask with
          | none => [0]
          | some w => [1] ++ mask w) ++
        (match r.clearMask with
          | none => [0]
          | some w => [1] ++ mask w) ++
        [byteOfNat r.edits.length] ++
        r.edits.zipIdx.flatMap (fun e =>
          [match e.1.target with
            | .mix m => byteOfNat m.val
            | .all => 255, byteOfNat e.1.source.val] ++
          match e.1.action with
            | .level v => [0, byteOfNat v]
            | .nudge d => [1, byteOfInt d]
            | .mute => [2, value e.2]
            | .unmute => [3, value e.2]
            | .pan p => [4, byteOfInt p])
      exec (.cueRead (byteOfNat n.val)) s =
        .next ((reply (summary ++ match s.slot n with
          | none => [0]
          | some r => [1] ++ record r)).setFree (s.free + slotEdits (s.slot n)))) ∧
    (∀ v : Byte, 15 < v.toNat →
      exec (.stationRead v) s = .next (refusedAfter s) ∧ exec (.mapRead v) s = .next (refusedAfter s)) ∧
    ∀ v : Byte, 95 < v.toNat → exec (.cueRead v) s = .next (refusedAfter s)

/-- MIX COPY (R25): every cell of b takes a's pan and mute and a's level as far as b's cap lets it; b's caps and every
other mix stay. MIX CLEAR (R26): every cell of the mix at level 0 and unmuted, pans and caps kept, every other mix as it
was. A mix above 15 is refused.
It rests on the model's choice of log 6. -/
def Obligations.MixCopyAndMixClearEditTheMix : Prop :=
  ((∀ (a b : Fin 16) (s : State), CommandReady .extended s → (∀ c, (s.cell c).level ≤ (s.cell c).cap) →
     ∃ t, exec (.mixCopy (byteOfNat a.val) (byteOfNat b.val)) s = .next t ∧
       (∀ src, (t.cell ⟨b, src⟩).pan = (s.cell ⟨a, src⟩).pan ∧ (t.cell ⟨b, src⟩).muted = (s.cell ⟨a, src⟩).muted ∧
         (t.cell ⟨b, src⟩).level = min (s.cell ⟨a, src⟩).level (s.cell ⟨b, src⟩).cap ∧
         (t.cell ⟨b, src⟩).cap = (s.cell ⟨b, src⟩).cap) ∧
       (∀ c : CellId, c.mix ≠ b → t.cell c = s.cell c) ∧ MatrixFrame (s.setEli (eliAfter s)) t) ∧
   ∀ (a b : Byte) (s : State), CommandReady .extended s → 15 < a.toNat ∨ 15 < b.toNat →
     exec (.mixCopy a b) s = .next (refusedAfter s)) ∧
  ((∀ (m : Fin 16) (s : State), CommandReady .extended s →
     ∃ t, exec (.mixClear (byteOfNat m.val)) s = .next t ∧
       (∀ src, (t.cell ⟨m, src⟩).level = 0 ∧ (t.cell ⟨m, src⟩).muted = false ∧
         (t.cell ⟨m, src⟩).pan = (s.cell ⟨m, src⟩).pan ∧ (t.cell ⟨m, src⟩).cap = (s.cell ⟨m, src⟩).cap) ∧
       (∀ c : CellId, c.mix ≠ m → t.cell c = s.cell c) ∧ MatrixFrame (s.setEli (eliAfter s)) t) ∧
   ∀ (m : Byte) (s : State), CommandReady .extended s → 15 < m.toNat →
     exec (.mixClear m) s = .next (refusedAfter s))

/-! ### The Band Link -/

/-- The link reset (R99, R161, R162): by a received break and by LINK RESET; a break received in INIT is ignored. The link is
IDLE again when neither the part nor a station holds the pair: at the break's release, at BREAK_COUNT_EXPIRY as a command of
its own (log 4), and inside BLOCK_END, which counts the part's break down.
It rests on the model's choices of log 4, log 6, log 11, log 16. -/
def Obligations.LinkResetClearsTheLink : Prop :=
  ((∀ s : State, s.run = .run → s.link.state ≠ .resetting → ∃ t, exec .breakReceived s = .next t ∧
     (∀ n, t.station n = { s.station n with state := .absent, missRun := 0, idle := 0 }) ∧ (∀ n, t.grip n = none) ∧
     t = ((((s.setStations t.stations).setGrips t.grips).setInHand none).setLink
       { idleLink s.link with
         state := .resetting, breakCount := 0, order := List.finRange 16, contenders := [] }).setEvl
           { s.evl with marks := s.evl.marks ||| 0x0008#16 }) ∧
   (∀ s : State, CommandReady .extended s → ∃ t, exec .linkReset s = .next t ∧
     (∀ n, t.station n = { s.station n with state := .absent, missRun := 0, idle := 0 }) ∧ (∀ n, t.grip n = none) ∧
     t = (((((s.setEli (eliAfter s)).setStations t.stations).setGrips t.grips).setInHand none).setLink
       { idleLink s.link with
         state := .resetting, breakCount := 2, order := List.finRange 16, contenders := [] }).setEvl
           { s.evl with marks := s.evl.marks ||| 0x0008#16 }) ∧
   ∀ s : State, s.run = .init → exec .breakReceived s = .next s) ∧
  ((∀ s : State, s.run = .run → s.link.state = .resetting → s.link.breakCount = 0 →
     exec .breakRelease s = .next (s.setLink { s.link with state := .idle })) ∧
   (∀ s : State, s.run = .run → s.link.state = .resetting → s.link.breakCount = 1 →
     exec (.breakCountExpiry false) s = .next (s.setLink { s.link with breakCount := 0, state := .idle }) ∧
     exec (.breakCountExpiry true) s = .next (s.setLink { s.link with breakCount := 0 })) ∧
   (∀ (a b : PortBlock) (h : Bool) (s : State), s.run = .run → s.link.state = .resetting → s.link.breakCount = 2 →
     ∃ t, exec (.blockEnd a b h) s = .next t ∧ t.link = { s.link with breakCount := 1 }) ∧
   ∀ (a b : PortBlock) (h : Bool) (s : State), s.run = .run → s.link.state = .resetting → s.link.breakCount = 1 →
     ∃ t, exec (.blockEnd a b h) s = .next t ∧
       t.link = { s.link with breakCount := 0, state := if h then .resetting else .idle })

/-- A window opens from IDLE, and an admitted station's good ATTN in its own slot makes it a contender (R150).
It rests on the model's choices of log 10, log 23. -/
def Obligations.WindowsGatherContenders : Prop :=
  (∀ s : State, s.run = .run → s.link.state = .idle →
    exec .windowOpen s = .next (s.setLink { s.link with state := .window, contenders := [], sent := [windowWord] })) ∧
  (∀ (n : StationId) (w : BandWord) (s : State), s.run = .run → s.link.state = .window → checkGood w = true → w.driven = false →
    wordStation w = n → wordTag w = .attn → (s.station n).admitted = true → n ∉ s.link.contenders →
    exec (.attn n w) s = .next (s.setLink { s.link with contenders := n :: s.link.contenders })) ∧
  (∀ (n : StationId) (w : BandWord) (s : State), s.run = .run → s.link.state = .window → checkGood w = true → w.driven = false →
    wordStation w = n → wordTag w = .attn → (s.station n).admitted = false → exec (.attn n w) s = .next s) ∧
  (∀ (slot : StationId) (w : BandWord) (s : State), s.run = .run → s.link.state = .window → checkGood w = true → w.driven = false →
    wordStation w ≠ slot ∨ wordTag w ≠ .attn →
    exec (.attn slot w) s = .next (s.setStation (wordStation w)
      { s.station (wordStation w) with checkCount := min ((s.station (wordStation w)).checkCount + 1) 255 })) ∧
  ∀ (slot : StationId) (w : BandWord) (s : State), s.run = .run → s.link.state = .window → checkGood w = false → w.driven = false →
    exec (.attn slot w) s = .next (s.setEvl { s.evl with marks := s.evl.marks ||| 0x0010#16 })

/-- A window closes (R151, R152): the admitted contender of highest priority, earliest in the service order among equals,
is selected and goes to the tail; else the longest idle due station is polled; else the link is IDLE. The admission is read
at the close (log 13).
It rests on the model's choices of log 13, log 23. -/
def Obligations.AWindowClosesIntoASelection : Prop :=
  (∀ (n : StationId) (s : State), s.run = .run → s.link.state = .window → OrderLaw s →
    n ∈ s.link.contenders → (s.station n).admitted = true →
    (∀ k, k ∈ s.link.contenders → (s.station k).admitted = true → k ≠ n →
      (s.station k).priority < (s.station n).priority ∨
      ((s.station k).priority = (s.station n).priority ∧ s.link.order.idxOf n < s.link.order.idxOf k)) →
    ∃ t, exec .windowClose s = .next t ∧ t.station n = { s.station n with idle := 0 } ∧
      (∀ k, k ≠ n → t.station k = s.station k) ∧
      t.link = { s.link with
        state := .selected, selected := some n, window := 3, contenders := []
        order := s.link.order.filter (fun k => decide (k ≠ n)) ++ [n], sent := [selectWord n] } ∧
      t = (s.setStations t.stations).setLink t.link) ∧
  (∀ (n : StationId) (s : State), s.run = .run → s.link.state = .window → OrderLaw s →
    (∀ k ∈ s.link.contenders, (s.station k).admitted = false) →
    (s.station n).state = .attached → 750 ≤ (s.station n).idle →
    (∀ k, k ≠ n → (s.station k).state = .attached → 750 ≤ (s.station k).idle →
      (s.station k).idle < (s.station n).idle ∨
      ((s.station k).idle = (s.station n).idle ∧ s.link.order.idxOf n < s.link.order.idxOf k)) →
    exec .windowClose s = .next (s.setLink { s.link with
      state := .polling, selected := some n, window := 3, contenders := [], sent := [pollWord n] })) ∧
  ∀ s : State, s.run = .run → s.link.state = .window →
    (∀ k ∈ s.link.contenders, (s.station k).admitted = false) →
    (∀ k, (s.station k).state = .attached → (s.station k).idle < 750) →
    exec .windowClose s = .next (s.setLink { s.link with state := .idle, contenders := [] })

/-- HELLO attaches and drops the grip; PING, CLOSE and a code of no kind are answered; every request but HELLO from a
station that is not ATTACHED is answered NOT_ATTACHED (R126, R127, R128, R130). The miss run becomes 0 (R82).
It rests on the model's choice of log 11. -/
def Obligations.RequestsWithoutAChangeAreAnswered : Prop :=
  ∀ (n : StationId) (op : Word16) (s : State), RequestReady n s →
    let u := s.setStation n { s.station n with missRun := 0 }
    (exec (.hello n op) s = .next (replied (countReply .ok (presentCount (s.station n).map))
      (((s.setStation n { s.station n with missRun := 0, state := .attached }).setGrip n none).setEvl
        { s.evl with marks := s.evl.marks ||| 0x0002#16 }))) ∧
    ((s.station n).state = .attached →
      exec (.ping n op) s = .next (replied (plainReply .ok) u) ∧
      (s.grip n ≠ none → exec (.closeGrip n op) s = .next (replied (plainReply .ok) (u.setGrip n none))) ∧
      (s.grip n = none → exec (.closeGrip n op) s = .next (replied (plainReply .noGrip) u)) ∧
      ∀ k : Byte, requestKind k = .unnamed →
        exec (.badKindRequest n k op) s = .next (replied (plainReply .badValue) u)) ∧
    ((s.station n).state ≠ .attached →
      exec (.ping n op) s = .next (replied (plainReply .notAttached) u) ∧
      exec (.openGrip n op) s = .next (replied (plainReply .notAttached) u) ∧
      exec (.nextGrip n op) s = .next (replied (plainReply .notAttached) u) ∧
      exec (.setLevel n op) s = .next (replied (plainReply .notAttached) u) ∧
      exec (.nudgeLevel n op) s = .next (replied (plainReply .notAttached) u) ∧
      exec (.panCell n op) s = .next (replied (plainReply .notAttached) u) ∧
      exec (.closeGrip n op) s = .next (replied (plainReply .notAttached) u) ∧
      exec (.recallMap n op) s = .next (replied (plainReply .notAttached) u) ∧
      ∀ k : Byte, requestKind k = .unnamed →
        exec (.badKindRequest n k op) s = .next (replied (plainReply .notAttached) u))

/-- OPEN and NEXT make a FRESH grip from a present entry, with a report of its cell; with no entry there they are answered
UNMAPPED and the grip stays (R103, R104, R129). NEXT opens the lowest present index above the grip's, or the lowest of all
(R90).
It rests on the model's choice of log 11. -/
def Obligations.OpenAndNextMakeAFreshGrip : Prop :=
  (∀ (n : StationId) (s : State), RequestReady n s → (s.station n).state = .attached →
     let u := s.setStation n { s.station n with missRun := 0 }
     let opened (i : LocalIndex) (e : MapEntry) : State :=
       replied { status := .ok, flags := cellFlags (s.cell e.cell) (s.gliding e.cell), count := 0,
                 report := some (entryReport i e.right e.cell s) }
         (u.setGrip n (some { station := n, index := i, cell := e.cell, right := e.right, state := .fresh }))
     (∀ (i : LocalIndex) (e : MapEntry), mapAt (s.station n).map i = some e →
       exec (.openGrip n (BitVec.ofNat 16 i.val)) s = .next (opened i e)) ∧
     (∀ w : Word16, (∀ i : LocalIndex, i.val = w.toNat → mapAt (s.station n).map i = none) →
       exec (.openGrip n w) s = .next (replied (plainReply .unmapped) u)) ∧
     (∀ (w : Word16) (i : LocalIndex) (e : MapEntry), nextIndex (s.station n).map ((s.grip n).map (·.index)) = some i →
       mapAt (s.station n).map i = some e → exec (.nextGrip n w) s = .next (opened i e)) ∧
     ∀ w : Word16, (∀ i, mapAt (s.station n).map i = none) →
       exec (.nextGrip n w) s = .next (replied (plainReply .unmapped) u)) ∧
  (∀ (m : StationMap) (i : LocalIndex), (mapAt m i).isSome = true →
     (∀ g : LocalIndex, g < i → (∀ k, g < k → k < i → mapAt m k = none) → nextIndex m (some g) = some i) ∧
     (∀ g : LocalIndex, (∀ k, g < k → mapAt m k = none) → (∀ k, k < i → mapAt m k = none) →
       nextIndex m (some g) = some i) ∧
     ((∀ k, k < i → mapAt m k = none) → nextIndex m none = some i))

/-- SET through a FRESH grip, NUDGE through any, PAN through a FULL one present one change of origin STATION n with length
8 and no tag; the grip is FRESH afterwards and the reply reports the cell (R133, R135, R136).
It rests on the model's choice of log 11. -/
def Obligations.EditsGoThroughTheGrip : Prop :=
  ∀ (n : StationId) (g : Grip) (w : Word16) (s : State), EditAllowed n g s →
    let u := s.setStation n { s.station n with missRun := 0 }
    let change (k : ChangeKind) : Change := { cell := g.cell, kind := k, origin := .station n, length := 8, tag := none }
    let applied (k : ChangeKind) : State := replied (editReply g (change k) s)
      (let t := takeChange (change k) u
       t.setGrip n ((t.grip n).map (fun g => { g with state := .fresh })))
    (w.toNat ≤ 220 → g.state = .fresh → exec (.setLevel n w) s = .next (applied (.level w.toNat))) ∧
    (-40 ≤ w.toInt → w.toInt ≤ 40 → exec (.nudgeLevel n w) s = .next (applied (.nudge w.toInt))) ∧
    (-32 ≤ w.toInt → w.toInt ≤ 32 → g.right = .full → exec (.panCell n w) s = .next (applied (.pan w.toInt)))

/-- The checks on SET, NUDGE and PAN in their order, and SET refused STALE (R97, R131, R134).
It rests on the model's choice of log 11. -/
def Obligations.EditChecksComeInOrder : Prop :=
  ∀ (n : StationId) (w : Word16) (s : State), RequestReady n s → (s.station n).state = .attached →
    let u := s.setStation n { s.station n with missRun := 0 }
    let refused (st : Status) : State := replied (plainReply st) u
    let locked : State := replied (plainReply .locked) (u.setEvl { s.evl with marks := s.evl.marks ||| 0x8000#16 })
    (s.grip n = none → exec (.setLevel n w) s = .next (refused .noGrip) ∧
      exec (.nudgeLevel n w) s = .next (refused .noGrip) ∧ exec (.panCell n w) s = .next (refused .noGrip)) ∧
    ∀ g, s.grip n = some g →
      (220 < w.toNat → exec (.setLevel n w) s = .next (refused .badValue)) ∧
      (w.toInt < -40 ∨ 40 < w.toInt → exec (.nudgeLevel n w) s = .next (refused .badValue)) ∧
      (w.toInt < -32 ∨ 32 < w.toInt → exec (.panCell n w) s = .next (refused .badValue)) ∧
      (w.toNat ≤ 220 → g.right = .view → exec (.setLevel n w) s = .next (refused .denied)) ∧
      (-40 ≤ w.toInt → w.toInt ≤ 40 → g.right = .view → exec (.nudgeLevel n w) s = .next (refused .denied)) ∧
      (-32 ≤ w.toInt → w.toInt ≤ 32 → g.right ≠ .full → exec (.panCell n w) s = .next (refused .denied)) ∧
      (w.toNat ≤ 220 → g.right ≠ .view → (s.station n).priority ≤ s.lockout →
        exec (.setLevel n w) s = .next locked) ∧
      (-40 ≤ w.toInt → w.toInt ≤ 40 → g.right ≠ .view → (s.station n).priority ≤ s.lockout →
        exec (.nudgeLevel n w) s = .next locked) ∧
      (-32 ≤ w.toInt → w.toInt ≤ 32 → g.right = .full → (s.station n).priority ≤ s.lockout →
        exec (.panCell n w) s = .next locked) ∧
      (w.toNat ≤ 220 → g.right ≠ .view → s.lockout < (s.station n).priority → g.state = .stale →
        exec (.setLevel n w) s = .next (replied
          { status := .stale, flags := { cellFlags (s.cell g.cell) (s.gliding g.cell) with s := true }, count := 0,
            report := some (entryReport g.index g.right g.cell s) }
          (u.setGrip n (some { g with state := .fresh }))))

/-- REQUEST-1 of a mask request is held; with REQUEST-2, sent after it or together with it, the request mutes or unmutes every
named entry its right allows, as one compound operation, and refreshes the grip at an index presented; locked out it is
refused whole (R137, R153). The flags of its reply, on the state the request leaves (R138).
It rests on the model's choices of log 9, log 11. -/
def Obligations.MaskRequestsMuteTogether : Prop :=
  (∀ (n : StationId) (k : MaskKind) (op : Word16) (s : State), RequestReady n s →
    exec (.request1 n k op) s = .next ((s.setStation n { s.station n with missRun := 0 }).setLink
      { s.link with arrival := some (request1Word n (maskKindCode k) op) })) ∧
  (∀ (n : StationId) (k : MaskKind) (mask : Word24) (s u : State), MaskReady n k s u →
    ((s.station n).state ≠ .attached → exec (maskCommand k n mask) s = .next (replied (plainReply .notAttached) u)) ∧
    ((s.station n).state = .attached → (s.station n).priority ≤ s.lockout →
      exec (maskCommand k n mask) s =
        .next (replied (plainReply .locked) (u.setEvl { s.evl with marks := s.evl.marks ||| 0x8000#16 }))) ∧
    ((s.station n).state = .attached → s.lockout < (s.station n).priority →
      let m := (s.station n).map
      let named := namedEntries m mask
      let presented := named.filter (fun p => decide (p.2.right ≠ .view))
      let refreshed := (s.grip n).any (fun g => presented.any (fun p => decide (p.1 = g.index)))
      ∃ t r, exec (maskCommand k n mask) s = .next (replied r t) ∧
        r.status = .ok ∧ r.count = presented.length ∧ r.report = none ∧
        (r.flags.z = true ↔ (∃ i e, mapAt m i = some e) ∧ ∀ i e, mapAt m i = some e → (t.cell e.cell).muted = true) ∧
        (r.flags.m = true ↔ named ≠ [] ∧ ∀ p ∈ named, (t.cell p.2.cell).muted = true) ∧
        (r.flags.g = true ↔ ∃ p ∈ named, ∃ x ∈ t.glides, x.cell = p.2.cell) ∧
        r.flags.d = named.any (fun p => decide (p.2.right = .view)) ∧
        r.flags.s = (refreshed && decide ((s.grip n).map (·.state) = some .stale)) ∧
        r.flags.n = false ∧ r.flags.v = false ∧ r.flags.c = false ∧
        (let v := takeChanges (presented.map (fun p =>
            { cell := p.2.cell
              kind := match k with
                | .muteSet => .mute
                | .muteClear => .unmute
              origin := .station n, length := 8, tag := none })) u
         t = if refreshed then v.setGrip n ((v.grip n).map (fun g => { g with state := .fresh })) else v) ∧
        ∀ p ∈ presented, (t.cell p.2.cell).muted = decide (k = .muteSet))) ∧
  ∀ (m : StationMap) (mask : Word24),
    (∀ i e, (i, e) ∈ namedEntries m mask ↔ mask.getLsbD i.val = true ∧ mapAt m i = some e) ∧
    (namedEntries m mask).Pairwise (fun p q => p.1 < q.1)

/-- RECALL starts a transfer at the lowest present entry; each word is formed when it starts, counted when it and its gap
are over, and the last one ends the transfer with DONE; an empty map is DONE at once (R139, R140, R157). The final reply of a
transfer that has ended stands in StopEndsTheTransfer.
It rests on the model's choices of log 11, log 15, log 23, log 34. -/
def Obligations.RecallSendsOneWordPerEntry : Prop :=
  (∀ (n : StationId) (op : Word16) (i : LocalIndex) (s : State), RequestReady n s → (s.station n).state = .attached →
    lowestPresent (s.station n).map = some i →
    exec (.recallMap n op) s = .next (((s.setStation n { s.station n with missRun := 0 }).setInHand none).setLink
      { s.link with
        state := .sending, arrival := none, window := 0, wordsSent := 0, inFlight := none, cursor := some i,
        transferEnd := .running })) ∧
  (∀ (n : StationId) (i : LocalIndex) (e : MapEntry) (s : State), s.run = .run → s.link.state = .sending →
    s.link.selected = some n → s.link.inFlight = none → s.link.transferEnd = .running → s.link.cursor = some i →
    mapAt (s.station n).map i = some e →
    exec .openingGapEnd s = .next (s.setLink { s.link with
      inFlight := some (dataInWord n (entryReport i e.right e.cell s))
      sent := [dataInWord n (entryReport i e.right e.cell s)] })) ∧
  (∀ (n : StationId) (i k : LocalIndex) (e : MapEntry) (w : PartWord) (s : State), s.run = .run →
    s.link.state = .sending → s.link.selected = some n → s.link.inFlight = some w → s.link.transferEnd = .running →
    s.link.cursor = some i → nextPresent (s.station n).map i = some k → mapAt (s.station n).map k = some e →
    exec .dataInWord s = .next (s.setLink { s.link with
      cursor := some k, wordsSent := s.link.wordsSent + 1
      inFlight := some (dataInWord n (entryReport k e.right e.cell s))
      sent := [dataInWord n (entryReport k e.right e.cell s)] })) ∧
  (∀ (n : StationId) (i : LocalIndex) (w : PartWord) (s : State), s.run = .run → s.link.state = .sending →
    s.link.selected = some n → s.link.inFlight = some w → s.link.transferEnd = .running → s.link.cursor = some i →
    nextPresent (s.station n).map i = none →
    ∃ t, exec .dataInWord s = .next t ∧ t.link.state = .answering ∧
      t.link.answer = some { reply := countReply .done (s.link.wordsSent + 1), settled := true } ∧
      t = s.setLink t.link) ∧
  ∀ (n : StationId) (op : Word16) (s : State), RequestReady n s → (s.station n).state = .attached →
    lowestPresent (s.station n).map = none →
    exec (.recallMap n op) s = .next (((s.setStation n { s.station n with missRun := 0 }).setInHand none).setLink
      { s.link with
        state := .sending, arrival := none, window := 0, wordsSent := 0, inFlight := none, cursor := none,
        transferEnd := .done })

/-- STOP in a gap (R141, R157): STOPPED while entries are left to send, DONE with the last word in flight, nothing once
the transfer has ended; the word after it is the final reply. A STOP that comes while a DATA-IN word goes out is not received
(R155). Once the transfer has ended, by a STOP, a MAP LOAD, a phase error or with nothing to send, the opening gap's end and the
end of a word in flight, which is counted, put the final reply in its turnaround: the status the transfer ended with and the
count of words sent, all flags clear, and no payload with PHASE (R142, R144, R155, R157).
It rests on the model's choices of log 11, log 15, log 35. -/
def Obligations.StopEndsTheTransfer : Prop :=
  ∀ (n : StationId) (content : Word24) (s : State), s.run = .run → s.link.state = .sending →
    s.link.selected = some n →
    let sent := Instr.stopWord n { content := content, driven := false }
    (s.link.transferEnd = .running → (s.link.inFlight = none ∨ cursorAfter s ≠ none) →
      exec sent s = .next (s.setLink { s.link with transferEnd := .stopped })) ∧
    (s.link.transferEnd = .running → s.link.inFlight ≠ none → cursorAfter s = none →
      exec sent s = .next (s.setLink { s.link with transferEnd := .done })) ∧
    (s.link.transferEnd ≠ .running → exec sent s = .next s) ∧
    exec (.stopWord n { content := content, driven := true }) s = .next s ∧
    (s.link.transferEnd = .stopped → s.link.inFlight ≠ none → ∃ t, exec .dataInWord s = .next t ∧
      t.link.state = .answering ∧
      t.link.answer = some { reply := countReply .stopped (s.link.wordsSent + 1), settled := true } ∧ t = s.setLink t.link) ∧
    (let final (status : Status) (sent : Nat) : LinkRecord :=
       { s.link with
         state := .answering, arrival := none, window := 0, cursor := none, inFlight := none, wordsSent := sent
         answer := some {
           reply := { status := status, flags := Flags.clear, count := if status = .phase then 0 else sent, report := none }
           settled := true } }
     let finals (c : Instr) (sent : Nat) : Prop :=
       (s.link.transferEnd = .stopped → exec c s = .next (s.setLink (final .stopped sent))) ∧
       (s.link.transferEnd = .done → exec c s = .next (s.setLink (final .done sent))) ∧
       (s.link.transferEnd = .mapChanged → exec c s = .next (s.setLink (final .mapChanged sent))) ∧
       (s.link.transferEnd = .phase → exec c s = .next (s.setLink (final .phase sent)))
     (s.link.inFlight = none → finals .openingGapEnd s.link.wordsSent) ∧
     (s.link.inFlight ≠ none → finals .dataInWord (s.link.wordsSent + 1)))

/-- The reply goes out and the transaction ends (R156): a station whose admission was taken away meanwhile becomes ABSENT
and loses its grip (R86).
It rests on the model's choices of log 11, log 23, log 34. -/
def Obligations.TheReplyEndsTheTransaction : Prop :=
  ∀ (n : StationId) (a : Answer) (s : State), s.run = .run → s.link.state = .answering → s.link.selected = some n →
    s.link.answer = some a →
    let link := { idleLink s.link with sent := [reply1Word n a.reply, reply2Word n a.reply] }
    ((s.station n).admitted = true → exec .replySent s = .next (s.setLink link)) ∧
    ((s.station n).admitted = false → (s.station n).state ≠ .absent →
      exec .replySent s = .next (((s.setStation n
        { s.station n with state := .absent, missRun := 0, idle := 0 }).setGrip n none).setLink link))

/-- A window that runs out (R82, R153, R158): the miss run rises, at the third miss an ATTACHED station becomes LOST and
loses its grip, and the transaction ends. A damaged echo is a miss too, and latches BAND_CHECK. An echo answers the poll:
miss run and idle blocks 0, and the poll ends. BLOCK_END counts the window down, and at its last block end the miss comes inside
it, beside the block the station's idle blocks count (R84).
It rests on the model's choices of log 4, log 11, log 28. -/
def Obligations.PollsAndMissesAreCounted : Prop :=
  (∀ (n : StationId) (s : State), s.run = .run → s.link.selected = some n → (s.station n).admitted = true →
     let missed : State := s.setStation n { s.station n with missRun := (s.station n).missRun + 1 }
     let lost : State := ((s.setStation n { s.station n with missRun := 3, state := .lost }).setGrip n none).setEvl
       { s.evl with marks := s.evl.marks ||| 0x0004#16 }
     let ended (t : State) : State := t.setLink (idleLink s.link)
     (s.link.state = .selected → s.link.window = 1 → (s.station n).missRun < 2 →
       exec .requestWindowExpiry s = .next (ended missed)) ∧
     (s.link.state = .selected → s.link.window = 1 → (s.station n).missRun = 2 → (s.station n).state = .attached →
       exec .requestWindowExpiry s = .next (ended lost)) ∧
     (s.link.state = .polling → s.link.window = 1 → (s.station n).missRun < 2 →
       exec .echoWindowExpiry s = .next (ended missed)) ∧
     (s.link.state = .polling → s.link.window = 1 → (s.station n).missRun = 2 → (s.station n).state = .attached →
       exec .echoWindowExpiry s = .next (ended lost)) ∧
     ∀ w : BandWord, s.link.state = .polling → checkGood w = false → w.driven = false → (s.station n).missRun < 2 →
       exec (.badCheckEcho w) s =
         .next (ended (missed.setEvl { s.evl with marks := s.evl.marks ||| 0x0010#16 }))) ∧
  (∀ (n : StationId) (content : Word24) (s : State), s.run = .run → s.link.state = .polling →
     s.link.selected = some n → (s.station n).admitted = true →
     exec (.echo n content) s =
       .next ((s.setStation n { s.station n with missRun := 0, idle := 0 }).setLink (idleLink s.link))) ∧
  ∀ (a b : PortBlock) (h : Bool) (n : StationId) (s : State), s.run = .run → s.link.selected = some n →
     s.link.state = .selected ∨ s.link.state = .polling →
     let idle := if (s.station n).state = .absent then 0 else min ((s.station n).idle + 1) 65535
     ∃ t, exec (.blockEnd a b h) s = .next t ∧
       (2 ≤ s.link.window → t.link = { s.link with window := s.link.window - 1 } ∧
         t.station n = { s.station n with idle := idle }) ∧
       (s.link.window = 1 → (s.station n).admitted = true → t.link = idleLink s.link ∧
         ((s.station n).missRun < 2 →
           t.station n = { s.station n with missRun := (s.station n).missRun + 1, idle := idle }) ∧
         ((s.station n).missRun = 2 → (s.station n).state = .attached →
           t.station n = { s.station n with missRun := 3, state := .lost, idle := idle } ∧ t.grip n = none ∧
             t.latched .stationLost = true))

/-- Words that go wrong (R83, R154, R155, R159, R160): a damaged request is answered CHECK and charged, a word of the wrong
phase is answered PHASE, also while REQUEST-1 is held, a stray word is charged to the station it names, a bad check in IDLE is
reported alone. A good word before a settled reply, or once a transfer's end is set, is discarded without effect. An ATTN of
the polled station is discarded and charged (R83, R159); a word of it that is neither ECHO nor ATTN is discarded alone (R158,
log 33). A word that comes while the part drives the pair is not received (R155, log 35).
A word that is not of five bytes, as the second word of a sending of eight, is damaged (R164, log 36).
A phase error charges no check count (log 37).
It rests on the model's choices of log 8, log 11, log 33, log 35, log 36, log 37. -/
def Obligations.BadWordsAreAnsweredOrCharged : Prop :=
  (∀ (w : BandWord) (s : State), s.run = .run → w.driven = false →
    let charged (n : StationId) : State :=
      s.setStation n { s.station n with checkCount := min ((s.station n).checkCount + 1) 255 }
    (∀ n, s.link.state = .selected → s.link.selected = some n → checkGood w = false →
      exec (.damagedRequest w) s = .next (repliedByBlc .check
        ((charged n).setEvl { s.evl with marks := s.evl.marks ||| 0x0010#16 }))) ∧
    (∀ n, s.link.state = .selected → s.link.selected = some n → s.link.arrival = none → checkGood w = true →
      wordStation w = n → wordTag w ≠ .request1 → exec (.phaseError w) s = .next (repliedByBlc .phase s)) ∧
    (∀ n, s.link.state = .selected → s.link.selected = some n → s.link.arrival ≠ none → checkGood w = true →
      wordStation w = n → wordTag w ≠ .request2 → exec (.phaseError w) s = .next (repliedByBlc .phase s)) ∧
    (∀ n r, s.link.state = .answering → s.link.selected = some n →
      s.link.answer = some { reply := r, settled := false } → checkGood w = true → wordStation w = n →
      exec (.phaseError w) s = .next (repliedByBlc .phase s)) ∧
    (∀ n r, s.link.state = .answering → s.link.selected = some n →
      s.link.answer = some { reply := r, settled := true } → checkGood w = true → wordStation w = n →
      exec (.phaseError w) s = .next s) ∧
    (∀ n, s.link.state = .sending → s.link.selected = some n → s.link.transferEnd = .running → checkGood w = true →
      wordStation w = n → wordTag w ≠ .stop →
      exec (.phaseError w) s = .next (s.setLink { s.link with transferEnd := .phase })) ∧
    (∀ n, s.link.state = .sending → s.link.selected = some n → s.link.transferEnd ≠ .running → checkGood w = true →
      wordStation w = n → exec (.phaseError w) s = .next s) ∧
    (∀ n, s.link.state = .polling → s.link.selected = some n → checkGood w = true → wordStation w = n →
      (wordTag w = .attn → exec (.strayWord w) s = .next (charged n) ∧
        ∀ slot, exec (.attn slot w) s = .next (charged n)) ∧
      (wordTag w ≠ .echo → wordTag w ≠ .attn → exec (.strayWord w) s = .next s)) ∧
    (s.link.state = .idle → checkGood w = true → exec (.strayWord w) s = .next (charged (wordStation w))) ∧
    (∀ n, s.link.state ∈ [LinkState.selected, .answering, .sending, .polling] → s.link.selected = some n →
      checkGood w = true → wordStation w ≠ n → exec (.strayWord w) s = .next (charged (wordStation w))) ∧
    (s.link.state = .idle → checkGood w = false →
      exec (.bandCheck w) s = .next (s.setEvl { s.evl with marks := s.evl.marks ||| 0x0010#16 })) ∧
    (∀ n, s.link.state = .answering ∨ s.link.state = .sending → s.link.selected = some n → checkGood w = false →
      exec (.bandCheck w) s = .next ((charged n).setEvl { s.evl with marks := s.evl.marks ||| 0x0010#16 }))) ∧
  (∀ (w : BandWord) (s : State), w.driven = true →
    exec (.phaseError w) s = .next s ∧ exec (.strayWord w) s = .next s ∧ exec (.bandCheck w) s = .next s) ∧
  ∀ w : BandWord, w.bytes.length ≠ 5 → checkGood w = false

/-! ### The Show Link -/

/-- Characters gather; the fourth, sent as either command, has the message checked and passed to CUE or discarded; a framing
error or the gap discards the partial message (R75, R76). The gap runs out as SHOW_GAP, a command of its own (log 4), or inside
BLOCK_END: the first block end without a character is counted, the second discards.
It rests on the model's choice of log 4. -/
def Obligations.ShowCharactersMakeMessages : Prop :=
  ∀ s : State, s.run = .run →
    let discarded : State := (s.setSlr { chars := [], gap := 0 }).setEvl { s.evl with marks := s.evl.marks ||| 0x0020#16 }
    (∀ b : Byte, s.slr.chars.length < 3 →
      exec (.showCharacter b) s = .next (s.setSlr { chars := s.slr.chars ++ [b], gap := 0 })) ∧
    (∀ b0 b1 b2 b3 : Byte, s.slr.chars = [b0, b1, b2] → b0 + b1 + b2 + b3 ≠ 0xFF →
      exec (.showMessage b3) s = .next discarded ∧ exec (.showCharacter b3) s = .next discarded) ∧
    (∀ b0 b1 b2 b3 : Byte, s.slr.chars = [b0, b1, b2] → b0 = 0 ∨ 6 < b0.toNat → exec (.showMessage b3) s = .next discarded) ∧
    (∀ b1 b2 b3 : Byte, s.slr.chars = [6, b1, b2] → 6 + b1 + b2 + b3 = 0xFF →
      let done := (s.setSlr { chars := [], gap := 0 }).setCue { s.cue with hold := false }
      exec (.showMessage b3) s = .next done ∧ exec (.showCharacter b3) s = .next done) ∧
    (∀ b1 b2 b3 : Byte, s.slr.chars = [3, b1, b2] → 3 + b1 + b2 + b3 = 0xFF →
      let done := (s.setSlr { chars := [], gap := 0 }).setCue { s.cue with flags := s.cue.flags ||| (b1 ++ b2) }
      exec (.showMessage b3) s = .next done ∧ exec (.showCharacter b3) s = .next done) ∧
    exec .showFramingError s = .next discarded ∧
    (s.slr.chars ≠ [] → s.slr.gap = 1 → exec .showGap s = .next discarded) ∧
    ∀ (a b : PortBlock) (h : Bool), ∃ t, exec (.blockEnd a b h) s = .next t ∧
      (s.slr.chars = [] → t.slr = s.slr) ∧
      (s.slr.chars ≠ [] → s.slr.gap = 0 → t.slr = { s.slr with gap := 1 }) ∧
      (s.slr.chars ≠ [] → s.slr.gap = 1 → t.slr = { chars := [], gap := 0 } ∧ t.latched .showCheck = true)
end

