-- ==== Sys2Proof/Laws/State.lean ====
section
/-! SUPPORT. Reading a field after an update, for every field and every update; tables at the index set and at others; cells,
stations and grips after an update. -/

namespace Sys2Proof.Machine

section
variable (s : State) (x : RunState)
@[simp] theorem State.setRun_run : (s.setRun x).run = x := rfl
@[simp] theorem State.setRun_resetPin : (s.setRun x).resetPin = s.resetPin := rfl
@[simp] theorem State.setRun_cells : (s.setRun x).cells = s.cells := rfl
@[simp] theorem State.setRun_glides : (s.setRun x).glides = s.glides := rfl
@[simp] theorem State.setRun_cue : (s.setRun x).cue = s.cue := rfl
@[simp] theorem State.setRun_stations : (s.setRun x).stations = s.stations := rfl
@[simp] theorem State.setRun_lockout : (s.setRun x).lockout = s.lockout := rfl
@[simp] theorem State.setRun_grips : (s.setRun x).grips = s.grips := rfl
@[simp] theorem State.setRun_inHand : (s.setRun x).inHand = s.inHand := rfl
@[simp] theorem State.setRun_link : (s.setRun x).link = s.link := rfl
@[simp] theorem State.setRun_slr : (s.setRun x).slr = s.slr := rfl
@[simp] theorem State.setRun_eli : (s.setRun x).eli = s.eli := rfl
@[simp] theorem State.setRun_src : (s.setRun x).src = s.src := rfl
@[simp] theorem State.setRun_out : (s.setRun x).out = s.out := rfl
@[simp] theorem State.setRun_evl : (s.setRun x).evl = s.evl := rfl
@[simp] theorem State.setRun_free : (s.setRun x).free = s.free := rfl
@[simp] theorem State.setRun_pending : (s.setRun x).pending = s.pending := rfl
end

section
variable (s : State) (x : Bool)
@[simp] theorem State.setResetPin_run : (s.setResetPin x).run = s.run := rfl
@[simp] theorem State.setResetPin_resetPin : (s.setResetPin x).resetPin = x := rfl
@[simp] theorem State.setResetPin_cells : (s.setResetPin x).cells = s.cells := rfl
@[simp] theorem State.setResetPin_glides : (s.setResetPin x).glides = s.glides := rfl
@[simp] theorem State.setResetPin_cue : (s.setResetPin x).cue = s.cue := rfl
@[simp] theorem State.setResetPin_stations : (s.setResetPin x).stations = s.stations := rfl
@[simp] theorem State.setResetPin_lockout : (s.setResetPin x).lockout = s.lockout := rfl
@[simp] theorem State.setResetPin_grips : (s.setResetPin x).grips = s.grips := rfl
@[simp] theorem State.setResetPin_inHand : (s.setResetPin x).inHand = s.inHand := rfl
@[simp] theorem State.setResetPin_link : (s.setResetPin x).link = s.link := rfl
@[simp] theorem State.setResetPin_slr : (s.setResetPin x).slr = s.slr := rfl
@[simp] theorem State.setResetPin_eli : (s.setResetPin x).eli = s.eli := rfl
@[simp] theorem State.setResetPin_src : (s.setResetPin x).src = s.src := rfl
@[simp] theorem State.setResetPin_out : (s.setResetPin x).out = s.out := rfl
@[simp] theorem State.setResetPin_evl : (s.setResetPin x).evl = s.evl := rfl
@[simp] theorem State.setResetPin_free : (s.setResetPin x).free = s.free := rfl
@[simp] theorem State.setResetPin_pending : (s.setResetPin x).pending = s.pending := rfl
end

section
variable (s : State) (x : Vector Cell 768)
@[simp] theorem State.setCells_run : (s.setCells x).run = s.run := rfl
@[simp] theorem State.setCells_resetPin : (s.setCells x).resetPin = s.resetPin := rfl
@[simp] theorem State.setCells_cells : (s.setCells x).cells = x := rfl
@[simp] theorem State.setCells_glides : (s.setCells x).glides = s.glides := rfl
@[simp] theorem State.setCells_cue : (s.setCells x).cue = s.cue := rfl
@[simp] theorem State.setCells_stations : (s.setCells x).stations = s.stations := rfl
@[simp] theorem State.setCells_lockout : (s.setCells x).lockout = s.lockout := rfl
@[simp] theorem State.setCells_grips : (s.setCells x).grips = s.grips := rfl
@[simp] theorem State.setCells_inHand : (s.setCells x).inHand = s.inHand := rfl
@[simp] theorem State.setCells_link : (s.setCells x).link = s.link := rfl
@[simp] theorem State.setCells_slr : (s.setCells x).slr = s.slr := rfl
@[simp] theorem State.setCells_eli : (s.setCells x).eli = s.eli := rfl
@[simp] theorem State.setCells_src : (s.setCells x).src = s.src := rfl
@[simp] theorem State.setCells_out : (s.setCells x).out = s.out := rfl
@[simp] theorem State.setCells_evl : (s.setCells x).evl = s.evl := rfl
@[simp] theorem State.setCells_free : (s.setCells x).free = s.free := rfl
@[simp] theorem State.setCells_pending : (s.setCells x).pending = s.pending := rfl
end

section
variable (s : State) (x : List GlideEntry)
@[simp] theorem State.setGlides_run : (s.setGlides x).run = s.run := rfl
@[simp] theorem State.setGlides_resetPin : (s.setGlides x).resetPin = s.resetPin := rfl
@[simp] theorem State.setGlides_cells : (s.setGlides x).cells = s.cells := rfl
@[simp] theorem State.setGlides_glides : (s.setGlides x).glides = x := rfl
@[simp] theorem State.setGlides_cue : (s.setGlides x).cue = s.cue := rfl
@[simp] theorem State.setGlides_stations : (s.setGlides x).stations = s.stations := rfl
@[simp] theorem State.setGlides_lockout : (s.setGlides x).lockout = s.lockout := rfl
@[simp] theorem State.setGlides_grips : (s.setGlides x).grips = s.grips := rfl
@[simp] theorem State.setGlides_inHand : (s.setGlides x).inHand = s.inHand := rfl
@[simp] theorem State.setGlides_link : (s.setGlides x).link = s.link := rfl
@[simp] theorem State.setGlides_slr : (s.setGlides x).slr = s.slr := rfl
@[simp] theorem State.setGlides_eli : (s.setGlides x).eli = s.eli := rfl
@[simp] theorem State.setGlides_src : (s.setGlides x).src = s.src := rfl
@[simp] theorem State.setGlides_out : (s.setGlides x).out = s.out := rfl
@[simp] theorem State.setGlides_evl : (s.setGlides x).evl = s.evl := rfl
@[simp] theorem State.setGlides_free : (s.setGlides x).free = s.free := rfl
@[simp] theorem State.setGlides_pending : (s.setGlides x).pending = s.pending := rfl
end

section
variable (s : State) (x : CueEngine)
@[simp] theorem State.setCue_run : (s.setCue x).run = s.run := rfl
@[simp] theorem State.setCue_resetPin : (s.setCue x).resetPin = s.resetPin := rfl
@[simp] theorem State.setCue_cells : (s.setCue x).cells = s.cells := rfl
@[simp] theorem State.setCue_glides : (s.setCue x).glides = s.glides := rfl
@[simp] theorem State.setCue_cue : (s.setCue x).cue = x := rfl
@[simp] theorem State.setCue_stations : (s.setCue x).stations = s.stations := rfl
@[simp] theorem State.setCue_lockout : (s.setCue x).lockout = s.lockout := rfl
@[simp] theorem State.setCue_grips : (s.setCue x).grips = s.grips := rfl
@[simp] theorem State.setCue_inHand : (s.setCue x).inHand = s.inHand := rfl
@[simp] theorem State.setCue_link : (s.setCue x).link = s.link := rfl
@[simp] theorem State.setCue_slr : (s.setCue x).slr = s.slr := rfl
@[simp] theorem State.setCue_eli : (s.setCue x).eli = s.eli := rfl
@[simp] theorem State.setCue_src : (s.setCue x).src = s.src := rfl
@[simp] theorem State.setCue_out : (s.setCue x).out = s.out := rfl
@[simp] theorem State.setCue_evl : (s.setCue x).evl = s.evl := rfl
@[simp] theorem State.setCue_free : (s.setCue x).free = s.free := rfl
@[simp] theorem State.setCue_pending : (s.setCue x).pending = s.pending := rfl
end

section
variable (s : State) (x : Vector Station 16)
@[simp] theorem State.setStations_run : (s.setStations x).run = s.run := rfl
@[simp] theorem State.setStations_resetPin : (s.setStations x).resetPin = s.resetPin := rfl
@[simp] theorem State.setStations_cells : (s.setStations x).cells = s.cells := rfl
@[simp] theorem State.setStations_glides : (s.setStations x).glides = s.glides := rfl
@[simp] theorem State.setStations_cue : (s.setStations x).cue = s.cue := rfl
@[simp] theorem State.setStations_stations : (s.setStations x).stations = x := rfl
@[simp] theorem State.setStations_lockout : (s.setStations x).lockout = s.lockout := rfl
@[simp] theorem State.setStations_grips : (s.setStations x).grips = s.grips := rfl
@[simp] theorem State.setStations_inHand : (s.setStations x).inHand = s.inHand := rfl
@[simp] theorem State.setStations_link : (s.setStations x).link = s.link := rfl
@[simp] theorem State.setStations_slr : (s.setStations x).slr = s.slr := rfl
@[simp] theorem State.setStations_eli : (s.setStations x).eli = s.eli := rfl
@[simp] theorem State.setStations_src : (s.setStations x).src = s.src := rfl
@[simp] theorem State.setStations_out : (s.setStations x).out = s.out := rfl
@[simp] theorem State.setStations_evl : (s.setStations x).evl = s.evl := rfl
@[simp] theorem State.setStations_free : (s.setStations x).free = s.free := rfl
@[simp] theorem State.setStations_pending : (s.setStations x).pending = s.pending := rfl
end

section
variable (s : State) (x : Nat)
@[simp] theorem State.setLockout_run : (s.setLockout x).run = s.run := rfl
@[simp] theorem State.setLockout_resetPin : (s.setLockout x).resetPin = s.resetPin := rfl
@[simp] theorem State.setLockout_cells : (s.setLockout x).cells = s.cells := rfl
@[simp] theorem State.setLockout_glides : (s.setLockout x).glides = s.glides := rfl
@[simp] theorem State.setLockout_cue : (s.setLockout x).cue = s.cue := rfl
@[simp] theorem State.setLockout_stations : (s.setLockout x).stations = s.stations := rfl
@[simp] theorem State.setLockout_lockout : (s.setLockout x).lockout = x := rfl
@[simp] theorem State.setLockout_grips : (s.setLockout x).grips = s.grips := rfl
@[simp] theorem State.setLockout_inHand : (s.setLockout x).inHand = s.inHand := rfl
@[simp] theorem State.setLockout_link : (s.setLockout x).link = s.link := rfl
@[simp] theorem State.setLockout_slr : (s.setLockout x).slr = s.slr := rfl
@[simp] theorem State.setLockout_eli : (s.setLockout x).eli = s.eli := rfl
@[simp] theorem State.setLockout_src : (s.setLockout x).src = s.src := rfl
@[simp] theorem State.setLockout_out : (s.setLockout x).out = s.out := rfl
@[simp] theorem State.setLockout_evl : (s.setLockout x).evl = s.evl := rfl
@[simp] theorem State.setLockout_free : (s.setLockout x).free = s.free := rfl
@[simp] theorem State.setLockout_pending : (s.setLockout x).pending = s.pending := rfl
end

section
variable (s : State) (x : Vector (Option Grip) 16)
@[simp] theorem State.setGrips_run : (s.setGrips x).run = s.run := rfl
@[simp] theorem State.setGrips_resetPin : (s.setGrips x).resetPin = s.resetPin := rfl
@[simp] theorem State.setGrips_cells : (s.setGrips x).cells = s.cells := rfl
@[simp] theorem State.setGrips_glides : (s.setGrips x).glides = s.glides := rfl
@[simp] theorem State.setGrips_cue : (s.setGrips x).cue = s.cue := rfl
@[simp] theorem State.setGrips_stations : (s.setGrips x).stations = s.stations := rfl
@[simp] theorem State.setGrips_lockout : (s.setGrips x).lockout = s.lockout := rfl
@[simp] theorem State.setGrips_grips : (s.setGrips x).grips = x := rfl
@[simp] theorem State.setGrips_inHand : (s.setGrips x).inHand = s.inHand := rfl
@[simp] theorem State.setGrips_link : (s.setGrips x).link = s.link := rfl
@[simp] theorem State.setGrips_slr : (s.setGrips x).slr = s.slr := rfl
@[simp] theorem State.setGrips_eli : (s.setGrips x).eli = s.eli := rfl
@[simp] theorem State.setGrips_src : (s.setGrips x).src = s.src := rfl
@[simp] theorem State.setGrips_out : (s.setGrips x).out = s.out := rfl
@[simp] theorem State.setGrips_evl : (s.setGrips x).evl = s.evl := rfl
@[simp] theorem State.setGrips_free : (s.setGrips x).free = s.free := rfl
@[simp] theorem State.setGrips_pending : (s.setGrips x).pending = s.pending := rfl
end

section
variable (s : State) (x : Option Request)
@[simp] theorem State.setInHand_run : (s.setInHand x).run = s.run := rfl
@[simp] theorem State.setInHand_resetPin : (s.setInHand x).resetPin = s.resetPin := rfl
@[simp] theorem State.setInHand_cells : (s.setInHand x).cells = s.cells := rfl
@[simp] theorem State.setInHand_glides : (s.setInHand x).glides = s.glides := rfl
@[simp] theorem State.setInHand_cue : (s.setInHand x).cue = s.cue := rfl
@[simp] theorem State.setInHand_stations : (s.setInHand x).stations = s.stations := rfl
@[simp] theorem State.setInHand_lockout : (s.setInHand x).lockout = s.lockout := rfl
@[simp] theorem State.setInHand_grips : (s.setInHand x).grips = s.grips := rfl
@[simp] theorem State.setInHand_inHand : (s.setInHand x).inHand = x := rfl
@[simp] theorem State.setInHand_link : (s.setInHand x).link = s.link := rfl
@[simp] theorem State.setInHand_slr : (s.setInHand x).slr = s.slr := rfl
@[simp] theorem State.setInHand_eli : (s.setInHand x).eli = s.eli := rfl
@[simp] theorem State.setInHand_src : (s.setInHand x).src = s.src := rfl
@[simp] theorem State.setInHand_out : (s.setInHand x).out = s.out := rfl
@[simp] theorem State.setInHand_evl : (s.setInHand x).evl = s.evl := rfl
@[simp] theorem State.setInHand_free : (s.setInHand x).free = s.free := rfl
@[simp] theorem State.setInHand_pending : (s.setInHand x).pending = s.pending := rfl
end

section
variable (s : State) (x : LinkRecord)
@[simp] theorem State.setLink_run : (s.setLink x).run = s.run := rfl
@[simp] theorem State.setLink_resetPin : (s.setLink x).resetPin = s.resetPin := rfl
@[simp] theorem State.setLink_cells : (s.setLink x).cells = s.cells := rfl
@[simp] theorem State.setLink_glides : (s.setLink x).glides = s.glides := rfl
@[simp] theorem State.setLink_cue : (s.setLink x).cue = s.cue := rfl
@[simp] theorem State.setLink_stations : (s.setLink x).stations = s.stations := rfl
@[simp] theorem State.setLink_lockout : (s.setLink x).lockout = s.lockout := rfl
@[simp] theorem State.setLink_grips : (s.setLink x).grips = s.grips := rfl
@[simp] theorem State.setLink_inHand : (s.setLink x).inHand = s.inHand := rfl
@[simp] theorem State.setLink_link : (s.setLink x).link = x := rfl
@[simp] theorem State.setLink_slr : (s.setLink x).slr = s.slr := rfl
@[simp] theorem State.setLink_eli : (s.setLink x).eli = s.eli := rfl
@[simp] theorem State.setLink_src : (s.setLink x).src = s.src := rfl
@[simp] theorem State.setLink_out : (s.setLink x).out = s.out := rfl
@[simp] theorem State.setLink_evl : (s.setLink x).evl = s.evl := rfl
@[simp] theorem State.setLink_free : (s.setLink x).free = s.free := rfl
@[simp] theorem State.setLink_pending : (s.setLink x).pending = s.pending := rfl
end

section
variable (s : State) (x : ShowReceiver)
@[simp] theorem State.setSlr_run : (s.setSlr x).run = s.run := rfl
@[simp] theorem State.setSlr_resetPin : (s.setSlr x).resetPin = s.resetPin := rfl
@[simp] theorem State.setSlr_cells : (s.setSlr x).cells = s.cells := rfl
@[simp] theorem State.setSlr_glides : (s.setSlr x).glides = s.glides := rfl
@[simp] theorem State.setSlr_cue : (s.setSlr x).cue = s.cue := rfl
@[simp] theorem State.setSlr_stations : (s.setSlr x).stations = s.stations := rfl
@[simp] theorem State.setSlr_lockout : (s.setSlr x).lockout = s.lockout := rfl
@[simp] theorem State.setSlr_grips : (s.setSlr x).grips = s.grips := rfl
@[simp] theorem State.setSlr_inHand : (s.setSlr x).inHand = s.inHand := rfl
@[simp] theorem State.setSlr_link : (s.setSlr x).link = s.link := rfl
@[simp] theorem State.setSlr_slr : (s.setSlr x).slr = x := rfl
@[simp] theorem State.setSlr_eli : (s.setSlr x).eli = s.eli := rfl
@[simp] theorem State.setSlr_src : (s.setSlr x).src = s.src := rfl
@[simp] theorem State.setSlr_out : (s.setSlr x).out = s.out := rfl
@[simp] theorem State.setSlr_evl : (s.setSlr x).evl = s.evl := rfl
@[simp] theorem State.setSlr_free : (s.setSlr x).free = s.free := rfl
@[simp] theorem State.setSlr_pending : (s.setSlr x).pending = s.pending := rfl
end

section
variable (s : State) (x : EngineerLink)
@[simp] theorem State.setEli_run : (s.setEli x).run = s.run := rfl
@[simp] theorem State.setEli_resetPin : (s.setEli x).resetPin = s.resetPin := rfl
@[simp] theorem State.setEli_cells : (s.setEli x).cells = s.cells := rfl
@[simp] theorem State.setEli_glides : (s.setEli x).glides = s.glides := rfl
@[simp] theorem State.setEli_cue : (s.setEli x).cue = s.cue := rfl
@[simp] theorem State.setEli_stations : (s.setEli x).stations = s.stations := rfl
@[simp] theorem State.setEli_lockout : (s.setEli x).lockout = s.lockout := rfl
@[simp] theorem State.setEli_grips : (s.setEli x).grips = s.grips := rfl
@[simp] theorem State.setEli_inHand : (s.setEli x).inHand = s.inHand := rfl
@[simp] theorem State.setEli_link : (s.setEli x).link = s.link := rfl
@[simp] theorem State.setEli_slr : (s.setEli x).slr = s.slr := rfl
@[simp] theorem State.setEli_eli : (s.setEli x).eli = x := rfl
@[simp] theorem State.setEli_src : (s.setEli x).src = s.src := rfl
@[simp] theorem State.setEli_out : (s.setEli x).out = s.out := rfl
@[simp] theorem State.setEli_evl : (s.setEli x).evl = s.evl := rfl
@[simp] theorem State.setEli_free : (s.setEli x).free = s.free := rfl
@[simp] theorem State.setEli_pending : (s.setEli x).pending = s.pending := rfl
end

section
variable (s : State) (x : Sources)
@[simp] theorem State.setSrc_run : (s.setSrc x).run = s.run := rfl
@[simp] theorem State.setSrc_resetPin : (s.setSrc x).resetPin = s.resetPin := rfl
@[simp] theorem State.setSrc_cells : (s.setSrc x).cells = s.cells := rfl
@[simp] theorem State.setSrc_glides : (s.setSrc x).glides = s.glides := rfl
@[simp] theorem State.setSrc_cue : (s.setSrc x).cue = s.cue := rfl
@[simp] theorem State.setSrc_stations : (s.setSrc x).stations = s.stations := rfl
@[simp] theorem State.setSrc_lockout : (s.setSrc x).lockout = s.lockout := rfl
@[simp] theorem State.setSrc_grips : (s.setSrc x).grips = s.grips := rfl
@[simp] theorem State.setSrc_inHand : (s.setSrc x).inHand = s.inHand := rfl
@[simp] theorem State.setSrc_link : (s.setSrc x).link = s.link := rfl
@[simp] theorem State.setSrc_slr : (s.setSrc x).slr = s.slr := rfl
@[simp] theorem State.setSrc_eli : (s.setSrc x).eli = s.eli := rfl
@[simp] theorem State.setSrc_src : (s.setSrc x).src = x := rfl
@[simp] theorem State.setSrc_out : (s.setSrc x).out = s.out := rfl
@[simp] theorem State.setSrc_evl : (s.setSrc x).evl = s.evl := rfl
@[simp] theorem State.setSrc_free : (s.setSrc x).free = s.free := rfl
@[simp] theorem State.setSrc_pending : (s.setSrc x).pending = s.pending := rfl
end

section
variable (s : State) (x : Outputs)
@[simp] theorem State.setOut_run : (s.setOut x).run = s.run := rfl
@[simp] theorem State.setOut_resetPin : (s.setOut x).resetPin = s.resetPin := rfl
@[simp] theorem State.setOut_cells : (s.setOut x).cells = s.cells := rfl
@[simp] theorem State.setOut_glides : (s.setOut x).glides = s.glides := rfl
@[simp] theorem State.setOut_cue : (s.setOut x).cue = s.cue := rfl
@[simp] theorem State.setOut_stations : (s.setOut x).stations = s.stations := rfl
@[simp] theorem State.setOut_lockout : (s.setOut x).lockout = s.lockout := rfl
@[simp] theorem State.setOut_grips : (s.setOut x).grips = s.grips := rfl
@[simp] theorem State.setOut_inHand : (s.setOut x).inHand = s.inHand := rfl
@[simp] theorem State.setOut_link : (s.setOut x).link = s.link := rfl
@[simp] theorem State.setOut_slr : (s.setOut x).slr = s.slr := rfl
@[simp] theorem State.setOut_eli : (s.setOut x).eli = s.eli := rfl
@[simp] theorem State.setOut_src : (s.setOut x).src = s.src := rfl
@[simp] theorem State.setOut_out : (s.setOut x).out = x := rfl
@[simp] theorem State.setOut_evl : (s.setOut x).evl = s.evl := rfl
@[simp] theorem State.setOut_free : (s.setOut x).free = s.free := rfl
@[simp] theorem State.setOut_pending : (s.setOut x).pending = s.pending := rfl
end

section
variable (s : State) (x : EventLatch)
@[simp] theorem State.setEvl_run : (s.setEvl x).run = s.run := rfl
@[simp] theorem State.setEvl_resetPin : (s.setEvl x).resetPin = s.resetPin := rfl
@[simp] theorem State.setEvl_cells : (s.setEvl x).cells = s.cells := rfl
@[simp] theorem State.setEvl_glides : (s.setEvl x).glides = s.glides := rfl
@[simp] theorem State.setEvl_cue : (s.setEvl x).cue = s.cue := rfl
@[simp] theorem State.setEvl_stations : (s.setEvl x).stations = s.stations := rfl
@[simp] theorem State.setEvl_lockout : (s.setEvl x).lockout = s.lockout := rfl
@[simp] theorem State.setEvl_grips : (s.setEvl x).grips = s.grips := rfl
@[simp] theorem State.setEvl_inHand : (s.setEvl x).inHand = s.inHand := rfl
@[simp] theorem State.setEvl_link : (s.setEvl x).link = s.link := rfl
@[simp] theorem State.setEvl_slr : (s.setEvl x).slr = s.slr := rfl
@[simp] theorem State.setEvl_eli : (s.setEvl x).eli = s.eli := rfl
@[simp] theorem State.setEvl_src : (s.setEvl x).src = s.src := rfl
@[simp] theorem State.setEvl_out : (s.setEvl x).out = s.out := rfl
@[simp] theorem State.setEvl_evl : (s.setEvl x).evl = x := rfl
@[simp] theorem State.setEvl_free : (s.setEvl x).free = s.free := rfl
@[simp] theorem State.setEvl_pending : (s.setEvl x).pending = s.pending := rfl
end

section
variable (s : State) (x : Nat)
@[simp] theorem State.setFree_run : (s.setFree x).run = s.run := rfl
@[simp] theorem State.setFree_resetPin : (s.setFree x).resetPin = s.resetPin := rfl
@[simp] theorem State.setFree_cells : (s.setFree x).cells = s.cells := rfl
@[simp] theorem State.setFree_glides : (s.setFree x).glides = s.glides := rfl
@[simp] theorem State.setFree_cue : (s.setFree x).cue = s.cue := rfl
@[simp] theorem State.setFree_stations : (s.setFree x).stations = s.stations := rfl
@[simp] theorem State.setFree_lockout : (s.setFree x).lockout = s.lockout := rfl
@[simp] theorem State.setFree_grips : (s.setFree x).grips = s.grips := rfl
@[simp] theorem State.setFree_inHand : (s.setFree x).inHand = s.inHand := rfl
@[simp] theorem State.setFree_link : (s.setFree x).link = s.link := rfl
@[simp] theorem State.setFree_slr : (s.setFree x).slr = s.slr := rfl
@[simp] theorem State.setFree_eli : (s.setFree x).eli = s.eli := rfl
@[simp] theorem State.setFree_src : (s.setFree x).src = s.src := rfl
@[simp] theorem State.setFree_out : (s.setFree x).out = s.out := rfl
@[simp] theorem State.setFree_evl : (s.setFree x).evl = s.evl := rfl
@[simp] theorem State.setFree_free : (s.setFree x).free = x := rfl
@[simp] theorem State.setFree_pending : (s.setFree x).pending = s.pending := rfl
end

section
variable (s : State) (x : List Instr)
@[simp] theorem State.setPending_run : (s.setPending x).run = s.run := rfl
@[simp] theorem State.setPending_resetPin : (s.setPending x).resetPin = s.resetPin := rfl
@[simp] theorem State.setPending_cells : (s.setPending x).cells = s.cells := rfl
@[simp] theorem State.setPending_glides : (s.setPending x).glides = s.glides := rfl
@[simp] theorem State.setPending_cue : (s.setPending x).cue = s.cue := rfl
@[simp] theorem State.setPending_stations : (s.setPending x).stations = s.stations := rfl
@[simp] theorem State.setPending_lockout : (s.setPending x).lockout = s.lockout := rfl
@[simp] theorem State.setPending_grips : (s.setPending x).grips = s.grips := rfl
@[simp] theorem State.setPending_inHand : (s.setPending x).inHand = s.inHand := rfl
@[simp] theorem State.setPending_link : (s.setPending x).link = s.link := rfl
@[simp] theorem State.setPending_slr : (s.setPending x).slr = s.slr := rfl
@[simp] theorem State.setPending_eli : (s.setPending x).eli = s.eli := rfl
@[simp] theorem State.setPending_src : (s.setPending x).src = s.src := rfl
@[simp] theorem State.setPending_out : (s.setPending x).out = s.out := rfl
@[simp] theorem State.setPending_evl : (s.setPending x).evl = s.evl := rfl
@[simp] theorem State.setPending_free : (s.setPending x).free = s.free := rfl
@[simp] theorem State.setPending_pending : (s.setPending x).pending = x := rfl
end

/-! ### Tables -/

@[simp] theorem tableGet_tableSet_same {α : Type} {n : Nat} (t : Vector α n) (i : Fin n) (x : α) :
    tableGet (tableSet t i x) i = x := by
  simp [tableGet, tableSet]

theorem tableGet_tableSet_ne {α : Type} {n : Nat} (t : Vector α n) {i j : Fin n} (x : α) (h : i ≠ j) :
    tableGet (tableSet t i x) j = tableGet t j := by
  have h' : i.val ≠ j.val := fun e => h (Fin.ext e)
  simp [tableGet, tableSet, h']

theorem tableGet_tableSet {α : Type} {n : Nat} (t : Vector α n) (i j : Fin n) (x : α) :
    tableGet (tableSet t i x) j = if i = j then x else tableGet t j := by
  by_cases h : i = j
  · subst h; simp
  · rw [tableGet_tableSet_ne t x h, if_neg h]

@[simp] theorem tableGet_map {α β : Type} {n : Nat} (t : Vector α n) (f : α → β) (i : Fin n) :
    tableGet (t.map f) i = f (tableGet t i) := by
  simp [tableGet]

@[simp] theorem tableGet_replicate {α : Type} {n : Nat} (x : α) (i : Fin n) :
    tableGet (Vector.replicate n x) i = x := by
  simp [tableGet]

@[simp] theorem tableGet_ofFn {α : Type} {n : Nat} (f : Fin n → α) (i : Fin n) : tableGet (Vector.ofFn f) i = f i := by
  simp [tableGet]

/-! ### Cells -/

theorem cellIndex_injective : Function.Injective cellIndex := by
  intro a b h
  have h1 : a.mix.val * 48 + a.source.val = b.mix.val * 48 + b.source.val := congrArg Fin.val h
  have ha := a.source.isLt
  have hb := b.source.isLt
  have h2 : a.mix.val = b.mix.val := by omega
  have h3 : a.source.val = b.source.val := by omega
  cases a; cases b
  simp only [CellId.mk.injEq]
  exact ⟨Fin.ext h2, Fin.ext h3⟩

theorem State.cell_setCell (s : State) (c d : CellId) (x : Cell) :
    (s.setCell c x).cell d = if c = d then x else s.cell d := by
  by_cases h : c = d
  · subst h; simp [State.setCell, State.cell]
  · have h' : cellIndex c ≠ cellIndex d := fun e => h (cellIndex_injective e)
    simp [State.setCell, State.cell, h, tableGet_tableSet_ne _ _ h']

@[simp] theorem State.cell_setCell_same (s : State) (c : CellId) (x : Cell) : (s.setCell c x).cell c = x := by
  simp [State.cell_setCell]

theorem State.cell_setHeard (s : State) (c d : CellId) (h : Nat) :
    (s.setHeard c h).cell d = if c = d then { s.cell d with heard := h } else s.cell d := by
  unfold State.setHeard
  rw [State.cell_setCell]
  by_cases e : c = d
  · subst e; simp
  · simp [e]

/-! ### Stations and grips -/

theorem State.station_setStation (s : State) (m n : StationId) (x : Station) :
    (s.setStation m x).station n = if m = n then x else s.station n := by
  simp [State.setStation, State.station, tableGet_tableSet]

@[simp] theorem State.station_setStation_same (s : State) (n : StationId) (x : Station) :
    (s.setStation n x).station n = x := by
  simp [State.station_setStation]

@[simp] theorem tableSet_tableSet {α : Type} {n : Nat} (t : Vector α n) (i : Fin n) (x y : α) :
    tableSet (tableSet t i x) i y = tableSet t i y := by
  simp [tableSet]

@[simp] theorem tableSet_self {α : Type} {n : Nat} (t : Vector α n) (i : Fin n) : tableSet t i (tableGet t i) = t := by
  simp [tableSet, tableGet]

@[simp] theorem State.setStation_setStation (s : State) (n : StationId) (x y : Station) :
    (s.setStation n x).setStation n y = s.setStation n y := by
  simp only [State.setStation, State.setStations_stations, tableSet_tableSet]; rfl

@[simp] theorem State.setStation_self (s : State) (n : StationId) : s.setStation n (s.station n) = s := by
  simp only [State.setStation, State.station, tableSet_self]; rfl

@[simp] theorem State.setGrip_setGrip (s : State) (n : StationId) (x y : Option Grip) :
    (s.setGrip n x).setGrip n y = s.setGrip n y := by
  simp only [State.setGrip, State.setGrips_grips, tableSet_tableSet]; rfl

theorem State.grip_setGrip (s : State) (m n : StationId) (x : Option Grip) :
    (s.setGrip m x).grip n = if m = n then x else s.grip n := by
  simp [State.setGrip, State.grip, tableGet_tableSet]

@[simp] theorem State.grip_setGrip_same (s : State) (n : StationId) (x : Option Grip) :
    (s.setGrip n x).grip n = x := by
  simp [State.grip_setGrip]

/-! ### Events -/

/-- A report in RUN sets the event's mark and nothing else (R193). -/
theorem State.report_in_run (s : State) (e : Event) (h : s.run = .run) :
    s.report e = s.setEvl { s.evl with marks := s.evl.marks ||| eventMark e } := by
  simp [State.report, h]

/-- A report made during INIT is discarded (R195). -/
theorem State.report_in_init (s : State) (e : Event) (h : s.run = .init) : s.report e = s := by
  simp [State.report, h]

@[simp] theorem State.report_run (s : State) (e : Event) : (s.report e).run = s.run := by
  unfold State.report; split <;> rfl
@[simp] theorem State.report_resetPin (s : State) (e : Event) : (s.report e).resetPin = s.resetPin := by
  unfold State.report; split <;> rfl
@[simp] theorem State.report_cells (s : State) (e : Event) : (s.report e).cells = s.cells := by
  unfold State.report; split <;> rfl
@[simp] theorem State.report_glides (s : State) (e : Event) : (s.report e).glides = s.glides := by
  unfold State.report; split <;> rfl
@[simp] theorem State.report_cue (s : State) (e : Event) : (s.report e).cue = s.cue := by
  unfold State.report; split <;> rfl
@[simp] theorem State.report_stations (s : State) (e : Event) : (s.report e).stations = s.stations := by
  unfold State.report; split <;> rfl
@[simp] theorem State.report_lockout (s : State) (e : Event) : (s.report e).lockout = s.lockout := by
  unfold State.report; split <;> rfl
@[simp] theorem State.report_grips (s : State) (e : Event) : (s.report e).grips = s.grips := by
  unfold State.report; split <;> rfl
@[simp] theorem State.report_inHand (s : State) (e : Event) : (s.report e).inHand = s.inHand := by
  unfold State.report; split <;> rfl
@[simp] theorem State.report_link (s : State) (e : Event) : (s.report e).link = s.link := by
  unfold State.report; split <;> rfl
@[simp] theorem State.report_slr (s : State) (e : Event) : (s.report e).slr = s.slr := by
  unfold State.report; split <;> rfl
@[simp] theorem State.report_eli (s : State) (e : Event) : (s.report e).eli = s.eli := by
  unfold State.report; split <;> rfl
@[simp] theorem State.report_src (s : State) (e : Event) : (s.report e).src = s.src := by
  unfold State.report; split <;> rfl
@[simp] theorem State.report_out (s : State) (e : Event) : (s.report e).out = s.out := by
  unfold State.report; split <;> rfl
@[simp] theorem State.report_free (s : State) (e : Event) : (s.report e).free = s.free := by
  unfold State.report; split <;> rfl
@[simp] theorem State.report_pending (s : State) (e : Event) : (s.report e).pending = s.pending := by
  unfold State.report; split <;> rfl

@[simp] theorem State.setCell_run (s : State) (c : CellId) (x : Cell) : (s.setCell c x).run = s.run := rfl
@[simp] theorem State.setCell_resetPin (s : State) (c : CellId) (x : Cell) : (s.setCell c x).resetPin = s.resetPin := rfl
@[simp] theorem State.setCell_glides (s : State) (c : CellId) (x : Cell) : (s.setCell c x).glides = s.glides := rfl
@[simp] theorem State.setCell_cue (s : State) (c : CellId) (x : Cell) : (s.setCell c x).cue = s.cue := rfl
@[simp] theorem State.setCell_stations (s : State) (c : CellId) (x : Cell) : (s.setCell c x).stations = s.stations := rfl
@[simp] theorem State.setCell_lockout (s : State) (c : CellId) (x : Cell) : (s.setCell c x).lockout = s.lockout := rfl
@[simp] theorem State.setCell_grips (s : State) (c : CellId) (x : Cell) : (s.setCell c x).grips = s.grips := rfl
@[simp] theorem State.setCell_inHand (s : State) (c : CellId) (x : Cell) : (s.setCell c x).inHand = s.inHand := rfl
@[simp] theorem State.setCell_link (s : State) (c : CellId) (x : Cell) : (s.setCell c x).link = s.link := rfl
@[simp] theorem State.setCell_slr (s : State) (c : CellId) (x : Cell) : (s.setCell c x).slr = s.slr := rfl
@[simp] theorem State.setCell_eli (s : State) (c : CellId) (x : Cell) : (s.setCell c x).eli = s.eli := rfl
@[simp] theorem State.setCell_src (s : State) (c : CellId) (x : Cell) : (s.setCell c x).src = s.src := rfl
@[simp] theorem State.setCell_out (s : State) (c : CellId) (x : Cell) : (s.setCell c x).out = s.out := rfl
@[simp] theorem State.setCell_evl (s : State) (c : CellId) (x : Cell) : (s.setCell c x).evl = s.evl := rfl
@[simp] theorem State.setCell_free (s : State) (c : CellId) (x : Cell) : (s.setCell c x).free = s.free := rfl
@[simp] theorem State.setCell_pending (s : State) (c : CellId) (x : Cell) : (s.setCell c x).pending = s.pending := rfl

@[simp] theorem State.setStation_run (s : State) (n : StationId) (x : Station) : (s.setStation n x).run = s.run := rfl
@[simp] theorem State.setStation_resetPin (s : State) (n : StationId) (x : Station) : (s.setStation n x).resetPin = s.resetPin := rfl
@[simp] theorem State.setStation_cells (s : State) (n : StationId) (x : Station) : (s.setStation n x).cells = s.cells := rfl
@[simp] theorem State.setStation_glides (s : State) (n : StationId) (x : Station) : (s.setStation n x).glides = s.glides := rfl
@[simp] theorem State.setStation_cue (s : State) (n : StationId) (x : Station) : (s.setStation n x).cue = s.cue := rfl
@[simp] theorem State.setStation_lockout (s : State) (n : StationId) (x : Station) : (s.setStation n x).lockout = s.lockout := rfl
@[simp] theorem State.setStation_grips (s : State) (n : StationId) (x : Station) : (s.setStation n x).grips = s.grips := rfl
@[simp] theorem State.setStation_inHand (s : State) (n : StationId) (x : Station) : (s.setStation n x).inHand = s.inHand := rfl
@[simp] theorem State.setStation_link (s : State) (n : StationId) (x : Station) : (s.setStation n x).link = s.link := rfl
@[simp] theorem State.setStation_slr (s : State) (n : StationId) (x : Station) : (s.setStation n x).slr = s.slr := rfl
@[simp] theorem State.setStation_eli (s : State) (n : StationId) (x : Station) : (s.setStation n x).eli = s.eli := rfl
@[simp] theorem State.setStation_src (s : State) (n : StationId) (x : Station) : (s.setStation n x).src = s.src := rfl
@[simp] theorem State.setStation_out (s : State) (n : StationId) (x : Station) : (s.setStation n x).out = s.out := rfl
@[simp] theorem State.setStation_evl (s : State) (n : StationId) (x : Station) : (s.setStation n x).evl = s.evl := rfl
@[simp] theorem State.setStation_free (s : State) (n : StationId) (x : Station) : (s.setStation n x).free = s.free := rfl
@[simp] theorem State.setStation_pending (s : State) (n : StationId) (x : Station) : (s.setStation n x).pending = s.pending := rfl

@[simp] theorem State.setGrip_run (s : State) (n : StationId) (x : Option Grip) : (s.setGrip n x).run = s.run := rfl
@[simp] theorem State.setGrip_resetPin (s : State) (n : StationId) (x : Option Grip) : (s.setGrip n x).resetPin = s.resetPin := rfl
@[simp] theorem State.setGrip_cells (s : State) (n : StationId) (x : Option Grip) : (s.setGrip n x).cells = s.cells := rfl
@[simp] theorem State.setGrip_glides (s : State) (n : StationId) (x : Option Grip) : (s.setGrip n x).glides = s.glides := rfl
@[simp] theorem State.setGrip_cue (s : State) (n : StationId) (x : Option Grip) : (s.setGrip n x).cue = s.cue := rfl
@[simp] theorem State.setGrip_stations (s : State) (n : StationId) (x : Option Grip) : (s.setGrip n x).stations = s.stations := rfl
@[simp] theorem State.setGrip_lockout (s : State) (n : StationId) (x : Option Grip) : (s.setGrip n x).lockout = s.lockout := rfl
@[simp] theorem State.setGrip_inHand (s : State) (n : StationId) (x : Option Grip) : (s.setGrip n x).inHand = s.inHand := rfl
@[simp] theorem State.setGrip_link (s : State) (n : StationId) (x : Option Grip) : (s.setGrip n x).link = s.link := rfl
@[simp] theorem State.setGrip_slr (s : State) (n : StationId) (x : Option Grip) : (s.setGrip n x).slr = s.slr := rfl
@[simp] theorem State.setGrip_eli (s : State) (n : StationId) (x : Option Grip) : (s.setGrip n x).eli = s.eli := rfl
@[simp] theorem State.setGrip_src (s : State) (n : StationId) (x : Option Grip) : (s.setGrip n x).src = s.src := rfl
@[simp] theorem State.setGrip_out (s : State) (n : StationId) (x : Option Grip) : (s.setGrip n x).out = s.out := rfl
@[simp] theorem State.setGrip_evl (s : State) (n : StationId) (x : Option Grip) : (s.setGrip n x).evl = s.evl := rfl
@[simp] theorem State.setGrip_free (s : State) (n : StationId) (x : Option Grip) : (s.setGrip n x).free = s.free := rfl
@[simp] theorem State.setGrip_pending (s : State) (n : StationId) (x : Option Grip) : (s.setGrip n x).pending = s.pending := rfl

@[simp] theorem State.setHeard_run (s : State) (c : CellId) (x : Nat) : (s.setHeard c x).run = s.run := rfl
@[simp] theorem State.setHeard_resetPin (s : State) (c : CellId) (x : Nat) : (s.setHeard c x).resetPin = s.resetPin := rfl
@[simp] theorem State.setHeard_glides (s : State) (c : CellId) (x : Nat) : (s.setHeard c x).glides = s.glides := rfl
@[simp] theorem State.setHeard_cue (s : State) (c : CellId) (x : Nat) : (s.setHeard c x).cue = s.cue := rfl
@[simp] theorem State.setHeard_stations (s : State) (c : CellId) (x : Nat) : (s.setHeard c x).stations = s.stations := rfl
@[simp] theorem State.setHeard_lockout (s : State) (c : CellId) (x : Nat) : (s.setHeard c x).lockout = s.lockout := rfl
@[simp] theorem State.setHeard_grips (s : State) (c : CellId) (x : Nat) : (s.setHeard c x).grips = s.grips := rfl
@[simp] theorem State.setHeard_inHand (s : State) (c : CellId) (x : Nat) : (s.setHeard c x).inHand = s.inHand := rfl
@[simp] theorem State.setHeard_link (s : State) (c : CellId) (x : Nat) : (s.setHeard c x).link = s.link := rfl
@[simp] theorem State.setHeard_slr (s : State) (c : CellId) (x : Nat) : (s.setHeard c x).slr = s.slr := rfl
@[simp] theorem State.setHeard_eli (s : State) (c : CellId) (x : Nat) : (s.setHeard c x).eli = s.eli := rfl
@[simp] theorem State.setHeard_src (s : State) (c : CellId) (x : Nat) : (s.setHeard c x).src = s.src := rfl
@[simp] theorem State.setHeard_out (s : State) (c : CellId) (x : Nat) : (s.setHeard c x).out = s.out := rfl
@[simp] theorem State.setHeard_evl (s : State) (c : CellId) (x : Nat) : (s.setHeard c x).evl = s.evl := rfl
@[simp] theorem State.setHeard_free (s : State) (c : CellId) (x : Nat) : (s.setHeard c x).free = s.free := rfl
@[simp] theorem State.setHeard_pending (s : State) (c : CellId) (x : Nat) : (s.setHeard c x).pending = s.pending := rfl

/-! ### Latched events -/

/-- A report in RUN latches its event. -/
theorem State.latched_report_same (s : State) (e : Event) (h : s.run = .run) : (s.report e).latched e = true := by
  rw [State.report_in_run s e h]
  unfold State.latched
  rw [decide_eq_true_iff]
  simp only [State.setEvl_evl]
  intro hz
  have : ∀ m : Word16, (m ||| eventMark e) &&& eventMark e = eventMark e := by
    intro m
    apply BitVec.eq_of_getLsbD_eq
    intro i _
    simp only [BitVec.getLsbD_and, BitVec.getLsbD_or]
    cases (eventMark e).getLsbD i <;> simp
  rw [this] at hz
  cases e <;> simp [eventMark] at hz

/-- A report leaves the other events as they were. -/
theorem State.latched_report_ne (s : State) (e f : Event) (h : e ≠ f) : (s.report e).latched f = s.latched f := by
  unfold State.report
  split
  · have hd : eventMark e &&& eventMark f = 0 := by
      cases e <;> cases f <;> first | exact absurd rfl h | decide
    have : (s.evl.marks ||| eventMark e) &&& eventMark f = s.evl.marks &&& eventMark f := by
      apply BitVec.eq_of_getLsbD_eq
      intro i hi
      have hb := congrArg (fun w => w.getLsbD i) hd
      have hz : (0 : Word16).getLsbD i = false := by simp
      simp only [BitVec.getLsbD_and] at hb
      rw [hz] at hb
      simp only [BitVec.getLsbD_and, BitVec.getLsbD_or]
      cases ha : (eventMark e).getLsbD i
      · simp
      · rw [ha] at hb
        simp only [Bool.true_and] at hb
        simp [hb]
    exact congrArg (fun w : Word16 => decide (w ≠ 0)) this
  · rfl

/-- A report unlatches nothing. -/
theorem State.latched_report_mono (s : State) (e f : Event) (h : s.latched f = true) : (s.report e).latched f = true := by
  by_cases he : e = f
  · subst he
    by_cases hr : s.run = .run
    · exact s.latched_report_same e hr
    · simpa [State.report, hr] using h
  · rw [State.latched_report_ne s e f he, h]

end Sys2Proof.Machine
end

