-- ==== Sys2Proof/Laws/Audio.lean ====
section
/-! SUPPORT. The factors of R174 and the tone of R176 inside their bounds, what a contribution and a run of patch entries do at
one place. -/

namespace Sys2Proof.Machine

/-! ### Factors -/

theorem unitClamp_mem (x : Rat) : 0 ≤ unitClamp x ∧ unitClamp x ≤ 1 := by
  unfold unitClamp
  split
  · simp
  · split
    · simp
    · constructor <;> linarith

/-- A factor lies within one unit above its floor. -/
theorem boundedFactor_mem (n : Nat) (x : Rat) :
    (n : Rat) / 2 ^ 48 ≤ boundedFactor n x ∧ boundedFactor n x ≤ ((n : Rat) + 1) / 2 ^ 48 := by
  obtain ⟨h1, h2⟩ := unitClamp_mem x
  unfold boundedFactor
  rw [show factorUnit = 2 ^ 48 by unfold factorUnit; norm_num]
  constructor
  · gcongr; linarith
  · gcongr

/-- The floors are those of 10 to the power r / 40. -/
theorem decadeFloor_bounds : ∀ r < 40, (decadeFloor r) ^ 40 ≤ 10 ^ r * (2 ^ 48) ^ 40 ∧
    10 ^ r * (2 ^ 48) ^ 40 ≤ (decadeFloor r + 1) ^ 40 := by
  decide +kernel

theorem decadeFloor_zero : decadeFloor 0 = 2 ^ 48 := by decide +kernel

theorem decadeFactor_mem (r : Nat) :
    (decadeFloor r : Rat) / 2 ^ 48 ≤ decadeFactor r ∧ decadeFactor r ≤ ((decadeFloor r : Rat) + 1) / 2 ^ 48 := by
  unfold decadeFactor
  split
  · next h => subst h; rw [decadeFloor_zero]; norm_num
  · exact boundedFactor_mem _ _

theorem gain_of_pos (l : Nat) (h : 1 ≤ l) : gain l = decadeFactor (l % 40) * (10 ^ (l / 40) / 10 ^ 5) := by
  unfold gain
  rw [if_neg (by omega)]
  push_cast
  ring

/-- The cosine of a place lies within one unit above its floor. -/
theorem panCosine_mem (k : Nat) (hk : k ≤ 64) : ((cosineFloors.getD k 0 : Nat) : Rat) / 2 ^ 48 ≤ panCosine k ∧
    panCosine k ≤ (((cosineFloors.getD k 0 : Nat) : Rat) + 1) / 2 ^ 48 := by
  unfold panCosine
  split
  · next h => subst h; norm_num [cosineFloors]
  · split
    · have : k = 64 := by omega
      subst this
      norm_num [cosineFloors]
    · exact boundedFactor_mem _ _

/-- The floors square to nearly 1 with those of the rest of the quarter turn. -/
theorem cosineFloors_square : ∀ k ≤ 64,
    (2 : Int) ^ 96 - 2 ^ 50 ≤ ((cosineFloors.getD k 0 : Nat) : Int) ^ 2 + ((cosineFloors.getD (64 - k) 0 : Nat) : Int) ^ 2 ∧
    (((cosineFloors.getD k 0 : Nat) : Int) + 1) ^ 2 + (((cosineFloors.getD (64 - k) 0 : Nat) : Int) + 1) ^ 2 ≤
      2 ^ 96 + 2 ^ 50 := by
  decide +kernel

/-- The floors of a place and of its double keep the cosine's double angle. -/
theorem cosineFloors_double : ∀ k ≤ 32,
    - (2 : Int) ^ 51 ≤ 2 * ((cosineFloors.getD k 0 : Nat) : Int) ^ 2 - 2 ^ 96 -
      2 ^ 48 * (((cosineFloors.getD (2 * k) 0 : Nat) : Int) + 1) ∧
    2 * (((cosineFloors.getD k 0 : Nat) : Int) + 1) ^ 2 - 2 ^ 96 - 2 ^ 48 * ((cosineFloors.getD (2 * k) 0 : Nat) : Int) ≤
      2 ^ 51 := by
  decide +kernel

/-! ### The tone -/

/-- The sine of k times 7.5 degrees. -/
noncomputable def sineStep (k : ℝ) : ℝ := Real.sin (k * Real.pi / 24)

/-- A nonnegative number lies between the roots of bounds of its square. -/
theorem root_between {s lo hi : ℝ} (h : 0 ≤ s) (hhi : 0 ≤ hi) (l : lo ^ 2 ≤ s ^ 2) (u : s ^ 2 ≤ hi ^ 2) : lo ≤ s ∧ s ≤ hi :=
  ⟨le_of_not_gt (fun g => by nlinarith), le_of_not_gt (fun g => by nlinarith)⟩

theorem sineStep_nonneg {k : ℝ} (h0 : 0 ≤ k) (h1 : k ≤ 12) : 0 ≤ sineStep k := by
  have := Real.pi_pos
  exact Real.sin_nonneg_of_nonneg_of_le_pi (by positivity) (by nlinarith)

theorem sineStep_neg (k : ℝ) : sineStep (-k) = - sineStep k := by
  rw [sineStep, neg_mul, neg_div, Real.sin_neg, sineStep]

/-- The half angle: the square of the sine of an angle from the sine of what its double lacks of a quarter turn. -/
theorem sineStep_sq (k : ℝ) : sineStep k ^ 2 = (1 - sineStep (12 - 2 * k)) / 2 := by
  rw [sineStep, sineStep, Real.sin_sq_eq_half_sub,
    show (12 - 2 * k) * Real.pi / 24 = Real.pi / 2 - 2 * (k * Real.pi / 24) by ring, Real.sin_pi_div_two_sub]
  ring

/-- Bounds of a sine from those of the sine of what its double lacks of a quarter turn. -/
theorem sin_step_below {k j a b lo hi : ℝ} (m : a ≤ sineStep j ∧ sineStep j ≤ b) (h : j = 12 - 2 * k)
    (p : 0 ≤ k ∧ k ≤ 12) (hhi : 0 ≤ hi) (l : lo ^ 2 ≤ (1 - b) / 2) (u : (1 - a) / 2 ≤ hi ^ 2) :
    lo ≤ sineStep k ∧ sineStep k ≤ hi := by
  have q := sineStep_sq k
  rw [← h] at q
  exact root_between (sineStep_nonneg p.1 p.2) hhi (by linarith [m.2]) (by linarith [m.1])

/-- The same where the double goes beyond the quarter turn. -/
theorem sin_step_above {k j a b lo hi : ℝ} (m : a ≤ sineStep j ∧ sineStep j ≤ b) (h : j = 2 * k - 12)
    (p : 0 ≤ k ∧ k ≤ 12) (hhi : 0 ≤ hi) (l : lo ^ 2 ≤ (1 + a) / 2) (u : (1 + b) / 2 ≤ hi ^ 2) :
    lo ≤ sineStep k ∧ sineStep k ≤ hi :=
  sin_step_below (j := -j) (a := -b) (b := -a) (by rw [sineStep_neg]; exact ⟨neg_le_neg m.2, neg_le_neg m.1⟩)
    (by linarith) p hhi (by linarith) (by linarith)

/-- The floors are those of the sines. -/
theorem sineFloors_mem (k : Nat) (hk : k ≤ 12) : ((sineFloors.getD k 0 : Nat) : ℝ) / 2 ^ 48 ≤ sineStep k ∧
    sineStep k ≤ (((sineFloors.getD k 0 : Nat) : ℝ) + 1) / 2 ^ 48 := by
  have b0 : (0 : ℝ) ≤ sineStep 0 ∧ sineStep 0 ≤ 0 := by simp [sineStep]
  have b12 : (1 : ℝ) ≤ sineStep 12 ∧ sineStep 12 ≤ 1 := by
    rw [sineStep, show (12 : ℝ) * Real.pi / 24 = Real.pi / 2 by ring, Real.sin_pi_div_two]; simp
  have b4 : (1 / 2 : ℝ) ≤ sineStep 4 ∧ sineStep 4 ≤ 1 / 2 := by
    rw [sineStep, show (4 : ℝ) * Real.pi / 24 = Real.pi / 6 by ring, Real.sin_pi_div_six]; simp
  have b8 := sin_step_above (k := 8) (lo := 1046960471077192669696698 / 2 ^ 80) (hi := 1046960471077192669696699 / 2 ^ 80) b4
    (by norm_num) (by norm_num) (by norm_num) (by norm_num) (by norm_num)
  have b6 := sin_step_below (k := 6) (lo := 854839645001009215068541 / 2 ^ 80) (hi := 854839645001009215068542 / 2 ^ 80) b0
    (by norm_num) (by norm_num) (by norm_num) (by norm_num) (by norm_num)
  have b2 := sin_step_below (k := 2) (lo := 312893026232440587676745 / 2 ^ 80) (hi := 312893026232440587676752 / 2 ^ 80) b8
    (by norm_num) (by norm_num) (by norm_num) (by norm_num) (by norm_num)
  have b10 := sin_step_above (k := 10) (lo := 1167732671233449802745290 / 2 ^ 80) (hi := 1167732671233449802745292 / 2 ^ 80) b8
    (by norm_num) (by norm_num) (by norm_num) (by norm_num) (by norm_num)
  have b3 := sin_step_below (k := 3) (lo := 462635882124905661503631 / 2 ^ 80) (hi := 462635882124905661503635 / 2 ^ 80) b6
    (by norm_num) (by norm_num) (by norm_num) (by norm_num) (by norm_num)
  have b9 := sin_step_above (k := 9) (lo := 1116901821066387782991456 / 2 ^ 80) (hi := 1116901821066387782991458 / 2 ^ 80) b6
    (by norm_num) (by norm_num) (by norm_num) (by norm_num) (by norm_num)
  have b1 := sin_step_below (k := 1) (lo := 157796483910802504336655 / 2 ^ 80) (hi := 157796483910802504336667 / 2 ^ 80) b10
    (by norm_num) (by norm_num) (by norm_num) (by norm_num) (by norm_num)
  have b11 := sin_step_above (k := 11) (lo := 1198583291639046153356524 / 2 ^ 80) (hi := 1198583291639046153356526 / 2 ^ 80) b10
    (by norm_num) (by norm_num) (by norm_num) (by norm_num) (by norm_num)
  have b5 := sin_step_below (k := 5) (lo := 735947409514140491852889 / 2 ^ 80) (hi := 735947409514140491852895 / 2 ^ 80) b2
    (by norm_num) (by norm_num) (by norm_num) (by norm_num) (by norm_num)
  have b7 := sin_step_above (k := 7) (lo := 959105337155585278654794 / 2 ^ 80) (hi := 959105337155585278654798 / 2 ^ 80) b2
    (by norm_num) (by norm_num) (by norm_num) (by norm_num) (by norm_num)
  interval_cases k
  all_goals
    simp only [sineFloors, List.cons_append, List.nil_append, List.getD_cons_succ, List.getD_cons_zero]
    norm_num at *
    constructor <;> linarith

theorem quarterSine_near (k : Nat) (hk : k ≤ 12) : |(quarterSine k : ℝ) - sineStep k| * 2 ^ 48 ≤ 1 := by
  obtain ⟨h1, h2⟩ := sineFloors_mem k hk
  suffices h : ((sineFloors.getD k 0 : Nat) : Rat) / 2 ^ 48 ≤ quarterSine k ∧
      quarterSine k ≤ (((sineFloors.getD k 0 : Nat) : Rat) + 1) / 2 ^ 48 by
    have h3 : (((((sineFloors.getD k 0 : Nat) : Rat) / 2 ^ 48 : Rat)) : ℝ) ≤ quarterSine k := by exact_mod_cast h.1
    have h4 : (quarterSine k : ℝ) ≤ (((((sineFloors.getD k 0 : Nat) : Rat) + 1) / 2 ^ 48 : Rat) : ℝ) := by exact_mod_cast h.2
    push_cast at h3 h4
    have : |(quarterSine k : ℝ) - sineStep k| ≤ 1 / 2 ^ 48 := by rw [abs_le]; constructor <;> linarith
    linarith
  unfold quarterSine
  split
  · next h => subst h; norm_num [sineFloors]
  · split
    · next h => subst h; norm_num [sineFloors]
    · split
      · have : k = 12 := by omega
        subst this; norm_num [sineFloors]
      · exact boundedFactor_mem _ _

/-- The tone's cycle is the sine of 48 samples to the turn (R176), inside the bound of log 18. -/
theorem cycleSine_near (n : Nat) : |(cycleSine (n % 48) : ℝ) - Real.sin (2 * Real.pi * n / 48)| * 2 ^ 48 ≤ 1 := by
  have hn : Real.sin (2 * Real.pi * n / 48) = sineStep ((n % 48 : Nat) : ℝ) := by
    have e : (n : ℝ) = (n % 48 : Nat) + 48 * (n / 48 : Nat) := by exact_mod_cast (Nat.mod_add_div n 48).symm
    rw [e, show 2 * Real.pi * (((n % 48 : Nat) : ℝ) + 48 * ((n / 48 : Nat) : ℝ)) / 48 =
      ((n % 48 : Nat) : ℝ) * Real.pi / 24 + (n / 48 : Nat) * (2 * Real.pi) by ring, Real.sin_add_nat_mul_two_pi, sineStep]
  rw [hn]
  have hk : n % 48 < 48 := Nat.mod_lt _ (by omega)
  generalize n % 48 = k at hk
  unfold cycleSine
  split
  · exact quarterSine_near k ‹_›
  · split
    · have := quarterSine_near (24 - k) (by omega)
      rwa [sineStep, Nat.cast_sub (by omega), show (((24 : Nat) : ℝ) - k) * Real.pi / 24 = Real.pi - k * Real.pi / 24 by
        push_cast; ring, Real.sin_pi_sub] at this
    · split
      · have := quarterSine_near (k - 24) (by omega)
        rw [sineStep, Nat.cast_sub (by omega), show ((k : ℝ) - (24 : Nat)) * Real.pi / 24 = k * Real.pi / 24 - Real.pi by
          push_cast; ring, Real.sin_sub_pi] at this
        rw [Rat.cast_neg, ← abs_neg]
        convert this using 3
        rw [sineStep]; ring
      · have := quarterSine_near (48 - k) (by omega)
        rw [sineStep, Nat.cast_sub (by omega), show (((48 : Nat) : ℝ) - k) * Real.pi / 24 = 2 * Real.pi - k * Real.pi / 24 by
          push_cast; ring, Real.sin_two_pi_sub] at this
        rw [Rat.cast_neg, ← abs_neg]
        convert this using 3
        rw [sineStep]; ring

theorem gain_160 : gain 160 = 1 / 10 := by norm_num [gain, decadeFactor]

@[simp] theorem toneBlock_length (place : Nat) : (toneBlock place).length = 32 := by simp [toneBlock]

/-- A sample of the tone is a tenth of the cycle's at its place, the same in both channels. -/
theorem toneBlock_getD (place i : Nat) (h : i < 32) : (toneBlock place).getD i (0, 0) =
    (1 / 10 * cycleSine ((place + i) % 48), 1 / 10 * cycleSine ((place + i) % 48)) := by
  simp [toneBlock, gain_160, List.getD_eq_getElem?_getD, List.getElem?_map, List.getElem?_range h]

/-! ### Sums and patch -/

theorem addContribution_getD (l r : Rat) : ∀ (block : StereoBlock) (xs : List Rat) (i : Nat), i < block.length →
    (addContribution l r block xs).getD i (0, 0) =
      ((block.getD i (0, 0)).1 + xs.getD i 0 * l, (block.getD i (0, 0)).2 + xs.getD i 0 * r) := by
  intro block
  induction block with
  | nil => intro xs i h; simp at h
  | cons p block ih =>
    intro xs i h
    cases xs with
    | nil => simp [addContribution]
    | cons x xs =>
      cases i with
      | zero => simp [addContribution]
      | succ i =>
        have := ih xs i (by simpa using h)
        simpa [addContribution] using this

@[simp] theorem addContribution_length (l r : Rat) : ∀ (block : StereoBlock) (xs : List Rat),
    (addContribution l r block xs).length = block.length := by
  intro block
  induction block with
  | nil => intro xs; rfl
  | cons p block ih =>
    intro xs
    cases xs with
    | nil => rfl
    | cons x xs => simp [addContribution, ih]

/-- A contribution of a silent source adds nothing. -/
@[simp] theorem addContribution_nil (l r : Rat) (block : StereoBlock) : addContribution l r block [] = block := by
  cases block <;> rfl

/-- A run replaces its entries and no other (R173). -/
theorem tableGet_writePatchRun : ∀ (channels : List (Option Channel)) (first : Nat) (patch : Vector (Option Channel) 48)
    (src : Fin 48), tableGet (writePatchRun first channels patch) src =
      if first ≤ src.val ∧ src.val < first + channels.length then channels.getD (src.val - first) none
      else tableGet patch src := by
  intro channels
  induction channels with
  | nil =>
    intro first patch src
    rw [if_neg (by simp)]; rfl
  | cons c rest ih =>
    intro first patch src
    rw [writePatchRun, ih]
    simp only [List.length_cons]
    by_cases h : first = src.val
    · rw [if_neg (by omega), if_pos (by omega)]
      have h48 : first < 48 := by omega
      rw [dif_pos h48, tableGet_tableSet, if_pos (Fin.ext h)]
      simp [h]
    · by_cases h2 : first + 1 ≤ src.val ∧ src.val < first + 1 + rest.length
      · rw [if_pos h2, if_pos (by omega)]
        have : src.val - first = (src.val - (first + 1)) + 1 := by omega
        rw [this, List.getD_cons_succ]
      · rw [if_neg h2, if_neg (by omega)]
        split
        · rw [tableGet_tableSet, if_neg (fun e => h (congrArg Fin.val e))]
        · rfl

end Sys2Proof.Machine
end

