-- ==== Sys2Proof/Laws/Inner.lean ====
section
/-! SUPPORT. Operations of the matrix, the glide list and the Cue Engine read and write those, the grips and the event latch
alone: such an operation keeps every other field, and it commutes with every write of another field. -/

namespace Sys2Proof.Machine

/-- The inner fields (cells, glides, cue, grips, events) of one state in the outer fields of another. -/
def State.graft (o s : State) : State :=
  { o with cells := s.cells, glides := s.glides, cue := s.cue, grips := s.grips, evl := s.evl }

/-- An operation that reads and writes the inner fields alone, beside reading the run state. -/
def Inner (f : State → State) : Prop := ∀ o s : State, o.run = s.run → f (o.graft s) = o.graft (f s)

theorem State.graft_self (s : State) : s.graft s = s := rfl

namespace Inner
variable {f g : State → State}

/-- What an inner operation leaves is its inner result in the old outer fields. -/
theorem eq_graft (h : Inner f) (s : State) : f s = s.graft (f s) := h s s rfl

theorem frame (h : Inner f) (s : State) : OuterFrame s (f s) := by
  rw [h.eq_graft s]
  exact ⟨rfl, rfl, rfl, rfl, rfl, rfl, rfl, rfl, rfl, rfl, rfl, rfl⟩

theorem run (h : Inner f) (s : State) : (f s).run = s.run := (h.frame s).run

theorem id : Inner (fun s => s) := fun _ _ _ => rfl

theorem comp (h : Inner f) (k : Inner g) : Inner (fun s => g (f s)) := by
  intro o s e
  show g (f (o.graft s)) = _
  rw [h o s e, k o (f s) (e.trans (h.run s).symm)]

/-- A choice on the inner fields between two inner operations. -/
theorem ite {p : State → Prop} [DecidablePred p] (hp : ∀ o s : State, o.run = s.run → (p (o.graft s) ↔ p s)) (h : Inner f)
    (k : Inner g) : Inner (fun s => if p s then f s else g s) := by
  intro o s e
  show (if p (o.graft s) then f (o.graft s) else g (o.graft s)) = o.graft (if p s then f s else g s)
  rw [h o s e, k o s e]
  by_cases hs : p s
  · rw [if_pos ((hp o s e).2 hs), if_pos hs]
  · rw [if_neg (fun hq => hs ((hp o s e).1 hq)), if_neg hs]

/-- An operation that depends on something read from the inner fields. -/
theorem read {α : Type} (r : State → α) (hr : ∀ o s : State, r (o.graft s) = r s) {F : α → State → State}
    (h : ∀ a, Inner (F a)) : Inner (fun s => F (r s) s) := by
  intro o s e
  show F (r (o.graft s)) (o.graft s) = _
  rw [hr, h (r s) o s e]

theorem foldl {α : Type} {F : State → α → State} (h : ∀ a, Inner (fun s => F s a)) (l : List α) :
    Inner (fun s => l.foldl F s) := by
  induction l with
  | nil => exact Inner.id
  | cons a l ih => exact (h a).comp ih

/-! An inner operation commutes with every write of an outer field but the run state. -/

theorem setResetPin (h : Inner f) (s : State) (x : Bool) : f (s.setResetPin x) = (f s).setResetPin x := by
  conv_rhs => rw [h.eq_graft s]
  exact h (s.setResetPin x) s rfl

theorem setStations (h : Inner f) (s : State) (x : Vector Station 16) : f (s.setStations x) = (f s).setStations x := by
  conv_rhs => rw [h.eq_graft s]
  exact h (s.setStations x) s rfl

theorem setLockout (h : Inner f) (s : State) (x : Nat) : f (s.setLockout x) = (f s).setLockout x := by
  conv_rhs => rw [h.eq_graft s]
  exact h (s.setLockout x) s rfl

theorem setInHand (h : Inner f) (s : State) (x : Option Request) : f (s.setInHand x) = (f s).setInHand x := by
  conv_rhs => rw [h.eq_graft s]
  exact h (s.setInHand x) s rfl

theorem setLink (h : Inner f) (s : State) (x : LinkRecord) : f (s.setLink x) = (f s).setLink x := by
  conv_rhs => rw [h.eq_graft s]
  exact h (s.setLink x) s rfl

theorem setSlr (h : Inner f) (s : State) (x : ShowReceiver) : f (s.setSlr x) = (f s).setSlr x := by
  conv_rhs => rw [h.eq_graft s]
  exact h (s.setSlr x) s rfl

theorem setEli (h : Inner f) (s : State) (x : EngineerLink) : f (s.setEli x) = (f s).setEli x := by
  conv_rhs => rw [h.eq_graft s]
  exact h (s.setEli x) s rfl

theorem setSrc (h : Inner f) (s : State) (x : Sources) : f (s.setSrc x) = (f s).setSrc x := by
  conv_rhs => rw [h.eq_graft s]
  exact h (s.setSrc x) s rfl

theorem setOut (h : Inner f) (s : State) (x : Outputs) : f (s.setOut x) = (f s).setOut x := by
  conv_rhs => rw [h.eq_graft s]
  exact h (s.setOut x) s rfl

theorem setPending (h : Inner f) (s : State) (x : List Instr) : f (s.setPending x) = (f s).setPending x := by
  conv_rhs => rw [h.eq_graft s]
  exact h (s.setPending x) s rfl

end Inner

/-! ### The operations -/

theorem inner_setCells (F : State → Vector Cell 768) (h : ∀ o s : State, F (o.graft s) = F s) :
    Inner (fun s => s.setCells (F s)) := fun o s _ => by
  show (o.graft s).setCells (F (o.graft s)) = _
  rw [h]; rfl

theorem inner_setGlides (F : State → List GlideEntry) (h : ∀ o s : State, F (o.graft s) = F s) :
    Inner (fun s => s.setGlides (F s)) := fun o s _ => by
  show (o.graft s).setGlides (F (o.graft s)) = _
  rw [h]; rfl

theorem inner_setCue (F : State → CueEngine) (h : ∀ o s : State, F (o.graft s) = F s) :
    Inner (fun s => s.setCue (F s)) := fun o s _ => by
  show (o.graft s).setCue (F (o.graft s)) = _
  rw [h]; rfl

theorem inner_setGrips (F : State → Vector (Option Grip) 16) (h : ∀ o s : State, F (o.graft s) = F s) :
    Inner (fun s => s.setGrips (F s)) := fun o s _ => by
  show (o.graft s).setGrips (F (o.graft s)) = _
  rw [h]; rfl

theorem inner_report (e : Event) : Inner (fun s => s.report e) := by
  intro o s h
  have hr : (o.graft s).run = s.run := h
  simp only [State.report, hr]
  split <;> rfl

theorem inner_setHeard (c : CellId) (h : Nat) : Inner (fun s => s.setHeard c h) := fun _ _ _ => rfl

theorem inner_setGrip (n : StationId) (F : State → Option Grip) (h : ∀ o s : State, F (o.graft s) = F s) :
    Inner (fun s => s.setGrip n (F s)) :=
  inner_setGrips (fun s => tableSet s.grips n (F s)) (fun o s => by
    show tableSet (o.graft s).grips n (F (o.graft s)) = _
    rw [h]; rfl)

theorem inner_tagGained (c : CueId) : Inner (tagGained c) := by
  intro o s _
  have hr : (o.graft s).cue = s.cue := rfl
  simp only [tagGained, hr]
  split
  · rfl
  · split <;> rfl

theorem inner_tagLost (c : CueId) : Inner (tagLost c) := by
  intro o s _
  have hr : (o.graft s).cue = s.cue := rfl
  simp only [tagLost, hr]
  split
  · rfl
  · split <;> rfl

theorem inner_tagNotices (a b : Option CueId) : Inner (tagNotices a b) := by
  unfold tagNotices
  split
  · exact Inner.id
  · cases a <;> cases b
    · exact Inner.id
    · exact inner_tagGained _
    · exact inner_tagLost _
    · exact (inner_tagLost _).comp (inner_tagGained _)

theorem inner_handOff (c : CellId) (goal length : Nat) (tag : Option CueId) : Inner (handOff c goal length tag) := by
  have jump : Inner (glideJump c goal) :=
    (Inner.read (fun s : State => (s.glideOf c).bind (·.tag)) (fun _ _ => rfl)
      (F := fun t s => (((tagNotices t none s).setGlides
        ((tagNotices t none s).glides.filter (fun e => decide (e.cell ≠ c)))).setHeard c goal))
      (fun t => ((inner_tagNotices t none).comp (inner_setGlides (fun s => s.glides.filter (fun e => decide (e.cell ≠ c)))
        (fun _ _ => rfl))).comp (inner_setHeard c goal)))
  have retarget : ∀ e, Inner (glideRetarget e goal length tag) := fun e =>
    (inner_tagNotices e.tag tag).comp (inner_setGlides (fun s => s.glides.map (fun x : GlideEntry =>
      if x.cell = e.cell then { x with goal := goal, remaining := length, tag := tag } else x)) (fun _ _ => rfl))
  have append : Inner (glideAppend c goal length tag) :=
    (inner_tagNotices none tag).comp (inner_setGlides (fun s =>
      s.glides ++ [({ cell := c, goal := goal, remaining := length, tag := tag } : GlideEntry)]) (fun _ _ => rfl))
  have overflow : Inner (glideOverflow c goal) := (inner_setHeard c goal).comp (inner_report _)
  intro o s h
  have h1 : (o.graft s).glideOf c = s.glideOf c := rfl
  have h2 : (o.graft s).glides = s.glides := rfl
  simp only [handOff, h1, h2]
  split
  · exact jump o s h
  · split
    · exact retarget _ o s h
    · split
      · exact append o s h
      · exact overflow o s h

theorem inner_takeChange (ch : Change) : Inner (takeChange ch) := by
  have apply : ∀ x y : Cell, Inner (applyChange ch x y) := by
    intro x y
    have base : Inner (fun s => markStale ch.cell ch.origin (s.setCell ch.cell { y with writer := some ch.origin })) :=
      fun _ _ _ => rfl
    exact base.comp (Inner.ite (p := fun s => goalOf x ≠ goalOf y ∨ s.gliding ch.cell = true) (fun _ _ _ => Iff.rfl)
      (inner_handOff _ _ _ _) Inner.id)
  intro o s h
  have h1 : (o.graft s).cell ch.cell = s.cell ch.cell := rfl
  simp only [takeChange, h1]
  split
  · rfl
  · exact apply _ _ o s h

theorem inner_takeChanges (chs : List Change) : Inner (takeChanges chs) := Inner.foldl inner_takeChange chs

theorem inner_stripTags : Inner stripTags := inner_setGlides _ (fun _ _ => rfl)

theorem inner_supersede : Inner supersede :=
  (Inner.ite (p := fun s => s.cue.running.isSome = true) (fun _ _ _ => Iff.rfl) inner_stripTags Inner.id).comp
    (inner_setCue (fun s => { s.cue with running := none, timer := 0 }) (fun _ _ => rfl))

theorem inner_makeRecord (c : CueId) (r : CueRecord) : Inner (makeRecord c r) := inner_setCue _ (fun _ _ => rfl)

theorem inner_finishFire (c : CueId) (r : CueRecord) : Inner (finishFire c r) :=
  (inner_setCue (fun s => { s.cue with
    flags := maskedFlags r s.cue.flags, nextPointer := pointerAfter c r s, phase := .fading }) (fun _ _ => rfl)).comp
    (inner_report _)

theorem inner_fireCue (c : CueId) (r : CueRecord) : Inner (fireCue c r) :=
  ((inner_supersede.comp (inner_makeRecord c r)).comp (inner_takeChanges _)).comp (inner_finishFire c r)

theorem chain_graft (k : Nat) (c : CueId) (o s : State) : chain k c (o.graft s) = chain k c s := by
  induction k generalizing c with
  | zero => rfl
  | succ k ih =>
    have h1 : (o.graft s).slot c = s.slot c := rfl
    have h2 : (o.graft s).cue = s.cue := rfl
    simp only [chain, h1, h2, ih]

theorem inner_fire (c : CueId) : Inner (fire c) :=
  Inner.read (fun s => chain chainLimit c s) (fun o s => chain_graft _ _ o s)
    (F := fun x s => match x with
      | .fires f r => fireCue f r s
      | .skips k => skipCue k s
      | .refuses => refuseFire s)
    (fun x => match x with
      | .fires f r => inner_fireCue f r
      | .skips _ => (inner_setCue _ (fun _ _ => rfl)).comp (inner_report _)
      | .refuses => inner_report _)

theorem inner_fireNext : Inner fireNext :=
  Inner.read (fun s => s.cue.nextPointer) (fun _ _ => rfl)
    (F := fun x s => match x with
      | none => refuseFire s
      | some c => fire c s)
    (fun x => match x with
      | none => inner_report _
      | some c => inner_fire c)

theorem inner_followOnHandling (f : Option FollowOn) : Inner (followOnHandling f) := by
  cases f with
  | none => exact inner_setCue _ (fun _ _ => rfl)
  | some f =>
    have rest : Inner (fun s => if f.wait = 0 then fireNext s else s.setCue { s.cue with phase := .followWait, timer := f.wait }) := by
      by_cases h : f.wait = 0
      · simp only [h, if_true]; exact inner_fireNext
      · simp only [h, if_false]
        exact inner_setCue (fun s => { s.cue with phase := .followWait, timer := f.wait }) (fun _ _ => rfl)
    exact (inner_setCue (fun s => { s.cue with nextPointer := some f.cue, phase := .idle }) (fun _ _ => rfl)).comp
      (Inner.ite (p := fun s => s.cue.hold = true) (fun _ _ _ => Iff.rfl) Inner.id rest)

theorem inner_completionCheck : Inner completionCheck := by
  have done : ∀ r : RunningCue, Inner (fun s =>
      followOnHandling r.followOn ((s.report .cueDone).setCue { (s.report .cueDone).cue with running := none })) :=
    fun r => ((inner_report .cueDone).comp
      (inner_setCue (fun s => { s.cue with running := none }) (fun _ _ => rfl))).comp (inner_followOnHandling r.followOn)
  intro o s h
  have h1 : (o.graft s).cue = s.cue := rfl
  simp only [completionCheck, h1]
  split
  · split
    · exact done _ o s h
    · rfl
  · rfl

theorem inner_expireFollowWait : Inner expireFollowWait :=
  (inner_setCue (fun s => { s.cue with timer := 0, phase := .idle }) (fun _ _ => rfl)).comp inner_fireNext

theorem inner_expireFollowTimer : Inner expireFollowTimer :=
  Inner.ite (p := fun s => s.cue.phase = .followWait ∧ s.cue.timer ≤ 1) (fun _ _ _ => Iff.rfl) inner_expireFollowWait Inner.id

theorem inner_cueBlockEnd : Inner cueBlockEnd := by
  intro o s h
  have h1 : (o.graft s).cue = s.cue := rfl
  simp only [cueBlockEnd, h1]
  split
  · rfl
  · exact inner_completionCheck o s h
  · split
    · exact inner_expireFollowWait o s h
    · rfl

theorem inner_glideFinish (e : GlideEntry) : Inner (glideFinish e) :=
  (inner_setHeard e.cell e.goal).comp (inner_tagNotices _ _)

theorem advanceEntries_graft (l : List GlideEntry) (o s : State) (h : o.run = s.run) :
    (advanceEntries l (o.graft s)).1 = (advanceEntries l s).1 ∧
      (advanceEntries l (o.graft s)).2 = o.graft (advanceEntries l s).2 := by
  induction l generalizing s with
  | nil => exact ⟨rfl, rfl⟩
  | cons e rest ih =>
    unfold advanceEntries
    split
    · have k := inner_glideFinish e
      rw [k o s h]
      exact ih _ (h.trans (k.run s).symm)
    · have k := ih (s.setHeard e.cell (glideStep (s.cell e.cell).heard e.goal e.remaining)) h
      have e1 : (o.graft s).setHeard e.cell (glideStep ((o.graft s).cell e.cell).heard e.goal e.remaining) =
          o.graft (s.setHeard e.cell (glideStep (s.cell e.cell).heard e.goal e.remaining)) := rfl
      simp only [e1]
      exact ⟨by rw [k.1], k.2⟩

theorem inner_glideAdvance : Inner glideAdvance := by
  intro o s h
  have k := advanceEntries_graft s.glides o s h
  have e : (o.graft s).glides = s.glides := rfl
  simp only [glideAdvance, e, k.1, k.2]
  rfl

theorem inner_glideComplete (c : CellId) : Inner (glideComplete c) := by
  intro o s h
  have h1 : (o.graft s).glideOf c = s.glideOf c := rfl
  simp only [glideComplete, h1]
  split
  · rfl
  · next e _ =>
    split
    · exact (inner_glideFinish e).comp (inner_setGlides (fun s => s.glides.filter (fun x => decide (x.cell ≠ c)))
        (fun _ _ => rfl)) o s h
    · rfl

theorem inner_cueStop : Inner cueStop := by
  intro o s h
  have h1 : (o.graft s).cue = s.cue := rfl
  simp only [cueStop, h1]
  split <;> rfl

theorem inner_cueHoldOn : Inner cueHoldOn := by
  intro o s h
  have h1 : (o.graft s).cue = s.cue := rfl
  simp only [cueHoldOn, h1]
  split <;> rfl

theorem inner_cueGoto (n : Nat) : Inner (cueGoto n) := by
  by_cases h : n < 96
  · have : cueGoto n = fire ⟨n, h⟩ := by funext s; simp [cueGoto, h]
    rw [this]; exact inner_fire _
  · have : cueGoto n = refuseFire := by funext s; simp [cueGoto, h]
    rw [this]; exact inner_report _

end Sys2Proof.Machine
end

