-- ==== Sys2Proof/Laws/Band.lean ====
section
/-! SUPPORT. The words of stations as they are built and read, and what the reception of a request does. -/

namespace Sys2Proof.Machine

/-! ### Words -/

theorem checkGood_stationWord (tag : Nat) (n : StationId) (c1 c2 c3 : Byte) : checkGood (stationWord tag n c1 c2 c3) = true := by
  simp [checkGood, stationWord]

theorem checkGood_request1Word (n : StationId) (k : Byte) (op : Word16) : checkGood (request1Word n k op) = true :=
  checkGood_stationWord _ _ _ _ _

theorem checkGood_request2Word (n : StationId) (mask : Word24) : checkGood (request2Word n mask) = true :=
  checkGood_stationWord _ _ _ _ _

theorem checkGood_plainWord (tag : Nat) (n : StationId) (c : Word24) : checkGood (plainWord tag n c) = true :=
  checkGood_stationWord _ _ _ _ _

theorem wordHeader_low : ∀ (tag : Fin 16) (n : StationId),
    Fin.ofNat 16 ((wordHeader tag.val n).extractLsb' 0 4).toNat = n := by decide

theorem wordHeader_high : ∀ (tag : Fin 16) (n : StationId),
    ((wordHeader tag.val n).extractLsb' 4 4).toNat = tag.val := by decide

theorem wordStation_request1Word (n : StationId) (k : Byte) (op : Word16) : wordStation (request1Word n k op) = n :=
  wordHeader_low 4 n

theorem wordStation_request2Word (n : StationId) (mask : Word24) : wordStation (request2Word n mask) = n :=
  wordHeader_low 5 n

theorem wordStation_stop (n : StationId) (c : Word24) : wordStation (plainWord 9 n c) = n := wordHeader_low 9 n

theorem wordStation_echo (n : StationId) (c : Word24) : wordStation (plainWord 11 n c) = n := wordHeader_low 11 n

theorem wordTag_request1Word (n : StationId) (k : Byte) (op : Word16) : wordTag (request1Word n k op) = .request1 := by
  have h : ((wordByte (request1Word n k op) 0).extractLsb' 4 4).toNat = 4 := wordHeader_high 4 n
  simp only [wordTag, h]

theorem wordTag_request2Word (n : StationId) (mask : Word24) : wordTag (request2Word n mask) = .request2 := by
  have h : ((wordByte (request2Word n mask) 0).extractLsb' 4 4).toNat = 5 := wordHeader_high 5 n
  simp only [wordTag, h]

theorem wordTag_stop (n : StationId) (c : Word24) : wordTag (plainWord 9 n c) = .stop := by
  have h : ((wordByte (plainWord 9 n c) 0).extractLsb' 4 4).toNat = 9 := wordHeader_high 9 n
  simp only [wordTag, h]

theorem wordTag_echo (n : StationId) (c : Word24) : wordTag (plainWord 11 n c) = .echo := by
  have h : ((wordByte (plainWord 11 n c) 0).extractLsb' 4 4).toNat = 11 := wordHeader_high 11 n
  simp only [wordTag, h]

theorem wordByte_request1Word (n : StationId) (k : Byte) (op : Word16) : wordByte (request1Word n k op) 1 = k := rfl

theorem driven_request1Word (n : StationId) (k : Byte) (op : Word16) : (request1Word n k op).driven = false := rfl

theorem driven_request2Word (n : StationId) (mask : Word24) : (request2Word n mask).driven = false := rfl

theorem wordOperand_request1Word (n : StationId) (k : Byte) (op : Word16) : wordOperand (request1Word n k op) = op := by
  show hiByte op ++ loByte op = op
  apply BitVec.eq_of_getLsbD_eq
  intro i hi
  simp only [hiByte, loByte, BitVec.getLsbD_append, BitVec.getLsbD_extractLsb']
  split
  · next h => simp [h]
  · next h =>
    have h1 : i - 8 < 8 := by omega
    have h2 : 8 + (i - 8) = i := by omega
    simp [h1, h2]

theorem wordMask_request2Word (n : StationId) (mask : Word24) : wordMask (request2Word n mask) = mask := by
  show (mask.extractLsb' 16 8) ++ (mask.extractLsb' 8 8) ++ (mask.extractLsb' 0 8) = mask
  apply BitVec.eq_of_getLsbD_eq
  intro i hi
  simp only [BitVec.getLsbD_append, BitVec.getLsbD_extractLsb']
  split
  · next h => simp [h]
  · next h =>
    split
    · next h' =>
      have h2 : 8 + (i - 8) = i := by omega
      simp [h', h2]
    · next h' =>
      have h1 : i - 8 - 8 < 8 := by omega
      have h2 : 16 + (i - 8 - 8) = i := by omega
      simp [h1, h2]

/-! ### The execution of a request -/

/-- The execution neither reads nor writes the link record and the request in hand. -/
theorem executeRequest_outer (r : Request) (l : LinkRecord) (x : Option Request) (s : State) :
    executeRequest r ((s.setLink l).setInHand x) =
      { state := ((executeRequest r s).state.setLink l).setInHand x, reply := (executeRequest r s).reply } := by
  have tc : ∀ ch, takeChange ch ((s.setLink l).setInHand x) = ((takeChange ch s).setLink l).setInHand x :=
    fun ch => ((inner_takeChange ch).setInHand (s.setLink l) x).trans (congrArg (·.setInHand x) ((inner_takeChange ch).setLink s l))
  have tcs : ∀ chs, takeChanges chs ((s.setLink l).setInHand x) = ((takeChanges chs s).setLink l).setInHand x :=
    fun ch => ((inner_takeChanges ch).setInHand (s.setLink l) x).trans (congrArg (·.setInHand x) ((inner_takeChanges ch).setLink s l))
  have rp : ∀ e, ((s.setLink l).setInHand x).report e = ((s.report e).setLink l).setInHand x := fun e =>
    ((inner_report e).setInHand (s.setLink l) x).trans (congrArg (·.setInHand x) ((inner_report e).setLink s l))
  have lock : lockedOut r.station ((s.setLink l).setInHand x) = lockedOut r.station s := rfl
  have through : ∀ g k, throughGrip r.station g k ((s.setLink l).setInHand x) =
      { state := ((throughGrip r.station g k s).state.setLink l).setInHand x, reply := (throughGrip r.station g k s).reply } := by
    intro g k
    simp only [throughGrip, tc, changeFlags]
    rfl
  have mask : ∀ k, requestMask r.station k r.mask ((s.setLink l).setInHand x) =
      { state := ((requestMask r.station k r.mask s).state.setLink l).setInHand x, reply := (requestMask r.station k r.mask s).reply } := by
    intro k
    simp only [requestMask, lock, answeredLocked, rp, tcs]
    split
    · rfl
    · have e1 : ((s.setLink l).setInHand x).station r.station = s.station r.station := rfl
      have e2 : ((s.setLink l).setInHand x).grip r.station = s.grip r.station := rfl
      simp only [e1, e2]
      split <;> rfl
  have e1 : ((s.setLink l).setInHand x).station r.station = s.station r.station := rfl
  have e2 : ((s.setLink l).setInHand x).grip r.station = s.grip r.station := rfl
  unfold executeRequest
  rw [e1]
  split
  · rfl
  · cases r.kind
    case hello =>
      simp only [requestHello, attachStation]
      have hr := fun t : State => ((inner_report .stationAttached).setInHand (t.setLink l) x).trans
        (congrArg (·.setInHand x) ((inner_report .stationAttached).setLink t l))
      simp only [e1]
      exact congrArg (fun t => Executed.mk t _)
        (hr (dropGrip r.station (s.setStation r.station { s.station r.station with state := .attached })))
    case ping => rfl
    case openGrip =>
      simp only [requestOpen, openAt, e1]
      split
      · rfl
      · split <;> rfl
    case nextGrip =>
      simp only [requestNext, openAt, e1, e2]
      split
      · rfl
      · split <;> rfl
    case setLevel =>
      simp only [requestSet, e2, lock, answeredLocked, rp, through]
      split
      · rfl
      · repeat' split
        all_goals rfl
    case nudge =>
      simp only [requestNudge, e2, lock, answeredLocked, rp, through]
      split
      · rfl
      · repeat' split
        all_goals rfl
    case pan =>
      simp only [requestPan, e2, lock, answeredLocked, rp, through]
      split
      · rfl
      · repeat' split
        all_goals rfl
    case muteSet => exact mask _
    case muteClear => exact mask _
    case closeGrip =>
      simp only [requestClose, e2]
      split <;> rfl
    case recallMap => rfl
    case unnamed => rfl

theorem executeRequest_setInHand (r : Request) (x : Option Request) (s : State) :
    executeRequest r (s.setInHand x) =
      { state := ((executeRequest r s).state.setLink s.link).setInHand x, reply := (executeRequest r s).reply } :=
  executeRequest_outer r s.link x s

/-- The execution leaves the link record as it was. -/
theorem executeRequest_link (r : Request) (s : State) : (executeRequest r s).state.link = s.link := by
  conv_lhs => rw [show s = (s.setLink s.link).setInHand s.inHand from rfl, executeRequest_outer]
  rfl

/-- A station that is not ATTACHED is answered NOT_ATTACHED to everything but HELLO (R126). -/
theorem executeRequest_notAttached (r : Request) (s : State) (h : (s.station r.station).state ≠ .attached)
    (hk : r.kind ≠ .hello) : executeRequest r s = answered .notAttached s := by
  simp only [executeRequest, ne_eq, h, hk, not_false_eq_true, and_self, if_true]

/-- What an ATTACHED station's request executes, by its kind (R126). -/
theorem executeRequest_attached (r : Request) (s : State) (h : (s.station r.station).state = .attached) :
    executeRequest r s =
      match r.kind with
      | .hello => requestHello r.station s
      | .ping => answered .ok s
      | .openGrip => requestOpen r.station r.operand.toNat s
      | .nextGrip => requestNext r.station s
      | .setLevel => requestSet r.station r.operand.toNat s
      | .nudge => requestNudge r.station r.operand.toInt s
      | .pan => requestPan r.station r.operand.toInt s
      | .muteSet => requestMask r.station .mute r.mask s
      | .muteClear => requestMask r.station .unmute r.mask s
      | .closeGrip => requestClose r.station s
      | .recallMap => requestRecall s
      | .unnamed => answered .badValue s := by
  unfold executeRequest
  exact (if_neg (fun k => k.1 h)).trans (by cases r.kind <;> rfl)

/-- What the hand-off leaves: the execution on the state without a request in hand, its reply in the turnaround, or the
transfer it starts (R122, R153). -/
theorem handToSru_eq (r : Request) (s : State) : handToSru r s =
    match (executeRequest r s).reply with
    | some reply => answerWith reply false ((executeRequest r s).state.setInHand none)
    | none => startTransfer r.station ((executeRequest r s).state.setInHand none) := by
  have e : (executeRequest r s).state.setLink s.link = (executeRequest r s).state := by
    rw [← executeRequest_link r s]; rfl
  unfold handToSru
  simp only [executeRequest_setInHand, e]
  cases (executeRequest r s).reply <;> rfl

/-- A request with a reply leaves that reply in the turnaround. -/
theorem handToSru_replied (r : Request) (s t : State) (p : Reply)
    (h : executeRequest r s = { state := t, reply := some p }) : handToSru r s = replied p t := by
  rw [handToSru_eq, h]; rfl

/-- A one-word request, its link waiting for it, is executed once the answer is reported (R82, R153). -/
theorem receiveWord_request {n : StationId} {s : State} (h : RequestReady n s) (k : Byte) (op : Word16)
    (hk : needsMask (requestKind k) = false) : receiveWord none (request1Word n k op) s =
      handToSru { station := n, kind := requestKind k, operand := op, mask := 0 }
        (s.setStation n { s.station n with missRun := 0 }) := by
  have e1 : (stationAnswered n s).link.arrival = none := h.arrival
  simp only [receiveWord, h.run, driven_request1Word, and_self, if_true, checkGood_request1Word, receiveGood, h.link, receiveFrom, h.selected,
    wordStation_request1Word, receiveSelected, h.arrival, wordTag_request1Word, wordByte_request1Word, hk,
    wordOperand_request1Word]
  rfl

/-- REQUEST-1 of a mask request is held (R153). -/
theorem receiveWord_request1 {n : StationId} {s : State} (h : RequestReady n s) (k : MaskKind) (op : Word16) :
    receiveWord none (request1Word n (maskKindCode k) op) s =
      (s.setStation n { s.station n with missRun := 0 }).setLink
        { s.link with arrival := some (request1Word n (maskKindCode k) op) } := by
  have hk : needsMask (requestKind (maskKindCode k)) = true := by cases k <;> rfl
  have e : receiveWord none (request1Word n (maskKindCode k) op) s =
      (stationAnswered n s).setLink { (stationAnswered n s).link with
        arrival := some (request1Word n (maskKindCode k) op) } := by
    simp only [receiveWord, h.run, driven_request1Word, and_self, if_true, checkGood_request1Word, receiveGood, h.link, receiveFrom, h.selected,
      wordStation_request1Word, receiveSelected, h.arrival, wordTag_request1Word, wordByte_request1Word, hk]
  rw [e]
  rfl

/-- Both words of a mask request: the answer is reported, and the request executed with its mask (R153). -/
theorem receiveMaskRequest_eq {n : StationId} {s : State} (h : RequestReady n s) (k : MaskKind) (mask : Word24) :
    receiveMaskRequest n k mask s =
      handToSru { station := n, kind := requestKind (maskKindCode k), operand := 0, mask := mask }
        ((s.setStation n { s.station n with missRun := 0 }).setLink
          { s.link with arrival := some (request1Word n (maskKindCode k) 0) }) := by
  have e : receiveMaskRequest n k mask s = receiveWord none (request2Word n mask)
      (receiveWord none (request1Word n (maskKindCode k) 0) s) := by
    simp only [receiveMaskRequest, h.arrival]
    rfl
  rw [e, receiveWord_request1 h]
  simp only [receiveWord, State.setLink_run, State.setLink_link, driven_request2Word, and_true, checkGood_request2Word, receiveGood, h.link,
    receiveFrom, h.selected, wordStation_request2Word, receiveSelected, wordTag_request2Word,
    wordByte_request1Word, wordOperand_request1Word, wordMask_request2Word, if_true]
  have : (s.setStation n { s.station n with missRun := 0 }).run = .run := h.run
  simp only [this, if_true]

/-- A mask request executed with its reply, from a link that waits for it. -/
theorem receiveMaskRequest_replied {n : StationId} {s : State} (h : RequestReady n s) (k : MaskKind) (mask : Word24)
    (t : State) (p : Reply) (e : executeRequest { station := n, kind := requestKind (maskKindCode k), operand := 0, mask := mask }
        (s.setStation n { s.station n with missRun := 0 }) = { state := t, reply := some p }) (ht : t.link = s.link)
    (hi : s.inHand = t.inHand) :
    receiveMaskRequest n k mask s = replied p t := by
  rw [receiveMaskRequest_eq h]
  rw [handToSru_replied _ _ (t.setLink { s.link with arrival := some (request1Word n (maskKindCode k) 0) }) p
    (by
      have k := executeRequest_outer { station := n, kind := requestKind (maskKindCode k), operand := 0, mask := mask }
        { s.link with arrival := some (request1Word n (maskKindCode k) 0) } s.inHand
        (s.setStation n { s.station n with missRun := 0 })
      rw [e] at k
      exact k.trans (by rw [hi]; rfl))]
  simp only [replied, answeringLink, ht]
  rfl

/-- A mask request does not read the operand of its REQUEST-1 (R137). -/
theorem executeRequest_mask_operand (n : StationId) (k : MaskKind) (op : Word16) (mask : Word24) (s : State) :
    executeRequest { station := n, kind := requestKind (maskKindCode k), operand := op, mask := mask } s =
      executeRequest { station := n, kind := requestKind (maskKindCode k), operand := 0, mask := mask } s := by
  cases k <;> rfl

/-- A mask request is executed with its reply, whether REQUEST-1 is held or comes with it. -/
theorem receiveMaskRequest_ready {n : StationId} {k : MaskKind} {s u t : State} {p : Reply} (h : MaskReady n k s u)
    (mask : Word24) (e : executeRequest { station := n, kind := requestKind (maskKindCode k), operand := 0, mask := mask } u =
      { state := t, reply := some p }) (ht : t.link = u.link) (hi : t.inHand = u.inHand) :
    receiveMaskRequest n k mask s = replied p t := by
  rcases h with ⟨h, rfl⟩ | ⟨hr, hl, hs, ⟨op, ha⟩, rfl⟩
  · exact receiveMaskRequest_replied h k mask t p e ht hi.symm
  · have held : receiveMaskRequest n k mask u = receiveWord none (request2Word n mask) u := by
      simp only [receiveMaskRequest, ha, hs, wordByte_request1Word, and_self, decide_true, if_true]
    rw [held]
    simp only [receiveWord, hr, driven_request2Word, and_self, if_true, checkGood_request2Word, receiveGood, hl, receiveFrom, hs,
      wordStation_request2Word, receiveSelected, ha, wordTag_request2Word, wordByte_request1Word, wordOperand_request1Word,
      wordMask_request2Word]
    exact handToSru_replied _ _ _ _ ((executeRequest_mask_operand n k op mask u).trans e)

end Sys2Proof.Machine
end

