-- ==== Sys2Proof/Laws/Console.lean ====
section
/-! SUPPORT. What the command stream does with a whole command: one lemma for a command that is taken, one for a command of the
other page, one for a load that takes the staging buffer, one for a load that does not. -/

namespace Sys2Proof.Machine

@[simp] theorem codeOf_codeByte (c : ConsoleCode) : codeOf (codeByte c) = some c := by
  cases c <;> decide

theorem codeByte_injective {a b : ConsoleCode} (h : codeByte a = codeByte b) : a = b := by
  have := congrArg codeOf h
  simpa using this

/-- A byte at a COMMAND position in RUN with no reply byte due is collected (R183). -/
theorem streamByte_run (b : Byte) (s : State) (hrun : s.run = .run) (hreply : s.eli.reply = []) :
    streamByte b s = collectByte b (s.setEli { s.eli with dataOut := 0 }) := by
  unfold streamByte
  rw [hreply]
  simp [hrun]

/-- A byte that neither starts a load in the staging buffer nor completes a command is held (R183). -/
theorem collectByte_held (c : ConsoleCode) (ops : List Byte) (b : Byte) (s : State)
    (hb : heldBytes s.eli ++ [b] = codeByte c :: ops)
    (hload : takesBuffer s.eli c = false) (hmore : operandsComplete (codeShape c) ops = false) :
    collectByte b s = s.setEli { s.eli with arrival := .bytes (codeByte c :: ops) } := by
  unfold collectByte
  simp only [hb, List.headD_cons, List.tail_cons, codeOf_codeByte, hload, hmore]
  simp

/-- A byte that completes a command which is not in the staging buffer has the command judged (R184). -/
theorem collectByte_whole (c : ConsoleCode) (ops : List Byte) (b : Byte) (s : State)
    (hb : heldBytes s.eli ++ [b] = codeByte c :: ops)
    (hload : takesBuffer s.eli c = false) (hwhole : operandsComplete (codeShape c) ops = true) :
    collectByte b s = judgeCommand c ops (s.setEli { s.eli with arrival := .none }) := by
  unfold collectByte
  simp only [hb, List.headD_cons, List.tail_cons, codeOf_codeByte, hload, hwhole]
  simp

/-- A byte of the load that the staging buffer takes or holds goes into the buffer (R190). -/
theorem collectByte_staged (c : ConsoleCode) (ops : List Byte) (b : Byte) (s : State)
    (hb : heldBytes s.eli ++ [b] = codeByte c :: ops) (hload : takesBuffer s.eli c = true) :
    collectByte b s = s.setEli { s.eli with
      staging := some (codeByte c :: ops)
      arrival := if operandsComplete (codeShape c) ops then .none else .staged } := by
  unfold collectByte
  simp only [hb, List.headD_cons, List.tail_cons, codeOf_codeByte, hload]
  simp

/-- No proper beginning of the operand bytes is complete: the command ends with their last byte and not before (R184). -/
def endsWith (c : ConsoleCode) (ops : List Byte) : Prop :=
  operandsComplete (codeShape c) ops = true ∧
    ∀ pre rest, ops = pre ++ rest → rest ≠ [] → operandsComplete (codeShape c) pre = false

/-- The bytes of a command that is not staged, but for the last, are held (R183). -/
theorem stream_prefix (c : ConsoleCode) (s : State) (hrun : s.run = .run) (hreply : s.eli.reply = [])
    (harr : s.eli.arrival = .none) (hload : takesBuffer s.eli c = false) :
    ∀ pre : List Byte,
      (∀ p r, pre = p ++ r → operandsComplete (codeShape c) p = false) →
      (codeByte c :: pre).foldl (fun s b => streamByte b s) s =
        s.setEli { s.eli with arrival := .bytes (codeByte c :: pre), dataOut := 0 } := by
  intro pre
  induction pre using List.reverseRecOn with
  | nil =>
    intro h
    have h0 := h [] [] rfl
    simp only [List.foldl_cons, List.foldl_nil]
    rw [streamByte_run _ _ hrun hreply, collectByte_held c [] _ _ (by simp [heldBytes, harr]) (by simpa [takesBuffer, harr] using hload) h0]
    rfl
  | append_singleton pre x ih =>
    intro h
    have hp := ih (fun p r e => h p (r ++ [x]) (by rw [e]; simp))
    rw [← List.cons_append, List.foldl_append, hp]
    simp only [List.foldl_cons, List.foldl_nil]
    rw [streamByte_run _ _ (by simpa using hrun) (by simpa using hreply),
      collectByte_held c (pre ++ [x]) _ _ (by simp [heldBytes]) (by simp [takesBuffer]) (h _ [] (by simp))]
    rfl

/-- A command that is not staged is judged when its last byte arrives (R183, R184). -/
theorem stream_command (c : ConsoleCode) (ops : List Byte) (s : State) (hrun : s.run = .run) (hreply : s.eli.reply = [])
    (harr : s.eli.arrival = .none) (hload : takesBuffer s.eli c = false) (hops : endsWith c ops) :
    (codeByte c :: ops).foldl (fun s b => streamByte b s) s =
      judgeCommand c ops (s.setEli { s.eli with dataOut := 0 }) := by
  have hset : s.setEli { s.eli with arrival := .none, dataOut := 0 } = s.setEli { s.eli with dataOut := 0 } := by
    rw [← harr]
  rcases List.eq_nil_or_concat ops with h | ⟨pre, x, h⟩
  · subst h
    simp only [List.foldl_cons, List.foldl_nil]
    rw [streamByte_run _ _ hrun hreply, collectByte_whole c [] _ _ (by simp [heldBytes, harr]) (by simpa [takesBuffer, harr] using hload) hops.1]
    exact congrArg (judgeCommand c []) hset
  · rw [List.concat_eq_append] at h
    subst h
    have hp := stream_prefix c s hrun hreply harr hload pre
      (fun p r e => hops.2 p (r ++ [x]) (by rw [e]; simp) (by simp))
    rw [← List.cons_append, List.foldl_append, hp]
    simp only [List.foldl_cons, List.foldl_nil]
    rw [streamByte_run _ _ (by simpa using hrun) (by simpa using hreply),
      collectByte_whole c (pre ++ [x]) _ _ (by simp [heldBytes]) (by simp [takesBuffer]) hops.1]
    exact congrArg (judgeCommand c (pre ++ [x])) hset

theorem frameAfter_command {f : FrameState} (h : commandFrame f) : frameAfter .command f = some (frameRest f) := by
  rcases h with h | h | h <;> subst h <;> rfl

/-- A command that is not one of the loads, sent whole on its page, is taken, and the frame goes on (R182 to R184). -/
theorem sendCommand_taken {p : Page} {s : State} (h : CommandReady p s) (c : ConsoleCode) (ops : List Byte)
    (hpage : codeOnPage c p = true) (hload : isLoad c = false) (hops : endsWith c ops) :
    sendCommand c ops s =
      (let t := takeCode c ops (s.setEli { s.eli with dataOut := 0 })
       t.setEli { t.eli with frame := frameRest s.eli.frame }) := by
  have hb : takesBuffer s.eli c = false := by simp [takesBuffer, h.arrival, hload]
  unfold sendCommand sendBytes
  rw [frameAfter_command h.frame]
  simp only
  rw [stream_command c ops s h.run h.reply h.arrival hb hops]
  have hj : judgeCommand c ops (s.setEli { s.eli with dataOut := 0 }) =
      takeCode c ops (s.setEli { s.eli with dataOut := 0 }) := by
    simp [judgeCommand, h.page, hpage, hload]
  rw [hj]

/-- A command of the other page is read through and refused (R184). -/
theorem sendCommand_otherPage {p : Page} {s : State} (h : CommandReady p s) (c : ConsoleCode) (ops : List Byte)
    (hpage : codeOnPage c p = false) (hops : endsWith c ops) : sendCommand c ops s = refusedAfter s := by
  have hb : takesBuffer s.eli c = false := by
    cases c <;> cases p <;> simp_all [takesBuffer, h.arrival, h.page, isLoad, codeOnPage]
  unfold sendCommand sendBytes
  rw [frameAfter_command h.frame]
  simp only
  rw [stream_command c ops s h.run h.reply h.arrival hb hops]
  have hj : judgeCommand c ops (s.setEli { s.eli with dataOut := 0 }) =
      refuseConsole (s.setEli { s.eli with dataOut := 0 }) := by
    simp [judgeCommand, h.page, hpage]
  rw [hj]
  rfl

/-! ### How many operand bytes a command has (R184) -/

theorem endsWith_fixed (c : ConsoleCode) (n : Nat) (hc : codeShape c = .fixed n) (ops : List Byte) (hn : ops.length = n) :
    endsWith c ops := by
  refine ⟨by simp [hc, operandsComplete, hn], ?_⟩
  intro pre rest h hr
  have : 0 < rest.length := List.length_pos_of_ne_nil hr
  have hl : ops.length = pre.length + rest.length := by rw [h]; simp
  have : ¬ n ≤ pre.length := by omega
  simpa [hc, operandsComplete] using this

theorem endsWith_patch (first count : Byte) (body : List Byte) (h : body.length = count.toNat) :
    endsWith .patch (first :: count :: body) := by
  refine ⟨by simp [codeShape, operandsComplete, h], ?_⟩
  intro pre rest e hr
  have hpos : 0 < rest.length := List.length_pos_of_ne_nil hr
  match pre, e with
  | [], _ => rfl
  | [_], _ => rfl
  | a :: b :: pre', e =>
    simp only [List.cons_append, List.cons.injEq] at e
    obtain ⟨_, hc, hb⟩ := e
    have hl : body.length = pre'.length + rest.length := by rw [hb]; simp
    subst hc
    simp only [codeShape, operandsComplete, decide_eq_false_iff_not]
    omega

theorem endsWith_mapLoad (station count : Byte) (body : List Byte) (h : body.length = 4 * count.toNat) :
    endsWith .mapLoad (station :: count :: body) := by
  refine ⟨by simp [codeShape, operandsComplete, h], ?_⟩
  intro pre rest e hr
  have hpos : 0 < rest.length := List.length_pos_of_ne_nil hr
  match pre, e with
  | [], _ => rfl
  | [_], _ => rfl
  | a :: b :: pre', e =>
    simp only [List.cons_append, List.cons.injEq] at e
    obtain ⟨_, hc, hb⟩ := e
    have hl : body.length = pre'.length + rest.length := by rw [hb]; simp
    subst hc
    simp only [codeShape, operandsComplete, decide_eq_false_iff_not]
    omega

/-! ### Staged loads (R190) -/

/-- The bytes of a load that takes the staging buffer are collected there. -/
theorem stream_staged (c : ConsoleCode) (s : State) (hrun : s.run = .run) (hreply : s.eli.reply = [])
    (harr : s.eli.arrival = .none) (hload : takesBuffer s.eli c = true) :
    ∀ ops : List Byte,
      (∀ p r, ops = p ++ r → r ≠ [] → operandsComplete (codeShape c) p = false) →
      (codeByte c :: ops).foldl (fun s b => streamByte b s) s =
        s.setEli { s.eli with
          staging := some (codeByte c :: ops), dataOut := 0
          arrival := if operandsComplete (codeShape c) ops then .none else .staged } := by
  intro ops
  induction ops using List.reverseRecOn with
  | nil =>
    intro _
    simp only [List.foldl_cons, List.foldl_nil]
    rw [streamByte_run _ _ hrun hreply,
      collectByte_staged c [] _ _ (by simp [heldBytes, harr]) (by simpa [takesBuffer, harr] using hload)]
    rfl
  | append_singleton ops x ih =>
    intro h
    have hp := ih (fun p r e hr => h p (r ++ [x]) (by rw [e]; simp) (by simp))
    have hno : operandsComplete (codeShape c) ops = false := h ops [x] rfl (by simp)
    rw [← List.cons_append, List.foldl_append, hp]
    simp only [List.foldl_cons, List.foldl_nil, hno]
    rw [streamByte_run _ _ (by simpa using hrun) (by simpa using hreply),
      collectByte_staged c (ops ++ [x]) _ _ (by simp [heldBytes]) (by simp [takesBuffer])]
    rfl

/-- A whole load, sent on the EXTENDED page while the buffer is free, waits in the buffer for the frame end (R190). -/
theorem sendCommand_staged {s : State} (h : CommandReady .extended s) (c : ConsoleCode) (ops : List Byte)
    (hload : isLoad c = true) (hfree : s.eli.staging = none) (hops : endsWith c ops) :
    sendCommand c ops s = s.setEli { eliAfter s with staging := some (codeByte c :: ops) } := by
  have hb : takesBuffer s.eli c = true := by simp [takesBuffer, h.arrival, hload, h.page, hfree]
  unfold sendCommand sendBytes
  rw [frameAfter_command h.frame]
  simp only
  rw [stream_staged c s h.run h.reply h.arrival hb ops hops.2, hops.1]
  simp only [State.setEli_eli, if_true, eliAfter]
  have ha := h.arrival
  rw [← ha]
  rfl

/-- A load sent while the buffer holds another is read through and refused (R190). -/
theorem sendCommand_second {s : State} (h : CommandReady .extended s) (c : ConsoleCode) (ops : List Byte)
    (hload : isLoad c = true) (hfull : s.eli.staging.isSome = true) (hops : endsWith c ops) :
    sendCommand c ops s = refusedAfter s := by
  have hb : takesBuffer s.eli c = false := by
    have : s.eli.staging.isNone = false := by
      cases hs : s.eli.staging <;> simp_all
    simp [takesBuffer, h.arrival, this]
  unfold sendCommand sendBytes
  rw [frameAfter_command h.frame]
  simp only
  rw [stream_command c ops s h.run h.reply h.arrival hb hops]
  have hj : judgeCommand c ops (s.setEli { s.eli with dataOut := 0 }) =
      refuseConsole (s.setEli { s.eli with dataOut := 0 }) := by
    simp [judgeCommand, hload]
  rw [hj]
  rfl

/-! ### Operand bytes -/

/-- A command with a fixed number of operand bytes, sent whole on its page, is taken (R184). -/
theorem sendCommand_fixed {p : Page} {s : State} (h : CommandReady p s) (c : ConsoleCode) (hpage : codeOnPage c p = true)
    (hload : isLoad c = false) (n : Nat) (hc : codeShape c = .fixed n) (ops : List Byte) (hn : ops.length = n) :
    sendCommand c ops s =
      (let t := takeCode c ops (s.setEli { s.eli with dataOut := 0 })
       t.setEli { t.eli with frame := frameRest s.eli.frame }) :=
  sendCommand_taken h c ops hpage hload (endsWith_fixed c n hc ops hn)

theorem byteOfNat_toNat (n : Nat) (h : n < 256) : (byteOfNat n).toNat = n := by
  simp [byteOfNat]; omega

theorem inRange_byteOfNat {k : Nat} (n : Fin k) (hk : k ≤ 256) : inRange k (byteOfNat n.val) = some n := by
  unfold inRange
  simp [byteOfNat_toNat n.val (by omega)]

theorem inRange_none {k : Nat} {b : Byte} (h : k ≤ b.toNat) : inRange k b = none := by
  unfold inRange
  rw [dif_neg (by omega)]

theorem inRange_some {k : Nat} {b : Byte} (h : b.toNat < k) : inRange k b = some ⟨b.toNat, h⟩ := by
  unfold inRange
  rw [dif_pos h]

@[simp] theorem word16_bytes (w : Word16) : word16 (hiByte w) (loByte w) = w := by
  apply BitVec.eq_of_getLsbD_eq
  intro i hi
  simp only [word16, hiByte, loByte, BitVec.getLsbD_append, BitVec.getLsbD_extractLsb']
  by_cases h : i < 8
  · simp [h]
  · have h1 : i - 8 < 8 := by omega
    have h2 : 8 + (i - 8) = i := by omega
    simp [h, h1, h2]

end Sys2Proof.Machine
end

