-- ==== Sys2Proof/Laws/Matrix.lean ====
section
/-! SUPPORT. What a change can do: the frame of a hand-off, of a change and of a compound operation, and the cell, the grips and
the glide list a change leaves. -/

namespace Sys2Proof.Machine

/-! ### Frames compose -/

theorem OuterFrame.refl (s : State) : OuterFrame s s :=
  ⟨rfl, rfl, rfl, rfl, rfl, rfl, rfl, rfl, rfl, rfl, rfl, rfl⟩

theorem OuterFrame.trans {s t u : State} (h : OuterFrame s t) (k : OuterFrame t u) : OuterFrame s u :=
  ⟨k.run.trans h.run, k.resetPin.trans h.resetPin, k.stations.trans h.stations, k.lockout.trans h.lockout,
   k.inHand.trans h.inHand, k.link.trans h.link, k.slr.trans h.slr, k.eli.trans h.eli, k.src.trans h.src,
   k.out.trans h.out, k.free.trans h.free, k.pending.trans h.pending⟩

theorem MatrixFrame.refl (s : State) : MatrixFrame s s := ⟨OuterFrame.refl s, rfl, .inl rfl, .inl rfl⟩

theorem MatrixFrame.trans {s t u : State} (h : MatrixFrame s t) (k : MatrixFrame t u) : MatrixFrame s u := by
  refine ⟨h.outer.trans k.outer, ?_, ?_, ?_⟩
  · rw [k.cue, h.cue]
  · rcases h.running with h1 | ⟨r, n, h1, h2⟩ <;> rcases k.running with k1 | ⟨r', n', k1, k2⟩
    · exact .inl (k1.trans h1)
    · exact .inr ⟨r', n', h1 ▸ k1, k2⟩
    · exact .inr ⟨r, n, h1, k1.trans h2⟩
    · rw [h2] at k1
      cases k1
      exact .inr ⟨r, n', h1, k2⟩
  · rcases h.marks with h1 | h1 <;> rcases k.marks with k1 | k1
    · exact .inl (k1.trans h1)
    · rw [h1] at k1; exact .inr k1
    · rw [h1] at k1; exact .inr k1
    · rw [h1] at k1
      refine .inr (k1.trans ?_)
      simp [BitVec.or_assoc]

/-- Writing the matrix, the glide list or the grips stays inside the frame. -/
theorem MatrixFrame.setCells (s : State) (x : Vector Cell 768) : MatrixFrame s (s.setCells x) :=
  ⟨⟨rfl, rfl, rfl, rfl, rfl, rfl, rfl, rfl, rfl, rfl, rfl, rfl⟩, rfl, .inl rfl, .inl rfl⟩

theorem MatrixFrame.setGlides (s : State) (x : List GlideEntry) : MatrixFrame s (s.setGlides x) :=
  ⟨⟨rfl, rfl, rfl, rfl, rfl, rfl, rfl, rfl, rfl, rfl, rfl, rfl⟩, rfl, .inl rfl, .inl rfl⟩

theorem MatrixFrame.setGrips (s : State) (x : Vector (Option Grip) 16) : MatrixFrame s (s.setGrips x) :=
  ⟨⟨rfl, rfl, rfl, rfl, rfl, rfl, rfl, rfl, rfl, rfl, rfl, rfl⟩, rfl, .inl rfl, .inl rfl⟩

theorem MatrixFrame.glideFull (s : State) : MatrixFrame s (s.report .glideFull) := by
  refine ⟨⟨?_, ?_, ?_, ?_, ?_, ?_, ?_, ?_, ?_, ?_, ?_, ?_⟩, ?_, ?_, ?_⟩ <;> try simp
  unfold State.report
  split
  · exact .inr rfl
  · exact .inl rfl

/-! ### Tag notices -/

theorem tagGained_frame (c : CueId) (s : State) : MatrixFrame s (tagGained c s) := by
  unfold tagGained
  split
  · exact MatrixFrame.refl s
  · next r h =>
    split
    · exact ⟨⟨rfl, rfl, rfl, rfl, rfl, rfl, rfl, rfl, rfl, rfl, rfl, rfl⟩, rfl, .inr ⟨r, _, h, rfl⟩, .inl rfl⟩
    · exact MatrixFrame.refl s

theorem tagLost_frame (c : CueId) (s : State) : MatrixFrame s (tagLost c s) := by
  unfold tagLost
  split
  · exact MatrixFrame.refl s
  · next r h =>
    split
    · exact ⟨⟨rfl, rfl, rfl, rfl, rfl, rfl, rfl, rfl, rfl, rfl, rfl, rfl⟩, rfl, .inr ⟨r, _, h, rfl⟩, .inl rfl⟩
    · exact MatrixFrame.refl s

theorem tagNotices_frame (a b : Option CueId) (s : State) : MatrixFrame s (tagNotices a b s) := by
  unfold tagNotices
  split
  · exact MatrixFrame.refl s
  · cases a <;> cases b
    · exact MatrixFrame.refl s
    · exact tagGained_frame _ _
    · exact tagLost_frame _ _
    · exact (tagLost_frame _ _).trans (tagGained_frame _ _)

@[simp] theorem tagNotices_cells (a b : Option CueId) (s : State) : (tagNotices a b s).cells = s.cells := by
  unfold tagNotices tagLost tagGained
  split
  · rfl
  · cases a <;> cases b <;> simp <;> repeat' split
    all_goals simp_all

@[simp] theorem tagNotices_glides (a b : Option CueId) (s : State) : (tagNotices a b s).glides = s.glides := by
  unfold tagNotices tagLost tagGained
  split
  · rfl
  · cases a <;> cases b <;> simp <;> repeat' split
    all_goals simp_all

@[simp] theorem tagNotices_grips (a b : Option CueId) (s : State) : (tagNotices a b s).grips = s.grips := by
  unfold tagNotices tagLost tagGained
  split
  · rfl
  · cases a <;> cases b <;> simp <;> repeat' split
    all_goals simp_all

@[simp] theorem tagNotices_evl (a b : Option CueId) (s : State) : (tagNotices a b s).evl = s.evl := by
  unfold tagNotices tagLost tagGained
  split
  · rfl
  · cases a <;> cases b <;> simp <;> repeat' split
    all_goals simp_all

/-! ### The hand-off -/

/-- A hand-off stays inside the frame (R32 to R34, R36). -/
theorem handOff_frame (c : CellId) (goal length : Nat) (tag : Option CueId) (s : State) :
    MatrixFrame s (handOff c goal length tag s) := by
  unfold handOff
  split
  · exact ((tagNotices_frame _ _ s).trans (MatrixFrame.setGlides _ _)).trans (MatrixFrame.setCells _ _)
  · split
    · exact (tagNotices_frame _ _ s).trans (MatrixFrame.setGlides _ _)
    · split
      · exact (tagNotices_frame _ _ s).trans (MatrixFrame.setGlides _ _)
      · exact (MatrixFrame.setCells _ _).trans (MatrixFrame.glideFull _)

@[simp] theorem handOff_grips (c : CellId) (goal length : Nat) (tag : Option CueId) (s : State) :
    (handOff c goal length tag s).grips = s.grips := by
  unfold handOff glideJump glideRetarget glideAppend glideOverflow
  repeat' split
  all_goals simp

/-- A hand-off writes no cell field but the heard level of its cell (R1, R30). -/
theorem handOff_cell (c d : CellId) (goal length : Nat) (tag : Option CueId) (s : State) :
    (handOff c goal length tag s).cell d = s.cell d ∨
      (c = d ∧ (handOff c goal length tag s).cell d = { s.cell d with heard := goal }) := by
  have hk : ∀ t : State, t.cells = s.cells → (t.setHeard c goal).cell d = s.cell d ∨
      (c = d ∧ (t.setHeard c goal).cell d = { s.cell d with heard := goal }) := by
    intro t ht
    have hcell : t.cell d = s.cell d := by simp [State.cell, ht]
    rw [State.cell_setHeard, hcell]
    by_cases e : c = d
    · exact .inr ⟨e, by simp [e]⟩
    · exact .inl (by simp [e])
  unfold handOff
  split
  · exact hk _ (by simp)
  · split
    · exact .inl (by simp [glideRetarget, State.cell])
    · split
      · exact .inl (by simp [glideAppend, State.cell])
      · rcases hk s rfl with h | h
        · exact .inl (by simpa [glideOverflow, State.cell] using h)
        · exact .inr ⟨h.1, by simpa [glideOverflow, State.cell] using h.2⟩

/-- Level, cap, pan, mute and last writer of every cell are as before a hand-off (R30). -/
theorem handOff_fields (c d : CellId) (goal length : Nat) (tag : Option CueId) (s : State) :
    { (handOff c goal length tag s).cell d with heard := (s.cell d).heard } = s.cell d := by
  rcases handOff_cell c d goal length tag s with h | ⟨_, h⟩ <;> rw [h]

/-! ### The change -/

theorem markStale_frame (c : CellId) (o : Origin) (s : State) : MatrixFrame s (markStale c o s) :=
  MatrixFrame.setGrips _ _

/-- A change stays inside the frame (R9). -/
theorem takeChange_frame (ch : Change) (s : State) : MatrixFrame s (takeChange ch s) := by
  unfold takeChange
  simp only
  split
  · exact MatrixFrame.refl s
  · unfold applyChange
    simp only
    have h := (MatrixFrame.setCells s (tableSet s.cells (cellIndex ch.cell)
      { (clampChange ch.kind (s.cell ch.cell)).cell with writer := some ch.origin })).trans
      (markStale_frame ch.cell ch.origin _)
    split
    · exact h.trans (handOff_frame _ _ _ _ _)
    · exact h

/-- A compound operation stays inside the frame (R9). -/
theorem takeChanges_frame (chs : List Change) (s : State) : MatrixFrame s (takeChanges chs s) := by
  induction chs generalizing s with
  | nil => exact MatrixFrame.refl s
  | cons ch rest ih => exact (takeChange_frame ch s).trans (ih _)

/-- A no-op changes nothing (R14). -/
theorem takeChange_noOp (ch : Change) (s : State)
    (h : isNoOp (s.cell ch.cell) (clampChange ch.kind (s.cell ch.cell)).cell = true) : takeChange ch s = s := by
  simp [takeChange, h]

/-- The record a change leaves in its cell, the heard level aside (R10 to R15). -/
def recorded (ch : Change) (x : Cell) : Cell :=
  let r := clampChange ch.kind x
  if isNoOp x r.cell then x else { r.cell with writer := some ch.origin }

/-- The clamp writes neither heard level nor last writer. -/
theorem clampChange_keeps (k : ChangeKind) (x : Cell) :
    (clampChange k x).cell.heard = x.heard ∧ (clampChange k x).cell.writer = x.writer := by
  cases k <;> simp only [clampChange, and_self]
  case nudge d =>
    repeat' split
    all_goals simp

/-- What a change does to every cell: its own is recorded, and its heard level is as it was or jumps to the goal; the
others are as they were (R9). -/
theorem takeChange_cell (ch : Change) (d : CellId) (s : State) :
    (d ≠ ch.cell ∧ (takeChange ch s).cell d = s.cell d) ∨
    (d = ch.cell ∧ ((takeChange ch s).cell d = recorded ch (s.cell d) ∨
      (takeChange ch s).cell d =
        { recorded ch (s.cell d) with heard := goalOf (recorded ch (s.cell d)) })) := by
  by_cases hn : isNoOp (s.cell ch.cell) (clampChange ch.kind (s.cell ch.cell)).cell = true
  · rw [takeChange_noOp ch s hn]
    by_cases e : d = ch.cell
    · exact .inr ⟨e, .inl (by subst e; simp [recorded, hn])⟩
    · exact .inl ⟨e, rfl⟩
  · have hb : isNoOp (s.cell ch.cell) (clampChange ch.kind (s.cell ch.cell)).cell = false := by simpa using hn
    have hr : recorded ch (s.cell ch.cell) =
        { (clampChange ch.kind (s.cell ch.cell)).cell with writer := some ch.origin } := by
      simp [recorded, hb]
    have hbase : ∀ d, (markStale ch.cell ch.origin (s.setCell ch.cell
        { (clampChange ch.kind (s.cell ch.cell)).cell with writer := some ch.origin })).cell d =
        if ch.cell = d then { (clampChange ch.kind (s.cell ch.cell)).cell with writer := some ch.origin }
        else s.cell d := by
      intro d
      have : ∀ t : State, (markStale ch.cell ch.origin t).cell d = t.cell d := fun t => rfl
      rw [this, State.cell_setCell]
    have key : ∀ t : State, (∀ d, t.cell d =
        if ch.cell = d then recorded ch (s.cell ch.cell) else s.cell d) →
        (d ≠ ch.cell ∧ t.cell d = s.cell d) ∨ (d = ch.cell ∧ t.cell d = recorded ch (s.cell d)) := by
      intro t ht
      by_cases e : d = ch.cell
      · exact .inr ⟨e, by rw [ht d]; subst e; simp⟩
      · exact .inl ⟨e, by rw [ht d, if_neg (fun h => e h.symm)]⟩
    unfold takeChange
    simp only [hb, Bool.false_eq_true, if_false]
    unfold applyChange
    simp only
    rw [← hr] at hbase ⊢
    have hk := key _ hbase
    split
    · rcases handOff_cell ch.cell d (goalOf (clampChange ch.kind (s.cell ch.cell)).cell) ch.length ch.tag
        (markStale ch.cell ch.origin (s.setCell ch.cell (recorded ch (s.cell ch.cell)))) with h | ⟨e, h⟩
      · rw [h]
        rcases hk with ⟨a, b⟩ | ⟨a, b⟩
        · exact .inl ⟨a, b⟩
        · exact .inr ⟨a, .inl b⟩
      · refine .inr ⟨e.symm, .inr ?_⟩
        rw [h, hbase d, if_pos e]
        subst e
        have : goalOf (recorded ch (s.cell ch.cell)) = goalOf (clampChange ch.kind (s.cell ch.cell)).cell := by
          rw [hr]; rfl
        rw [this]
    · rcases hk with ⟨a, b⟩ | ⟨a, b⟩
      · exact .inl ⟨a, b⟩
      · exact .inr ⟨a, .inl b⟩

/-- What a change does to the grips: every grip on its cell but the originating one is STALE, unless it is a no-op (R14,
R16). -/
theorem takeChange_grip (ch : Change) (n : StationId) (s : State) :
    (takeChange ch s).grip n =
      if isNoOp (s.cell ch.cell) (clampChange ch.kind (s.cell ch.cell)).cell then s.grip n
      else (s.grip n).map (fun g =>
        if g.cell = ch.cell ∧ isOriginating ch.origin g = false then { g with state := .stale } else g) := by
  unfold takeChange
  simp only
  split
  · rfl
  · unfold applyChange
    simp only
    split
    · simp [State.grip, markStale]
    · simp [State.grip, markStale]

/-- What a list of changes does to a cell that none of them names. -/
theorem takeChanges_other (chs : List Change) (c : CellId) (h : ∀ ch ∈ chs, ch.cell ≠ c) (s : State) :
    (takeChanges chs s).cell c = s.cell c := by
  induction chs generalizing s with
  | nil => rfl
  | cons ch rest ih =>
    show (takeChanges rest (takeChange ch s)).cell c = _
    rw [ih (fun x hx => h x (by simp [hx]))]
    rcases takeChange_cell ch c s with ⟨_, e⟩ | ⟨e, _⟩
    · exact e
    · exact absurd e.symm (h ch (by simp))

/-- The four stored fields after a change of the cell. -/
theorem takeChange_stored (ch : Change) (c : CellId) (hc : ch.cell = c) (s : State) :
    ((takeChange ch s).cell c).level = (clampChange ch.kind (s.cell c)).cell.level ∧
    ((takeChange ch s).cell c).muted = (clampChange ch.kind (s.cell c)).cell.muted ∧
    ((takeChange ch s).cell c).pan = (clampChange ch.kind (s.cell c)).cell.pan ∧
    ((takeChange ch s).cell c).cap = (clampChange ch.kind (s.cell c)).cell.cap := by
  subst hc
  have hr : (recorded ch (s.cell ch.cell)).level = (clampChange ch.kind (s.cell ch.cell)).cell.level ∧
      (recorded ch (s.cell ch.cell)).muted = (clampChange ch.kind (s.cell ch.cell)).cell.muted ∧
      (recorded ch (s.cell ch.cell)).pan = (clampChange ch.kind (s.cell ch.cell)).cell.pan ∧
      (recorded ch (s.cell ch.cell)).cap = (clampChange ch.kind (s.cell ch.cell)).cell.cap := by
    unfold recorded
    simp only
    split
    · next h =>
      simp only [isNoOp, decide_eq_true_eq] at h
      exact ⟨h.1.symm, h.2.1.symm, h.2.2.1.symm, h.2.2.2.symm⟩
    · exact ⟨rfl, rfl, rfl, rfl⟩
  rcases takeChange_cell ch ch.cell s with ⟨h, _⟩ | ⟨_, h | h⟩
  · exact absurd rfl h
  · rw [h]; exact hr
  · rw [h]; exact hr

theorem takeChanges_append (a b : List Change) (s : State) : takeChanges (a ++ b) s = takeChanges b (takeChanges a s) := by
  simp [takeChanges, List.foldl_append]

/-- Changes grouped by source, each group on its own cell of one mix: what the group leaves in its cell. -/
theorem takeChanges_groups (m : Fin 16) (G : Fin 48 → List Change) (hG : ∀ x, ∀ ch ∈ G x, ch.cell = ⟨m, x⟩)
    (l : List (Fin 48)) (hd : l.Nodup) (s : State) (x : Fin 48) (hx : x ∈ l) :
    ∃ u : State, u.cell ⟨m, x⟩ = s.cell ⟨m, x⟩ ∧
      (takeChanges (l.flatMap G) s).cell ⟨m, x⟩ = (takeChanges (G x) u).cell ⟨m, x⟩ := by
  induction l generalizing s with
  | nil => simp at hx
  | cons y rest ih =>
    rw [List.flatMap_cons, takeChanges_append]
    have hy : y ∉ rest := (List.nodup_cons.mp hd).1
    by_cases e : x = y
    · subst e
      refine ⟨s, rfl, ?_⟩
      apply takeChanges_other
      intro ch hch hcell
      obtain ⟨z, hz, hz2⟩ := List.mem_flatMap.mp hch
      have := hG z ch hz2
      rw [hcell] at this
      have : x = z := by simpa using this
      subst this
      exact hy hz
    · have hx' : x ∈ rest := by
        rcases List.mem_cons.mp hx with h | h
        · exact absurd h e
        · exact h
      obtain ⟨u, hu, hres⟩ := ih (List.nodup_cons.mp hd).2 (takeChanges (G y) s) hx'
      refine ⟨u, ?_, hres⟩
      rw [hu]
      apply takeChanges_other
      intro ch hch hcell
      have := hG y ch hch
      rw [hcell] at this
      exact e (by simpa using this)

/-- Changes that all mute, or all unmute: every cell they name is left so. -/
theorem takeChanges_muted (chs : List Change) (on : Bool) (s : State)
    (h : ∀ ch ∈ chs, ch.kind = if on then .mute else .unmute) :
    ∀ ch ∈ chs, ((takeChanges chs s).cell ch.cell).muted = on := by
  have clamp : ∀ (ch : Change) (x : Cell), (ch.kind = if on then .mute else .unmute) →
      (clampChange ch.kind x).cell.muted = on := by
    intro ch x e; rw [e]; cases on <;> rfl
  have own : ∀ (ch : Change) (s : State), (ch.kind = if on then .mute else .unmute) →
      ((takeChange ch s).cell ch.cell).muted = on := fun ch s e =>
    (takeChange_stored ch ch.cell rfl s).2.1.trans (clamp ch _ e)
  have keep : ∀ (l : List Change) (s : State) (c : CellId), (∀ ch ∈ l, ch.kind = if on then .mute else .unmute) →
      (s.cell c).muted = on → ((takeChanges l s).cell c).muted = on := by
    intro l
    induction l with
    | nil => intro s c _ e; exact e
    | cons a l ih =>
      intro s c hl e
      refine ih _ c (fun x hx => hl x (List.mem_cons_of_mem _ hx)) ?_
      by_cases hc : a.cell = c
      · subst hc; exact own a s (hl a (by simp))
      · rcases takeChange_cell a c s with ⟨_, k⟩ | ⟨k, _⟩
        · rw [k]; exact e
        · exact absurd k.symm hc
  induction chs generalizing s with
  | nil => intro ch hch; simp at hch
  | cons a l ih =>
    intro ch hch
    rcases List.mem_cons.1 hch with e | e
    · subst e
      exact keep l _ _ (fun x hx => h x (List.mem_cons_of_mem _ hx)) (own ch s (h ch (by simp)))
    · exact ih _ (fun x hx => h x (List.mem_cons_of_mem _ hx)) ch e

end Sys2Proof.Machine
end

