-- ==== Sys2Proof/Laws/Glides.lean ====
section
/-! SUPPORT. The block-end advance entry by entry, and the law of the matrix and the glide list (R5, R30, R31) through hand-off,
change, compound operation, advance, completion, strip and emptying. -/

namespace Sys2Proof.Machine

/-! ### Steps stay between heard level and goal -/

theorem glideStep_le_max (h g r : Nat) : glideStep h g r ≤ max h g := by
  unfold glideStep
  rcases le_total (g : Int) h with hg | hg
  · have h1 : Int.tdiv ((g : Int) - h) r ≤ 0 := by
      have : (g : Int) - h = -((h : Int) - g) := by ring
      rw [this, Int.neg_tdiv]
      have := Int.tdiv_nonneg (a := (h : Int) - g) (b := r) (by omega) (by omega)
      omega
    omega
  · have h1 : Int.tdiv ((g : Int) - h) r ≤ (g : Int) - h := Int.tdiv_le_self _ (by omega)
    omega

/-! ### The list an advance leaves -/

/-- An entry one block end later. -/
def GlideEntry.later (e : GlideEntry) : GlideEntry := { e with remaining := e.remaining - 1 }

/-- The entries that stay, each with one block end less (R38). -/
theorem advanceEntries_list (l : List GlideEntry) (s : State) :
    (advanceEntries l s).1 = (l.filter (fun e => decide (1 < e.remaining))).map GlideEntry.later := by
  induction l generalizing s with
  | nil => rfl
  | cons e rest ih =>
    unfold advanceEntries
    by_cases h : e.remaining ≤ 1
    · have h' : ¬ 1 < e.remaining := by omega
      simp [h, h', ih]
    · have h' : 1 < e.remaining := by omega
      simp only [h, if_false, ih]
      simp [h', GlideEntry.later]

/-- The heard level an advance gives a cell from its entry (R38). -/
def advancedHeard (e : GlideEntry) (x : Cell) : Nat :=
  if e.remaining ≤ 1 then e.goal else glideStep x.heard e.goal e.remaining

theorem glideFinish_cell (e : GlideEntry) (s : State) (d : CellId) :
    (glideFinish e s).cell d = if e.cell = d then { s.cell d with heard := e.goal } else s.cell d := by
  have : (glideFinish e s).cell d = (s.setHeard e.cell e.goal).cell d := by
    simp [glideFinish, State.cell]
  rw [this, State.cell_setHeard]

/-- A cell without an entry is as it was. -/
theorem advanceEntries_other (l : List GlideEntry) (s : State) (d : CellId) (h : ∀ e ∈ l, e.cell ≠ d) :
    (advanceEntries l s).2.cell d = s.cell d := by
  induction l generalizing s with
  | nil => rfl
  | cons e rest ih =>
    have he : e.cell ≠ d := h e (by simp)
    have hr : ∀ x ∈ rest, x.cell ≠ d := fun x hx => h x (by simp [hx])
    unfold advanceEntries
    split
    · rw [ih _ hr, glideFinish_cell, if_neg he]
    · simp only
      rw [ih _ hr, State.cell_setHeard, if_neg he]

/-- A cell with an entry gets the heard level of R38, and no other field of it changes. -/
theorem advanceEntries_own (l : List GlideEntry) (s : State) (hd : (l.map (·.cell)).Nodup) (e : GlideEntry) (he : e ∈ l) :
    (advanceEntries l s).2.cell e.cell = { s.cell e.cell with heard := advancedHeard e (s.cell e.cell) } := by
  induction l generalizing s with
  | nil => simp at he
  | cons x rest ih =>
    simp only [List.map_cons, List.nodup_cons, List.mem_map, not_exists, not_and] at hd
    unfold advanceEntries
    rcases List.mem_cons.mp he with rfl | hmem
    · have hr : ∀ y ∈ rest, y.cell ≠ e.cell := fun y hy => hd.1 y hy
      by_cases h1 : e.remaining ≤ 1
      · simp only [h1, if_true]
        rw [advanceEntries_other _ _ _ hr, glideFinish_cell]
        simp [advancedHeard, h1]
      · simp only [h1, if_false]
        rw [advanceEntries_other _ _ _ hr, State.cell_setHeard]
        simp [advancedHeard, h1]
    · have hne : x.cell ≠ e.cell := fun h => hd.1 e hmem h.symm
      by_cases h1 : x.remaining ≤ 1
      · simp only [h1, if_true]
        rw [ih _ hd.2 hmem, glideFinish_cell, if_neg hne]
      · simp only [h1, if_false]
        rw [ih _ hd.2 hmem, State.cell_setHeard, if_neg hne]

theorem glideFinish_frame (e : GlideEntry) (s : State) : MatrixFrame s (glideFinish e s) :=
  (MatrixFrame.setCells _ _).trans (tagNotices_frame _ _ _)

theorem advanceEntries_frame (l : List GlideEntry) (s : State) : MatrixFrame s (advanceEntries l s).2 := by
  induction l generalizing s with
  | nil => exact MatrixFrame.refl s
  | cons e rest ih =>
    unfold advanceEntries
    split
    · exact (glideFinish_frame e s).trans (ih _)
    · exact (MatrixFrame.setCells _ _).trans (ih _)

@[simp] theorem glideFinish_grips (e : GlideEntry) (s : State) : (glideFinish e s).grips = s.grips := by
  simp [glideFinish]

@[simp] theorem glideFinish_glides (e : GlideEntry) (s : State) : (glideFinish e s).glides = s.glides := by
  simp [glideFinish]

@[simp] theorem glideFinish_evl (e : GlideEntry) (s : State) : (glideFinish e s).evl = s.evl := by
  simp [glideFinish]

@[simp] theorem advanceEntries_grips (l : List GlideEntry) (s : State) : (advanceEntries l s).2.grips = s.grips := by
  induction l generalizing s with
  | nil => rfl
  | cons e rest ih =>
    unfold advanceEntries
    split
    · simp [ih]
    · simp [ih]

@[simp] theorem advanceEntries_evl (l : List GlideEntry) (s : State) : (advanceEntries l s).2.evl = s.evl := by
  induction l generalizing s with
  | nil => rfl
  | cons e rest ih =>
    unfold advanceEntries
    split
    · simp [ih]
    · simp [ih]

/-- The block-end advance stays inside the frame (R38). -/
theorem glideAdvance_frame (s : State) : MatrixFrame s (glideAdvance s) :=
  (advanceEntries_frame _ _).trans (MatrixFrame.setGlides _ _)

theorem glideComplete_frame (c : CellId) (s : State) : MatrixFrame s (glideComplete c s) := by
  unfold glideComplete
  split
  · exact MatrixFrame.refl s
  · split
    · exact (glideFinish_frame _ _).trans (MatrixFrame.setGlides _ _)
    · exact MatrixFrame.refl s

/-! ### The law of the matrix and the glide list -/

/-- The law reads the cells, the glide list, the cue slots and the engineer glide length alone. -/
theorem MatrixLaw.of_eq {s t : State} (h : MatrixLaw s) (cells : t.cells = s.cells) (glides : t.glides = s.glides)
    (slots : t.cue.slots = s.cue.slots) (length : t.eli.glideLength = s.eli.glideLength) : MatrixLaw t := by
  have hc : ∀ c, t.cell c = s.cell c := fun c => by simp [State.cell, cells]
  have hg : ∀ c, t.gliding c = s.gliding c := fun c => by simp [State.gliding, State.glideOf, glides]
  refine ⟨fun c => hc c ▸ h.cells c, glides ▸ h.room, glides ▸ h.once, ?_, ?_, ?_, ?_⟩
  · intro e he
    rw [glides] at he
    have := h.goals e he
    simpa [GlideEntry.lawful, hc] using this
  · intro c hn
    rw [hg] at hn
    rw [hc]
    exact h.heard c hn
  · intro n r hr
    exact h.slots n r (by simpa [State.slot, slots] using hr)
  · have := h.length
    simpa [glideLengthLawful, length] using this

/-- The law but for one cell, whose entry's goal and heard level may be behind: a change recorded and not yet handed
off. -/
structure MatrixLawBut (c : CellId) (s : State) : Prop where
  cells : ∀ d, (s.cell d).lawful
  room : s.glides.length ≤ glideRoom
  once : (s.glides.map (·.cell)).Nodup
  goals : ∀ e ∈ s.glides, (e.cell ≠ c → e.goal = goalOf (s.cell e.cell)) ∧ 1 ≤ e.remaining ∧ e.remaining ≤ 4095
  heard : ∀ d, d ≠ c → s.gliding d = false → (s.cell d).heard = goalOf (s.cell d)
  slots : slotsLawful s
  length : glideLengthLawful s

theorem gliding_false_iff (s : State) (c : CellId) : s.gliding c = false ↔ ∀ e ∈ s.glides, e.cell ≠ c := by
  simp [State.gliding, State.glideOf]

theorem glideOf_some {s : State} {c : CellId} {e : GlideEntry} (h : s.glideOf c = some e) : e ∈ s.glides ∧ e.cell = c := by
  unfold State.glideOf at h
  exact ⟨List.mem_of_find?_eq_some h, by simpa using List.find?_some h⟩

theorem glideOf_none {s : State} {c : CellId} (h : s.glideOf c = none) : ∀ e ∈ s.glides, e.cell ≠ c := by
  simpa [State.glideOf] using h

theorem goalOf_le (x : Cell) (h : x.lawful) : goalOf x ≤ 220 := by
  obtain ⟨h1, h2, -⟩ := h
  unfold goalOf
  split <;> omega

theorem goalOf_heard (x : Cell) (n : Nat) : goalOf { x with heard := n } = goalOf x := rfl

theorem lawful_heard {x : Cell} (h : x.lawful) {n : Nat} (hn : n ≤ 220) : Cell.lawful { x with heard := n } :=
  ⟨h.1, h.2.1, hn, h.2.2.2.1, h.2.2.2.2⟩

/-- Taking the cell to its goal and its entry off the list makes the law whole again. -/
theorem MatrixLawBut.jump {c : CellId} {s t : State} (h : MatrixLawBut c s)
    (hcell : ∀ d, t.cell d = if c = d then { s.cell d with heard := goalOf (s.cell c) } else s.cell d)
    (hglides : t.glides = s.glides.filter (fun e => decide (e.cell ≠ c)))
    (hslots : t.cue.slots = s.cue.slots) (hlen : t.eli.glideLength = s.eli.glideLength) : MatrixLaw t := by
  have hgoal : ∀ d, goalOf (t.cell d) = goalOf (s.cell d) := by
    intro d
    rw [hcell]
    split <;> rfl
  refine ⟨?_, ?_, ?_, ?_, ?_, ?_, ?_⟩
  · intro d
    rw [hcell]
    split
    · exact lawful_heard (h.cells d) (goalOf_le _ (h.cells c))
    · exact h.cells d
  · rw [hglides]
    exact le_trans (List.length_filter_le _ _) h.room
  · rw [hglides]
    exact List.Sublist.nodup (List.Sublist.map _ List.filter_sublist) h.once
  · intro e he
    rw [hglides] at he
    obtain ⟨hm, hne⟩ := List.mem_filter.mp he
    have hne : e.cell ≠ c := by simpa using hne
    obtain ⟨g1, g2, g3⟩ := h.goals e hm
    exact ⟨by rw [hgoal]; exact g1 hne, g2, g3⟩
  · intro d hd
    rw [hgoal, hcell]
    by_cases e : c = d
    · subst e; simp
    · rw [if_neg e]
      refine h.heard d (fun x => e x.symm) ?_
      rw [gliding_false_iff] at hd ⊢
      intro x hx hxd
      refine hd x ?_ hxd
      rw [hglides]
      exact List.mem_filter.mpr ⟨hx, by simp [hxd]; exact fun x => e x.symm⟩
  · intro n r hr
    exact h.slots n r (by simpa [State.slot, hslots] using hr)
  · have := h.length
    simpa [glideLengthLawful, hlen] using this

/-- A hand-off of the cell's goal makes the law whole again (R30, R31). -/
theorem MatrixLawBut.handOff {c : CellId} {s : State} (h : MatrixLawBut c s) (length : Nat) (tag : Option CueId)
    (hlen : length ≤ 4095) : MatrixLaw (handOff c (goalOf (s.cell c)) length tag s) := by
  have hf := handOff_frame c (goalOf (s.cell c)) length tag s
  have hslots : (Machine.handOff c (goalOf (s.cell c)) length tag s).cue.slots = s.cue.slots := by rw [hf.cue]
  have heli : (Machine.handOff c (goalOf (s.cell c)) length tag s).eli = s.eli := hf.outer.eli
  revert hslots heli
  unfold Machine.handOff
  split
  · intro hslots heli
    refine h.jump ?_ (by simp [glideJump]) hslots (by rw [heli])
    intro d
    have : (glideJump c (goalOf (s.cell c)) s).cell d = (s.setHeard c (goalOf (s.cell c))).cell d := by
      simp [glideJump, State.setHeard, State.setCell, State.cell]
    rw [this, State.cell_setHeard]
  · next hl =>
    split
    · next e he =>
      intro hslots heli
      obtain ⟨hmem, hcell⟩ := glideOf_some he
      have hc : ∀ d, (glideRetarget e (goalOf (s.cell c)) length tag s).cell d = s.cell d := by
        intro d; simp [glideRetarget, State.cell]
      have hg : (glideRetarget e (goalOf (s.cell c)) length tag s).glides = s.glides.map (fun x =>
          if x.cell = c then { x with goal := goalOf (s.cell c), remaining := length, tag := tag } else x) := by
        simp [glideRetarget, hcell]
      have hmap : (s.glides.map (fun x =>
          if x.cell = c then { x with goal := goalOf (s.cell c), remaining := length, tag := tag } else x)).map (·.cell) =
          s.glides.map (·.cell) := by
        rw [List.map_map]
        refine List.map_congr_left (fun x _ => ?_)
        simp only [Function.comp]
        split <;> rfl
      refine ⟨fun d => hc d ▸ h.cells d, ?_, ?_, ?_, ?_, ?_, ?_⟩
      · rw [hg, List.length_map]; exact h.room
      · rw [hg, hmap]; exact h.once
      · intro y hy
        rw [hg] at hy
        obtain ⟨x, hx, rfl⟩ := List.mem_map.mp hy
        obtain ⟨g1, g2, g3⟩ := h.goals x hx
        by_cases hxc : x.cell = c
        · simp only [hxc, if_true]
          exact ⟨by simp [hc], by simp; omega, by simpa using hlen⟩
        · simp only [hxc, if_false]
          exact ⟨by rw [hc]; exact g1 hxc, g2, g3⟩
      · intro d hd
        rw [hc]
        have hs : s.gliding d = false := by
          rw [gliding_false_iff] at hd ⊢
          intro x hx hxd
          have : x.cell ∈ (glideRetarget e (goalOf (s.cell c)) length tag s).glides.map (·.cell) := by
            rw [hg, hmap]; exact List.mem_map.mpr ⟨x, hx, rfl⟩
          obtain ⟨y, hy, hyx⟩ := List.mem_map.mp this
          exact hd y hy (hyx.trans hxd)
        refine h.heard d ?_ hs
        intro hdc
        rw [gliding_false_iff] at hs
        exact hs e hmem (hcell.trans hdc.symm)
      · intro n r hr
        exact h.slots n r (by simpa [State.slot, hslots] using hr)
      · have := h.length
        simpa [glideLengthLawful, heli] using this
    · next he =>
      have hnone := glideOf_none he
      split
      · next hroom =>
        intro hslots heli
        have hc : ∀ d, (glideAppend c (goalOf (s.cell c)) length tag s).cell d = s.cell d := by
          intro d; simp [glideAppend, State.cell]
        have hg : (glideAppend c (goalOf (s.cell c)) length tag s).glides =
            s.glides ++ [{ cell := c, goal := goalOf (s.cell c), remaining := length, tag := tag }] := by
          simp [glideAppend]
        refine ⟨fun d => hc d ▸ h.cells d, ?_, ?_, ?_, ?_, ?_, ?_⟩
        · rw [hg]; simp; omega
        · rw [hg, List.map_append, List.nodup_append]
          refine ⟨h.once, by simp, ?_⟩
          intro a ha b hb
          obtain ⟨x, hx, rfl⟩ := List.mem_map.mp ha
          simp only [List.map_cons, List.map_nil, List.mem_singleton] at hb
          exact hb ▸ hnone x hx
        · intro y hy
          rw [hg] at hy
          rcases List.mem_append.mp hy with hy | hy
          · obtain ⟨g1, g2, g3⟩ := h.goals y hy
            exact ⟨by rw [hc]; exact g1 (hnone y hy), g2, g3⟩
          · simp only [List.mem_singleton] at hy
            subst hy
            exact ⟨by simp [hc], by simp; omega, by simpa using hlen⟩
        · intro d hd
          rw [hc]
          rw [gliding_false_iff] at hd
          refine h.heard d ?_ ?_
          · intro hdc
            exact hd { cell := c, goal := goalOf (s.cell c), remaining := length, tag := tag }
              (by rw [hg]; simp) hdc.symm
          · rw [gliding_false_iff]
            intro x hx
            exact hd x (by rw [hg]; simp [hx])
        · intro n r hr
          exact h.slots n r (by simpa [State.slot, hslots] using hr)
        · have := h.length
          simpa [glideLengthLawful, heli] using this
      · intro hslots heli
        refine h.jump ?_ ?_ hslots (by rw [heli])
        · intro d
          have : (glideOverflow c (goalOf (s.cell c)) s).cell d = (s.setHeard c (goalOf (s.cell c))).cell d := by
            simp [glideOverflow, State.cell]
          rw [this, State.cell_setHeard]
        · simp only [glideOverflow, State.report_glides, State.setHeard_glides]
          rw [List.filter_eq_self.mpr]
          intro x hx
          simpa using hnone x hx

/-! ### Through a change -/

/-- A change whose value and length are in range (R7). -/
def Change.lawful (ch : Change) : Prop :=
  ch.length ≤ 4095 ∧
    match ch.kind with
    | .pan p => -32 ≤ p ∧ p ≤ 32
    | .cap v => v ≤ 220
    | _ => True

theorem clampChange_lawful (ch : Change) (hch : ch.lawful) (x : Cell) (h : x.lawful) :
    (clampChange ch.kind x).cell.lawful := by
  obtain ⟨h1, h2, h3, h4, h5⟩ := h
  obtain ⟨_, hk⟩ := hch
  cases hkind : ch.kind with
  | level v => exact ⟨by simp [clampChange], h2, h3, h4, h5⟩
  | nudge d =>
    simp only [clampChange]
    split
    · exact ⟨by simp, h2, h3, h4, h5⟩
    · split
      · exact ⟨by simp, h2, h3, h4, h5⟩
      · refine ⟨?_, h2, h3, h4, h5⟩
        simp only
        omega
  | mute => exact ⟨h1, h2, h3, h4, h5⟩
  | unmute => exact ⟨h1, h2, h3, h4, h5⟩
  | pan p =>
    rw [hkind] at hk
    exact ⟨h1, h2, h3, hk.1, hk.2⟩
  | cap v =>
    rw [hkind] at hk
    exact ⟨by simp [clampChange], hk, h3, h4, h5⟩

/-- A change keeps the law (R5, R30, R31). -/
theorem MatrixLaw.takeChange {s : State} (h : MatrixLaw s) (ch : Change) (hch : ch.lawful) :
    MatrixLaw (takeChange ch s) := by
  unfold Machine.takeChange
  simp only
  split
  · exact h
  · unfold applyChange
    simp only
    set x := (clampChange ch.kind (s.cell ch.cell)).cell with hx
    set t := markStale ch.cell ch.origin (s.setCell ch.cell { x with writer := some ch.origin }) with ht
    have hcell : ∀ d, t.cell d = if ch.cell = d then { x with writer := some ch.origin } else s.cell d := by
      intro d
      have : t.cell d = (s.setCell ch.cell { x with writer := some ch.origin }).cell d := rfl
      rw [this, State.cell_setCell]
    have hglides : t.glides = s.glides := rfl
    have hheard : x.heard = (s.cell ch.cell).heard := (clampChange_keeps ch.kind (s.cell ch.cell)).1
    have hgl : ∀ d, t.gliding d = s.gliding d := fun d => rfl
    have hbut : MatrixLawBut ch.cell t := by
      refine ⟨?_, h.room, h.once, ?_, ?_, h.slots, h.length⟩
      · intro d
        rw [hcell]
        split
        · exact clampChange_lawful ch hch _ (h.cells _)
        · exact h.cells d
      · intro e he
        obtain ⟨g1, g2, g3⟩ := h.goals e he
        exact ⟨fun hne => by rw [hcell, if_neg (fun k => hne k.symm)]; exact g1, g2, g3⟩
      · intro d hd hn
        rw [hcell, if_neg (fun k => hd k.symm)]
        exact h.heard d hn
    have hgoal : goalOf (t.cell ch.cell) = goalOf x := by rw [hcell, if_pos rfl]; rfl
    split
    · have := hbut.handOff ch.length ch.tag hch.1
      rwa [hgoal] at this
    · next hno =>
      have hno1 : goalOf (s.cell ch.cell) = goalOf x := by
        by_contra hh
        exact hno (.inl hh)
      have hno2 : s.gliding ch.cell = false := by
        cases hg : s.gliding ch.cell
        · rfl
        · exact absurd (.inr hg) hno
      refine ⟨hbut.cells, hbut.room, hbut.once, ?_, ?_, hbut.slots, hbut.length⟩
      · intro e he
        obtain ⟨g1, g2, g3⟩ := hbut.goals e he
        exact ⟨g1 ((gliding_false_iff s ch.cell).mp hno2 e he), g2, g3⟩
      · intro d hd
        by_cases e : d = ch.cell
        · subst e
          rw [hgoal, ← hno1, hcell, if_pos rfl]
          exact hheard.trans (h.heard ch.cell hno2)
        · exact hbut.heard d e hd

theorem MatrixLaw.takeChanges {s : State} (h : MatrixLaw s) (chs : List Change) (hch : ∀ ch ∈ chs, ch.lawful) :
    MatrixLaw (takeChanges chs s) := by
  induction chs generalizing s with
  | nil => exact h
  | cons ch rest ih => exact ih (h.takeChange ch (hch ch (by simp))) (fun c hc => hch c (by simp [hc]))

/-! ### Through the block end and the resets -/

/-- The block-end advance keeps the law (R30, R31, R38). -/
theorem MatrixLaw.glideAdvance {s : State} (h : MatrixLaw s) : MatrixLaw (glideAdvance s) := by
  have hf := glideAdvance_frame s
  have hcell : ∀ d, (Machine.glideAdvance s).cell d = (advanceEntries s.glides s).2.cell d := fun d => rfl
  have hglides : (Machine.glideAdvance s).glides =
      (s.glides.filter (fun e => decide (1 < e.remaining))).map GlideEntry.later := advanceEntries_list s.glides s
  have hother : ∀ d, s.gliding d = false → (Machine.glideAdvance s).cell d = s.cell d := by
    intro d hd
    rw [hcell]
    exact advanceEntries_other _ _ _ ((gliding_false_iff s d).mp hd)
  have hown : ∀ e ∈ s.glides, (Machine.glideAdvance s).cell e.cell =
      { s.cell e.cell with heard := advancedHeard e (s.cell e.cell) } := by
    intro e he
    rw [hcell]
    exact advanceEntries_own _ _ h.once e he
  have hgoal : ∀ d, goalOf ((Machine.glideAdvance s).cell d) = goalOf (s.cell d) := by
    intro d
    cases hd : s.gliding d
    · rw [hother d hd]
    · have : ¬ ∀ e ∈ s.glides, e.cell ≠ d := by
        rw [← gliding_false_iff]; simp [hd]
      push Not at this
      obtain ⟨e, he, rfl⟩ := this
      rw [hown e he]
      rfl
  refine ⟨?_, ?_, ?_, ?_, ?_, ?_, ?_⟩
  · intro d
    cases hd : s.gliding d
    · rw [hother d hd]; exact h.cells d
    · have : ¬ ∀ e ∈ s.glides, e.cell ≠ d := by
        rw [← gliding_false_iff]; simp [hd]
      push Not at this
      obtain ⟨e, he, rfl⟩ := this
      rw [hown e he]
      refine lawful_heard (h.cells _) ?_
      have hg : e.goal ≤ 220 := by rw [(h.goals e he).1]; exact goalOf_le _ (h.cells _)
      unfold advancedHeard
      split
      · exact hg
      · have := glideStep_le_max (s.cell e.cell).heard e.goal e.remaining
        have := (h.cells e.cell).2.2.1
        omega
  · rw [hglides, List.length_map]
    exact le_trans (List.length_filter_le _ _) h.room
  · rw [hglides, List.map_map]
    have : ((fun x : GlideEntry => x.cell) ∘ GlideEntry.later) = (fun x : GlideEntry => x.cell) := rfl
    rw [this]
    exact List.Sublist.nodup (List.Sublist.map _ List.filter_sublist) h.once
  · intro y hy
    rw [hglides] at hy
    obtain ⟨e, he, rfl⟩ := List.mem_map.mp hy
    obtain ⟨hm, hr⟩ := List.mem_filter.mp he
    have hr : 1 < e.remaining := by simpa using hr
    obtain ⟨g1, g2, g3⟩ := h.goals e hm
    refine ⟨?_, by simp [GlideEntry.later]; omega, by simp [GlideEntry.later]; omega⟩
    show e.goal = goalOf ((Machine.glideAdvance s).cell e.cell)
    rw [hgoal]
    exact g1
  · intro d hd
    rw [hgoal]
    cases hs : s.gliding d
    · rw [hother d hs]; exact h.heard d hs
    · have : ¬ ∀ e ∈ s.glides, e.cell ≠ d := by
        rw [← gliding_false_iff]; simp [hs]
      push Not at this
      obtain ⟨e, he, rfl⟩ := this
      rw [hown e he]
      have hle : e.remaining ≤ 1 := by
        by_contra hgt
        rw [gliding_false_iff] at hd
        refine hd e.later ?_ rfl
        rw [hglides]
        exact List.mem_map.mpr ⟨e, List.mem_filter.mpr ⟨he, by simp; omega⟩, rfl⟩
      simp only [advancedHeard, hle, if_true]
      exact (h.goals e he).1
  · intro n r hr
    exact h.slots n r (by
      have : (Machine.glideAdvance s).cue.slots = s.cue.slots := by rw [hf.cue]
      simpa [State.slot, this] using hr)
  · have := h.length
    simpa [glideLengthLawful, hf.outer.eli] using this

/-- The completion of one entry keeps the law. -/
theorem MatrixLaw.glideComplete {s : State} (h : MatrixLaw s) (c : CellId) : MatrixLaw (glideComplete c s) := by
  have hf := glideComplete_frame c s
  have hslots : (Machine.glideComplete c s).cue.slots = s.cue.slots := by rw [hf.cue]
  have hlen : (Machine.glideComplete c s).eli.glideLength = s.eli.glideLength := by rw [hf.outer.eli]
  revert hslots hlen
  unfold Machine.glideComplete
  split
  · intro _ _; exact h
  · next e he =>
    obtain ⟨hmem, hec⟩ := glideOf_some he
    split
    · intro hslots hlen
      have hbut : MatrixLawBut c s :=
        ⟨h.cells, h.room, h.once, fun x hx => ⟨fun _ => (h.goals x hx).1, (h.goals x hx).2⟩,
         fun d _ hd => h.heard d hd, h.slots, h.length⟩
      refine hbut.jump ?_ (by simp) hslots hlen
      intro d
      have : ∀ t : State, ∀ l, (t.setGlides l).cell d = t.cell d := fun _ _ => rfl
      simp only [this]
      rw [glideFinish_cell, hec]
      have hg : e.goal = goalOf (s.cell c) := by rw [(h.goals e hmem).1, hec]
      rw [hg]
    · intro _ _; exact h

/-- A tag strip keeps the law (R37). -/
theorem MatrixLaw.stripTags {s : State} (h : MatrixLaw s) : MatrixLaw (stripTags s) := by
  have hmap : (s.glides.map (fun e => { e with tag := none })).map (fun x : GlideEntry => x.cell) =
      s.glides.map (·.cell) := by
    rw [List.map_map]; rfl
  refine ⟨h.cells, ?_, ?_, ?_, ?_, h.slots, h.length⟩
  · simpa [Machine.stripTags] using h.room
  · simp only [Machine.stripTags, State.setGlides_glides]
    rw [hmap]; exact h.once
  · intro y hy
    simp only [Machine.stripTags, State.setGlides_glides] at hy
    obtain ⟨e, he, rfl⟩ := List.mem_map.mp hy
    exact h.goals e he
  · intro d hd
    refine h.heard d ?_
    rw [gliding_false_iff] at hd ⊢
    intro e he
    exact hd { e with tag := none } (by
      simp only [Machine.stripTags, State.setGlides_glides]
      exact List.mem_map.mpr ⟨e, he, rfl⟩)

/-- Emptying the list at SOFT RESET keeps the law (R28, R44). -/
theorem MatrixLaw.glideEmpty {s : State} (h : MatrixLaw s) : MatrixLaw (glideEmpty s) := by
  have hcell : ∀ d, (Machine.glideEmpty s).cell d = { s.cell d with heard := goalOf (s.cell d) } := by
    intro d
    simp [Machine.glideEmpty, State.cell]
  refine ⟨?_, by simp [Machine.glideEmpty], by simp [Machine.glideEmpty], by simp [Machine.glideEmpty], ?_, h.slots, h.length⟩
  · intro d
    rw [hcell]
    exact lawful_heard (h.cells d) (goalOf_le _ (h.cells d))
  · intro d _
    rw [hcell]
    rfl

end Sys2Proof.Machine
end

