-- ==== Sys2Proof/Laws/Sound.lean ====
section
/-! SUPPORT. The law of the port records and of the output records (R167, R175) through every operation of SRC and OUT. -/

namespace Sys2Proof.Machine

/-- A port record in its ranges (R167). -/
def PortRecord.lawful (r : PortRecord) : Prop := r.badRun ≤ 3 ∧ r.goodRun ≤ 15

/-- An output record in its ranges (R175). -/
def OutputRecord.lawful (r : OutputRecord) : Prop := r.ceiling ≤ 220 ∧ r.hits ≤ 65535 ∧ r.fadeIn ≤ 32

theorem PortOutputLaw.port {s : State} (h : PortOutputLaw s) (p : Port) : (s.src.port p).lawful := ⟨h.badRun p, h.goodRun p⟩

theorem PortOutputLaw.record {s : State} (h : PortOutputLaw s) (m : Fin 16) : (s.outputRecord m).lawful :=
  ⟨h.ceiling m, h.hits m, h.fadeIn m⟩

theorem PortOutputLaw.of {s : State} (a : s.src.portA.lawful) (b : s.src.portB.lawful)
    (o : ∀ m, (s.outputRecord m).lawful) : PortOutputLaw s :=
  ⟨fun p => by cases p <;> first | exact a.1 | exact b.1, fun p => by cases p <;> first | exact a.2 | exact b.2,
    fun m => (o m).1, fun m => (o m).2.1, fun m => (o m).2.2⟩

theorem PortOutputLaw.of_eq {s t : State} (h : PortOutputLaw s) (a : t.src.portA = s.src.portA) (b : t.src.portB = s.src.portB)
    (o : t.out.records = s.out.records) : PortOutputLaw t :=
  PortOutputLaw.of (a ▸ h.port .a) (b ▸ h.port .b) (fun m => by simpa [State.outputRecord, o] using h.record m)

/-- New output records, each in its ranges. -/
theorem PortOutputLaw.records {s : State} (h : PortOutputLaw s) (x : Outputs)
    (hx : ∀ m, (tableGet x.records m).lawful) : PortOutputLaw (s.setOut x) :=
  PortOutputLaw.of (h.port .a) (h.port .b) hx

theorem judgePort_lawful (good : Bool) {r : PortRecord} (h : r.lawful) : (judgePort good r).lawful := by
  obtain ⟨h1, h2⟩ := h
  unfold judgePort PortRecord.lawful
  split
  · split
    · exact ⟨by simp, h2⟩
    · split
      · exact ⟨by simp only; omega, h2⟩
      · exact ⟨by simp, by simp⟩
  · split
    · split
      · exact ⟨h1, by simp only; omega⟩
      · exact ⟨by simp, by simp⟩
    · exact ⟨h1, by simp⟩

theorem PortOutputLaw.setPort {s : State} (h : PortOutputLaw s) (p : Port) (good : Bool) :
    PortOutputLaw (s.setSrc (s.src.setPort p (judgePort good (s.src.port p)))) := by
  cases p
  · exact PortOutputLaw.of (judgePort_lawful good (h.port .a)) (h.port .b) h.record
  · exact PortOutputLaw.of (h.port .a) (judgePort_lawful good (h.port .b)) h.record

/-- Both ports judged, whatever else SRC holds. -/
theorem PortOutputLaw.judged {s : State} (h : PortOutputLaw s) (x : Sources) (a b : Bool)
    (ha : x.portA = judgePort a s.src.portA) (hb : x.portB = judgePort b s.src.portB) : PortOutputLaw (s.setSrc x) :=
  PortOutputLaw.of (by rw [State.setSrc_src, ha]; exact judgePort_lawful a (h.port .a))
    (by rw [State.setSrc_src, hb]; exact judgePort_lawful b (h.port .b)) h.record

/-- Every record rewritten by a function that keeps the ranges. -/
theorem PortOutputLaw.mapped {s : State} (h : PortOutputLaw s) (f : OutputRecord → OutputRecord)
    (hf : ∀ r : OutputRecord, r.lawful → (f r).lawful) (x : Outputs) (hx : x.records = s.out.records.map f) :
    PortOutputLaw (s.setOut x) := by
  refine h.records x (fun m => ?_)
  rw [hx]
  have : tableGet (s.out.records.map f) m = f (s.outputRecord m) := by simp [tableGet, State.outputRecord]
  rw [this]
  exact hf _ (h.record m)

theorem PortOutputLaw.setOutputRecord {s : State} (h : PortOutputLaw s) (m : Fin 16) (r : OutputRecord) (hr : r.lawful) :
    PortOutputLaw (s.setOutputRecord m r) := by
  refine h.records _ (fun k => ?_)
  simp only [tableGet_tableSet]
  split
  · exact hr
  · exact h.record k

theorem PortOutputLaw.setHush {s : State} (h : PortOutputLaw s) (on : Bool) : PortOutputLaw (setHush on s) := by
  unfold Machine.setHush
  split
  · exact h.mapped (fun r => { r with fadeIn := 0 }) (fun r k => ⟨k.1, k.2.1, by simp⟩) _ rfl
  · exact h.of_eq rfl rfl rfl

theorem PortOutputLaw.setOutputMode {s : State} (h : PortOutputLaw s) (m : Fin 16) (o : OutputMode) (t : Option (Fin 16)) :
    PortOutputLaw (setOutputMode m o t s) := by
  have k := h.record m
  exact h.setOutputRecord m _ ⟨k.1, k.2.1, by simp only; split; omega; exact k.2.2⟩

theorem PortOutputLaw.setCeiling {s : State} (h : PortOutputLaw s) (m : Fin 16) (c : Nat) (hc : c ≤ 220) :
    PortOutputLaw (setCeiling m c s) :=
  h.setOutputRecord m _ ⟨hc, (h.record m).2⟩

theorem PortOutputLaw.clearHits {s : State} (h : PortOutputLaw s) : PortOutputLaw (clearHits s) :=
  h.mapped (fun r => { r with hits := 0 }) (fun r k => ⟨k.1, by simp, k.2.2⟩) _ rfl

theorem PortOutputLaw.fadeBlockEnd {s : State} (h : PortOutputLaw s) : PortOutputLaw (fadeBlockEnd s) := by
  unfold Machine.fadeBlockEnd
  split
  · exact h
  · exact h.mapped (fun r => { r with fadeIn := if r.fadeIn < 32 then r.fadeIn + 1 else r.fadeIn })
      (fun r k => ⟨k.1, k.2.1, by simp only; split <;> first | omega | exact k.2.2⟩) _ rfl

theorem PortOutputLaw.outputSoftReset {s : State} (h : PortOutputLaw s) : PortOutputLaw (outputSoftReset s) := by
  have k : PortOutputLaw (setSourceMode .auto s) := h.of_eq rfl rfl rfl
  exact k.mapped (fun r => { r with hits := 0, fadeIn := 32 }) (fun r k => ⟨k.1, by simp, by simp⟩) _ rfl

/-- A block start counts hits up to 65535 (R177). -/
theorem PortOutputLaw.counted {s : State} (h : PortOutputLaw s) (x : Outputs)
    (hx : x.records = Vector.ofFn (fun m => countHit m s)) : PortOutputLaw (s.setOut x) := by
  refine h.records x (fun m => ?_)
  rw [hx]
  have : tableGet (Vector.ofFn (fun m => countHit m s)) m = countHit m s := by simp [tableGet]
  rw [this]
  have k := h.record m
  unfold countHit
  simp only
  split
  · exact ⟨k.1, by simp only; omega, k.2.2⟩
  · exact k

theorem PortOutputLaw.reset {s : State} (hs : s.src = Sources.startUp) (ho : s.out = Outputs.startUp) : PortOutputLaw s := by
  refine PortOutputLaw.of ?_ ?_ (fun m => ?_)
  · rw [hs]; exact ⟨by decide, by decide⟩
  · rw [hs]; exact ⟨by decide, by decide⟩
  · have : s.outputRecord m = { mode := .normal, target := m, ceiling := 200, hits := 0, fadeIn := 32 } := by
      simp [State.outputRecord, ho, Outputs.startUp, tableGet]
    rw [this]
    exact ⟨by simp only; omega, by simp only; omega, by simp only; omega⟩

end Sys2Proof.Machine
end

