-- ==== Sys2Proof/Laws/Kept.lean ====
section
/-! SUPPORT. What a step can do to the fields that laws speak of, said once: a property of states that every one of the few
operations of `Kept` keeps is kept by every step. -/

namespace Sys2Proof.Machine

/-- The fields that no law of the block speaks of may differ, and those of the ports and of the outputs. -/
structure SameShow (s t : State) : Prop where
  cells : t.cells = s.cells
  glides : t.glides = s.glides
  cue : t.cue = s.cue
  stations : t.stations = s.stations
  lockout : t.lockout = s.lockout
  grips : t.grips = s.grips
  order : t.link.order = s.link.order
  length : t.eli.glideLength = s.eli.glideLength

/-- The fields that no law of the block speaks of may differ. -/
structure SameLawful (s t : State) : Prop extends SameShow s t where
  src : t.src = s.src
  out : t.out = s.out

/-- The operations that every step is made of, each keeping a property. -/
structure Kept (L : State → Prop) : Prop where
  same : ∀ {s t : State}, L s → SameLawful s t → L t
  sound : ∀ {s t : State}, L s → SameShow s t → (PortOutputLaw s → PortOutputLaw t) → L t
  length : ∀ (s : State) (v : Nat), v ≤ 255 → L s → L (s.setEli { s.eli with glideLength := v })
  changes : ∀ (s : State) (chs : List Change), (∀ ch ∈ chs, ch.tag = none ∧ (s.eli.glideLength ≤ 255 →
    (∀ c, (s.cell c).lawful) → ch.lawful)) → L s → L (takeChanges chs s)
  fires : ∀ (s : State) (c : CueId) (r : CueRecord), s.slot c = some r → L s → L (fireCue c r s)
  desk : ∀ (s : State) (p : Option CueId) (hold : Bool) (flags : Word16), L s →
    L (s.setCue { s.cue with nextPointer := p, hold := hold, flags := flags })
  stop : ∀ s : State, s.cue.phase = .fading → L s → L ((stripTags s).setCue { s.cue with running := none, phase := .idle })
  done : ∀ (s : State) (r : RunningCue) (p : Option CueId), s.cue.phase = .fading → s.cue.running = some r →
    r.outstanding = 0 → L s → L (s.setCue { s.cue with running := none, nextPointer := p, phase := .idle })
  waits : ∀ (s : State) (w : Nat), s.cue.phase = .idle → L s → L (s.setCue { s.cue with phase := .followWait, timer := w })
  ticks : ∀ (s : State) (w : Nat), s.cue.phase = .followWait → L s → L (s.setCue { s.cue with timer := w })
  ends : ∀ (s : State) (hold : Bool), s.cue.phase = .followWait → L s →
    L (s.setCue { s.cue with hold := hold, timer := 0, phase := .idle })
  advance : ∀ s : State, L s → L (glideAdvance s)
  complete : ∀ (s : State) (c : CellId), L s → L (glideComplete c s)
  load : ∀ (s : State) (n : CueId) (r : CueRecord), r.lawful → loadFits n r s = true → L s → L (writeSlot n (some r) s)
  unload : ∀ (s : State) (n : CueId), L s → L (writeSlot n none s)
  soft : ∀ s : State, L s → L (cueSoftReset (glideEmpty s))
  charge : ∀ (s : State) (n : StationId), L s → L (chargeStation n s)
  uncharge : ∀ (s : State) (n : StationId), L s → L (s.setStation n { s.station n with checkCount := 0 })
  idleZero : ∀ (s : State) (n : StationId), L s → L (clearIdle n s)
  answer : ∀ (s : State) (n : StationId), L s → L (stationAnswered n s)
  missed : ∀ (s : State) (n : StationId), L s → L (stationMissed n s)
  idles : ∀ s : State, L s → L (idleBlockEnd s)
  profile : ∀ (s : State) (n : StationId) (p : Nat) (a : Bool), p ≤ 7 → L s →
    L (s.setStation n { s.station n with priority := p, admitted := a })
  absent : ∀ (s : State) (n : StationId), L s → L (makeAbsent n s)
  attach : ∀ (s : State) (n : StationId), L s → L (attachStation n s)
  map : ∀ (s : State) (n : StationId) (m : StationMap), StationMap.lawful m → L s → L (dropGrip n (s.setStation n { s.station n with map := m }))
  drop : ∀ (s : State) (n : StationId), L s → L (dropGrip n s)
  make : ∀ (s : State) (n : StationId) (i : LocalIndex) (e : MapEntry), (s.station n).state = .attached →
    mapAt (s.station n).map i = some e → L s → L (makeGrip n i e s)
  refresh : ∀ (s : State) (n : StationId), L s → L (refreshGrip n s)
  lockout : ∀ (s : State) (v : Nat), v ≤ 7 → L s → L (s.setLockout v)
  resets : ∀ s : State, L s → L (resetStations s)
  toTail : ∀ (s : State) (n : StationId), L s → L (s.setLink { s.link with order := toTail n s.link.order })
  startOrder : ∀ s : State, L s → L (s.setLink { s.link with order := LinkRecord.startOrder })
  init : ∀ (s : State) (pin : Bool), L s → L (enterInit pin s)

theorem levelOf_le {b : Byte} {v : Nat} (h : levelOf b = some v) : v ≤ 220 := by
  unfold levelOf at h
  split at h
  · simp only [Option.some.injEq] at h
    subst h
    assumption
  · simp at h

namespace Kept
variable {L : State → Prop} (h : Kept L)
include h

/-! ### Updates of fields that no law speaks of -/

theorem setEli {s : State} (x : EngineerLink) (hx : x.glideLength = s.eli.glideLength) (k : L s) : L (s.setEli x) :=
  h.same k ⟨⟨rfl, rfl, rfl, rfl, rfl, rfl, rfl, hx⟩, rfl, rfl⟩

theorem setLink {s : State} (x : LinkRecord) (hx : x.order = s.link.order) (k : L s) : L (s.setLink x) :=
  h.same k ⟨⟨rfl, rfl, rfl, rfl, rfl, rfl, hx, rfl⟩, rfl, rfl⟩

theorem setInHand {s : State} (x : Option Request) (k : L s) : L (s.setInHand x) :=
  h.same k ⟨⟨rfl, rfl, rfl, rfl, rfl, rfl, rfl, rfl⟩, rfl, rfl⟩

theorem setSlr {s : State} (x : ShowReceiver) (k : L s) : L (s.setSlr x) :=
  h.same k ⟨⟨rfl, rfl, rfl, rfl, rfl, rfl, rfl, rfl⟩, rfl, rfl⟩

theorem setSrc {s : State} (x : Sources) (hx : PortOutputLaw s → PortOutputLaw (s.setSrc x)) (k : L s) : L (s.setSrc x) :=
  h.sound k ⟨rfl, rfl, rfl, rfl, rfl, rfl, rfl, rfl⟩ hx

theorem setOut {s : State} (x : Outputs) (hx : PortOutputLaw s → PortOutputLaw (s.setOut x)) (k : L s) : L (s.setOut x) :=
  h.sound k ⟨rfl, rfl, rfl, rfl, rfl, rfl, rfl, rfl⟩ hx

theorem setEvl {s : State} (x : EventLatch) (k : L s) : L (s.setEvl x) :=
  h.same k ⟨⟨rfl, rfl, rfl, rfl, rfl, rfl, rfl, rfl⟩, rfl, rfl⟩

theorem report {s : State} (e : Event) (k : L s) : L (s.report e) := by
  unfold State.report
  split
  · exact h.setEvl _ k
  · exact k

theorem refuse {s : State} (k : L s) : L (refuseConsole s) := h.setEli _ rfl k

theorem reply {s : State} (b : List Byte) (k : L s) : L (formReply b s) := h.setEli _ rfl k

/-! ### Cues -/

theorem fire {s : State} (c : CueId) (k : L s) : L (fire c s) := by
  have fires : ∀ (fuel : Nat) (c f : CueId) (r : CueRecord), chain fuel c s = .fires f r → s.slot f = some r := by
    intro fuel
    induction fuel with
    | zero => intro c f r e; simp [chain] at e
    | succ n ih =>
      intro c f r e
      unfold chain at e
      split at e
      · simp at e
      · next x hx =>
        split at e
        · simp only [ChainEnd.fires.injEq] at e
          obtain ⟨rfl, rfl⟩ := e
          exact hx
        · split at e
          · exact ih _ _ _ e
          · simp at e
  unfold Machine.fire
  split
  · next f r e => exact h.fires s f r (fires _ _ _ _ e) k
  · exact h.report _ (h.desk s _ _ _ k)
  · exact h.report _ k

theorem fireNext {s : State} (k : L s) : L (fireNext s) := by
  unfold Machine.fireNext
  split
  · exact h.report _ k
  · exact h.fire _ k

theorem completionCheck {s : State} (k : L s) : L (completionCheck s) := by
  unfold Machine.completionCheck
  split
  · next r hp hr =>
    split
    · next h0 =>
      have kd := h.report .cueDone k
      unfold followOnHandling
      split
      · have kn := h.done (s.report .cueDone) r (s.report .cueDone).cue.nextPointer (by simpa using hp) (by simpa using hr)
          h0 kd
        exact kn
      · next f _ =>
        have kf := h.done (s.report .cueDone) r (some f.cue) (by simpa using hp) (by simpa using hr) h0 kd
        have kf' : L (((s.report .cueDone).setCue { (s.report .cueDone).cue with running := none }).setCue
            { ((s.report .cueDone).setCue { (s.report .cueDone).cue with running := none }).cue with
              nextPointer := some f.cue, phase := .idle }) := kf
        simp only
        split
        · exact kf'
        · split
          · exact h.fireNext kf'
          · exact h.waits _ _ rfl kf'
    · exact k
  · exact k

theorem expireFollowWait {s : State} (hp : s.cue.phase = .followWait) (k : L s) : L (expireFollowWait s) :=
  h.fireNext (h.ends s s.cue.hold hp k)

theorem expireFollowTimer {s : State} (k : L s) : L (expireFollowTimer s) := by
  unfold Machine.expireFollowTimer
  split
  · next hp => exact h.expireFollowWait hp.1 k
  · exact k

theorem cueBlockEnd {s : State} (k : L s) : L (cueBlockEnd s) := by
  unfold Machine.cueBlockEnd
  split
  · exact k
  · exact h.completionCheck k
  · next hp =>
    split
    · exact h.expireFollowWait hp k
    · exact h.ticks s _ hp k

theorem cueGoto {s : State} (n : Nat) (k : L s) : L (cueGoto n s) := by
  unfold Machine.cueGoto
  split
  · exact h.fire _ k
  · exact h.report _ k

theorem cueStop {s : State} (k : L s) : L (cueStop s) := by
  unfold Machine.cueStop
  split
  · exact k
  · next hp => exact h.stop s hp k
  · next hp => exact h.ends s s.cue.hold hp k

theorem cueHoldOn {s : State} (k : L s) : L (cueHoldOn s) := by
  unfold Machine.cueHoldOn
  split
  · next hp => exact h.ends s true hp k
  · exact h.desk s s.cue.nextPointer true s.cue.flags k

theorem cueHoldOff {s : State} (k : L s) : L (cueHoldOff s) := h.desk s s.cue.nextPointer false s.cue.flags k

theorem cueFlagsSet {s : State} (m : Word16) (k : L s) : L (cueFlagsSet m s) := h.desk s s.cue.nextPointer s.cue.hold _ k

theorem cueFlagsClear {s : State} (m : Word16) (k : L s) : L (cueFlagsClear m s) :=
  h.desk s s.cue.nextPointer s.cue.hold _ k

theorem cueSetPointer {s : State} (p : Option CueId) (k : L s) : L (cueSetPointer p s) :=
  h.desk s p s.cue.hold s.cue.flags k

theorem cueDelete {s : State} (n : CueId) (k : L s) : L (cueDelete n s) := by
  unfold Machine.cueDelete
  simp only
  split
  · exact h.desk _ _ (writeSlot n none s).cue.hold (writeSlot n none s).cue.flags (h.unload s n k)
  · exact h.unload s n k

/-! ### Changes -/

theorem change {s : State} (ch : Change) (ht : ch.tag = none)
    (hl : s.eli.glideLength ≤ 255 → (∀ c, (s.cell c).lawful) → ch.lawful) (k : L s) : L (takeChange ch s) :=
  h.changes s [ch] (by intro x hx; simp only [List.mem_singleton] at hx; subst hx; exact ⟨ht, hl⟩) k

theorem mixCopy {s : State} (a b : Fin 16) (k : L s) : L (mixCopy a b s) := by
  refine h.changes s _ ?_ k
  intro ch hch
  unfold mixCopyChanges at hch
  obtain ⟨src, -, hch⟩ := List.mem_flatMap.mp hch
  simp only [List.mem_cons, List.not_mem_nil, or_false] at hch
  rcases hch with rfl | rfl | rfl
  · exact ⟨rfl, fun hl hc => ⟨by simp only [engineerChange]; omega, (hc _).2.2.2⟩⟩
  · exact ⟨rfl, fun hl hc => ⟨by simp only [engineerChange]; omega, trivial⟩⟩
  · refine ⟨rfl, fun hl hc => ⟨by simp only [engineerChange]; omega, ?_⟩⟩
    simp only [engineerChange]
    cases (s.cell ⟨a, src⟩).muted <;> trivial

theorem mixClear {s : State} (m : Fin 16) (k : L s) : L (mixClear m s) := by
  refine h.changes s _ ?_ k
  intro ch hch
  unfold mixClearChanges at hch
  obtain ⟨src, -, hch⟩ := List.mem_flatMap.mp hch
  simp only [List.mem_cons, List.not_mem_nil, or_false] at hch
  rcases hch with rfl | rfl <;>
    exact ⟨rfl, fun hl hc => ⟨by simp only [engineerChange]; omega, trivial⟩⟩

/-! ### The Engineer Link -/

theorem linkReset {s : State} (n : Nat) (k : L s) : L (linkReset n s) := by
  unfold Machine.linkReset
  have k1 := h.startOrder _ (h.setInHand none (h.resets s k))
  exact h.same k1 ⟨⟨rfl, rfl, rfl, rfl, rfl, rfl, rfl, rfl⟩, rfl, rfl⟩

theorem softReset {s : State} (k : L s) : L (softReset s) := by
  unfold Machine.softReset
  have k1 := h.lockout _ 0 (by omega) (h.linkReset 2 (h.soft s k))
  have k2 : L (outputSoftReset ((Machine.linkReset 2 (cueSoftReset (glideEmpty s))).setLockout 0)) :=
    h.sound k1 ⟨rfl, rfl, rfl, rfl, rfl, rfl, rfl, rfl⟩ PortOutputLaw.outputSoftReset
  have k3 := h.length _ 8 (by omega) k2
  exact h.same k3 ⟨⟨rfl, rfl, rfl, rfl, rfl, rfl, rfl, rfl⟩, rfl, rfl⟩

theorem issueLinkReset {s : State} (k : L s) : L (issueLinkReset s) := h.report _ (h.linkReset 2 k)

theorem applyProfile {s : State} (n : StationId) (p : Nat) (a : Bool) (hp : p ≤ 7) (k : L s) : L (applyProfile n p a s) := by
  unfold Machine.applyProfile
  simp only
  split
  · exact h.absent _ n (h.profile s n p a hp k)
  · exact h.profile s n p a hp k

theorem applyMapLoad {s : State} (n : StationId) (m : StationMap) (hm : StationMap.lawful m) (k : L s) :
    L (applyMapLoad n m s) := by
  unfold Machine.applyMapLoad
  simp only
  split
  · exact h.setLink _ rfl (h.map s n m hm k)
  · exact h.map s n m hm k

theorem takeCode {s : State} (c : ConsoleCode) (ops : List Byte) (k : L s) : L (takeCode c ops s) := by
  unfold Machine.takeCode
  split
  · exact k
  · unfold takePosition; split
    · exact h.setEli _ rfl k
    · exact h.refuse k
  · unfold takeWalk; split
    · exact h.setEli _ rfl k
    · exact h.refuse k
  · unfold takeField; split
    · exact h.setEli _ rfl k
    · exact h.refuse k
  · unfold takePage; split
    · exact h.setEli _ rfl k
    · exact h.refuse k
  · exact h.setEli _ rfl (h.reply _ k)
  · exact h.setEli _ rfl k
  · exact h.setEvl _ k
  · unfold takeHush; split
    · exact h.sound k (by unfold setHush; split <;> exact ⟨rfl, rfl, rfl, rfl, rfl, rfl, rfl, rfl⟩)
        (fun q => q.setHush _)
    · exact h.refuse k
  · exact h.softReset k
  · unfold takeLockout; split
    · next hv => exact h.lockout s _ hv k
    · exact h.refuse k
  · unfold takeStationProfile; split
    · next p _ _ _ _ => exact h.applyProfile _ _ _ (by omega) k
    · exact h.refuse k
  · unfold takeStationRead; split
    · exact h.uncharge _ _ (h.reply _ k)
    · exact h.refuse k
  · unfold takeMapRead; split
    · exact h.reply _ k
    · exact h.refuse k
  · unfold takeCueDelete; split
    · exact h.cueDelete _ k
    · exact h.refuse k
  · unfold takeCueRead; split
    · exact h.same (h.reply _ k) ⟨⟨rfl, rfl, rfl, rfl, rfl, rfl, rfl, rfl⟩, rfl, rfl⟩
    · exact h.refuse k
  · unfold takeCuePointer; split
    · exact h.cueSetPointer _ k
    · split
      · split
        · exact h.cueSetPointer _ k
        · exact h.refuse k
      · exact h.refuse k
  · exact h.fireNext k
  · unfold takeGoto; split
    · exact h.fire _ k
    · exact h.refuse k
  · exact h.cueStop k
  · unfold takeHold; split
    · split
      · exact h.cueHoldOn k
      · exact h.cueHoldOff k
    · exact h.refuse k
  · exact h.cueFlagsSet _ k
  · exact h.cueFlagsClear _ k
  · exact h.issueLinkReset k
  · unfold takeSourceMode; split
    · exact h.setSrc _ (fun q => q.of_eq rfl rfl rfl) k
    · exact h.refuse k
  · unfold takePatch; split
    · exact h.setSrc _ (fun q => q.of_eq rfl rfl rfl) k
    · exact h.refuse k
  · unfold takeOutputMode; split
    · split
      · split
        · exact h.setOut _ (fun q => q.setOutputMode _ _ _) k
        · exact h.refuse k
      · exact h.setOut _ (fun q => q.setOutputMode _ _ _) k
    · exact h.refuse k
  · unfold takeCeiling; split
    · next c _ hc => exact h.setOut _ (fun q => q.setCeiling _ _ (levelOf_le hc)) k
    · exact h.refuse k
  · exact h.setOut _ (fun q => q.clearHits) (h.reply _ k)
  · next v => exact h.length s v.toNat (by omega) k
  · unfold takeMixCopy; split
    · exact h.mixCopy _ _ k
    · exact h.refuse k
  · unfold takeMixClear; split
    · exact h.mixClear _ k
    · exact h.refuse k
  · exact k

theorem streamByte {s : State} (b : Byte) (k : L s) : L (streamByte b s) := by
  unfold Machine.streamByte
  split
  · exact h.setEvl _ (h.setEli _ rfl k)
  · have k0 : L (s.setEli { s.eli with dataOut := 0 }) := h.setEli _ rfl k
    simp only
    split
    · unfold collectByte
      simp only
      split
      · exact h.refuse (h.setEli _ rfl k0)
      · split
        · exact h.setEli _ rfl k0
        · split
          · unfold judgeCommand
            split
            · exact h.refuse (h.setEli _ rfl k0)
            · exact h.takeCode _ _ (h.setEli _ rfl k0)
          · exact h.setEli _ rfl k0
    · split
      · exact h.setEli _ rfl (h.reply _ k0)
      · exact k0

theorem byteOfKind {s : State} (kind : ByteKind) (act : State → State) (ha : ∀ t, L t → L (act t)) (k : L s) :
    L (byteOfKind kind act s) := by
  unfold Machine.byteOfKind
  split
  · exact h.setEli _ rfl k
  · exact h.setEli _ rfl k
  · split
    · exact k
    · exact h.setEli _ rfl (ha s k)

theorem sendBytes {s : State} (bytes : List Byte) (k : L s) : L (sendBytes bytes s) := by
  unfold Machine.sendBytes
  split
  · exact k
  · have all : ∀ (bs : List Byte) (t : State), L t → L (bs.foldl (fun s b => Machine.streamByte b s) t) := by
      intro bs
      induction bs with
      | nil => exact fun _ kt => kt
      | cons b rest ih => exact fun _ kt => ih _ (h.streamByte b kt)
    exact h.setEli _ rfl (all bytes s k)

theorem writeCell {s : State} (b : Byte) (k : L s) : L (writeCell b s) := by
  unfold Machine.writeCell
  have k0 : L (s.setEli { s.eli with dataOut := 0 }) := h.setEli _ rfl k
  simp only
  split
  · refine h.setEli _ rfl ?_
    split
    · next c hc =>
      refine h.change _ rfl ?_ k0
      intro hl _
      refine ⟨by simp only [engineerChange]; omega, ?_⟩
      simp only [engineerChange]
      unfold writtenChange at hc
      split at hc
      · simp only [Option.map_eq_some_iff] at hc
        obtain ⟨v, _, rfl⟩ := hc
        trivial
      · simp only [Option.map_eq_some_iff] at hc
        obtain ⟨v, hv, rfl⟩ := hc
        unfold levelOf at hv
        split at hv
        · simp only [Option.some.injEq] at hv
          subst hv
          assumption
        · simp at hv
      · simp only [Option.map_eq_some_iff] at hc
        obtain ⟨v, hv, rfl⟩ := hc
        unfold panOf at hv
        split at hv
        · simp only [Option.some.injEq] at hv
          subst hv
          assumption
        · simp at hv
      · simp only [Option.map_eq_some_iff] at hc
        obtain ⟨v, _, rfl⟩ := hc
        cases v <;> trivial
      · simp at hc
    · exact h.refuse k0
  · exact k0

theorem readCell {s : State} (k : L s) : L (readCell s) := by
  unfold Machine.readCell
  split
  · exact h.setEli _ rfl (h.setEli _ rfl k)
  · exact h.setEli _ rfl k

/-! ### Staged loads -/

end Kept

theorem readEdit_lawful {t src a v : Byte} {e : CueEdit} (h : readEdit t src a v = some e) : e.lawful := by
  unfold readEdit at h
  simp only [bind, Option.bind_eq_some_iff] at h
  obtain ⟨_, _, _, _, x, hx, he⟩ := h
  simp only [Option.some.injEq] at he
  subst he
  unfold actionOf at hx
  unfold CueEdit.lawful
  simp only
  split at hx
  · simp only [levelOf, Option.map_eq_some_iff] at hx
    obtain ⟨w, hw, rfl⟩ := hx
    split at hw
    · simp only [Option.some.injEq] at hw; subst hw; assumption
    · simp at hw
  · split at hx
    · simp only [nudgeOf, Option.map_eq_some_iff] at hx
      obtain ⟨w, hw, rfl⟩ := hx
      split at hw
      · simp only [Option.some.injEq] at hw; subst hw; assumption
      · simp at hw
    · split at hx
      · simp only [Option.some.injEq] at hx; subst hx; trivial
      · split at hx
        · simp only [Option.some.injEq] at hx; subst hx; trivial
        · split at hx
          · simp only [panOf, Option.map_eq_some_iff] at hx
            obtain ⟨w, hw, rfl⟩ := hx
            split at hw
            · simp only [Option.some.injEq] at hw; subst hw; assumption
            · simp at hw
          · simp at hx

theorem readEdits_lawful : ∀ {bs : List Byte} {es : List CueEdit}, readEdits bs = some es → ∀ e ∈ es, e.lawful := by
  intro bs
  induction bs using readEdits.induct with
  | case1 => intro es h; simp only [readEdits, Option.some.injEq] at h; subst h; simp
  | case2 t src a v rest ih =>
    intro es h
    simp only [readEdits, bind, Option.bind_eq_some_iff] at h
    obtain ⟨e, he, fs, hfs, hes⟩ := h
    simp only [Option.some.injEq] at hes
    subst hes
    intro x hx
    rcases List.mem_cons.mp hx with rfl | hx
    · exact readEdit_lawful he
    · exact ih hfs x hx
  | case3 bs h1 h2 =>
    intro es h
    unfold readEdits at h
    split at h
    · exact absurd rfl h1
    · exact absurd rfl (h2 _ _ _ _ _)
    · simp at h

/-- A CUE LOAD that passes R71 holds a record in range (R47, R48). -/
theorem readCueLoad_lawful {raw : RawCueLoad} {n : CueId} {r : CueRecord} (h : readCueLoad raw = some (n, r)) : r.lawful := by
  unfold readCueLoad at h
  simp only [bind, Option.bind_eq_some_iff] at h
  obtain ⟨_, _, g, _, a, _, f, hf, sm, _, cm, _, es, hes, hr⟩ := h
  split at hr
  · simp at hr
  · next hlim =>
    simp only [Option.some.injEq, Prod.mk.injEq] at hr
    obtain ⟨_, rfl⟩ := hr
    refine ⟨by simp only; omega, by simp only; omega, by simp only; omega, readEdits_lawful hes, ?_⟩
    intro x hx
    simp only at hx
    subst hx
    unfold readItem at hf
    split at hf
    · simp at hf
    · split at hf
      · simp only [Option.map_eq_some_iff, Option.some.injEq] at hf
        obtain ⟨y, hy, rfl⟩ := hf
        unfold readFollowOn at hy
        split at hy
        · simp only [Option.map_eq_some_iff] at hy
          obtain ⟨c, _, rfl⟩ := hy
          simp only
          omega
        · simp at hy
      · simp at hf

/-! ### A MAP LOAD that passes R91 -/

/-- The slot of a map built of entries holds one of the entries, the last of its index. -/
theorem mapAt_mapOfEntries {es : List (LocalIndex × MapEntry)} {i : LocalIndex} {e : MapEntry}
    (h : mapAt (mapOfEntries es) i = some e) : (i, e) ∈ es := by
  have all : ∀ (es : List (LocalIndex × MapEntry)) (m : StationMap),
      mapAt (es.foldl (fun m e => tableSet m e.1 (some e.2)) m) i = some e → (i, e) ∈ es ∨ mapAt m i = some e := by
    intro es
    induction es with
    | nil => intro m k; exact Or.inr k
    | cons x rest ih =>
      intro m k
      rcases ih _ k with k | k
      · exact Or.inl (List.mem_cons_of_mem _ k)
      · unfold mapAt at k
        rw [tableGet_tableSet] at k
        split at k
        · next hi =>
          refine Or.inl ?_
          cases k
          rw [← hi]
          exact List.mem_cons_self
        · exact Or.inr k
  rcases all es _ h with k | k
  · exact k
  · simp [mapAt] at k

/-- A MAP LOAD that passes R91 names no cell twice (R88). -/
theorem readMapLoad_lawful {bs : List Byte} {n : StationId} {m : StationMap} (h : readMapLoad bs = some (n, m)) :
    StationMap.lawful m := by
  unfold readMapLoad at h
  split at h
  · simp only [bind, Option.bind_eq_some_iff] at h
    obtain ⟨_, _, es, _, h⟩ := h
    split at h
    · simp at h
    · split at h
      · next hd =>
        simp only [Option.some.injEq, Prod.mk.injEq] at h
        obtain ⟨_, rfl⟩ := h
        intro i j e f hi hj hc
        have := List.inj_on_of_nodup_map hd.2 (mapAt_mapOfEntries hi) (mapAt_mapOfEntries hj) hc
        exact congrArg Prod.fst this
      · simp at h
  · simp at h

namespace Kept
variable {L : State → Prop} (h : Kept L)
include h

theorem applyStaged {s : State} (k : L s) : L (applyStaged s) := by
  unfold Machine.applyStaged
  split
  · exact k
  · have k0 : L (s.setEli { s.eli with staging := none }) := h.setEli _ rfl k
    simp only
    split
    · unfold applyStagedMap
      split
      · next hm => exact h.applyMapLoad _ _ (readMapLoad_lawful hm) k0
      · exact h.refuse k0
    · unfold applyCueLoad
      split
      · next n r e =>
        have hr : r.lawful := by
          obtain ⟨p, _, hp⟩ := Option.bind_eq_some_iff.mp e
          exact readCueLoad_lawful hp
        split
        · next hf => exact h.load _ n r hr hf k0
        · exact h.refuse k0
      · exact h.refuse k0
    · exact k0

theorem endFrame {s : State} (k : L s) : L (endFrame s) := by
  unfold Machine.endFrame
  split
  · exact k
  · exact h.setEli _ rfl k
  · refine h.setEli _ rfl ?_
    have kd : L (dropIncomplete s) := by
      unfold dropIncomplete
      split
      · exact k
      · exact h.refuse (h.setEli _ rfl k)
      · exact h.refuse (h.setEli _ rfl k)
    unfold inRun
    split
    · exact h.applyStaged kd
    · exact kd

/-! ### Requests -/

theorem executeRequest {s : State} (r : Request) (k : L s) : L (executeRequest r s).state := by
  have through : ∀ (n : StationId) (g : Grip) (c : ChangeKind),
      ((∀ p, c = .pan p → -32 ≤ p ∧ p ≤ 32) ∧ ∀ v, c ≠ .cap v) → L (throughGrip n g c s).state := by
    intro n g c hc
    refine h.refresh _ n (h.change _ rfl ?_ k)
    intro _ _
    refine ⟨by simp [stationChange], ?_⟩
    simp only [stationChange]
    split
    · exact hc.1 _ rfl
    · exact absurd rfl (hc.2 _)
    · trivial
  have mask : ∀ (n : StationId) (c : ChangeKind) (m : Word24), c = .mute ∨ c = .unmute → L (requestMask n c m s).state := by
    intro n c m hc
    unfold requestMask
    split
    · exact h.report _ k
    · have kc : L (takeChanges (maskChanges n c (s.station n).map m) s) := by
        refine h.changes s _ ?_ k
        intro ch hch
        unfold maskChanges at hch
        obtain ⟨p, _, rfl⟩ := List.mem_map.mp hch
        refine ⟨rfl, fun _ _ => ⟨by simp [stationChange], ?_⟩⟩
        rcases hc with rfl | rfl <;> trivial
      simp only
      split
      · exact h.refresh _ n kc
      · exact kc
  unfold Machine.executeRequest
  split
  · exact k
  · next hna =>
    have opened : r.kind ≠ .hello → ∀ i : Option LocalIndex, L (openAt r.station i s).state := by
      intro hk i
      have ha : (s.station r.station).state = .attached := by
        by_contra hh
        exact hna ⟨hh, hk⟩
      unfold openAt
      split
      · exact k
      · split
        · exact k
        · next e he => exact h.make s _ _ e ha he k
    split
    · exact h.attach s _ k
    · exact k
    · next hk => exact opened (by simp [hk]) _
    · next hk => exact opened (by simp [hk]) _
    · unfold requestSet
      repeat' split
      · exact k
      · exact k
      · exact k
      · exact h.report _ k
      · exact h.refresh s _ k
      · exact through _ _ _ ⟨by simp, by simp⟩
    · unfold requestNudge
      repeat' split
      · exact k
      · exact k
      · exact k
      · exact h.report _ k
      · exact through _ _ _ ⟨by simp, by simp⟩
    · unfold requestPan
      repeat' split
      · exact k
      · exact k
      · exact k
      · exact h.report _ k
      · exact through _ _ _ ⟨by intro p hp; cases hp; omega, by simp⟩
    · exact mask _ _ _ (.inl rfl)
    · exact mask _ _ _ (.inr rfl)
    · unfold requestClose
      split
      · exact k
      · exact h.drop s _ k
    · exact k
    · exact k

theorem handToSru {s : State} (r : Request) (k : L s) : L (handToSru r s) := by
  unfold Machine.handToSru
  have k1 := h.setInHand none (h.executeRequest r (h.setInHand (some r) k))
  simp only
  split
  · exact h.setLink _ rfl k1
  · exact h.setLink _ rfl k1

/-! ### The Band Link -/

theorem answerWith {s : State} (r : Reply) (b : Bool) (k : L s) : L (answerWith r b s) := h.setLink _ rfl k

theorem endTransaction {s : State} (k : L s) : L (endTransaction s) := by
  unfold Machine.endTransaction
  refine h.setLink _ rfl ?_
  split
  · unfold completeDeferred
    split
    · exact k
    · exact h.absent s _ k
  · exact k

theorem missAndEnd {s : State} (k : L s) : L (missAndEnd s) := by
  unfold Machine.missAndEnd
  refine h.endTransaction ?_
  split
  · exact h.missed s _ k
  · exact k

theorem continueTransfer {s : State} (k : L s) : L (continueTransfer s) := by
  unfold Machine.continueTransfer
  split
  · split
    · exact h.setLink _ rfl k
    · exact h.answerWith _ _ k
  · exact h.answerWith _ _ k

theorem receiveWord {s : State} (slot : Option StationId) (w : BandWord) (k : L s) : L (receiveWord slot w s) := by
  have bad : L (receiveBad s) := by
    have kc : L (match s.link.selected with | some n => chargeStation n s | none => s) := by
      split
      · exact h.charge s _ k
      · exact k
    unfold receiveBad
    simp only
    split
    · exact h.report _ k
    · exact h.report _ k
    · exact h.answerWith _ _ (h.report _ kc)
    · exact h.report _ kc
    · exact h.report _ kc
    · exact h.missAndEnd (h.report _ k)
    · exact k
  have window : L (receiveWindow slot w s) := by
    unfold receiveWindow
    simp only
    split
    · split
      · split
        · exact k
        · exact h.setLink _ rfl k
      · exact k
    · exact h.charge s _ k
  have own : ∀ f : StationId → State, (∀ n, L (f n)) → L (receiveFrom w f s) := by
    intro f hf
    unfold receiveFrom
    split
    · split
      · exact hf _
      · exact h.charge s _ k
    · exact h.charge s _ k
  have sel : ∀ n, L (receiveSelected n w s) := by
    intro n
    unfold receiveSelected
    split
    · split
      · simp only
        split
        · exact h.setLink _ rfl (h.answer s n k)
        · exact h.handToSru _ (h.answer s n k)
      · exact h.answerWith _ _ k
    · split
      · exact h.handToSru _ k
      · exact h.answerWith _ _ k
  have ans : L (receiveAnswering s) := by
    unfold receiveAnswering
    split
    · split
      · exact k
      · exact h.answerWith _ _ k
    · exact k
  have send : L (receiveSending w s) := by
    unfold receiveSending
    split
    · exact k
    · split
      · exact h.setLink _ rfl k
      · exact h.setLink _ rfl k
  have poll : ∀ n, L (receivePolling n w s) := by
    intro n
    unfold receivePolling
    split
    · exact h.endTransaction (h.idleZero _ n (h.answer s n k))
    · exact h.charge s _ k
    · exact k
  unfold Machine.receiveWord
  split
  · split
    · unfold receiveGood
      split
      · exact h.charge s _ k
      · exact window
      · exact own _ sel
      · exact own _ (fun _ => ans)
      · exact own _ (fun _ => send)
      · exact own _ poll
      · exact k
    · exact bad
  · exact k

theorem receiveMaskRequest {s : State} (n : StationId) (kind : MaskKind) (m : Word24) (k : L s) :
    L (receiveMaskRequest n kind m s) := by
  have first : ∀ b : Bool, L (if b then s else Machine.receiveWord none (request1Word n (maskKindCode kind) 0) s) := by
    intro b
    cases b
    · exact h.receiveWord _ _ k
    · exact k
  exact h.receiveWord _ _ (first _)

theorem linkBlockEnd {s : State} (b : Bool) (k : L s) : L (linkBlockEnd b s) := by
  unfold Machine.linkBlockEnd
  split
  · split
    · unfold expireRequestWindow
      split
      · exact h.missAndEnd k
      · exact k
    · exact h.setLink _ rfl k
  · split
    · unfold expireEchoWindow
      split
      · exact h.missAndEnd k
      · exact k
    · exact h.setLink _ rfl k
  · split
    · unfold expireBreakCount
      split
      · exact h.setLink _ rfl k
      · exact k
    · exact h.setLink _ rfl k
  · exact k

theorem closeWindow {s : State} (k : L s) : L (closeWindow s) := by
  unfold Machine.closeWindow
  split
  · split
    · next n _ =>
      have k1 := h.toTail _ n (h.idleZero s n k)
      exact h.same k1 ⟨⟨rfl, rfl, rfl, rfl, rfl, rfl, rfl, rfl⟩, rfl, rfl⟩
    · split
      · exact h.setLink _ rfl k
      · exact h.setLink _ rfl k
  · exact k

/-! ### The Show Link -/

theorem discardMessage {s : State} (k : L s) : L (discardMessage s) := h.report _ (h.setSlr _ k)

theorem showCharacter {s : State} (b : Byte) (k : L s) : L (showCharacter b s) := by
  have kc : L (clearPartial s) := h.setSlr _ k
  unfold Machine.showCharacter
  split
  · split
    · unfold takeMessage
      split
      · split
        · next t ht =>
          unfold showCommand at ht
          split at ht <;> first | (simp only [Option.some.injEq] at ht; subst ht) | simp at ht
          · exact h.fireNext kc
          · exact h.cueGoto _ kc
          · exact h.cueFlagsSet _ kc
          · exact h.cueFlagsClear _ kc
          · exact h.cueHoldOn kc
          · exact h.cueHoldOff kc
        · exact h.discardMessage k
      · exact h.discardMessage k
    · exact h.setSlr _ k
  · exact k

theorem showMessageOf {s : State} (kind : Byte) (w : Word16) (k : L s) : L (showMessageOf kind w s) := by
  unfold Machine.showMessageOf messageChars
  exact h.showCharacter _ (h.showCharacter _ (h.showCharacter _ (h.showCharacter _ k)))

theorem showBlockEnd {s : State} (k : L s) : L (showBlockEnd s) := by
  unfold Machine.showBlockEnd
  split
  · exact k
  · split
    · exact h.discardMessage k
    · exact h.setSlr _ k

/-! ### The block end -/

theorem blockEnd {s : State} (a b : PortBlock) (x : Bool) (k : L s) : L (blockEnd a b x s) := by
  unfold Machine.blockEnd
  split
  · have ks : L (sourceBlockEnd a b s) := by
      unfold sourceBlockEnd
      simp only
      have ks : ∀ r : Option Port, L (s.setSrc { s.src with
          captured := captureBlock s.src.active a b, portA := judgePort a.good s.src.portA
          portB := judgePort b.good s.src.portB, active := r }) :=
        fun r => h.setSrc _ (fun q => q.judged _ a.good b.good rfl rfl) k
      split
      · exact ks _
      · exact h.report _ (ks _)
    refine h.showBlockEnd ?_
    have kl := h.linkBlockEnd x (h.idles _ (h.cueBlockEnd (h.advance _ ks)))
    exact h.sound kl (by unfold fadeBlockEnd; split <;> exact ⟨rfl, rfl, rfl, rfl, rfl, rfl, rfl, rfl⟩)
      PortOutputLaw.fadeBlockEnd
  · exact k

theorem blockStart {s : State} (k : L s) : L (blockStart s) := by
  unfold Machine.blockStart
  split
  · have kp : L (applyPatches s) := h.setSrc _ (fun q => q.of_eq rfl rfl rfl) k
    unfold formOutputs
    simp only
    split
    · exact h.report _ (h.setOut _ (fun q => PortOutputLaw.counted q _ rfl) kp)
    · exact h.setOut _ (fun q => PortOutputLaw.counted q _ rfl) kp
  · exact h.setOut _ (fun q => q.of_eq rfl rfl rfl) k

end Kept

/-! ### Every command -/

/-- Every command leaves the property standing, and answers a next state. -/
theorem Kept.exec {L : State → Prop} (h : Kept L) (c : Instr) (s : State) (k : L s) :
    ∃ t, exec c s = .next t ∧ L t := by
  cases c with
  | powerOn => exact ⟨_, rfl, h.init s _ k⟩
  | resetPinActive => exact ⟨_, rfl, h.init s _ k⟩
  | resetPinRelease => exact ⟨_, rfl, h.same k ⟨⟨rfl, rfl, rfl, rfl, rfl, rfl, rfl, rfl⟩, rfl, rfl⟩⟩
  | startupDone =>
    refine ⟨_, rfl, ?_⟩
    unfold completeStartUp
    split
    · exact h.report _ (h.same k ⟨⟨rfl, rfl, rfl, rfl, rfl, rfl, rfl, rfl⟩, rfl, rfl⟩)
    · exact k
  | blockStart => exact ⟨_, rfl, h.blockStart k⟩
  | blockEnd a b x => exact ⟨_, rfl, h.blockEnd a b x k⟩
  | glideEntryComplete c =>
    refine ⟨_, rfl, ?_⟩
    unfold inRun; split
    · exact h.complete s c k
    · exact k
  | cueDone =>
    refine ⟨_, rfl, ?_⟩
    unfold inRun; split
    · exact h.completionCheck k
    · exact k
  | followWaitExpiry =>
    refine ⟨_, rfl, ?_⟩
    unfold inRun; split
    · exact h.expireFollowTimer k
    · exact k
  | portLock p =>
    refine ⟨_, rfl, ?_⟩
    unfold lockPort
    simp only
    split
    · exact h.setSrc _ (fun q => q.setPort p true) k
    · exact k
  | portLoseLock p =>
    refine ⟨_, rfl, ?_⟩
    unfold loseLock
    simp only
    split
    · exact h.setSrc _ (fun q => q.setPort p false) k
    · exact k
  | selectFrameStart =>
    refine ⟨_, rfl, ?_⟩
    unfold startFrame
    split
    · exact h.setEli _ rfl k
    · exact k
  | header b =>
    refine ⟨_, rfl, ?_⟩
    unfold headerByte
    split
    · unfold takeHeader
      simp only
      split
      · exact h.refuse (h.setEli _ rfl k)
      · exact h.setEli _ rfl k
    · exact h.setEli _ rfl k
    · exact h.setEli _ rfl k
    · exact k
  | frameEnd => exact ⟨_, rfl, h.endFrame k⟩
  | writeCells b => exact ⟨_, rfl, h.byteOfKind _ _ (fun _ kt => h.writeCell b kt) k⟩
  | readCells b => exact ⟨_, rfl, h.byteOfKind _ _ (fun _ kt => h.readCell kt) k⟩
  | replyByte b =>
    refine ⟨_, rfl, ?_⟩
    unfold replyPosition
    split
    · exact k
    · exact h.byteOfKind _ _ (fun _ kt => h.streamByte b kt) k
  | unknownCode b => exact ⟨_, rfl, h.byteOfKind _ _ (fun _ kt => h.streamByte b kt) k⟩
  | otherPageCode c ops => exact ⟨_, rfl, h.sendBytes _ k⟩
  | nop => exact ⟨_, rfl, h.sendBytes _ k⟩
  | position => exact ⟨_, rfl, h.sendBytes _ k⟩
  | walk => exact ⟨_, rfl, h.sendBytes _ k⟩
  | field => exact ⟨_, rfl, h.sendBytes _ k⟩
  | page => exact ⟨_, rfl, h.sendBytes _ k⟩
  | status => exact ⟨_, rfl, h.sendBytes _ k⟩
  | events => exact ⟨_, rfl, h.sendBytes _ k⟩
  | enables => exact ⟨_, rfl, h.sendBytes _ k⟩
  | hush => exact ⟨_, rfl, h.sendBytes _ k⟩
  | softReset => exact ⟨_, rfl, h.sendBytes _ k⟩
  | lockout => exact ⟨_, rfl, h.sendBytes _ k⟩
  | stationProfile => exact ⟨_, rfl, h.sendBytes _ k⟩
  | stationRead => exact ⟨_, rfl, h.sendBytes _ k⟩
  | mapLoad => exact ⟨_, rfl, h.sendBytes _ k⟩
  | mapRead => exact ⟨_, rfl, h.sendBytes _ k⟩
  | cueLoad => exact ⟨_, rfl, h.sendBytes _ k⟩
  | cueDelete => exact ⟨_, rfl, h.sendBytes _ k⟩
  | cueRead => exact ⟨_, rfl, h.sendBytes _ k⟩
  | cuePointer => exact ⟨_, rfl, h.sendBytes _ k⟩
  | go l =>
    cases l
    · exact ⟨_, rfl, h.sendBytes _ k⟩
    · exact ⟨_, rfl, h.showMessageOf _ _ k⟩
  | goto o =>
    cases o
    · exact ⟨_, rfl, h.sendBytes _ k⟩
    · exact ⟨_, rfl, h.showMessageOf _ _ k⟩
  | stop => exact ⟨_, rfl, h.sendBytes _ k⟩
  | hold => exact ⟨_, rfl, h.sendBytes _ k⟩
  | holdOn => exact ⟨_, rfl, h.showMessageOf _ _ k⟩
  | holdOff => exact ⟨_, rfl, h.showMessageOf _ _ k⟩
  | flagsSet l =>
    cases l
    · exact ⟨_, rfl, h.sendBytes _ k⟩
    · exact ⟨_, rfl, h.showMessageOf _ _ k⟩
  | flagsClear l =>
    cases l
    · exact ⟨_, rfl, h.sendBytes _ k⟩
    · exact ⟨_, rfl, h.showMessageOf _ _ k⟩
  | linkReset => exact ⟨_, rfl, h.sendBytes _ k⟩
  | breakCountExpiry x =>
    refine ⟨_, rfl, ?_⟩
    unfold expireBreakCount
    split
    · exact h.setLink _ rfl k
    · exact k
  | sourceMode => exact ⟨_, rfl, h.sendBytes _ k⟩
  | patch => exact ⟨_, rfl, h.sendBytes _ k⟩
  | outputMode => exact ⟨_, rfl, h.sendBytes _ k⟩
  | ceilingCommand => exact ⟨_, rfl, h.sendBytes _ k⟩
  | hitsRead => exact ⟨_, rfl, h.sendBytes _ k⟩
  | glideLength => exact ⟨_, rfl, h.sendBytes _ k⟩
  | mixCopy => exact ⟨_, rfl, h.sendBytes _ k⟩
  | mixClear => exact ⟨_, rfl, h.sendBytes _ k⟩
  | windowOpen =>
    refine ⟨_, rfl, ?_⟩
    unfold openWindow
    split
    · exact h.setLink _ rfl k
    · exact k
  | attn => exact ⟨_, rfl, h.receiveWord _ _ k⟩
  | windowClose => exact ⟨_, rfl, h.closeWindow k⟩
  | request1 => exact ⟨_, rfl, h.receiveWord _ _ k⟩
  | requestWindowExpiry =>
    refine ⟨_, rfl, ?_⟩
    unfold expireRequestWindow
    split
    · exact h.missAndEnd k
    · exact k
  | damagedRequest => exact ⟨_, rfl, h.receiveWord _ _ k⟩
  | phaseError => exact ⟨_, rfl, h.receiveWord _ _ k⟩
  | hello => exact ⟨_, rfl, h.receiveWord _ _ k⟩
  | ping => exact ⟨_, rfl, h.receiveWord _ _ k⟩
  | openGrip => exact ⟨_, rfl, h.receiveWord _ _ k⟩
  | nextGrip => exact ⟨_, rfl, h.receiveWord _ _ k⟩
  | setLevel => exact ⟨_, rfl, h.receiveWord _ _ k⟩
  | nudgeLevel => exact ⟨_, rfl, h.receiveWord _ _ k⟩
  | panCell => exact ⟨_, rfl, h.receiveWord _ _ k⟩
  | muteSet => exact ⟨_, rfl, h.receiveMaskRequest _ _ _ k⟩
  | muteClear => exact ⟨_, rfl, h.receiveMaskRequest _ _ _ k⟩
  | closeGrip => exact ⟨_, rfl, h.receiveWord _ _ k⟩
  | recallMap => exact ⟨_, rfl, h.receiveWord _ _ k⟩
  | badKindRequest => exact ⟨_, rfl, h.receiveWord _ _ k⟩
  | dataInWord =>
    refine ⟨_, rfl, ?_⟩
    unfold endWord
    split
    · exact h.continueTransfer (h.setLink _ rfl k)
    · exact k
  | stopWord => exact ⟨_, rfl, h.receiveWord _ _ k⟩
  | replySent =>
    refine ⟨_, rfl, ?_⟩
    unfold sendReply
    split
    · split
      · exact h.setLink _ rfl (h.endTransaction k)
      · exact h.endTransaction k
    · exact k
  | echo => exact ⟨_, rfl, h.receiveWord _ _ k⟩
  | echoWindowExpiry =>
    refine ⟨_, rfl, ?_⟩
    unfold expireEchoWindow
    split
    · exact h.missAndEnd k
    · exact k
  | strayWord => exact ⟨_, rfl, h.receiveWord _ _ k⟩
  | bandCheck => exact ⟨_, rfl, h.receiveWord _ _ k⟩
  | breakReceived =>
    refine ⟨_, rfl, ?_⟩
    unfold receiveBreak
    split
    · exact h.report _ (h.linkReset 0 k)
    · exact k
  | breakRelease =>
    refine ⟨_, rfl, ?_⟩
    unfold releaseBreak
    split
    · exact h.setLink _ rfl k
    · exact k
  | showCharacter b => exact ⟨_, rfl, h.showCharacter b k⟩
  | showMessage b =>
    refine ⟨_, rfl, ?_⟩
    unfold showFourth
    split
    · exact h.showCharacter b k
    · exact k
  | showFramingError =>
    refine ⟨_, rfl, ?_⟩
    unfold Machine.showFramingError
    split
    · exact h.discardMessage k
    · exact k
  | showGap =>
    refine ⟨_, rfl, ?_⟩
    unfold Machine.showGap
    split
    · exact h.discardMessage k
    · exact k
  | badCheckEcho => exact ⟨_, rfl, h.receiveWord _ _ k⟩
  | openingGapEnd =>
    refine ⟨_, rfl, ?_⟩
    unfold endOpeningGap
    split
    · exact h.continueTransfer k
    · exact k

/-- Every step leaves the property standing. -/
theorem Kept.step {L : State → Prop} (h : Kept L) (s t : State) (k : L s) (e : step s = .next t) : L t := by
  unfold Machine.step at e
  split at e
  · cases e; exact k
  · next c rest _ =>
    obtain ⟨u, hu, ku⟩ := h.exec c (s.setPending rest) (h.same k ⟨⟨rfl, rfl, rfl, rfl, rfl, rfl, rfl, rfl⟩, rfl, rfl⟩)
    rw [hu] at e
    cases e
    exact ku

end Sys2Proof.Machine
end

