-- ==== Sys2Proof/Laws/Tags.lean ====
section
/-! SUPPORT. The law of the tags and the outstanding count (R51) through notices, hand-off, change, advance, strip and fire. -/

namespace Sys2Proof.Machine

/-- Every tagged entry carries the running cue's number, and the count is their number; with no running cue no entry is
tagged (R51). -/
structure TagLaw (s : State) : Prop where
  once : (s.glides.map (·.cell)).Nodup
  counted : ∀ r, s.cue.running = some r →
    r.outstanding = taggedCount s.glides ∧ ∀ e ∈ s.glides, ∀ c, e.tag = some c → c = r.cue
  untagged : s.cue.running = none → ∀ e ∈ s.glides, e.tag = none

theorem TagLaw.of_eq {s t : State} (h : TagLaw s) (glides : t.glides = s.glides)
    (running : t.cue.running = s.cue.running) : TagLaw t :=
  ⟨glides ▸ h.once, fun r hr => by rw [running] at hr; rw [glides]; exact h.counted r hr,
   fun hn => by rw [running] at hn; rw [glides]; exact h.untagged hn⟩

/-- 1 for a tag, 0 for none. -/
def tagWeight (t : Option CueId) : Nat := if t.isSome then 1 else 0

theorem taggedCount_cons (e : GlideEntry) (l : List GlideEntry) :
    taggedCount (e :: l) = tagWeight e.tag + taggedCount l := by
  unfold taggedCount tagWeight
  by_cases h : e.tag.isSome = true
  · simp [h]; omega
  · simp [h]

theorem taggedCount_append (a b : List GlideEntry) : taggedCount (a ++ b) = taggedCount a + taggedCount b := by
  simp [taggedCount]

theorem taggedCount_none (l : List GlideEntry) (h : ∀ e ∈ l, e.tag = none) : taggedCount l = 0 := by
  unfold taggedCount
  rw [List.length_eq_zero_iff, List.filter_eq_nil_iff]
  intro e he
  simp [h e he]

/-- A list splits into the entry of a cell and the others. -/
theorem taggedCount_split (l : List GlideEntry) (hd : (l.map (·.cell)).Nodup) (e : GlideEntry) (he : e ∈ l) :
    taggedCount l = tagWeight e.tag + taggedCount (l.filter (fun x => decide (x.cell ≠ e.cell))) := by
  induction l with
  | nil => simp at he
  | cons x rest ih =>
    simp only [List.map_cons, List.nodup_cons, List.mem_map, not_exists, not_and] at hd
    rcases List.mem_cons.mp he with rfl | hm
    · have : rest.filter (fun x => decide (x.cell ≠ e.cell)) = rest := by
        rw [List.filter_eq_self]
        intro y hy
        simpa using hd.1 y hy
      rw [taggedCount_cons, List.filter_cons_of_neg (by simp), this]
    · have hne : x.cell ≠ e.cell := fun h => hd.1 e hm h.symm
      rw [taggedCount_cons, List.filter_cons_of_pos (by simpa using hne), taggedCount_cons, ih hd.2 hm]
      omega

theorem taggedCount_retarget (l : List GlideEntry) (hd : (l.map (·.cell)).Nodup) (e : GlideEntry) (he : e ∈ l)
    (goal length : Nat) (tag : Option CueId) :
    taggedCount (l.map (fun x =>
      if x.cell = e.cell then { x with goal := goal, remaining := length, tag := tag } else x)) =
      tagWeight tag + taggedCount (l.filter (fun x => decide (x.cell ≠ e.cell))) := by
  induction l with
  | nil => simp at he
  | cons x rest ih =>
    simp only [List.map_cons, List.nodup_cons, List.mem_map, not_exists, not_and] at hd
    rcases List.mem_cons.mp he with rfl | hm
    · have hr : ∀ y ∈ rest, y.cell ≠ e.cell := fun y hy => hd.1 y hy
      have h1 : rest.filter (fun x => decide (x.cell ≠ e.cell)) = rest := by
        rw [List.filter_eq_self]
        intro y hy
        simpa using hr y hy
      have h2 : rest.map (fun x =>
          if x.cell = e.cell then { x with goal := goal, remaining := length, tag := tag } else x) = rest := by
        conv_rhs => rw [← List.map_id rest]
        exact List.map_congr_left (fun y hy => by simp [hr y hy])
      rw [List.map_cons, taggedCount_cons, List.filter_cons_of_neg (by simp), h1, h2]
      simp
    · have hne : x.cell ≠ e.cell := fun h => hd.1 e hm h.symm
      rw [List.map_cons, taggedCount_cons, List.filter_cons_of_pos (by simpa using hne), taggedCount_cons, ih hd.2 hm]
      simp [hne]
      omega

/-! ### Notices -/

/-- The notices of a tag that was the running cue's or absent and is the running cue's or absent (R36, R51). -/
theorem tagNotices_running (a b : Option CueId) (s : State) (r : RunningCue) (hr : s.cue.running = some r)
    (ha : ∀ c, a = some c → c = r.cue) (hb : ∀ c, b = some c → c = r.cue) :
    (tagNotices a b s).cue.running = some { r with outstanding := r.outstanding + tagWeight b - tagWeight a } := by
  unfold tagNotices
  cases a with
  | none =>
    cases b with
    | none => simp [hr, tagWeight]
    | some c =>
      have := hb c rfl
      subst this
      simp [tagGained, hr, tagWeight]
  | some d =>
    have := ha d rfl
    subst this
    cases b with
    | none => simp [tagLost, hr, tagWeight]
    | some c =>
      have := hb c rfl
      subst this
      simp [hr, tagWeight]

/-- Without a running cue no notice does anything. -/
theorem tagNotices_idle (a b : Option CueId) (s : State) (hr : s.cue.running = none) : tagNotices a b s = s := by
  unfold tagNotices tagLost tagGained
  split
  · rfl
  · cases a <;> cases b <;> simp [hr]

/-! ### The hand-off -/

/-- The tag a change may carry: none, or the running cue's (R51). -/
def tagFits (tag : Option CueId) (s : State) : Prop :=
  match s.cue.running with
  | none => tag = none
  | some r => ∀ c, tag = some c → c = r.cue

theorem TagLaw.handOff {s : State} (h : TagLaw s) (c : CellId) (goal length : Nat) (tag : Option CueId)
    (hfit : tagFits tag s) : TagLaw (handOff c goal length tag s) := by
  cases hrun : s.cue.running with
  | none =>
    have htag : tag = none := by simpa [tagFits, hrun] using hfit
    subst htag
    have hno := h.untagged hrun
    unfold Machine.handOff
    split
    · have hbind : (s.glideOf c).bind (·.tag) = none := by
        cases he : s.glideOf c with
        | none => rfl
        | some e => exact hno e (glideOf_some he).1
      have hg : (glideJump c goal s).glides = s.glides.filter (fun e => decide (e.cell ≠ c)) := by simp [glideJump]
      have hr : (glideJump c goal s).cue.running = none := by
        simp [glideJump, hbind, tagNotices_idle _ _ s hrun, hrun]
      refine ⟨?_, fun r hr' => by simp [hr] at hr', fun _ e he => ?_⟩
      · rw [hg]; exact List.Sublist.nodup (List.Sublist.map _ List.filter_sublist) h.once
      · rw [hg] at he
        exact hno e (List.mem_filter.mp he).1
    · split
      · next e he =>
        have hg : (glideRetarget e goal length none s).glides = s.glides.map (fun x =>
            if x.cell = e.cell then { x with goal := goal, remaining := length, tag := none } else x) := by
          simp [glideRetarget]
        have hr : (glideRetarget e goal length none s).cue.running = none := by
          simp [glideRetarget, tagNotices_idle _ _ s hrun, hrun]
        refine ⟨?_, fun r hr' => by simp [hr] at hr', fun _ y hy => ?_⟩
        · rw [hg, List.map_map]
          have : ((fun x : GlideEntry => x.cell) ∘ fun x =>
              if x.cell = e.cell then { x with goal := goal, remaining := length, tag := none } else x) =
              (fun x : GlideEntry => x.cell) := by
            funext x; simp only [Function.comp]; split <;> rfl
          rw [this]; exact h.once
        · rw [hg] at hy
          obtain ⟨x, hx, rfl⟩ := List.mem_map.mp hy
          split
          · rfl
          · exact hno x hx
      · next he =>
        split
        · have hg : (glideAppend c goal length none s).glides =
              s.glides ++ [{ cell := c, goal := goal, remaining := length, tag := none }] := by simp [glideAppend]
          have hr : (glideAppend c goal length none s).cue.running = none := by
            simp [glideAppend, tagNotices_idle _ _ s hrun, hrun]
          refine ⟨?_, fun r hr' => by simp [hr] at hr', fun _ y hy => ?_⟩
          · rw [hg, List.map_append, List.nodup_append]
            refine ⟨h.once, by simp, ?_⟩
            intro a ha b hb
            obtain ⟨x, hx, rfl⟩ := List.mem_map.mp ha
            simp only [List.map_cons, List.map_nil, List.mem_singleton] at hb
            exact hb ▸ glideOf_none he x hx
          · rw [hg] at hy
            rcases List.mem_append.mp hy with hy | hy
            · exact hno y hy
            · simp only [List.mem_singleton] at hy; subst hy; rfl
        · exact h.of_eq (by simp [glideOverflow]) (by simp [glideOverflow])
  | some r =>
    obtain ⟨hcount, htags⟩ := h.counted r hrun
    have htag : ∀ d, tag = some d → d = r.cue := by simpa [tagFits, hrun] using hfit
    have finish : ∀ t : State, (t.glides.map (·.cell)).Nodup →
        (∀ r', t.cue.running = some r' → r'.cue = r.cue ∧ r'.outstanding = taggedCount t.glides) →
        t.cue.running ≠ none →
        (∀ e ∈ t.glides, ∀ d, e.tag = some d → d = r.cue) → TagLaw t := by
      intro t h1 h2 h3 h4
      refine ⟨h1, fun r' hr' => ?_, fun hn => absurd hn h3⟩
      obtain ⟨ha, hb⟩ := h2 r' hr'
      exact ⟨hb, fun e he d hd => ha ▸ h4 e he d hd⟩
    unfold Machine.handOff
    split
    · have hg : (glideJump c goal s).glides = s.glides.filter (fun e => decide (e.cell ≠ c)) := by simp [glideJump]
      have hb : ∀ d, (s.glideOf c).bind (·.tag) = some d → d = r.cue := by
        intro d hd
        cases he : s.glideOf c with
        | none => simp [he] at hd
        | some e => rw [he] at hd; exact htags e (glideOf_some he).1 d hd
      have hr : (glideJump c goal s).cue.running =
          some { r with outstanding := r.outstanding + tagWeight none - tagWeight ((s.glideOf c).bind (·.tag)) } := by
        have := tagNotices_running ((s.glideOf c).bind (·.tag)) none s r hrun hb (by simp)
        simpa [glideJump] using this
      refine finish _ ?_ ?_ (by simp [hr]) ?_
      · rw [hg]; exact List.Sublist.nodup (List.Sublist.map _ List.filter_sublist) h.once
      · intro r' hr'
        rw [hr] at hr'
        cases hr'
        refine ⟨rfl, ?_⟩
        rw [hg]
        cases he : s.glideOf c with
        | none =>
          have : s.glides.filter (fun e => decide (e.cell ≠ c)) = s.glides := by
            rw [List.filter_eq_self]
            intro x hx
            simpa using glideOf_none he x hx
          rw [this]
          simp [tagWeight, hcount]
        | some e =>
          obtain ⟨hm, hc⟩ := glideOf_some he
          have := taggedCount_split s.glides h.once e hm
          rw [hc] at this
          simp only [Option.bind_some, hcount, this]
          simp [tagWeight]
      · intro e he d hd
        rw [hg] at he
        exact htags e (List.mem_filter.mp he).1 d hd
    · split
      · next e he =>
        obtain ⟨hm, hc⟩ := glideOf_some he
        have hg : (glideRetarget e goal length tag s).glides = s.glides.map (fun x =>
            if x.cell = e.cell then { x with goal := goal, remaining := length, tag := tag } else x) := by
          simp [glideRetarget]
        have hr : (glideRetarget e goal length tag s).cue.running =
            some { r with outstanding := r.outstanding + tagWeight tag - tagWeight e.tag } := by
          have := tagNotices_running e.tag tag s r hrun (fun d hd => htags e hm d hd) htag
          simpa [glideRetarget] using this
        refine finish _ ?_ ?_ (by simp [hr]) ?_
        · rw [hg, List.map_map]
          have : ((fun x : GlideEntry => x.cell) ∘ fun x =>
              if x.cell = e.cell then { x with goal := goal, remaining := length, tag := tag } else x) =
              (fun x : GlideEntry => x.cell) := by
            funext x; simp only [Function.comp]; split <;> rfl
          rw [this]; exact h.once
        · intro r' hr'
          rw [hr] at hr'
          cases hr'
          refine ⟨rfl, ?_⟩
          rw [hg, taggedCount_retarget _ h.once e hm, hcount, taggedCount_split _ h.once e hm]
          simp only
          omega
        · intro y hy d hd
          rw [hg] at hy
          obtain ⟨x, hx, rfl⟩ := List.mem_map.mp hy
          by_cases hxe : x.cell = e.cell
          · simp only [hxe, if_true] at hd
            exact htag d hd
          · simp only [hxe, if_false] at hd
            exact htags x hx d hd
      · next he =>
        split
        · have hg : (glideAppend c goal length tag s).glides =
              s.glides ++ [{ cell := c, goal := goal, remaining := length, tag := tag }] := by simp [glideAppend]
          have hr : (glideAppend c goal length tag s).cue.running =
              some { r with outstanding := r.outstanding + tagWeight tag - tagWeight none } := by
            have := tagNotices_running none tag s r hrun (by simp) htag
            simpa [glideAppend] using this
          refine finish _ ?_ ?_ (by simp [hr]) ?_
          · rw [hg, List.map_append, List.nodup_append]
            refine ⟨h.once, by simp, ?_⟩
            intro a ha b hb
            obtain ⟨x, hx, rfl⟩ := List.mem_map.mp ha
            simp only [List.map_cons, List.map_nil, List.mem_singleton] at hb
            exact hb ▸ glideOf_none he x hx
          · intro r' hr'
            rw [hr] at hr'
            cases hr'
            refine ⟨rfl, ?_⟩
            rw [hg, taggedCount_append, taggedCount_cons, hcount]
            simp [tagWeight, taggedCount]
          · intro y hy d hd
            rw [hg] at hy
            rcases List.mem_append.mp hy with hy | hy
            · exact htags y hy d hd
            · simp only [List.mem_singleton] at hy
              subst hy
              exact htag d hd
        · exact h.of_eq (by simp [glideOverflow]) (by simp [glideOverflow])

/-! ### Changes, strip, advance, fire -/

theorem TagLaw.takeChange {s : State} (h : TagLaw s) (ch : Change) (hfit : tagFits ch.tag s) : TagLaw (takeChange ch s) := by
  unfold Machine.takeChange
  simp only
  split
  · exact h
  · unfold applyChange
    simp only
    have hm : ∀ x : Cell, TagLaw (markStale ch.cell ch.origin (s.setCell ch.cell x)) := fun x => h.of_eq rfl rfl
    split
    · exact (hm _).handOff _ _ _ _ hfit
    · exact hm _

/-- Whether a tag fits depends on the running cue's number alone, which changes keep. -/
theorem tagFits_frame {s t : State} (h : MatrixFrame s t) (tag : Option CueId) (hfit : tagFits tag s) : tagFits tag t := by
  unfold tagFits at *
  rcases h.running with h1 | ⟨r, k, h1, h2⟩
  · rw [h1]; exact hfit
  · rw [h1] at hfit
    rw [h2]
    exact hfit

theorem TagLaw.takeChanges {s : State} (h : TagLaw s) (chs : List Change) (hfit : ∀ ch ∈ chs, tagFits ch.tag s) :
    TagLaw (takeChanges chs s) := by
  induction chs generalizing s with
  | nil => exact h
  | cons ch rest ih =>
    exact ih (h.takeChange ch (hfit ch (by simp)))
      (fun c hc => tagFits_frame (takeChange_frame ch s) _ (hfit c (by simp [hc])))

theorem tagFits_none (s : State) : tagFits none s := by
  unfold tagFits
  split
  · rfl
  · intro c hc; simp at hc

/-- After a strip no entry is tagged (R37). -/
theorem stripTags_untagged (s : State) : ∀ e ∈ (stripTags s).glides, e.tag = none := by
  intro e he
  simp only [stripTags, State.setGlides_glides] at he
  obtain ⟨x, _, rfl⟩ := List.mem_map.mp he
  rfl

theorem stripTags_cells (s : State) : (stripTags s).glides.map (·.cell) = s.glides.map (·.cell) := by
  simp only [stripTags, State.setGlides_glides, List.map_map]
  rfl

/-- Steps 2 and 3 of a fire leave the new record, a count of 0 and an untagged list (R58). -/
theorem TagLaw.makeRecord {s : State} (h : TagLaw s) (c : CueId) (r : CueRecord) :
    TagLaw (makeRecord c r (supersede s)) := by
  have hun : ∀ e ∈ (Machine.makeRecord c r (supersede s)).glides, e.tag = none := by
    show ∀ e ∈ (supersede s).glides, e.tag = none
    unfold supersede
    simp only [State.setCue_glides]
    split
    · exact stripTags_untagged s
    · next hn => exact h.untagged (by simpa using hn)
  have hcell : (Machine.makeRecord c r (supersede s)).glides.map (·.cell) = s.glides.map (·.cell) := by
    show (supersede s).glides.map (·.cell) = _
    unfold supersede
    simp only [State.setCue_glides]
    split
    · exact stripTags_cells s
    · rfl
  refine ⟨hcell ▸ h.once, ?_, fun hn => by simp [Machine.makeRecord] at hn⟩
  intro r' hr'
  simp only [Machine.makeRecord, State.setCue_cue, Option.some.injEq] at hr'
  subst hr'
  refine ⟨by rw [taggedCount_none _ hun], fun e he d hd => ?_⟩
  rw [hun e he] at hd
  simp at hd

theorem advanceEntries_running (l : List GlideEntry) (s : State) (r : RunningCue) (hr : s.cue.running = some r)
    (htags : ∀ e ∈ l, ∀ c, e.tag = some c → c = r.cue) :
    (advanceEntries l s).2.cue.running =
      some { r with outstanding := r.outstanding - taggedCount (l.filter (fun e => decide (e.remaining ≤ 1))) } := by
  induction l generalizing s r with
  | nil => simp [advanceEntries, hr, taggedCount]
  | cons e rest ih =>
    unfold advanceEntries
    split
    · next h1 =>
      have hf : (glideFinish e s).cue.running =
          some { r with outstanding := r.outstanding + tagWeight none - tagWeight e.tag } :=
        tagNotices_running e.tag none _ r (by simpa using hr) (fun c hc => htags e (by simp) c hc) (by simp)
      rw [ih _ _ hf (fun x hx c hc => htags x (by simp [hx]) c hc)]
      simp only [h1, decide_true, List.filter_cons_of_pos, taggedCount_cons]
      simp [tagWeight, Nat.sub_sub]
    · next h1 =>
      simp only
      rw [ih (s.setHeard e.cell (glideStep (s.cell e.cell).heard e.goal e.remaining)) r (by simpa using hr)
        (fun x hx c hc => htags x (by simp [hx]) c hc)]
      simp [h1]

theorem advanceEntries_idle (l : List GlideEntry) (s : State) (hr : s.cue.running = none) :
    (advanceEntries l s).2.cue.running = none := by
  induction l generalizing s with
  | nil => exact hr
  | cons e rest ih =>
    unfold advanceEntries
    split
    · refine ih _ ?_
      unfold glideFinish
      rw [tagNotices_idle _ _ _ (by simpa using hr)]
      simpa using hr
    · exact ih _ (by simpa using hr)

/-- The block-end advance keeps the law (R36, R38). -/
theorem TagLaw.glideAdvance {s : State} (h : TagLaw s) : TagLaw (glideAdvance s) := by
  have hglides : (Machine.glideAdvance s).glides =
      (s.glides.filter (fun e => decide (1 < e.remaining))).map GlideEntry.later := advanceEntries_list s.glides s
  have hrunning : (Machine.glideAdvance s).cue.running = (advanceEntries s.glides s).2.cue.running := rfl
  have hmem : ∀ y ∈ (Machine.glideAdvance s).glides, ∃ e ∈ s.glides, y.tag = e.tag := by
    intro y hy
    rw [hglides] at hy
    obtain ⟨e, he, rfl⟩ := List.mem_map.mp hy
    exact ⟨e, (List.mem_filter.mp he).1, rfl⟩
  have hcount : taggedCount (Machine.glideAdvance s).glides =
      taggedCount (s.glides.filter (fun e => decide (1 < e.remaining))) := by
    rw [hglides]
    unfold taggedCount
    rw [List.filter_map, List.length_map]
    rfl
  have hsplit : ∀ l : List GlideEntry, taggedCount l =
      taggedCount (l.filter (fun e => decide (e.remaining ≤ 1))) + taggedCount (l.filter (fun e => decide (1 < e.remaining))) := by
    intro l
    induction l with
    | nil => rfl
    | cons e rest ih =>
      by_cases h1 : e.remaining ≤ 1
      · have h2 : ¬ 1 < e.remaining := by omega
        simp only [h1, h2, decide_true, decide_false, List.filter_cons_of_pos, List.filter_cons_of_neg, taggedCount_cons,
          Bool.false_eq_true, not_false_eq_true]
        omega
      · have h2 : 1 < e.remaining := by omega
        simp only [h1, h2, decide_true, decide_false, List.filter_cons_of_pos, List.filter_cons_of_neg, taggedCount_cons,
          Bool.false_eq_true, not_false_eq_true]
        omega
  refine ⟨?_, ?_, ?_⟩
  · rw [hglides, List.map_map]
    have : ((fun x : GlideEntry => x.cell) ∘ GlideEntry.later) = (fun x : GlideEntry => x.cell) := rfl
    rw [this]
    exact List.Sublist.nodup (List.Sublist.map _ List.filter_sublist) h.once
  · intro r' hr'
    rw [hrunning] at hr'
    cases hrun : s.cue.running with
    | none => rw [advanceEntries_idle _ _ hrun] at hr'; simp at hr'
    | some r =>
      obtain ⟨hc, ht⟩ := h.counted r hrun
      rw [advanceEntries_running _ _ r hrun ht] at hr'
      cases hr'
      refine ⟨?_, fun y hy d hd => ?_⟩
      · rw [hcount]
        simp only [hc]
        have := hsplit s.glides
        omega
      · obtain ⟨e, he, hye⟩ := hmem y hy
        exact ht e he d (hye ▸ hd)
  · intro hn y hy
    rw [hrunning] at hn
    obtain ⟨e, he, hye⟩ := hmem y hy
    cases hrun : s.cue.running with
    | none => rw [hye]; exact h.untagged hrun e he
    | some r =>
      rw [advanceEntries_running _ _ r hrun (h.counted r hrun).2] at hn
      simp at hn

/-- The completion of one entry keeps the law. -/
theorem TagLaw.glideComplete {s : State} (h : TagLaw s) (c : CellId) : TagLaw (glideComplete c s) := by
  unfold Machine.glideComplete
  split
  · exact h
  · next e he =>
    obtain ⟨hm, hc⟩ := glideOf_some he
    split
    · have hg : ((glideFinish e s).setGlides ((glideFinish e s).glides.filter (fun x => decide (x.cell ≠ c)))).glides =
          s.glides.filter (fun x => decide (x.cell ≠ c)) := by simp
      have hr : ((glideFinish e s).setGlides ((glideFinish e s).glides.filter (fun x => decide (x.cell ≠ c)))).cue.running =
          (glideFinish e s).cue.running := rfl
      refine ⟨?_, ?_, ?_⟩
      · rw [hg]; exact List.Sublist.nodup (List.Sublist.map _ List.filter_sublist) h.once
      · intro r' hr'
        rw [hr] at hr'
        cases hrun : s.cue.running with
        | none =>
          unfold glideFinish at hr'
          rw [tagNotices_idle _ _ _ (by simpa using hrun)] at hr'
          simp [hrun] at hr'
        | some r =>
          obtain ⟨hcount, htags⟩ := h.counted r hrun
          have hf : (glideFinish e s).cue.running =
              some { r with outstanding := r.outstanding + tagWeight none - tagWeight e.tag } :=
            tagNotices_running e.tag none _ r (by simpa using hrun) (fun d hd => htags e hm d hd) (by simp)
          rw [hf] at hr'
          cases hr'
          refine ⟨?_, fun y hy d hd => ?_⟩
          · rw [hg, ← hc]
            have := taggedCount_split s.glides h.once e hm
            simp only [hcount, this]
            simp [tagWeight]
          · rw [hg] at hy
            exact htags y (List.mem_filter.mp hy).1 d hd
      · intro hn y hy
        rw [hr] at hn
        rw [hg] at hy
        cases hrun : s.cue.running with
        | none => exact h.untagged hrun y (List.mem_filter.mp hy).1
        | some r =>
          have hf : (glideFinish e s).cue.running =
              some { r with outstanding := r.outstanding + tagWeight none - tagWeight e.tag } :=
            tagNotices_running e.tag none _ r (by simpa using hrun) (fun d hd => (h.counted r hrun).2 e hm d hd) (by simp)
          rw [hf] at hn
          simp at hn
    · exact h

end Sys2Proof.Machine
end

