-- ==== Sys2Proof/Laws/Invariants.lean ====
section
/-! SUPPORT. The laws of the block, each through every operation that steps are made of: which fields a law reads, and that each
operation of `Kept` keeps it. -/

namespace Sys2Proof.Machine

/-! ### The service order (R149) -/

theorem OrderLaw.of_eq {s t : State} (h : OrderLaw s) (e : t.link.order = s.link.order) : OrderLaw t := by
  unfold OrderLaw at *; rw [e]; exact h

theorem OrderLaw.outer {s t : State} (h : OrderLaw s) (e : OuterFrame s t) : OrderLaw t := OrderLaw.of_eq h (by rw [e.link])

/-- Every operation keeps the service order's law. -/
theorem OrderLaw.kept : Kept OrderLaw where
  same k e := OrderLaw.of_eq k e.order
  sound k e _ := OrderLaw.of_eq k e.order
  length s v _ k := OrderLaw.of_eq k rfl
  changes s chs _ k := OrderLaw.outer k ((inner_takeChanges chs).frame s)
  fires s c r _ k := OrderLaw.outer k ((inner_fireCue c r).frame s)
  desk s _ _ _ k := OrderLaw.of_eq k rfl
  stop s _ k := OrderLaw.of_eq k rfl
  done s r p _ _ _ k := OrderLaw.of_eq k rfl
  waits s w _ k := OrderLaw.of_eq k rfl
  ticks s w _ k := OrderLaw.of_eq k rfl
  ends s h _ k := OrderLaw.of_eq k rfl
  advance s k := OrderLaw.outer k (inner_glideAdvance.frame s)
  complete s c k := OrderLaw.outer k ((inner_glideComplete c).frame s)
  load s n r _ _ k := OrderLaw.of_eq k rfl
  unload s n k := OrderLaw.of_eq k rfl
  soft s k := OrderLaw.of_eq k rfl
  charge s n k := OrderLaw.of_eq k rfl
  uncharge s n k := OrderLaw.of_eq k rfl
  idleZero s n k := OrderLaw.of_eq k rfl
  answer s n k := OrderLaw.of_eq k rfl
  missed s n k := OrderLaw.of_eq k (by unfold stationMissed; simp only; split; rfl; split <;> simp [dropGrip])
  idles s k := OrderLaw.of_eq k rfl
  profile s n p a _ k := OrderLaw.of_eq k rfl
  absent s n k := OrderLaw.of_eq k (by unfold makeAbsent; split <;> simp [dropGrip])
  attach s n k := OrderLaw.of_eq k (by simp [attachStation, dropGrip])
  map s n m _ k := OrderLaw.of_eq k rfl
  drop s n k := OrderLaw.of_eq k rfl
  make s n i e _ _ k := OrderLaw.of_eq k rfl
  refresh s n k := OrderLaw.of_eq k rfl
  lockout s v _ k := OrderLaw.of_eq k rfl
  resets s k := OrderLaw.of_eq k rfl
  toTail s n k := by
    obtain ⟨h1, h2⟩ := k
    have hall : ∀ m : StationId, m ∈ s.link.order := by
      intro m
      have : s.link.order.toFinset = Finset.univ := by
        apply Finset.eq_univ_of_card
        rw [List.toFinset_card_of_nodup h1, h2]; rfl
      have := Finset.mem_univ m
      rw [← ‹s.link.order.toFinset = Finset.univ›] at this
      simpa using this
    refine ⟨?_, ?_⟩
    · show (toTail n s.link.order).Nodup
      unfold toTail
      rw [List.nodup_append]
      refine ⟨h1.filter _, by simp, ?_⟩
      intro a ha b hb
      simp at ha hb
      subst hb
      exact ha.2
    · show (toTail n s.link.order).length = 16
      unfold toTail
      have hc : s.link.order.countP (fun k => decide (k = n)) = 1 := by
        have := List.count_eq_one_of_mem h1 (hall n)
        rw [← this, List.count]
        congr 1
      have := List.length_eq_countP_add_countP (l := s.link.order) (fun k => decide (k = n))
      simp only [List.length_append, List.length_singleton, ← List.countP_eq_length_filter]
      have e2 : (s.link.order.countP fun k => decide (k ≠ n)) = s.link.order.countP (fun a => decide ¬ decide (a = n) = true) := by
        congr 1; funext k; simp
      rw [e2]
      omega
  startOrder s k := by
    refine ⟨?_, rfl⟩
    show LinkRecord.startOrder.Nodup
    decide
  init s p k := by
    refine ⟨?_, rfl⟩
    show LinkRecord.startOrder.Nodup
    decide

/-! ### The station records (R80) -/

theorem StationLaw.of_eq {s t : State} (h : StationLaw s) (stations : t.stations = s.stations)
    (lockout : t.lockout = s.lockout) : StationLaw t := by
  have hs : ∀ n, t.station n = s.station n := fun n => by simp [State.station, stations]
  exact ⟨fun n => hs n ▸ h.priority n, fun n => hs n ▸ h.checks n, fun n => hs n ▸ h.misses n, fun n => hs n ▸ h.idle n,
    fun n => hs n ▸ h.absent n, lockout ▸ h.lockout, fun n => hs n ▸ h.maps n⟩

/-- One station record in its ranges, its map naming no cell twice (R80, R88). -/
structure Station.lawful (x : Station) : Prop where
  priority : x.priority ≤ 7
  checks : x.checkCount ≤ 255
  misses : x.missRun ≤ 3
  idle : x.idle ≤ 65535
  absent : x.state = .absent → x.idle = 0
  map : StationMap.lawful x.map

theorem StationLaw.one {s : State} (h : StationLaw s) (n : StationId) : Station.lawful (s.station n) :=
  ⟨h.priority n, h.checks n, h.misses n, h.idle n, h.absent n, h.maps n⟩

theorem StationLaw.of {s : State} (h : ∀ n, Station.lawful (s.station n)) (l : s.lockout ≤ 7) : StationLaw s :=
  ⟨fun n => (h n).priority, fun n => (h n).checks, fun n => (h n).misses, fun n => (h n).idle, fun n => (h n).absent, l,
    fun n => (h n).map⟩

theorem StationLaw.set {s : State} (h : StationLaw s) (n : StationId) (x : Station) (hx : Station.lawful x) :
    StationLaw (s.setStation n x) := by
  refine StationLaw.of (fun m => ?_) h.lockout
  rw [State.station_setStation]
  split
  · exact hx
  · exact h.one m

theorem StationLaw.makeAbsent {s : State} (n : StationId) (k : StationLaw s) : StationLaw (makeAbsent n s) := by
  unfold Machine.makeAbsent
  split
  · exact k
  · have := k.one n
    exact (k.set n (s.station n).toAbsent ⟨this.priority, this.checks, by simp [Station.toAbsent], by simp [Station.toAbsent], by simp [Station.toAbsent], this.map⟩).of_eq rfl rfl

/-- Every operation keeps the station records' law. -/
theorem StationLaw.kept : Kept StationLaw where
  same k e := k.of_eq e.stations e.lockout
  sound k e _ := k.of_eq e.stations e.lockout
  length s v _ k := k.of_eq rfl rfl
  changes s chs _ k := k.of_eq ((inner_takeChanges chs).frame s).stations ((inner_takeChanges chs).frame s).lockout
  fires s c r _ k := k.of_eq ((inner_fireCue c r).frame s).stations ((inner_fireCue c r).frame s).lockout
  desk s _ _ _ k := k.of_eq rfl rfl
  stop s _ k := k.of_eq rfl rfl
  done s r p _ _ _ k := k.of_eq rfl rfl
  waits s w _ k := k.of_eq rfl rfl
  ticks s w _ k := k.of_eq rfl rfl
  ends s h _ k := k.of_eq rfl rfl
  advance s k := k.of_eq (inner_glideAdvance.frame s).stations (inner_glideAdvance.frame s).lockout
  complete s c k := k.of_eq ((inner_glideComplete c).frame s).stations ((inner_glideComplete c).frame s).lockout
  load s n r _ _ k := k.of_eq rfl rfl
  unload s n k := k.of_eq rfl rfl
  soft s k := k.of_eq rfl rfl
  charge s n k := k.set n _ (by
    have := k.one n
    exact ⟨this.priority, by simp only; omega, this.misses, this.idle, this.absent, this.map⟩)
  uncharge s n k := k.set n _ (by
    have := k.one n
    exact ⟨this.priority, by simp, this.misses, this.idle, this.absent, this.map⟩)
  idleZero s n k := k.set n _ (by
    have := k.one n
    exact ⟨this.priority, this.checks, this.misses, by simp, by simp, this.map⟩)
  answer s n k := k.set n _ (by
    have := k.one n
    exact ⟨this.priority, this.checks, by simp, this.idle, this.absent, this.map⟩)
  missed s n k := by
    have x := k.one n
    unfold stationMissed
    simp only
    split
    · exact k
    · next hm =>
      have k1 := k.set n { s.station n with missRun := (s.station n).missRun + 1 }
        ⟨x.priority, x.checks, by simp only; omega, x.idle, x.absent, x.map⟩
      split
      · have y := k1.one n
        have k2 := k1.set n { (s.setStation n { s.station n with missRun := (s.station n).missRun + 1 }).station n with state := .lost }
          ⟨y.priority, y.checks, y.misses, y.idle, by simp, y.map⟩
        exact k2.of_eq (by simp [dropGrip]) (by simp [dropGrip])
      · exact k1
  idles s k := by
    refine StationLaw.of (fun m => ?_) k.lockout
    have x := k.one m
    have : (idleBlockEnd s).station m = (s.station m).idleTick := by simp [idleBlockEnd, State.station]
    rw [this]
    unfold Station.idleTick
    refine ⟨x.priority, x.checks, x.misses, ?_, ?_, x.map⟩
    · simp only; split <;> omega
    · simp only; intro h; simp [h]
  profile s n p a hp k := k.set n _ (by
    have := k.one n
    exact ⟨hp, this.checks, this.misses, this.idle, this.absent, this.map⟩)
  absent s n k := StationLaw.makeAbsent n k
  attach s n k := by
    have x := k.one n
    exact (k.set n { s.station n with state := .attached } ⟨x.priority, x.checks, x.misses, x.idle, by simp, x.map⟩).of_eq
      (by simp [attachStation, dropGrip]) (by simp [attachStation, dropGrip])
  map s n m hm k := by
    have x := k.one n
    exact (k.set n { s.station n with map := m } ⟨x.priority, x.checks, x.misses, x.idle, x.absent, hm⟩).of_eq rfl rfl
  drop s n k := k.of_eq rfl rfl
  make s n i e _ _ k := k.of_eq rfl rfl
  refresh s n k := k.of_eq rfl rfl
  lockout s v hv k := ⟨k.priority, k.checks, k.misses, k.idle, k.absent, hv, k.maps⟩
  resets s k := by
    refine StationLaw.of (fun m => ?_) k.lockout
    have x := k.one m
    have : (resetStations s).station m = (s.station m).toAbsent := by
      simp [resetStations, State.station, dropAllGrips]
    rw [this]
    exact ⟨x.priority, x.checks, by simp [Station.toAbsent], by simp [Station.toAbsent], by simp [Station.toAbsent], x.map⟩
  toTail s n k := k.of_eq rfl rfl
  startOrder s k := k.of_eq rfl rfl
  init s p k := by
    refine StationLaw.of (fun m => ?_) (by simp [enterInit, State.reset])
    have : (enterInit p s).station m = Station.startUp := by simp [enterInit, State.reset, State.station]
    rw [this]
    refine ⟨by simp [Station.startUp], by simp [Station.startUp], by simp [Station.startUp], by simp [Station.startUp],
      by simp [Station.startUp], ?_⟩
    intro i j e f hi
    simp [Station.startUp, mapAt] at hi

/-! ### The ports and the outputs (R167, R175) -/

/-- The law rests on what SRC and OUT hold alone. -/
theorem PortOutputLaw.outer {s t : State} (h : PortOutputLaw s) (e : OuterFrame s t) : PortOutputLaw t :=
  h.of_eq (by rw [e.src]) (by rw [e.src]) (by rw [e.out])

/-- Every operation keeps the ports' and outputs' law. -/
theorem PortOutputLaw.kept : Kept PortOutputLaw where
  same k e := k.of_eq (by rw [e.src]) (by rw [e.src]) (by rw [e.out])
  sound k _ h := h k
  length s v _ k := k.of_eq rfl rfl rfl
  changes s chs _ k := k.outer ((inner_takeChanges chs).frame s)
  fires s c r _ k := k.outer ((inner_fireCue c r).frame s)
  desk s _ _ _ k := k.of_eq rfl rfl rfl
  stop s _ k := k.of_eq rfl rfl rfl
  done s r p _ _ _ k := k.of_eq rfl rfl rfl
  waits s w _ k := k.of_eq rfl rfl rfl
  ticks s w _ k := k.of_eq rfl rfl rfl
  ends s h _ k := k.of_eq rfl rfl rfl
  advance s k := k.outer (inner_glideAdvance.frame s)
  complete s c k := k.outer ((inner_glideComplete c).frame s)
  load s n r _ _ k := k.of_eq rfl rfl rfl
  unload s n k := k.of_eq rfl rfl rfl
  soft s k := k.of_eq rfl rfl rfl
  charge s n k := k.of_eq rfl rfl rfl
  uncharge s n k := k.of_eq rfl rfl rfl
  idleZero s n k := k.of_eq rfl rfl rfl
  answer s n k := k.of_eq rfl rfl rfl
  missed s n k := by
    unfold stationMissed; simp only; split
    · exact k
    · split
      · exact k.of_eq (by simp [dropGrip]) (by simp [dropGrip]) (by simp [dropGrip])
      · exact k.of_eq rfl rfl rfl
  idles s k := k.of_eq rfl rfl rfl
  profile s n p a _ k := k.of_eq rfl rfl rfl
  absent s n k := by
    unfold makeAbsent; split
    · exact k
    · exact k.of_eq rfl rfl rfl
  attach s n k := k.of_eq (by simp [attachStation, dropGrip]) (by simp [attachStation, dropGrip])
    (by simp [attachStation, dropGrip])
  map s n m _ k := k.of_eq rfl rfl rfl
  drop s n k := k.of_eq rfl rfl rfl
  make s n i e _ _ k := k.of_eq rfl rfl rfl
  refresh s n k := k.of_eq rfl rfl rfl
  lockout s v _ k := k.of_eq rfl rfl rfl
  resets s k := k.of_eq rfl rfl rfl
  toTail s n k := k.of_eq rfl rfl rfl
  startOrder s k := k.of_eq rfl rfl rfl
  init s p k := PortOutputLaw.reset rfl rfl


/-! ### The grips (R101) -/

/-- Every grip of `t` was a grip of `s`, but for its staleness. -/
def GripsKept (s t : State) : Prop :=
  ∀ n g', t.grip n = some g' → ∃ g, s.grip n = some g ∧ g'.station = g.station ∧ g'.index = g.index ∧ g'.cell = g.cell ∧
    g'.right = g.right

theorem GripsKept.refl (s : State) : GripsKept s s := fun _ g h => ⟨g, h, rfl, rfl, rfl, rfl⟩
theorem GripsKept.trans {s t u : State} (h : GripsKept s t) (k : GripsKept t u) : GripsKept s u := by
  intro n g hg
  obtain ⟨g1, h1, a, b, c, d⟩ := k n g hg
  obtain ⟨g2, h2, a', b', c', d'⟩ := h n g1 h1
  exact ⟨g2, h2, a.trans a', b.trans b', c.trans c', d.trans d'⟩
theorem GripsKept.of_eq {s t : State} (h : t.grips = s.grips) : GripsKept s t := by
  intro n g hg
  refine ⟨g, ?_, rfl, rfl, rfl, rfl⟩
  simpa [State.grip, h] using hg

theorem GripsKept.takeChange (ch : Change) (s : State) : GripsKept s (takeChange ch s) := by
  intro n g' h
  rw [takeChange_grip] at h
  split at h
  · exact ⟨g', h, rfl, rfl, rfl, rfl⟩
  · simp only [Option.map_eq_some_iff] at h
    obtain ⟨g, hg, rfl⟩ := h
    refine ⟨g, hg, ?_⟩
    split <;> simp

theorem GripsKept.takeChanges (chs : List Change) (s : State) : GripsKept s (takeChanges chs s) := by
  induction chs generalizing s with
  | nil => exact GripsKept.refl s
  | cons ch rest ih => exact (GripsKept.takeChange ch s).trans (ih _)

theorem supersede_grips (s : State) : (supersede s).grips = s.grips := by
  unfold supersede; simp only; split <;> rfl

theorem GripsKept.fireCue (c : CueId) (r : CueRecord) (s : State) : GripsKept s (fireCue c r s) := by
  unfold Machine.fireCue
  have h1 : GripsKept s (makeRecord c r (supersede s)) := GripsKept.of_eq (supersede_grips s)
  refine (h1.trans (GripsKept.takeChanges (cueChanges c r) _)).trans (GripsKept.of_eq ?_)
  simp [finishFire]

/-- The law rests on the grips but for their staleness, and on the stations' states and maps. -/
theorem GripLaw.transfer {s t : State} (h : GripLaw s) (k : GripsKept s t)
    (e : ∀ n, (t.station n).state = (s.station n).state ∧ (t.station n).map = (s.station n).map) : GripLaw t := by
  refine ⟨?_, ?_, ?_⟩
  · intro n g hg
    obtain ⟨g0, h0, a, b, c, d⟩ := k n g hg
    rw [a]; exact h.own n g0 h0
  · intro n g hg
    obtain ⟨g0, h0, a, b, c, d⟩ := k n g hg
    rw [(e n).1]; exact h.attached n g0 h0
  · intro n g hg
    obtain ⟨g0, h0, a, b, c, d⟩ := k n g hg
    rw [(e n).2, b, c, d]; exact h.entry n g0 h0

theorem GripLaw.of_eq {s t : State} (h : GripLaw s) (g : t.grips = s.grips) (e : t.stations = s.stations) : GripLaw t :=
  h.transfer (GripsKept.of_eq g) (fun n => by simp [State.station, e])

theorem GripLaw.counts {s : State} (h : GripLaw s) (n : StationId) (x : Station) (h1 : x.state = (s.station n).state)
    (h2 : x.map = (s.station n).map) : GripLaw (s.setStation n x) := by
  refine h.transfer (GripsKept.of_eq rfl) (fun m => ?_)
  rw [State.station_setStation]
  split
  · next e => subst e; exact ⟨h1, h2⟩
  · exact ⟨rfl, rfl⟩

/-- Whatever happens to station n's record, with its grip dropped the law stands. -/
theorem GripLaw.dropped {s t : State} (h : GripLaw s) (n : StationId) (hn : t.grip n = none)
    (hg : ∀ m, m ≠ n → t.grip m = s.grip m) (hs : ∀ m, m ≠ n → t.station m = s.station m) : GripLaw t := by
  refine ⟨?_, ?_, ?_⟩ <;> intro m g e <;> by_cases hm : m = n
  · subst hm; rw [hn] at e; simp at e
  · rw [hg m hm] at e; exact h.own m g e
  · subst hm; rw [hn] at e; simp at e
  · rw [hg m hm] at e; rw [hs m hm]; exact h.attached m g e
  · subst hm; rw [hn] at e; simp at e
  · rw [hg m hm] at e; rw [hs m hm]; exact h.entry m g e

theorem GripLaw.dropSet {s : State} (h : GripLaw s) (n : StationId) (x : Station) : GripLaw (dropGrip n (s.setStation n x)) :=
  h.dropped n (by simp [dropGrip])
    (fun m hm => by
      have : (dropGrip n (s.setStation n x)).grip m = (s.setGrip n none).grip m := rfl
      rw [this, State.grip_setGrip, if_neg (Ne.symm hm)])
    (fun m hm => by
      have : (dropGrip n (s.setStation n x)).station m = (s.setStation n x).station m := rfl
      rw [this, State.station_setStation, if_neg (Ne.symm hm)])

/-- Every operation keeps the grips' law. -/
theorem GripLaw.kept : Kept GripLaw where
  same k e := k.of_eq e.grips e.stations
  sound k e _ := k.of_eq e.grips e.stations
  length s v _ k := k.of_eq rfl rfl
  changes s chs _ k := k.transfer (GripsKept.takeChanges chs s) (fun n => by
    have := ((inner_takeChanges chs).frame s).stations
    simp [State.station, this])
  fires s c r _ k := k.transfer (GripsKept.fireCue c r s) (fun n => by
    have := ((inner_fireCue c r).frame s).stations
    simp [State.station, this])
  desk s _ _ _ k := k.of_eq rfl rfl
  stop s _ k := k.of_eq rfl rfl
  done s r p _ _ _ k := k.of_eq rfl rfl
  waits s w _ k := k.of_eq rfl rfl
  ticks s w _ k := k.of_eq rfl rfl
  ends s h _ k := k.of_eq rfl rfl
  advance s k := k.of_eq (by simp [glideAdvance]) (inner_glideAdvance.frame s).stations
  complete s c k := k.of_eq (by unfold glideComplete; split; rfl; split <;> simp) ((inner_glideComplete c).frame s).stations
  load s n r _ _ k := k.of_eq rfl rfl
  unload s n k := k.of_eq rfl rfl
  soft s k := k.of_eq rfl rfl
  charge s n k := k.counts n _ rfl rfl
  uncharge s n k := k.counts n _ rfl rfl
  idleZero s n k := k.counts n _ rfl rfl
  answer s n k := k.counts n _ rfl rfl
  missed s n k := by
    unfold stationMissed
    simp only
    split
    · exact k
    · have k1 := k.counts n { s.station n with missRun := (s.station n).missRun + 1 } rfl rfl
      split
      · exact GripLaw.of_eq (k1.dropSet n _) (State.report_grips _ _) (State.report_stations _ _)
      · exact k1
  idles s k := k.transfer (GripsKept.of_eq rfl) (fun n => by
    have : (idleBlockEnd s).station n = (s.station n).idleTick := by simp [idleBlockEnd, State.station]
    rw [this]; exact ⟨rfl, rfl⟩)
  profile s n p a hp k := k.counts n _ rfl rfl
  absent s n k := by
    unfold makeAbsent
    split
    · exact k
    · exact k.dropSet n _
  attach s n k := GripLaw.of_eq (k.dropSet n { s.station n with state := .attached }) (State.report_grips _ _) (State.report_stations _ _)
  map s n m _ k := k.dropSet n _
  drop s n k := k.dropped n (by simp [dropGrip]) (fun m hm => by simp [dropGrip, State.grip_setGrip, Ne.symm hm]) (fun _ _ => rfl)
  make s n i e ha he k := by
    refine ⟨?_, ?_, ?_⟩ <;> intro m g hg <;> simp only [makeGrip, State.grip_setGrip] at hg <;> split at hg
    · next e => subst e; cases hg; rfl
    · exact k.own m g hg
    · next e => subst e; exact ha
    · exact k.attached m g hg
    · next e => subst e; cases hg; exact he
    · exact k.entry m g hg
  refresh s n k := by
    refine k.transfer ?_ (fun _ => ⟨rfl, rfl⟩)
    intro m g hg
    simp only [refreshGrip, State.grip_setGrip] at hg
    split at hg
    · next e =>
      subst e
      simp only [Option.map_eq_some_iff] at hg
      obtain ⟨g0, h0, rfl⟩ := hg
      exact ⟨g0, h0, rfl, rfl, rfl, rfl⟩
    · exact ⟨g, hg, rfl, rfl, rfl, rfl⟩
  lockout s v hv k := k.of_eq rfl rfl
  resets s k := by
    have : ∀ n, (resetStations s).grip n = none := by intro n; simp [resetStations, dropAllGrips, State.grip]
    refine ⟨?_, ?_, ?_⟩ <;> intro n g hg <;> rw [this] at hg <;> simp at hg
  toTail s n k := k.of_eq rfl rfl
  startOrder s k := k.of_eq rfl rfl
  init s p k := by
    have : ∀ n, (enterInit p s).grip n = none := by intro n; simp [enterInit, State.reset, State.grip]
    refine ⟨?_, ?_, ?_⟩ <;> intro n g hg <;> rw [this] at hg <;> simp at hg

/-! ### The matrix and the glide list (R5, R30, R31) -/

theorem cueChanges_lawful {c : CueId} {r : CueRecord} (h : r.lawful) : ∀ ch ∈ cueChanges c r, ch.lawful := by
  intro ch hch
  unfold cueChanges at hch
  obtain ⟨e, he, hch⟩ := List.mem_flatMap.mp hch
  obtain ⟨m, _, rfl⟩ := List.mem_map.mp hch
  refine ⟨h.1, ?_⟩
  have := h.2.2.2.1 e he
  unfold CueEdit.lawful at this
  simp only
  cases ha : e.action <;> rw [ha] at this <;> first | exact this | trivial

theorem MatrixLaw.reset : MatrixLaw State.reset := by
  have hc : ∀ c, State.reset.cell c = Cell.startUp := by intro c; simp [State.reset, State.cell]
  refine ⟨?_, by simp [State.reset], by simp [State.reset], by simp [State.reset], ?_, ?_, by simp [State.reset, glideLengthLawful, EngineerLink.startUp]⟩
  · intro c; rw [hc]; simp [Cell.lawful, Cell.startUp]
  · intro c _; rw [hc]; simp [goalOf, Cell.startUp]
  · intro n r hr; simp [State.slot, State.reset, CueEngine.startUp] at hr

theorem slot_writeSlot (n m : CueId) (r : Option CueRecord) (s : State) :
    (writeSlot n r s).slot m = if n = m then r else s.slot m := by
  simp [State.slot, writeSlot, tableGet_tableSet]

/-- Every operation keeps the matrix law. -/
theorem MatrixLaw.kept : Kept MatrixLaw where
  same k e := k.of_eq e.cells e.glides (by rw [e.cue]) e.length
  sound k e _ := k.of_eq e.cells e.glides (by rw [e.cue]) e.length
  length s v hv k := ⟨k.cells, k.room, k.once, k.goals, k.heard, k.slots, hv⟩
  changes s chs h k := k.takeChanges chs (fun ch hch => (h ch hch).2 k.length k.cells)
  fires s c r hr k := by
    have k1 : MatrixLaw (supersede s) := by
      unfold supersede
      simp only
      split
      · exact k.stripTags.of_eq rfl rfl rfl rfl
      · exact k.of_eq rfl rfl rfl rfl
    have k2 : MatrixLaw (makeRecord c r (supersede s)) := k1.of_eq rfl rfl rfl rfl
    have k3 := k2.takeChanges (cueChanges c r) (cueChanges_lawful (k.slots c r hr))
    exact k3.of_eq (by simp [finishFire, fireCue]) (by simp [finishFire, fireCue]) (by simp [finishFire, fireCue]) (by simp [finishFire, fireCue])
  desk s _ _ _ k := k.of_eq rfl rfl rfl rfl
  stop s _ k := k.stripTags.of_eq rfl rfl rfl rfl
  done s r p _ _ _ k := k.of_eq rfl rfl rfl rfl
  waits s w _ k := k.of_eq rfl rfl rfl rfl
  ticks s w _ k := k.of_eq rfl rfl rfl rfl
  ends s h _ k := k.of_eq rfl rfl rfl rfl
  advance s k := k.glideAdvance
  complete s c k := k.glideComplete c
  load s n r hr _ k := by
    refine ⟨k.cells, k.room, k.once, k.goals, k.heard, ?_, k.length⟩
    intro m x hx
    rw [slot_writeSlot] at hx
    split at hx
    · cases hx; exact hr
    · exact k.slots m x hx
  unload s n k := by
    refine ⟨k.cells, k.room, k.once, k.goals, k.heard, ?_, k.length⟩
    intro m x hx
    rw [slot_writeSlot] at hx
    split at hx
    · simp at hx
    · exact k.slots m x hx
  soft s k := k.glideEmpty.of_eq rfl rfl rfl rfl
  charge s n k := k.of_eq rfl rfl rfl rfl
  uncharge s n k := k.of_eq rfl rfl rfl rfl
  idleZero s n k := k.of_eq rfl rfl rfl rfl
  answer s n k := k.of_eq rfl rfl rfl rfl
  missed s n k := by
    unfold stationMissed; simp only; split
    · exact k
    · split
      · exact k.of_eq (State.report_cells _ _) (State.report_glides _ _) (by rw [State.report_cue]; rfl) (by rw [State.report_eli]; rfl)
      · exact k.of_eq rfl rfl rfl rfl
  idles s k := k.of_eq rfl rfl rfl rfl
  profile s n p a hp k := k.of_eq rfl rfl rfl rfl
  absent s n k := by
    unfold makeAbsent; split
    · exact k
    · exact k.of_eq rfl rfl rfl rfl
  attach s n k := k.of_eq (State.report_cells _ _) (State.report_glides _ _) (by simp [attachStation, dropGrip]) (by simp [attachStation, dropGrip])
  map s n m _ k := k.of_eq rfl rfl rfl rfl
  drop s n k := k.of_eq rfl rfl rfl rfl
  make s n i e ha he k := k.of_eq rfl rfl rfl rfl
  refresh s n k := k.of_eq rfl rfl rfl rfl
  lockout s v hv k := k.of_eq rfl rfl rfl rfl
  resets s k := k.of_eq rfl rfl rfl rfl
  toTail s n k := k.of_eq rfl rfl rfl rfl
  startOrder s k := k.of_eq rfl rfl rfl rfl
  init s p k := MatrixLaw.reset.of_eq rfl rfl rfl rfl


/-! ### The edit pool (R49) -/

theorem PoolLaw.of_eq {s t : State} (h : PoolLaw s) (slots : t.cue.slots = s.cue.slots) (used : t.cue.poolUsed = s.cue.poolUsed) :
    PoolLaw t := by
  refine ⟨?_, by rw [used, slots]; exact h.used, by rw [used]; exact h.room⟩
  intro n r hr
  exact h.slots n r (by simpa [State.slot, slots] using hr)

theorem takeChanges_slots (chs : List Change) (s : State) : (takeChanges chs s).cue.slots = s.cue.slots ∧
    (takeChanges chs s).cue.poolUsed = s.cue.poolUsed := by
  have := (takeChanges_frame chs s).cue
  rw [this]; exact ⟨rfl, rfl⟩

theorem sum_set (l : List Nat) (i : Nat) (h : i < l.length) (x : Nat) : (l.set i x).sum + l[i] = l.sum + x := by
  induction l generalizing i with
  | nil => simp at h
  | cons a l ih =>
    cases i with
    | zero => simp; omega
    | succ i =>
      have := ih i (by simpa using h)
      simp only [List.set_cons_succ, List.sum_cons, List.getElem_cons_succ]
      omega

theorem editTotal_set (t : Vector (Option CueRecord) 96) (n : CueId) (x : Option CueRecord) :
    editTotal (tableSet t n x) + slotEdits (tableGet t n) = editTotal t + slotEdits x := by
  unfold editTotal tableSet tableGet
  rw [Vector.toList_set, List.map_set]
  have := sum_set (t.toList.map slotEdits) n.val (by simp) (slotEdits x)
  simpa using this

theorem editTotal_ge (t : Vector (Option CueRecord) 96) (n : CueId) : slotEdits (tableGet t n) ≤ editTotal t := by
  have := editTotal_set t n none
  simp only [slotEdits] at this ⊢
  have h2 : slotEdits none = 0 := rfl
  unfold slotEdits at h2
  omega

/-- Every operation keeps the pool's law. -/
theorem PoolLaw.kept : Kept PoolLaw where
  same k e := k.of_eq (by rw [e.cue]) (by rw [e.cue])
  sound k e _ := k.of_eq (by rw [e.cue]) (by rw [e.cue])
  length s v hv k := k.of_eq rfl rfl
  changes s chs h k := k.of_eq (takeChanges_slots chs s).1 (takeChanges_slots chs s).2
  fires s c r hr k := by
    have h1 := takeChanges_slots (cueChanges c r) (makeRecord c r (supersede s))
    have h2 : (supersede s).cue.slots = s.cue.slots ∧ (supersede s).cue.poolUsed = s.cue.poolUsed := by
      unfold supersede; simp only; split <;> exact ⟨rfl, rfl⟩
    refine k.of_eq ?_ ?_
    · simp only [fireCue, finishFire, State.report_cue, State.setCue_cue]
      rw [h1.1]; exact h2.1
    · simp only [fireCue, finishFire, State.report_cue, State.setCue_cue]
      rw [h1.2]; exact h2.2
  desk s _ _ _ k := k.of_eq rfl rfl
  stop s _ k := k.of_eq rfl rfl
  done s r p _ _ _ k := k.of_eq rfl rfl
  waits s w _ k := k.of_eq rfl rfl
  ticks s w _ k := k.of_eq rfl rfl
  ends s h _ k := k.of_eq rfl rfl
  advance s k := k.of_eq (by rw [(glideAdvance_frame s).cue]) (by rw [(glideAdvance_frame s).cue])
  complete s c k := k.of_eq (by rw [(glideComplete_frame c s).cue]) (by rw [(glideComplete_frame c s).cue])
  load s n r hr hf k := by
    have e := editTotal_set s.cue.slots n (some r)
    have g := editTotal_ge s.cue.slots n
    have u := k.used
    have hf' : s.cue.poolUsed - slotEdits (s.slot n) + r.edits.length ≤ poolSize := by simpa [loadFits] using hf
    refine ⟨?_, ?_, ?_⟩
    · intro m x hx
      rw [slot_writeSlot] at hx
      split at hx
      · cases hx; exact hr
      · exact k.slots m x hx
    · show s.cue.poolUsed - slotEdits (tableGet s.cue.slots n) + slotEdits (some r) = editTotal (tableSet s.cue.slots n (some r))
      omega
    · exact hf'
  unload s n k := by
    have e := editTotal_set s.cue.slots n none
    have g := editTotal_ge s.cue.slots n
    have u := k.used
    have r := k.room
    refine ⟨?_, ?_, ?_⟩
    · intro m x hx
      rw [slot_writeSlot] at hx
      split at hx
      · simp at hx
      · exact k.slots m x hx
    · show s.cue.poolUsed - slotEdits (tableGet s.cue.slots n) + slotEdits none = editTotal (tableSet s.cue.slots n none)
      omega
    · show s.cue.poolUsed - slotEdits (tableGet s.cue.slots n) + 0 ≤ poolSize
      omega
  soft s k := k.of_eq rfl rfl
  charge s n k := k.of_eq rfl rfl
  uncharge s n k := k.of_eq rfl rfl
  idleZero s n k := k.of_eq rfl rfl
  answer s n k := k.of_eq rfl rfl
  missed s n k := by
    unfold stationMissed; simp only; split
    · exact k
    · split
      · exact k.of_eq (by rw [State.report_cue]; rfl) (by rw [State.report_cue]; rfl)
      · exact k.of_eq rfl rfl
  idles s k := k.of_eq rfl rfl
  profile s n p a hp k := k.of_eq rfl rfl
  absent s n k := by
    unfold makeAbsent; split
    · exact k
    · exact k.of_eq rfl rfl
  attach s n k := k.of_eq (by simp [attachStation, dropGrip]) (by simp [attachStation, dropGrip])
  map s n m _ k := k.of_eq rfl rfl
  drop s n k := k.of_eq rfl rfl
  make s n i e ha he k := k.of_eq rfl rfl
  refresh s n k := k.of_eq rfl rfl
  lockout s v hv k := k.of_eq rfl rfl
  resets s k := k.of_eq rfl rfl
  toTail s n k := k.of_eq rfl rfl
  startOrder s k := k.of_eq rfl rfl
  init s p k := by
    refine ⟨?_, ?_, ?_⟩
    · intro n r hr; simp [State.slot, State.reset, enterInit, CueEngine.startUp] at hr
    · show 0 = editTotal (Vector.replicate 96 none)
      decide
    · show 0 ≤ poolSize
      omega


/-! ### The running cue (R50, R51) -/

theorem CueLaw.tags {s : State} (h : CueLaw s) : TagLaw s := ⟨h.once, h.counted, h.untagged⟩
theorem CueLaw.of_tags {s : State} (h : TagLaw s) (p : s.cue.phase = .fading ↔ s.cue.running.isSome = true)
    (t : s.cue.phase ≠ .followWait → s.cue.timer = 0) : CueLaw s := ⟨h.once, p, h.counted, h.untagged, t⟩

theorem CueLaw.of_eq {s t : State} (h : CueLaw s) (glides : t.glides = s.glides) (running : t.cue.running = s.cue.running)
    (phase : t.cue.phase = s.cue.phase) (timer : t.cue.timer = s.cue.timer) : CueLaw t :=
  CueLaw.of_tags (h.tags.of_eq glides running) (by rw [phase, running]; exact h.present) (by rw [phase, timer]; exact h.timer)

/-- Inside the matrix frame, only the tag law is to be shown again. -/
theorem CueLaw.of_frame {s t : State} (h : CueLaw s) (f : MatrixFrame s t) (k : TagLaw t) : CueLaw t := by
  have hp : t.cue.phase = s.cue.phase := by rw [f.cue]
  have ht : t.cue.timer = s.cue.timer := by rw [f.cue]
  refine CueLaw.of_tags k ?_ (by rw [hp, ht]; exact h.timer)
  rw [hp, h.present]
  rcases f.running with e | ⟨r, n, e1, e2⟩
  · rw [e]
  · rw [e1, e2]; simp

theorem TagLaw.stopped {s : State} (h : TagLaw s) (x : CueEngine) (hx : x.running = none) : TagLaw ((stripTags s).setCue x) := by
  refine ⟨?_, ?_, ?_⟩
  · show ((stripTags s).glides.map (·.cell)).Nodup
    rw [stripTags_cells]; exact h.once
  · intro r hr
    simp only [State.setCue_cue, hx] at hr
    simp at hr
  · intro _ e he
    exact stripTags_untagged s e he

/-- Every operation keeps the running cue's law. -/
theorem CueLaw.kept : Kept CueLaw where
  same k e := k.of_eq e.glides (by rw [e.cue]) (by rw [e.cue]) (by rw [e.cue])
  sound k e _ := k.of_eq e.glides (by rw [e.cue]) (by rw [e.cue]) (by rw [e.cue])
  length s v hv k := k.of_eq rfl rfl rfl rfl
  changes s chs h k := k.of_frame (takeChanges_frame chs s) (k.tags.takeChanges chs (fun ch hch => by
    rw [(h ch hch).1]; exact tagFits_none s))
  fires s c r hr k := by
    have k1 := k.tags.makeRecord c r
    have k2 := k1.takeChanges (cueChanges c r) (by
      intro ch hch
      unfold cueChanges at hch
      obtain ⟨e, he, hch⟩ := List.mem_flatMap.mp hch
      obtain ⟨m, _, rfl⟩ := List.mem_map.mp hch
      unfold tagFits
      simp [makeRecord])
    have f := takeChanges_frame (cueChanges c r) (makeRecord c r (supersede s))
    have hrun : (takeChanges (cueChanges c r) (makeRecord c r (supersede s))).cue.running.isSome = true := by
      rcases f.running with e | ⟨r, n, e1, e2⟩
      · rw [e]; rfl
      · rw [e2]; rfl
    have htim : (takeChanges (cueChanges c r) (makeRecord c r (supersede s))).cue.timer = 0 := by
      rw [f.cue]
      rfl
    refine CueLaw.of_tags (k2.of_eq (by simp [fireCue, finishFire]) (by simp [fireCue, finishFire])) ?_ ?_
    · simp [fireCue, finishFire, hrun]
    · simp [fireCue, finishFire, htim]
  desk s _ _ _ k := k.of_eq rfl rfl rfl rfl
  stop s hp k := by
    refine CueLaw.of_tags (TagLaw.stopped k.tags _ rfl) (by simp) ?_
    intro _
    exact k.timer (by rw [hp]; simp)
  done s r p hp hr h0 k := by
    have hc := k.counted r hr
    have hun : ∀ e ∈ s.glides, e.tag = none := by
      intro e he
      have : taggedCount s.glides = 0 := by rw [← hc.1, h0]
      unfold taggedCount at this
      have h1 := List.length_eq_zero_iff.mp this
      have := List.filter_eq_nil_iff.mp h1 e he
      cases ht : e.tag
      · rfl
      · rw [ht] at this; simp at this
    refine ⟨k.once, by simp, ?_, fun _ => hun, ?_⟩
    · intro r hr; simp at hr
    · intro _; exact k.timer (by rw [hp]; simp)
  waits s w hp k := by
    have hr : s.cue.running = none := by
      have := k.present
      rw [hp] at this
      cases h : s.cue.running
      · rfl
      · rw [h] at this; simp at this
    refine ⟨k.once, ?_, ?_, ?_, ?_⟩
    · simp [hr]
    · intro r h; exact k.counted r h
    · intro h; exact k.untagged h
    · intro h; exact absurd rfl h
  ticks s w hp k := by
    refine ⟨k.once, ?_, ?_, ?_, ?_⟩
    · exact k.present
    · intro r h; exact k.counted r h
    · intro h; exact k.untagged h
    · intro h; exact absurd hp h
  ends s hold hp k := by
    have hr : s.cue.running = none := by
      have := k.present
      rw [hp] at this
      cases h : s.cue.running
      · rfl
      · rw [h] at this; simp at this
    refine ⟨k.once, ?_, ?_, ?_, ?_⟩
    · simp [hr]
    · intro r h; exact k.counted r h
    · intro h; exact k.untagged h
    · intro h; rfl
  advance s k := k.of_frame (glideAdvance_frame s) k.tags.glideAdvance
  complete s c k := k.of_frame (glideComplete_frame c s) (k.tags.glideComplete c)
  load s n r hr hf k := k.of_eq rfl rfl rfl rfl
  unload s n k := k.of_eq rfl rfl rfl rfl
  soft s k := by
    have hg : (cueSoftReset (glideEmpty s)).glides = [] := rfl
    refine ⟨by rw [hg]; simp, ?_, ?_, ?_, ?_⟩
    · simp [cueSoftReset]
    · intro r h; simp [cueSoftReset] at h
    · intro _; rw [hg]; simp
    · intro _; rfl
  charge s n k := k.of_eq rfl rfl rfl rfl
  uncharge s n k := k.of_eq rfl rfl rfl rfl
  idleZero s n k := k.of_eq rfl rfl rfl rfl
  answer s n k := k.of_eq rfl rfl rfl rfl
  missed s n k := by
    unfold stationMissed; simp only; split
    · exact k
    · split
      · exact k.of_eq (State.report_glides _ _) (by rw [State.report_cue]; rfl) (by rw [State.report_cue]; rfl) (by rw [State.report_cue]; rfl)
      · exact k.of_eq rfl rfl rfl rfl
  idles s k := k.of_eq rfl rfl rfl rfl
  profile s n p a hp k := k.of_eq rfl rfl rfl rfl
  absent s n k := by
    unfold makeAbsent; split
    · exact k
    · exact k.of_eq rfl rfl rfl rfl
  attach s n k := k.of_eq (State.report_glides _ _) (by simp [attachStation, dropGrip]) (by simp [attachStation, dropGrip]) (by simp [attachStation, dropGrip])
  map s n m _ k := k.of_eq rfl rfl rfl rfl
  drop s n k := k.of_eq rfl rfl rfl rfl
  make s n i e ha he k := k.of_eq rfl rfl rfl rfl
  refresh s n k := k.of_eq rfl rfl rfl rfl
  lockout s v hv k := k.of_eq rfl rfl rfl rfl
  resets s k := k.of_eq rfl rfl rfl rfl
  toTail s n k := k.of_eq rfl rfl rfl rfl
  startOrder s k := k.of_eq rfl rfl rfl rfl
  init s p k := by
    refine ⟨by simp [enterInit, State.reset], ?_, ?_, ?_, ?_⟩
    · simp [enterInit, State.reset, CueEngine.startUp]
    · intro r h; simp [enterInit, State.reset, CueEngine.startUp] at h
    · intro _; simp [enterInit, State.reset]
    · intro _; rfl

end Sys2Proof.Machine
end

