-- ==== Sys2Proof/Laws/BlockEnd.lean ====
section
/-! SUPPORT. What a block end does, block by block: which part of the state each block touches, and that no mark is lost. -/

namespace Sys2Proof.Machine

/-- Every mark that was set is still set. -/
def LatchKept (s t : State) : Prop := ∀ e, s.latched e = true → t.latched e = true

theorem LatchKept.of_eq {s t : State} (h : t.evl = s.evl) : LatchKept s t := by
  intro e he; simpa [State.latched, h] using he

theorem LatchKept.trans {s t u : State} (h : LatchKept s t) (k : LatchKept t u) : LatchKept s u := fun e he => k e (h e he)

theorem LatchKept.after {s u t : State} (k : LatchKept u t) (h : u.evl = s.evl) : LatchKept s t := (LatchKept.of_eq h).trans k

theorem LatchKept.report (s : State) (e : Event) : LatchKept s (s.report e) := fun f h => State.latched_report_mono s e f h

theorem LatchKept.frame {s t : State} (h : MatrixFrame s t) : LatchKept s t := by
  rcases h.marks with e | e
  · exact LatchKept.of_eq e
  · intro f hf
    unfold State.latched at *
    rw [e]
    simp only [ne_eq, decide_eq_true_eq] at *
    intro hz
    apply hf
    apply BitVec.eq_of_getLsbD_eq
    intro i hi
    have := congrArg (fun w => w.getLsbD i) hz
    simp at this
    simp
    intro h1
    exact this (.inl h1)

/-- A fire clears no mark. -/
theorem LatchKept.fireCue (c : CueId) (r : CueRecord) (s : State) : LatchKept s (fireCue c r s) := by
  unfold Machine.fireCue
  have h0 : LatchKept s (makeRecord c r (supersede s)) := LatchKept.of_eq (by
    show (supersede s).evl = s.evl
    unfold supersede; simp only; split <;> rfl)
  refine h0.trans ((LatchKept.frame (takeChanges_frame (cueChanges c r) _)).trans ?_)
  generalize takeChanges (cueChanges c r) (makeRecord c r (supersede s)) = u
  unfold finishFire
  exact (LatchKept.report _ _).after rfl

theorem LatchKept.fire (c : CueId) (s : State) : LatchKept s (fire c s) := by
  unfold Machine.fire
  split
  · exact LatchKept.fireCue _ _ _
  · unfold skipCue; exact (LatchKept.report _ _).after rfl
  · exact LatchKept.report _ _

theorem LatchKept.fireNext (s : State) : LatchKept s (fireNext s) := by
  unfold Machine.fireNext
  split
  · exact LatchKept.report _ _
  · exact LatchKept.fire _ _

theorem LatchKept.completionCheck (s : State) : LatchKept s (completionCheck s) := by
  unfold Machine.completionCheck
  split
  · split
    · refine (LatchKept.report s .cueDone).trans ?_
      unfold followOnHandling
      split
      · exact LatchKept.of_eq rfl
      · simp only
        split
        · exact LatchKept.of_eq rfl
        · split
          · exact (LatchKept.fireNext _).after rfl
          · exact LatchKept.of_eq rfl
    · exact fun _ h => h
  · exact fun _ h => h

/-- CUE's block-end work clears no mark. -/
theorem LatchKept.cueBlockEnd (s : State) : LatchKept s (cueBlockEnd s) := by
  unfold Machine.cueBlockEnd
  split
  · exact fun _ h => h
  · exact LatchKept.completionCheck s
  · split
    · unfold expireFollowWait; exact (LatchKept.fireNext _).after rfl
    · exact LatchKept.of_eq rfl

theorem makeAbsent_evl (n : StationId) (s : State) : (makeAbsent n s).evl = s.evl := by
  unfold makeAbsent; split <;> rfl

theorem LatchKept.missAndEnd (s : State) : LatchKept s (missAndEnd s) := by
  have hm : ∀ n, LatchKept s (stationMissed n s) := by
    intro n
    unfold stationMissed; simp only; split
    · exact fun _ h => h
    · split
      · exact (LatchKept.report _ _).after rfl
      · exact LatchKept.of_eq rfl
  have he : ∀ u : State, LatchKept u (endTransaction u) := by
    intro u
    unfold endTransaction
    refine LatchKept.of_eq ?_
    simp only [State.setLink_evl]
    split
    · unfold completeDeferred; split
      · rfl
      · exact makeAbsent_evl _ _
    · rfl
  unfold Machine.missAndEnd
  refine LatchKept.trans ?_ (he _)
  split
  · exact hm _
  · exact fun _ h => h

/-- BLC's block-end work clears no mark. -/
theorem LatchKept.linkBlockEnd (h : Bool) (s : State) : LatchKept s (linkBlockEnd h s) := by
  unfold Machine.linkBlockEnd
  split
  · split
    · unfold expireRequestWindow; split
      · exact LatchKept.missAndEnd s
      · exact fun _ h => h
    · exact LatchKept.of_eq rfl
  · split
    · unfold expireEchoWindow; split
      · exact LatchKept.missAndEnd s
      · exact fun _ h => h
    · exact LatchKept.of_eq rfl
  · split
    · unfold expireBreakCount; split
      · exact LatchKept.of_eq rfl
      · exact fun _ h => h
    · exact LatchKept.of_eq rfl
  · exact fun _ h => h

/-- What the blocks after CUE leave alone at a block end. -/
structure TailKept (s t : State) : Prop where
  run : t.run = s.run
  cells : t.cells = s.cells
  glides : t.glides = s.glides
  cue : t.cue = s.cue
  eli : t.eli = s.eli
  src : t.src = s.src
  lockout : t.lockout = s.lockout
  pending : t.pending = s.pending
  latch : LatchKept s t

theorem TailKept.trans {s t u : State} (h : TailKept s t) (k : TailKept t u) : TailKept s u :=
  ⟨k.run.trans h.run, k.cells.trans h.cells, k.glides.trans h.glides, k.cue.trans h.cue, k.eli.trans h.eli, k.src.trans h.src,
    k.lockout.trans h.lockout, k.pending.trans h.pending, h.latch.trans k.latch⟩

theorem stationMissed_kept (n : StationId) (s : State) : TailKept s (stationMissed n s) := by
  unfold stationMissed; simp only; split
  · exact ⟨rfl, rfl, rfl, rfl, rfl, rfl, rfl, rfl, fun _ h => h⟩
  · split
    · refine ⟨?_, ?_, ?_, ?_, ?_, ?_, ?_, ?_, (LatchKept.report _ _).after rfl⟩ <;> simp [dropGrip]
    · exact ⟨rfl, rfl, rfl, rfl, rfl, rfl, rfl, rfl, LatchKept.of_eq rfl⟩

theorem endTransaction_kept (s : State) : TailKept s (endTransaction s) := by
  unfold endTransaction
  split
  · unfold completeDeferred; split
    · exact ⟨rfl, rfl, rfl, rfl, rfl, rfl, rfl, rfl, LatchKept.of_eq rfl⟩
    · unfold makeAbsent; split
      · exact ⟨rfl, rfl, rfl, rfl, rfl, rfl, rfl, rfl, LatchKept.of_eq rfl⟩
      · exact ⟨rfl, rfl, rfl, rfl, rfl, rfl, rfl, rfl, LatchKept.of_eq rfl⟩
  · exact ⟨rfl, rfl, rfl, rfl, rfl, rfl, rfl, rfl, LatchKept.of_eq rfl⟩

theorem missAndEnd_kept (s : State) : TailKept s (missAndEnd s) := by
  unfold missAndEnd
  split
  · exact (stationMissed_kept _ s).trans (endTransaction_kept _)
  · exact endTransaction_kept _

theorem linkBlockEnd_kept (h : Bool) (s : State) : TailKept s (linkBlockEnd h s) := by
  have k : ∀ x, TailKept s (s.setLink x) := fun x => ⟨rfl, rfl, rfl, rfl, rfl, rfl, rfl, rfl, LatchKept.of_eq rfl⟩
  have i : TailKept s s := ⟨rfl, rfl, rfl, rfl, rfl, rfl, rfl, rfl, fun _ h => h⟩
  unfold linkBlockEnd
  split
  · split
    · unfold expireRequestWindow; split
      · exact missAndEnd_kept s
      · exact i
    · exact k _
  · split
    · unfold expireEchoWindow; split
      · exact missAndEnd_kept s
      · exact i
    · exact k _
  · split
    · unfold expireBreakCount; split
      · exact k _
      · exact i
    · exact k _
  · exact i

/-- The part of a block end after CUE: STT, BLC, OUT and SLR. -/
def blockEndTail (h : Bool) (s : State) : State := showBlockEnd (fadeBlockEnd (linkBlockEnd h (idleBlockEnd s)))

/-- STT, BLC, OUT and SLR leave the matrix, the glides, CUE, ELI and SRC as they were at a block end. -/
theorem blockEndTail_kept (h : Bool) (s : State) : TailKept s (blockEndTail h s) := by
  unfold blockEndTail
  refine TailKept.trans (t := idleBlockEnd s) ⟨rfl, rfl, rfl, rfl, rfl, rfl, rfl, rfl, LatchKept.of_eq rfl⟩ ?_
  refine (linkBlockEnd_kept h _).trans ?_
  refine TailKept.trans (t := fadeBlockEnd (linkBlockEnd h (idleBlockEnd s))) ?_ ?_
  · unfold fadeBlockEnd; split
    · exact ⟨rfl, rfl, rfl, rfl, rfl, rfl, rfl, rfl, fun _ h => h⟩
    · exact ⟨rfl, rfl, rfl, rfl, rfl, rfl, rfl, rfl, LatchKept.of_eq rfl⟩
  · generalize fadeBlockEnd (linkBlockEnd h (idleBlockEnd s)) = u
    unfold showBlockEnd; split
    · exact ⟨rfl, rfl, rfl, rfl, rfl, rfl, rfl, rfl, fun _ h => h⟩
    · split
      · refine ⟨?_, ?_, ?_, ?_, ?_, ?_, ?_, ?_, (LatchKept.report _ _).after rfl⟩ <;> simp [discardMessage, clearPartial]
      · exact ⟨rfl, rfl, rfl, rfl, rfl, rfl, rfl, rfl, LatchKept.of_eq rfl⟩

/-- The part of a block end up to CUE: SRC, GLU and CUE. -/
def blockEndHead (a b : PortBlock) (s : State) : State := cueBlockEnd (glideAdvance (sourceBlockEnd a b s))

/-- A block end in RUN is its two parts, one after the other. -/
theorem blockEnd_eq (a b : PortBlock) (h : Bool) (s : State) (hr : s.run = .run) :
    blockEnd a b h s = blockEndTail h (blockEndHead a b s) := by
  simp only [blockEnd, hr, if_true]; rfl

/-- SRC's work at a block end. -/
theorem sourceBlockEnd_kept (a b : PortBlock) (s : State) : (sourceBlockEnd a b s).cells = s.cells ∧
    (sourceBlockEnd a b s).glides = s.glides ∧ (sourceBlockEnd a b s).cue = s.cue ∧ (sourceBlockEnd a b s).eli = s.eli ∧
    (sourceBlockEnd a b s).stations = s.stations ∧ (sourceBlockEnd a b s).link = s.link ∧ (sourceBlockEnd a b s).out = s.out ∧
    (sourceBlockEnd a b s).pending = s.pending ∧ (sourceBlockEnd a b s).lockout = s.lockout ∧ (sourceBlockEnd a b s).run = s.run := by
  unfold sourceBlockEnd
  simp only
  split <;> simp

/-- GLU and CUE leave everything but the matrix, the glides, CUE, the grips and the events to the others. -/
theorem blockEndHead_frame (a b : PortBlock) (s : State) : OuterFrame (sourceBlockEnd a b s) (blockEndHead a b s) :=
  (inner_glideAdvance.frame _).trans (inner_cueBlockEnd.frame _)

/-- A miss and the end of the transaction touch no station but the selected one. -/
theorem missAndEnd_station (s : State) (n : StationId) (hn : s.link.selected ≠ some n) :
    (missAndEnd s).station n = s.station n := by
  have hmiss : ∀ m, m ≠ n → (stationMissed m s).station n = s.station n := by
    intro m hm
    unfold stationMissed; simp only; split
    · rfl
    · split
      · have e1 : ∀ (u : State) (e : Event), (u.report e).station n = u.station n := by intro u e; simp [State.station]
        rw [e1]
        show ((s.setStation m _).setStation m _).station n = _
        rw [State.station_setStation, if_neg hm, State.station_setStation, if_neg hm]
      · rw [State.station_setStation, if_neg hm]
  have hend : ∀ u : State, u.link.selected = s.link.selected → (endTransaction u).station n = u.station n := by
    intro u hu
    unfold endTransaction
    split
    · next m hm =>
      have hmn : m ≠ n := by intro e; subst e; exact hn (hu ▸ hm)
      show (completeDeferred m u).station n = _
      unfold completeDeferred; split
      · rfl
      · unfold makeAbsent; split
        · rfl
        · show (u.setStation m _).station n = _
          rw [State.station_setStation, if_neg hmn]
    · rfl
  have hsel : ∀ m, (stationMissed m s).link = s.link := by
    intro m; unfold stationMissed; simp only; split
    · rfl
    · split <;> simp [dropGrip]
  unfold missAndEnd
  split
  · next m hm =>
    have hmn : m ≠ n := by intro e; subst e; exact hn hm
    rw [hend _ (by rw [hsel]), hmiss m hmn]
  · exact hend _ rfl

/-- BLC's block-end work touches no station but the selected one. -/
theorem linkBlockEnd_station (h : Bool) (s : State) (n : StationId) (hn : s.link.selected ≠ some n) :
    (linkBlockEnd h s).station n = s.station n := by
  unfold linkBlockEnd
  split
  · split
    · unfold expireRequestWindow; split
      · exact missAndEnd_station s n hn
      · rfl
    · rfl
  · split
    · unfold expireEchoWindow; split
      · exact missAndEnd_station s n hn
      · rfl
    · rfl
  · split
    · unfold expireBreakCount; split <;> rfl
    · rfl
  · rfl

/-- A miss leaves OUT as it was. -/
theorem missAndEnd_out (s : State) : (missAndEnd s).out = s.out := by
  have h1 : ∀ m (u : State), (stationMissed m u).out = u.out := by
    intro m u; unfold stationMissed; simp only; split
    · rfl
    · split <;> simp [dropGrip]
  have h2 : ∀ u : State, (endTransaction u).out = u.out := by
    intro u
    unfold endTransaction
    split
    · unfold completeDeferred; split
      · rfl
      · unfold makeAbsent; split <;> rfl
    · rfl
  unfold missAndEnd; split
  · rw [h2, h1]
  · rw [h2]

/-- BLC's block-end work leaves OUT as it was. -/
theorem linkBlockEnd_out (h : Bool) (s : State) : (linkBlockEnd h s).out = s.out := by
  unfold linkBlockEnd
  split
  · split
    · unfold expireRequestWindow; split
      · exact missAndEnd_out s
      · rfl
    · rfl
  · split
    · unfold expireEchoWindow; split
      · exact missAndEnd_out s
      · rfl
    · rfl
  · split
    · unfold expireBreakCount; split <;> rfl
    · rfl
  · rfl

/-- SLR's block-end work leaves OUT and the stations as they were. -/
theorem showBlockEnd_out (s : State) : (showBlockEnd s).out = s.out ∧ (showBlockEnd s).stations = s.stations := by
  unfold showBlockEnd; split
  · exact ⟨rfl, rfl⟩
  · split
    · simp [discardMessage, clearPartial]
    · exact ⟨rfl, rfl⟩

/-- After SRC no block touches SRC at a block end. -/
theorem blockEnd_src (a b : PortBlock) (h : Bool) (s : State) (hr : s.run = .run) :
    (blockEnd a b h s).src = (sourceBlockEnd a b s).src := by
  rw [blockEnd_eq a b h s hr, (blockEndTail_kept h _).src, (blockEndHead_frame a b s).src]

/-- What SRC holds after its block-end work: the block captured, both ports judged, the active port evaluated. -/
theorem sourceBlockEnd_src (a b : PortBlock) (s : State) : (sourceBlockEnd a b s).src = (
    let x := { s.src with
      captured := captureBlock s.src.active a b
      portA := judgePort a.good s.src.portA
      portB := judgePort b.good s.src.portB }
    { x with active := (selectPort x).active }) := by
  unfold sourceBlockEnd; simp only; split <;> simp

/-- No mark that SRC latches at a block end is cleared by what follows. -/
theorem blockEnd_latchKept (a b : PortBlock) (h : Bool) (s : State) (hr : s.run = .run) :
    LatchKept (sourceBlockEnd a b s) (blockEnd a b h s) := by
  rw [blockEnd_eq a b h s hr]
  exact ((LatchKept.frame (glideAdvance_frame _)).trans (LatchKept.cueBlockEnd _)).trans (blockEndTail_kept h _).latch

/-- GLU's advance takes from the running cue's count the tagged entries that complete (R36, R38). -/
theorem advanceEntries_cue (l : List GlideEntry) (s : State) : (advanceEntries l s).2.cue =
    { s.cue with running := s.cue.running.map (fun r => { r with
        outstanding := r.outstanding - (l.filter (fun e => decide (e.remaining ≤ 1 ∧ e.tag = some r.cue))).length }) } := by
  induction l generalizing s with
  | nil =>
    simp only [advanceEntries]
    cases hr : s.cue.running <;> simp [← hr]
  | cons e l ih =>
    unfold advanceEntries
    split
    · next h1 =>
      rw [ih]
      have : (glideFinish e s).cue = { s.cue with running := s.cue.running.map (fun r =>
          if e.tag = some r.cue then { r with outstanding := r.outstanding - 1 } else r) } := by
        unfold glideFinish tagNotices
        cases ht : e.tag with
        | none => simp
        | some c =>
          simp only [reduceCtorEq, if_false, tagLost]
          cases hr : s.cue.running with
          | none => simp [State.setHeard, hr]; rw [← hr]
          | some r =>
            simp only [State.setHeard, State.setCell_cue, hr]
            by_cases hc : r.cue = c
            · simp [hc]
            · simp only [if_neg hc, Option.map_some, Option.some.injEq, if_neg (Ne.symm hc)]
              rw [← hr]; rfl
      rw [this]
      cases s.cue.running with
      | none => rfl
      | some r =>
        simp only [Option.map_some]
        congr 2
        by_cases hc : e.tag = some r.cue
        · simp only [hc, if_true, List.filter_cons, h1, and_self, decide_true, List.length_cons]
          congr 1
          omega
        · simp [hc]
    · next h1 =>
      simp only
      rw [ih]
      simp only [List.filter_cons, h1, false_and, decide_false, Bool.false_eq_true, if_false]
      rfl

/-- At a block end GLU advances the list that SRC leaves alone. -/
theorem glideAdvance_advanced (a b : PortBlock) (s : State) (hd : (s.glides.map (·.cell)).Nodup) :
    GlidesAdvanced s (glideAdvance (sourceBlockEnd a b s)) ∧
    (glideAdvance (sourceBlockEnd a b s)).cue = { s.cue with
      running := s.cue.running.map (fun r => { r with outstanding := r.outstanding - tagsLost r.cue s }) } := by
  have sk := sourceBlockEnd_kept a b s
  have hcell : ∀ c, (sourceBlockEnd a b s).cell c = s.cell c := fun c => by simp [State.cell, sk.1]
  have tcell : ∀ c, (glideAdvance (sourceBlockEnd a b s)).cell c = (advanceEntries s.glides (sourceBlockEnd a b s)).2.cell c := by
    intro c
    unfold glideAdvance
    rw [sk.2.1]
    rfl
  refine ⟨⟨?_, ?_, ?_, ?_⟩, ?_⟩
  · intro e he h1
    rw [tcell, advanceEntries_own s.glides _ hd e he]
    rw [hcell]
    simp [advancedHeard, h1]
  · intro e he h2
    rw [tcell, advanceEntries_own s.glides _ hd e he, hcell]
    unfold advancedHeard
    rw [if_neg (by omega)]
    rfl
  · intro c hc
    rw [tcell, advanceEntries_other, hcell]
    exact (gliding_false_iff s c).mp hc
  · show (advanceEntries (sourceBlockEnd a b s).glides (sourceBlockEnd a b s)).1 = _
    rw [sk.2.1, advanceEntries_list]
    rfl
  · show (advanceEntries (sourceBlockEnd a b s).glides (sourceBlockEnd a b s)).2.cue = _
    rw [advanceEntries_cue, sk.2.1, sk.2.2.1]; rfl

/-- What the advance says of a state it says of any with the same cells and glide list. -/
theorem GlidesAdvanced.of {s t u : State} (h : GlidesAdvanced s t) (hc : u.cells = t.cells)
    (hg : u.glides = t.glides) : GlidesAdvanced s u := by
  have : ∀ c, u.cell c = t.cell c := fun c => by simp [State.cell, hc]
  exact ⟨fun e he h1 => (this _).trans (h.done e he h1), fun e he h1 => (this _).trans (h.moved e he h1),
    fun c h1 => (this _).trans (h.still c h1), hg.trans h.glides⟩

/-- OUT's and SLR's block-end work leaves the link, the stations and the grips as they were, and clears no mark. -/
theorem fadeShow_band (s : State) : (showBlockEnd (fadeBlockEnd s)).link = s.link ∧
    (showBlockEnd (fadeBlockEnd s)).stations = s.stations ∧ (showBlockEnd (fadeBlockEnd s)).grips = s.grips ∧
    LatchKept s (showBlockEnd (fadeBlockEnd s)) := by
  have fade : (fadeBlockEnd s).link = s.link ∧ (fadeBlockEnd s).stations = s.stations ∧ (fadeBlockEnd s).grips = s.grips ∧
      (fadeBlockEnd s).evl = s.evl := by
    unfold fadeBlockEnd; split <;> exact ⟨rfl, rfl, rfl, rfl⟩
  have last : ∀ u : State, (showBlockEnd u).link = u.link ∧ (showBlockEnd u).stations = u.stations ∧
      (showBlockEnd u).grips = u.grips ∧ LatchKept u (showBlockEnd u) := by
    intro u
    unfold showBlockEnd; split
    · exact ⟨rfl, rfl, rfl, fun _ h => h⟩
    · split
      · refine ⟨?_, ?_, ?_, (LatchKept.report _ _).after rfl⟩ <;> simp [discardMessage, clearPartial]
      · exact ⟨rfl, rfl, rfl, LatchKept.of_eq rfl⟩
  obtain ⟨a1, a2, a3, a4⟩ := fade
  obtain ⟨b1, b2, b3, b4⟩ := last (fadeBlockEnd s)
  exact ⟨b1.trans a1, b2.trans a2, b3.trans a3, (LatchKept.of_eq a4).trans b4⟩

/-- At a block end the link, the stations and the grips are as BLC's work leaves them, which finds the link as it was and
the idle blocks counted. -/
theorem blockEnd_band (a b : PortBlock) (h : Bool) (s : State) (hr : s.run = .run) :
    let u := idleBlockEnd (blockEndHead a b s)
    let t := linkBlockEnd h u
    ((blockEnd a b h s).link = t.link ∧ (blockEnd a b h s).stations = t.stations ∧ (blockEnd a b h s).grips = t.grips ∧
      LatchKept t (blockEnd a b h s)) ∧
    u.run = .run ∧ u.link = s.link ∧ u.stations = s.stations.map Station.idleTick := by
  intro u t
  have hf := blockEndHead_frame a b s
  obtain ⟨-, -, -, -, k5, k6, -, -, -, k10⟩ := sourceBlockEnd_kept a b s
  refine ⟨?_, (hf.run.trans k10).trans hr, hf.link.trans k6, ?_⟩
  · rw [blockEnd_eq a b h s hr]
    exact fadeShow_band t
  · show (blockEndHead a b s).stations.map _ = _
    rw [hf.stations, k5]

end Sys2Proof.Machine
end

