-- ==== Sys2Proof/Laws/Fire.lean ====
section
/-! SUPPORT. Cue commands and the fire: what either link's delivery leaves, and everything a fire does. -/

namespace Sys2Proof.Machine

/-- The four characters of a message add up to 0xFF (R75). -/
theorem message_sum (k h l : Byte) : k + h + l + (0xFF - k - h - l) = 0xFF := by
  apply BitVec.eq_of_toNat_eq
  simp

/-- A message sent whole reaches CUE with the receiver emptied. -/
theorem showMessageOf_ready (k : Byte) (w : Word16) (s : State) (hr : s.run = .run) (hc : s.slr.chars = []) (t : State)
    (ht : showCommand k (hiByte w) (loByte w) (s.setSlr { chars := [], gap := 0 }) = some t) :
    showMessageOf k w s = t := by
  simp only [showMessageOf, messageChars, List.foldl_cons, List.foldl_nil]
  have h1 : showCharacter k s = s.setSlr { chars := [k], gap := 0 } := by
    simp [showCharacter, hr, hc]
  have h2 : ∀ b x y, showCharacter b (s.setSlr { chars := [x], gap := y }) = s.setSlr { chars := [x, b], gap := 0 } := by
    intro b x y; simp [showCharacter, hr]; rfl
  have h3 : ∀ b x x' y, showCharacter b (s.setSlr { chars := [x, x'], gap := y }) = s.setSlr { chars := [x, x', b], gap := 0 } := by
    intro b x x' y; simp [showCharacter, hr]; rfl
  rw [h1, h2, h3]
  have hm := message_sum k (hiByte w) (loByte w)
  simp only [showCharacter, State.setSlr_run, hr, if_true, State.setSlr_slr, takeMessage, hm]
  have e : clearPartial (s.setSlr { chars := [k, hiByte w, loByte w], gap := 0 }) = s.setSlr { chars := [], gap := 0 } := rfl
  rw [e, ht]

/-- A command whose meaning touches neither ELI nor the link is that meaning on the state its delivery leaves. -/
theorem sendCommand_inner {s : State} (h : CommandReady .extended s) (c : ConsoleCode) (hp : codeOnPage c .extended = true)
    (hl : isLoad c = false) (n : Nat) (hc : codeShape c = .fixed n) (ops : List Byte) (hn : ops.length = n) (f : State → State)
    (hf : Inner f) (ht : takeCode c ops (s.setEli { s.eli with dataOut := 0 }) = f (s.setEli { s.eli with dataOut := 0 })) :
    sendCommand c ops s = f (s.setEli (eliAfter s)) := by
  rw [sendCommand_fixed h c hp hl n hc ops hn, ht, hf.setEli, hf.setEli]
  rfl

/-- GO of either link is a fire of the next pointer. -/
theorem exec_go (link : CueLink) (s : State) (h : CueInputReady link s) : exec (.go link) s = .next (fireNext (cueInput link s)) := by
  cases link
  · exact congrArg Host.Outcome.next (sendCommand_inner h .go rfl rfl 0 rfl [] rfl fireNext inner_fireNext rfl)
  · exact congrArg Host.Outcome.next (showMessageOf_ready 1 0 s h.run h.chars _ rfl)

/-- A chain reads CUE alone. -/
theorem chain_congr {s t : State} (h : t.cue = s.cue) (k : Nat) (c : CueId) : chain k c t = chain k c s := by
  induction k generalizing c with
  | zero => rfl
  | succ k ih =>
    have : t.slot c = s.slot c := by simp [State.slot, h]
    simp only [chain, this, h, ih]

theorem cueInput_cue (link : CueLink) (s : State) : (cueInput link s).cue = s.cue := by cases link <;> rfl

theorem cueInput_run (link : CueLink) (s : State) : (cueInput link s).run = s.run := by cases link <;> rfl

theorem cueInput_evl (link : CueLink) (s : State) : (cueInput link s).evl = s.evl := by cases link <;> rfl

/-- Either link is ready in RUN only. -/
theorem cueInputReady_run (link : CueLink) (s : State) (h : CueInputReady link s) : s.run = .run := by
  cases link
  · exact h.run
  · exact h.run

/-- Changes latch no event but GLIDE_FULL. -/
theorem takeChanges_latched (chs : List Change) (s : State) (e : Event) (he : e ≠ .glideFull) :
    (takeChanges chs s).latched e = s.latched e := by
  rcases (takeChanges_frame chs s).marks with h | h
  · unfold State.latched; rw [h]
  · unfold State.latched; rw [h]
    have hd : eventMark .glideFull &&& eventMark e = 0 := by cases e <;> first | exact absurd rfl he | decide
    have : (s.evl.marks ||| eventMark .glideFull) &&& eventMark e = s.evl.marks &&& eventMark e := by
      apply BitVec.eq_of_getLsbD_eq
      intro i hi
      have hb := congrArg (fun w => w.getLsbD i) hd
      have hz : (0 : Word16).getLsbD i = false := by simp
      simp only [BitVec.getLsbD_and] at hb
      rw [hz] at hb
      simp only [BitVec.getLsbD_and, BitVec.getLsbD_or]
      cases ha : (eventMark .glideFull).getLsbD i
      · simp
      · rw [ha] at hb
        simp only [Bool.true_and] at hb
        simp [hb]
    exact congrArg (fun w : Word16 => decide (w ≠ 0)) this

/-- What a supersede leaves (R58). -/
theorem supersede_kept (s : State) : (supersede s).evl = s.evl ∧ (supersede s).run = s.run ∧
    (supersede s).cue = { s.cue with running := none, timer := 0 } := by
  unfold supersede; simp only; split <;> exact ⟨rfl, rfl, rfl⟩

/-- What the fire of a cue leaves (R58 to R60). -/
theorem fireCue_fired (f : CueId) (r : CueRecord) (s : State) (hr : s.run = .run) : Fired f r s (fireCue f r s) := by
  have sf := supersede_kept s
  have fr := takeChanges_frame (cueChanges f r) (makeRecord f r (supersede s))
  have hcue := fr.cue
  have hb : (makeRecord f r (supersede s)).cue = { s.cue with running := some { cue := f, outstanding := 0, followOn := r.followOn }, timer := 0 } := by
    show ({ (supersede s).cue with running := _ } : CueEngine) = _
    rw [sf.2.2]
  rw [hb] at hcue
  have hrun' : (takeChanges (cueChanges f r) (makeRecord f r (supersede s))).run = .run := by
    rw [fr.outer.run]
    show (supersede s).run = _
    rw [sf.2.1, hr]
  have hslots : ∀ n, (takeChanges (cueChanges f r) (makeRecord f r (supersede s))).slot n = s.slot n := by
    intro n
    show tableGet (takeChanges (cueChanges f r) (makeRecord f r (supersede s))).cue.slots n = _
    rw [hcue]; rfl
  have hcf : (fireCue f r s).cue = { (takeChanges (cueChanges f r) (makeRecord f r (supersede s))).cue with
      flags := maskedFlags r s.cue.flags
      nextPointer := pointerAfter f r (takeChanges (cueChanges f r) (makeRecord f r (supersede s)))
      phase := .fading } := by
    simp only [fireCue, finishFire, State.report_cue, State.setCue_cue]
    have : (takeChanges (cueChanges f r) (makeRecord f r (supersede s))).cue.flags = s.cue.flags := by rw [hcue]
    rw [this]
  have hev : (fireCue f r s) = ((takeChanges (cueChanges f r) (makeRecord f r (supersede s))).setCue (fireCue f r s).cue).report .cueFired := by
    simp only [fireCue, finishFire, State.report_cue, State.setCue_cue]
  refine ⟨?_, ?_, ?_, ?_, ?_, ?_, ?_, ?_, ?_, (inner_fireCue f r).frame s, ?_, ?_, ?_⟩
  · rw [hcf]
  · rw [hcf]
    rcases fr.running with e | ⟨r', k, e1, e2⟩
    · simp only [e, hb]; exact ⟨0, rfl⟩
    · rw [hb] at e1
      simp only [Option.some.injEq] at e1
      subst e1
      exact ⟨k, e2⟩
  · rw [hcf, hcue]
  · rw [hcf]
    unfold maskedFlags
    have ones : ∀ x : Word16, x &&& 65535#16 = x := fun x => by
      have : (65535#16 : Word16) = BitVec.allOnes 16 := by decide
      exact (congrArg (fun y => x &&& y) this).trans (BitVec.and_allOnes)
    cases r.setMask <;> cases r.clearMask <;> simp [ones]
  · rw [hcf]
    unfold pointerAfter
    cases r.followOn with
    | some x => rfl
    | none =>
      simp only [lowestAbove, State.occupied, hslots]
  · rw [hcf, hcue]; exact ⟨rfl, rfl, rfl⟩
  · rw [hev]; exact State.latched_report_same _ _ (by simpa using hrun')
  · intro e h1 h2
    rw [hev, State.latched_report_ne _ _ _ (Ne.symm h1)]
    have : ∀ (u : State) x, (u.setCue x).latched e = u.latched e := fun _ _ => rfl
    rw [this, takeChanges_latched _ _ _ h2]
    show (supersede s).latched e = _
    unfold State.latched
    rw [sf.1]
  · rw [hev]
    have : ∀ (u : State) (e : Event), (u.report e).evl.enables = u.evl.enables := by
      intro u e; unfold State.report; split <;> rfl
    rw [this]
    show (takeChanges (cueChanges f r) (makeRecord f r (supersede s))).evl.enables = _
    rcases fr.marks with e | e <;> rw [e] <;> show (supersede s).evl.enables = _ <;> rw [sf.1]
  · rw [hev]; simp
  · rw [hev]; simp
  · rw [hev]; simp

/-- GOTO of the console with a cue number is a fire of that cue. -/
theorem exec_goto_console (b : Byte) (s : State) (h : CueInputReady .console s) (hb : b.toNat < 96) :
    exec (.goto (.console b)) s = .next (fire ⟨b.toNat, hb⟩ (cueInput .console s)) := by
  refine congrArg Host.Outcome.next (sendCommand_inner h .goto rfl rfl 1 rfl [b] rfl (fire ⟨b.toNat, hb⟩) (inner_fire _) ?_)
  simp only [takeCode, takeGoto, inRange_some hb]

/-- GOTO of the Show Link is CUE's GOTO of its operand. -/
theorem exec_goto_showLink (w : Word16) (s : State) (h : CueInputReady .showLink s) :
    exec (.goto (.showLink w)) s = .next (cueGoto w.toNat (cueInput .showLink s)) := by
  refine congrArg Host.Outcome.next (showMessageOf_ready 2 w s h.run h.chars _ ?_)
  show some (cueGoto (word16 (hiByte w) (loByte w)).toNat _) = _
  rw [word16_bytes]; rfl

/-- A command of the EXTENDED page with a fixed number of operands is its meaning, the frame moved on. -/
theorem sendCommand_extended {s : State} (h : CommandReady .extended s) (c : ConsoleCode) (hp : codeOnPage c .extended = true)
    (hl : isLoad c = false) (n : Nat) (hc : codeShape c = .fixed n) (ops : List Byte) (hn : ops.length = n) :
    sendCommand c ops s = (let t := takeCode c ops (s.setEli { s.eli with dataOut := 0 })
       t.setEli { t.eli with frame := frameRest s.eli.frame }) := sendCommand_fixed h c hp hl n hc ops hn

end Sys2Proof.Machine
end

