-- ==== Sys2Proof/Laws/Loads.lean ====
section
/-! SUPPORT. How the two staged loads are read from their bytes: byte by byte, entry by entry, edit by edit. -/

namespace Sys2Proof.Machine

/-! ### Bytes -/

theorem inRange_lt {k : Nat} {b : Byte} {i : Fin k} (h : inRange k b = some i) : b.toNat < k := by
  unfold inRange at h
  split at h
  · assumption
  · simp at h

theorem inRange_val {k : Nat} {b : Byte} {i : Fin k} (h : inRange k b = some i) : i.val = b.toNat := by
  unfold inRange at h
  split at h
  · simp at h; rw [← h]
  · simp at h

theorem word16_hi_lo (w : Word16) : word16 (hiByte w) (loByte w) = w := by
  show hiByte w ++ loByte w = w
  apply BitVec.eq_of_getLsbD_eq
  intro i hi
  simp only [hiByte, loByte, BitVec.getLsbD_append, BitVec.getLsbD_extractLsb']
  split
  · next h => simp [h]
  · next h =>
    have h1 : i - 8 < 8 := by omega
    have h2 : 8 + (i - 8) = i := by omega
    simp [h1, h2]

theorem word16_byteOfNat {n : Nat} (h : n ≤ 65535) : (word16 (byteOfNat (n / 256)) (byteOfNat n)).toNat = n := by
  show (byteOfNat (n / 256) ++ byteOfNat n).toNat = _
  rw [BitVec.toNat_append, ← Nat.shiftLeft_add_eq_or_of_lt (byteOfNat n).isLt, Nat.shiftLeft_eq]
  simp only [byteOfNat, BitVec.toNat_ofNat]
  omega

/-! ### MAP LOAD -/

/-- The entries of a load whose bytes come four by four. -/
theorem readMapEntries_flatMap (es : List (Byte × Byte × Byte × Byte)) :
    readMapEntries (es.flatMap (fun e => [e.1, e.2.1, e.2.2.1, e.2.2.2])) =
      es.mapM (fun e => readMapEntry e.1 e.2.1 e.2.2.1 e.2.2.2) := by
  induction es with
  | nil => rfl
  | cons e es ih =>
    rw [List.flatMap_cons, List.mapM_cons]
    show readMapEntries (e.1 :: e.2.1 :: e.2.2.1 :: e.2.2.2 :: _) = _
    rw [readMapEntries]
    exact congrArg (fun r => (readMapEntry e.1 e.2.1 e.2.2.1 e.2.2.2).bind (fun x => r.bind (fun xs => some (x :: xs)))) ih

/-- An entry that reads is in range, and holds the values of its bytes (R91). -/
theorem readMapEntry_some {a b c d : Byte} {x : LocalIndex × MapEntry} (h : readMapEntry a b c d = some x) :
    a.toNat < 24 ∧ b.toNat < 16 ∧ c.toNat < 48 ∧ d.toNat ≤ 2 ∧ x.1.val = a.toNat ∧ x.2.cell.mix.val = b.toNat ∧
      x.2.cell.source.val = c.toNat ∧ x.2.right = if d = 0 then .view else if d = 1 then .adjust else .full := by
  unfold readMapEntry at h
  simp only [bind, Option.bind_eq_some_iff] at h
  obtain ⟨i, hi, m, hm, s, hs, r, hr, h⟩ := h
  simp at h
  subst h
  have vi := inRange_val hi
  have vm := inRange_val hm
  have vs := inRange_val hs
  have hd : d.toNat ≤ 2 ∧ r = if d = 0 then .view else if d = 1 then .adjust else .full := by
    unfold rightOf at hr
    split at hr
    · next h => subst h; simp at hr; simp [← hr]
    · split at hr
      · next h => subst h; simp at hr; simp [← hr]
      · split at hr
        · next h => subst h; simp at hr; simp [← hr]
        · simp at hr
  exact ⟨by omega, by omega, by omega, hd.1, vi, vm, vs, hd.2⟩

/-- An entry in range reads. -/
theorem readMapEntry_ok {a b c d : Byte} (ha : a.toNat < 24) (hb : b.toNat < 16) (hc : c.toNat < 48)
    (hd : d.toNat ≤ 2) : ∃ x, readMapEntry a b c d = some x := by
  have e1 : inRange 24 a = some ⟨a.toNat, ha⟩ := by unfold inRange; rw [dif_pos ha]
  have e2 : inRange 16 b = some ⟨b.toNat, hb⟩ := by unfold inRange; rw [dif_pos hb]
  have e3 : inRange 48 c = some ⟨c.toNat, hc⟩ := by unfold inRange; rw [dif_pos hc]
  have e4 : ∃ r, rightOf d = some r := by
    unfold rightOf
    have : d = 0 ∨ d = 1 ∨ d = 2 := by
      have : d.toNat = 0 ∨ d.toNat = 1 ∨ d.toNat = 2 := by omega
      rcases this with h | h | h
      · exact .inl (BitVec.eq_of_toNat_eq h)
      · exact .inr (.inl (BitVec.eq_of_toNat_eq h))
      · exact .inr (.inr (BitVec.eq_of_toNat_eq h))
    rcases this with h | h | h <;> subst h <;> simp
  obtain ⟨r, e4⟩ := e4
  exact ⟨_, by simp only [readMapEntry, e1, e2, e3, e4]; rfl⟩

/-- A map made of entries of different indices holds each of them. -/
theorem mapAt_of_mem_entries {es : List (LocalIndex × MapEntry)} (hn : (es.map (·.1)).Nodup) {x : LocalIndex × MapEntry}
    (hx : x ∈ es) : mapAt (mapOfEntries es) x.1 = some x.2 := by
  have all : ∀ (es : List (LocalIndex × MapEntry)) (m : StationMap), (es.map (·.1)).Nodup →
      (∀ i, i ∉ es.map (·.1) → mapAt (es.foldl (fun m e => tableSet m e.1 (some e.2)) m) i = mapAt m i) ∧
      ∀ x ∈ es, mapAt (es.foldl (fun m e => tableSet m e.1 (some e.2)) m) x.1 = some x.2 := by
    intro es
    induction es with
    | nil => intro m _; exact ⟨fun _ _ => rfl, fun _ h => by simp at h⟩
    | cons e es ih =>
      intro m hn
      rw [List.map_cons, List.nodup_cons] at hn
      obtain ⟨k1, k2⟩ := ih (tableSet m e.1 (some e.2)) hn.2
      refine ⟨?_, ?_⟩
      · intro i hi
        simp only [List.map_cons, List.mem_cons, not_or] at hi
        rw [List.foldl_cons, k1 i hi.2]
        simp only [mapAt, tableGet_tableSet]
        rw [if_neg (fun e => hi.1 e.symm)]
      · intro x hx
        rw [List.foldl_cons]
        rcases List.mem_cons.1 hx with rfl | hx
        · rw [k1 _ hn.1]
          simp [mapAt]
        · exact k2 x hx
  exact (all es _ hn).2 x hx

/-! ### CUE LOAD -/

/-- An item sent whole is cut off the front. -/
theorem takeItem_sent {k : Nat} {i : RawItem}
    (h : (i.presence = 0 ∧ i.bytes = []) ∨ (i.presence ≠ 0 ∧ i.bytes.length = k)) (rest : List Byte) :
    takeItem k (i.presence :: i.bytes ++ rest) = some (i, rest) := by
  obtain ⟨p, bs⟩ := i
  rcases h with ⟨h1, h2⟩ | ⟨h1, h2⟩
  · simp only at h1 h2; subst h1 h2; simp [takeItem]
  · simp only at h1 h2
    have : ¬ (bs ++ rest).length < k := by simp; omega
    show takeItem k (p :: (bs ++ rest)) = _
    simp only [takeItem, h1, if_false, this]
    rw [List.take_left' h2, List.drop_left' h2]

/-- The edits of a load whose bytes come four by four. -/
theorem readEdits_flatMap (es : List (Byte × Byte × Byte × Byte)) :
    readEdits (es.flatMap (fun e => [e.1, e.2.1, e.2.2.1, e.2.2.2])) =
      es.mapM (fun e => readEdit e.1 e.2.1 e.2.2.1 e.2.2.2) := by
  induction es with
  | nil => rfl
  | cons e es ih =>
    rw [List.flatMap_cons, List.mapM_cons]
    show readEdits (e.1 :: e.2.1 :: e.2.2.1 :: e.2.2.2 :: _) = _
    rw [readEdits]
    exact congrArg (fun r => (readEdit e.1 e.2.1 e.2.2.1 e.2.2.2).bind (fun x => r.bind (fun xs => some (x :: xs)))) ih

/-- An edit that reads is none of those that R71 refuses. -/
theorem readEdit_inRange {t src a v : Byte} {e : CueEdit} (h : readEdit t src a v = some e) :
    ¬ ((15 < t.toNat ∧ t ≠ 255) ∨ 47 < src.toNat ∨ 4 < a.toNat ∨ (a = 0 ∧ 220 < v.toNat) ∨
      (a = 1 ∧ (v.toInt < -40 ∨ 40 < v.toInt)) ∨ (a = 4 ∧ (v.toInt < -32 ∨ 32 < v.toInt))) := by
  unfold readEdit at h
  simp only [bind, Option.bind_eq_some_iff] at h
  obtain ⟨x, hx, y, hy, z, hz, _⟩ := h
  have := inRange_lt hy
  have ht : ¬ (15 < t.toNat ∧ t ≠ 255) := by
    unfold targetOf at hx
    split at hx
    · simp_all
    · cases hh : inRange 16 t with
      | none => simp [hh] at hx
      | some w => have := inRange_lt hh; omega
  unfold actionOf at hz
  rintro (h | h | h | ⟨rfl, h⟩ | ⟨rfl, h⟩ | ⟨rfl, h⟩)
  · exact ht h
  · omega
  · have : a ≠ 0 ∧ a ≠ 1 ∧ a ≠ 2 ∧ a ≠ 3 ∧ a ≠ 4 := by
      refine ⟨?_, ?_, ?_, ?_, ?_⟩ <;> (rintro rfl; simp at h)
    rw [if_neg this.1, if_neg this.2.1, if_neg this.2.2.1, if_neg this.2.2.2.1, if_neg this.2.2.2.2] at hz
    simp at hz
  · simp [levelOf, show ¬ v.toNat ≤ 220 by omega] at hz
  · simp [nudgeOf] at hz; omega
  · simp [panOf] at hz; omega

/-- An edit in range reads back from its four bytes. -/
theorem readEdit_back (e : CueEdit) (h : e.lawful) (value : Byte) : ∀ t src a v,
    [t, src, a, v] = ([match e.target with
            | .mix m => byteOfNat m.val
            | .all => 255, byteOfNat e.source.val] ++
          match e.action with
            | .level v => [0, byteOfNat v]
            | .nudge d => [1, byteOfInt d]
            | .mute => [2, value]
            | .unmute => [3, value]
            | .pan p => [4, byteOfInt p]) → readEdit t src a v = some e := by
  intro t src a v q
  obtain ⟨et, es, ea⟩ := e
  have h3 : inRange 48 (byteOfNat es.val) = some es := inRange_byteOfNat es (by decide)
  have ht : ∀ et : EditTarget, targetOf (match et with
            | .mix m => byteOfNat m.val
            | .all => 255) = some et := by
    intro et
    cases et with
    | all => rfl
    | mix m =>
      have : ∀ m : Fin 16, targetOf (byteOfNat m.val) = some (.mix m) := by decide
      exact this m
  have ht := ht et
  generalize hT : (match et with
            | EditTarget.mix m => byteOfNat m.val
            | EditTarget.all => 255) = T at ht q
  have hi : ∀ d : Int, -40 ≤ d → d ≤ 40 → (byteOfInt d).toInt = d := by
    intro d h1 h2
    simp only [byteOfInt, BitVec.toInt_ofInt]
    exact Int.bmod_eq_of_le (by omega) (by omega)
  cases ea with
  | level x =>
    simp only [List.cons_append, List.nil_append, List.cons.injEq, and_true] at q
    obtain ⟨rfl, rfl, rfl, rfl⟩ := q
    have : x ≤ 220 := h
    simp [readEdit, ht, h3, actionOf, levelOf, byteOfNat_toNat x (by omega), this]
  | nudge d =>
    simp only [List.cons_append, List.nil_append, List.cons.injEq, and_true] at q
    obtain ⟨rfl, rfl, rfl, rfl⟩ := q
    have : -40 ≤ d ∧ d ≤ 40 := h
    simp [readEdit, ht, h3, actionOf, nudgeOf, hi d this.1 this.2, this]
  | mute =>
    simp only [List.cons_append, List.nil_append, List.cons.injEq, and_true] at q
    obtain ⟨rfl, rfl, rfl, rfl⟩ := q
    simp [readEdit, ht, h3, actionOf]
  | unmute =>
    simp only [List.cons_append, List.nil_append, List.cons.injEq, and_true] at q
    obtain ⟨rfl, rfl, rfl, rfl⟩ := q
    simp [readEdit, ht, h3, actionOf]
  | pan d =>
    simp only [List.cons_append, List.nil_append, List.cons.injEq, and_true] at q
    obtain ⟨rfl, rfl, rfl, rfl⟩ := q
    have : -32 ≤ d ∧ d ≤ 32 := h
    simp [readEdit, ht, h3, actionOf, panOf, hi d (by omega) (by omega), this]

end Sys2Proof.Machine
end

