-- ==== Sys2Proof/Laws/System.lean ====
section
/-! SUPPORT. What SOFT RESET and a link reset leave, every field at once. -/

namespace Sys2Proof.Machine

/-- SOFT RESET, every field at once: what is written, and that the rest is as it was (R197). -/
theorem softReset_eq (s : State) : softReset s =
    { s with
      cells := s.cells.map (fun x => { x with heard := goalOf x })
      glides := []
      cue := { s.cue with
        nextPointer := lowestOccupied s, running := none, phase := .idle, timer := 0, hold := false, flags := 0 }
      stations := s.stations.map Station.toAbsent
      lockout := 0
      grips := Vector.replicate 16 none
      inHand := none
      link := { restLink s.link with
        state := .resetting, breakCount := 2, order := LinkRecord.startOrder, contenders := [] }
      eli := { s.eli with
        page := .basic, pointer := ⟨0, 0⟩, walk := .across, field := .level, latch := 0, glideLength := 8 }
      src := { s.src with mode := .auto }
      out := { s.out with hush := false, records := s.out.records.map (fun r => { r with hits := 0, fadeIn := 32 }) }
      evl := EventLatch.startUp } := by
  obtain ⟨⟩ := s
  rfl

/-- A link reset, every field at once (R99, R161, R162). -/
theorem linkReset_eq (n : Nat) (s : State) : linkReset n s =
    { s with
      stations := s.stations.map Station.toAbsent
      grips := Vector.replicate 16 none
      inHand := none
      link := { restLink s.link with
        state := .resetting, breakCount := n, order := LinkRecord.startOrder, contenders := [] } } := by
  obtain ⟨⟩ := s
  rfl

theorem startOrder_eq : LinkRecord.startOrder = List.finRange 16 := by decide

/-- Entering INIT keeps the free-value counter and the queue alone (R195). -/
theorem enterInit_eq (pin : Bool) (s : State) : enterInit pin s =
    { State.reset with
      resetPin := pin
      eli := { EngineerLink.startUp with frame := if s.eli.frame = .noFrame then .noFrame else .cut }
      free := s.free
      pending := s.pending } := by
  have : ∀ f : FrameState, cutFrame f = if f = .noFrame then .noFrame else .cut := by intro f; cases f <;> rfl
  simp only [enterInit, this]

end Sys2Proof.Machine
end

