-- ==== Sys2Proof/WellFormed.lean ====
section
/-! DEFINITION. Which commands are of their row's case: the operands are ones the row can carry. A command that is not well formed
still has a meaning, the meaning of its bytes. -/

namespace Sys2Proof

open Sys2Proof.Machine

/-- Every sample lies within full scale, and a port delivers at most 64 channels of 32 samples (R167, R174). -/
def portBlockOk (b : PortBlock) : Bool :=
  decide (b.audio.length ≤ 64) &&
    b.audio.all (fun ch => decide (ch.length ≤ 32) && ch.all (fun x => decide (-1 ≤ x ∧ x ≤ 1)))

/-- A word has five bytes, or fewer where the station broke it off, and at least one (R164). -/
def bandWordOk (w : BandWord) : Bool := decide (1 ≤ w.bytes.length ∧ w.bytes.length ≤ 5)

/-- The bytes after a code are exactly its operand bytes (R184). -/
def operandsExact (c : ConsoleCode) (ops : List Byte) : Bool :=
  operandsComplete (codeShape c) ops && !operandsComplete (codeShape c) ops.dropLast

/-- A command of either page but PAGE, with all its operand bytes (R184). -/
def otherPageOk (code : Byte) (ops : List Byte) : Bool :=
  match codeOf code with
  | none => false
  | some c => decide (c ≠ .page) &&
      (operandsExact c ops || (ops.isEmpty && operandsComplete (codeShape c) []))

/-- The well-formed commands. The part drives the pair in ANSWERING and SENDING alone (R155, R161), so no word of a mark slot,
of SELECTED or of POLLING comes meanwhile. -/
def wellFormed (i : Instr) : Bool :=
  match i with
  | .blockEnd a b _ => portBlockOk a && portBlockOk b
  | .unknownCode code => (codeOf code).isNone
  | .otherPageCode code ops => otherPageOk code ops
  | .mapLoad body => operandsExact .mapLoad body
  | .cueLoad body => operandsExact .cueLoad body
  | .patch body => operandsExact .patch body
  | .badKindRequest _ kind _ => decide (requestKind kind = .unnamed)
  | .attn _ w => bandWordOk w && !w.driven
  | .damagedRequest w => bandWordOk w && !checkGood w && !w.driven
  | .bandCheck w => bandWordOk w && !checkGood w
  | .badCheckEcho w => bandWordOk w && !checkGood w && !w.driven
  | .phaseError w => checkGood w
  | .strayWord w => checkGood w
  | _ => true

end Sys2Proof
end

