-- ==== Sys2Proof/Tests/Slice0.lean ====
section
/-! SUPPORT. Tests: the WellFormed smoke, one step of commands on small states with results taken from the spec's own worked
examples, and for every statement with hypotheses a state that meets them. -/

namespace Sys2Proof.Tests

open Sys2Proof Sys2Proof.Machine

set_option Elab.async false

/-! ### Small states -/

/-- The state a command leaves. -/
def after (c : Instr) (s : State) : State :=
  match exec c s with
  | .next t => t
  | .fault _ => s
  | .refused _ => s

def running : State := State.reset.setRun .run

/-- In RUN, a frame open on a page, a header due. -/
def console (p : Page) : State := running.setEli { EngineerLink.startUp with frame := .headerDue, page := p }

/-- The same with an earlier command refused. -/
def refusedConsole : State := (console .basic).setEli { (console .basic).eli with refused := true }

/-- In a run of cell bytes of a kind, on a field. -/
def cellBytes (k : ByteKind) (f : FieldSelect) : State :=
  running.setEli { EngineerLink.startUp with frame := .run k, field := f }

def aCell : CellId := ⟨3, 12⟩

/-- A cell at a set and heard level. -/
def cellAt (level heard cap : Nat) : Cell := { Cell.startUp with level := level, heard := heard, cap := cap }

def withCell (x : Cell) : State := running.setCell aCell x

def engineer (k : ChangeKind) : Change := { cell := aCell, kind := k, origin := .engineer, length := 8, tag := none }

/-- A state with a change of the console taken. -/
def changed (k : ChangeKind) (x : Cell) : Cell := (takeChange (engineer k) (withCell x)).cell aCell

def flagsOf (k : ChangeKind) (x : Cell) : Flags := changeFlags (engineer k) (withCell x)

/-- The cell rising to a goal. -/
def gliding (heard goal remaining : Nat) : State :=
  (withCell (cellAt goal heard 200)).setGlides [{ cell := aCell, goal := goal, remaining := remaining, tag := none }]

/-- A glide list with no room: the 48 cells of M1 and the first 16 of M2. -/
def fullList : State :=
  running.setGlides (((List.finRange 48).map (fun x => { cell := ⟨1, x⟩, goal := 0, remaining := 9, tag := none })) ++
    (List.finRange 16).map (fun x => { cell := ⟨2, x.castLE (by decide)⟩, goal := 0, remaining := 9, tag := none }))

def goodBlock : PortBlock := { good := true, audio := [] }

def badBlock : PortBlock := { good := false, audio := [] }

/-- Both ports' records, the mode and the active port set. -/
def ports (a b : PortRecord) (mode : SelectionMode) (active : Option Port) : State :=
  running.setSrc { Sources.startUp with portA := a, portB := b, mode := mode, active := active }

def lockedPort : PortRecord := ⟨true, 0, 0⟩

def failingPort : PortRecord := ⟨true, 3, 0⟩

def idlePort : PortRecord := ⟨false, 0, 0⟩

def aMap : StationMap :=
  tableSet (tableSet (tableSet (Vector.replicate 24 none) 0 (some ⟨aCell, .full⟩)) 4 (some ⟨⟨3, 13⟩, .adjust⟩)) 9
    (some ⟨⟨3, 14⟩, .view⟩)

def aGrip (r : Right) (f : Freshness) : Grip := { station := 3, index := 0, cell := aCell, right := r, state := f }

/-- ST3 in a state of its own, priority 2, two requests missed, and holding or not holding a grip. -/
def stationThree (st : StationState) (g : Option Grip) (s : State) : State :=
  (s.setStation 3 { Station.startUp with state := st, priority := 2, map := aMap, missRun := 2 }).setGrip 3 g

/-- The pair waits for ST3's request. -/
def selected (st : StationState) (g : Option Grip) : State :=
  (stationThree st g (withCell (cellAt 150 150 200))).setLink
    { LinkRecord.startUp with state := .selected, selected := some 3, window := 3 }

/-- The link in a state of a transaction with ST3, which is ATTACHED. -/
def inTransaction (l : LinkRecord) : State :=
  (stationThree .attached none running).setLink { l with selected := some 3 }

def sendingLink (cursor : LocalIndex) (flight : Option PartWord) (e : TransferEnd) : LinkRecord :=
  { LinkRecord.startUp with state := .sending, cursor := some cursor, inFlight := flight, transferEnd := e }

/-- A word of a station with a damaged check. -/
def damaged (w : BandWord) : BandWord := { w with bytes := w.bytes.dropLast ++ [wordByte w 4 ^^^ 1] }

/-- A word that comes while the part drives the pair. -/
def unheard (w : BandWord) : BandWord := { w with driven := true }

/-- The last three bytes of a station's sending of eight: a second word broken off (R164). -/
def brokenOff : BandWord := { bytes := [0x4C, 0, 0], driven := false }

def echoWord : BandWord := plainWord 11 3 0

def stopOf : BandWord := plainWord 9 3 0

/-- A cue of one edit, with a guard on F0 and an alternate where they are given. -/
def aCue (guard : Option Guard) (alternate : Option CueId) (followOn : Option FollowOn) : CueRecord :=
  { guard := guard, alternate := alternate, followOn := followOn, fade := 300, setMask := some 2#16,
    clearMask := some 1#16, edits := [{ target := .mix 3, source := 12, action := .level 190 }] }

def needsF0 : Option Guard := some ⟨1#16, .allSet⟩

/-- A cue list with one cue in C5, the pointer on it. -/
def withCue (r : CueRecord) (s : State) : State :=
  s.setCue { CueEngine.startUp with
    slots := tableSet CueEngine.startUp.slots 5 (some r), poolUsed := r.edits.length, nextPointer := some 5 }

def inPhase (p : Phase) (running : Option RunningCue) (timer : Nat) (hold : Bool) (s : State) : State :=
  s.setCue { s.cue with phase := p, running := running, timer := timer, hold := hold }

/-- A state with a load staged, the frame still open. -/
def staged (bytes : List Byte) : State :=
  running.setEli { EngineerLink.startUp with frame := .run .command, page := .extended, staging := some bytes }

/-- A show message in arrival. -/
def partialMessage (chars : List Byte) (gap : Nat) : State := running.setSlr { chars := chars, gap := gap }

/-! ### WellFormed -/

theorem test_wellFormed_accepts :
    wellFormed .powerOn = true ∧ wellFormed (.blockEnd goodBlock badBlock false) = true ∧
    wellFormed (.unknownCode 0x7F) = true ∧ wellFormed (.otherPageCode 0x22 [3]) = true ∧
    wellFormed (.otherPageCode 0x29 []) = true ∧ wellFormed (.mapLoad [3, 1, 0, 3, 12, 2]) = true ∧
    wellFormed (.cueLoad [5, 0, 0, 0, 1, 44, 0, 0, 1, 3, 12, 0, 190]) = true ∧ wellFormed (.patch [46, 2, 1, 255]) = true ∧
    wellFormed (.badKindRequest 3 0x0C 0) = true ∧ wellFormed (.damagedRequest (damaged echoWord)) = true ∧
    wellFormed (.bandCheck (damaged echoWord)) = true ∧ wellFormed (.badCheckEcho (damaged echoWord)) = true ∧
    wellFormed (.phaseError echoWord) = true ∧ wellFormed (.strayWord echoWord) = true ∧
    wellFormed (.damagedRequest brokenOff) = true ∧ wellFormed (.bandCheck (unheard brokenOff)) = true ∧
    wellFormed (.attn 3 brokenOff) = true ∧ wellFormed (.phaseError (unheard echoWord)) = true := by decide +kernel

theorem test_wellFormed_refuses_ports :
    wellFormed (.blockEnd { good := true, audio := List.replicate 65 [] } goodBlock false) = false ∧
    wellFormed (.blockEnd goodBlock { good := true, audio := [List.replicate 33 0] } false) = false ∧
    wellFormed (.blockEnd { good := true, audio := [[2]] } goodBlock false) = false := by decide +kernel

theorem test_wellFormed_refuses_codes :
    wellFormed (.unknownCode 0x09) = false ∧ wellFormed (.otherPageCode 0x7F []) = false ∧
    wellFormed (.otherPageCode 0x04 [0]) = false ∧ wellFormed (.otherPageCode 0x22 []) = false ∧
    wellFormed (.otherPageCode 0x22 [3, 4]) = false := by decide +kernel

theorem test_wellFormed_refuses_loads :
    wellFormed (.mapLoad [3, 1, 0, 3, 12]) = false ∧ wellFormed (.mapLoad [3, 1, 0, 3, 12, 2, 0]) = false ∧
    wellFormed (.cueLoad [5, 0, 0, 0, 1, 44, 0, 0, 1, 3, 12, 0]) = false ∧ wellFormed (.patch [46, 2, 1]) = false := by
  decide +kernel

theorem test_wellFormed_refuses_words :
    wellFormed (.badKindRequest 3 0x0B 0) = false ∧ wellFormed (.damagedRequest echoWord) = false ∧
    wellFormed (.bandCheck echoWord) = false ∧ wellFormed (.badCheckEcho echoWord) = false ∧
    wellFormed (.phaseError (damaged echoWord)) = false ∧ wellFormed (.strayWord (damaged echoWord)) = false ∧
    wellFormed (.phaseError brokenOff) = false ∧ wellFormed (.bandCheck ⟨[], false⟩) = false ∧
    wellFormed (.attn 3 ⟨[0x23, 0, 0, 0, 0, 0], false⟩) = false ∧ wellFormed (.attn 3 (unheard echoWord)) = false ∧
    wellFormed (.damagedRequest (unheard (damaged echoWord))) = false ∧
    wellFormed (.badCheckEcho (unheard (damaged echoWord))) = false := by decide +kernel

/-! ### The change path and the glides -/

/-- The examples of R10. -/
theorem test_level_clamp :
    (changed (.level 196) (cellAt 100 100 180)).level = 180 ∧ (flagsOf (.level 196) (cellAt 100 100 180)).v = true ∧
    (changed (.level 180) (cellAt 100 100 180)).level = 180 ∧ (flagsOf (.level 180) (cellAt 100 100 180)).v = false ∧
    (changed (.level 0) (cellAt 100 100 180)).level = 0 ∧ (flagsOf (.level 0) (cellAt 100 100 180)).z = true := by
  decide +kernel

/-- The examples of R11. -/
theorem test_nudge_clamp :
    (changed (.nudge 40) (cellAt 150 150 200)).level = 190 ∧ (flagsOf (.nudge 40) (cellAt 150 150 200)).v = false ∧
    (changed (.nudge 20) (cellAt 190 190 200)).level = 200 ∧ (flagsOf (.nudge 20) (cellAt 190 190 200)).v = true ∧
    (changed (.nudge (-20)) (cellAt 12 12 200)).level = 0 ∧ (flagsOf (.nudge (-20)) (cellAt 12 12 200)).c = true := by
  decide +kernel

/-- A nudge against the cap it stands at is a no-op that reports V (R11, R14). -/
theorem test_nudge_at_cap :
    changed (.nudge 4) (cellAt 200 200 200) = cellAt 200 200 200 ∧
    (takeChange (engineer (.nudge 4)) (withCell (cellAt 200 200 200))).glides = [] ∧
    (flagsOf (.nudge 4) (cellAt 200 200 200)).v = true := by decide +kernel

/-- A CAP below the set level pulls it down (R12); a PAN and a MUTE write their field (R13). -/
theorem test_cap_pan_mute :
    (changed (.cap 182) (cellAt 186 186 200)).level = 182 ∧ (changed (.cap 182) (cellAt 186 186 200)).cap = 182 ∧
    (changed (.pan (-10)) (cellAt 186 186 200)).pan = -10 ∧ (changed .mute (cellAt 186 186 200)).muted = true ∧
    (changed .mute (cellAt 186 186 200)).level = 186 := by decide +kernel

/-- The example of spec/02, One glide, retargeted: the steps of block ends 1, 3, 4 and 10, and of the fall. -/
theorem test_glide_steps :
    glideStep 150 200 8 = 156 ∧ glideStep 162 200 6 = 168 ∧ glideStep 168 190 8 = 170 ∧ glideStep 184 190 2 = 187 ∧
    glideStep 190 0 8 = 167 ∧ glideStep 144 0 6 = 120 ∧ glideStep 48 0 2 = 24 := by decide +kernel

/-- The same example: a console LEVEL appends an entry; a block end moves it; its last block end removes it. -/
theorem test_glide_block_end :
    (takeChange (engineer (.level 200)) (withCell (cellAt 150 150 200))).glides = [⟨aCell, 200, 8, none⟩] ∧
    ((after (.blockEnd badBlock badBlock false) (gliding 150 200 8)).cell aCell).heard = 156 ∧
    (after (.blockEnd badBlock badBlock false) (gliding 150 200 8)).glides = [⟨aCell, 200, 7, none⟩] ∧
    ((after (.blockEnd badBlock badBlock false) (gliding 187 190 1)).cell aCell).heard = 190 ∧
    (after (.blockEnd badBlock badBlock false) (gliding 187 190 1)).glides = [] := by decide +kernel

theorem test_glide_entry_complete :
    ((after (.glideEntryComplete aCell) (gliding 187 190 1)).cell aCell).heard = 190 ∧
    (after (.glideEntryComplete aCell) (gliding 187 190 2)).glides = (gliding 187 190 2).glides := by decide +kernel

/-- A hand-off that would need a 65th entry jumps the cell and latches GLIDE_FULL (R34). -/
theorem test_glide_full :
    ((handOff aCell 170 8 none fullList).cell aCell).heard = 170 ∧
    (handOff aCell 170 8 none fullList).latched .glideFull = true ∧
    (handOff aCell 170 8 none fullList).glides.length = 64 := by decide +kernel

/-! ### Power, reset, the block clock -/

theorem test_start_up :
    (after .powerOn (withCell (cellAt 150 150 180))).run = .init ∧
    (after .powerOn (withCell (cellAt 150 150 180))).cell aCell = Cell.startUp ∧
    (after .resetPinActive running).resetPin = true ∧
    (after .resetPinRelease (running.setResetPin true)).resetPin = false ∧
    (after .startupDone State.reset).run = .run ∧ (after .startupDone State.reset).evl.marks = 1#16 ∧
    (after .startupDone (State.reset.setResetPin true)).run = .init := by decide +kernel

/-- The failover example of spec/08: block end 204 (A's 4th bad block) and block end 450 the other way. -/
theorem test_failover :
    (after (.blockEnd badBlock goodBlock false) (ports failingPort lockedPort .auto (some .a))).src.active = some .b ∧
    (after (.blockEnd badBlock goodBlock false) (ports failingPort lockedPort .auto (some .a))).latched .sourceSwitch = true ∧
    (after (.blockEnd goodBlock badBlock false) (ports lockedPort failingPort .auto (some .b))).src.active = some .a := by
  decide +kernel

theorem test_port_rows :
    (after (.portLock .a) (ports ⟨false, 0, 15⟩ idlePort .auto none)).src.portA = lockedPort ∧
    (after (.portLoseLock .a) (ports failingPort idlePort .auto none)).src.portA = idlePort ∧
    (after (.blockEnd goodBlock goodBlock false) (ports ⟨false, 0, 14⟩ ⟨true, 2, 0⟩ .auto none)).src.portA = ⟨false, 0, 15⟩ ∧
    (after (.blockEnd goodBlock goodBlock false) (ports ⟨false, 0, 14⟩ ⟨true, 2, 0⟩ .auto none)).src.portB = lockedPort := by
  decide +kernel

/-- One source at unity, panned hard left, half of full scale for one sample: M0's ceiling of 0 dB passes it, a ceiling of
code 0 scales it to silence and counts a hit (R174, R176, R177). -/
def playing (ceiling : Nat) : State :=
  ((running.setCell ⟨0, 0⟩ { Cell.startUp with level := 200, heard := 200, pan := -32 }).setSrc
    { Sources.startUp with active := some .a, captured := [[1 / 2]] }).setOutputRecord 0
      { mode := .normal, target := 0, ceiling := ceiling, hits := 7, fadeIn := 32 }

theorem test_block_start :
    (outputBlock 0 (playing 200)).head? = some (1 / 2, 0) ∧ (countHit 0 (playing 200)).hits = 7 := by decide +kernel

theorem test_block_start_ceiling :
    ((tableGet (after .blockStart (playing 0)).out.delivered 0).head?) = some (0, 0) ∧
    ((after .blockStart (playing 0)).outputRecord 0).hits = 8 ∧ (after .blockStart (playing 0)).latched .ceiling = true := by
  decide +kernel

/-- The factors R174 gives exactly, the floor of one that it bounds (10 to the power 1/2, of code 180 at -10 dB and of code
220 at 10 dB), and the cosine's at 45 degrees. -/
theorem test_gains :
    gain 0 = 0 ∧ gain 200 = 1 ∧ gain 160 = 1 / 10 ∧ panLeft (-32) = 1 ∧ panRight (-32) = 0 ∧ panRight 32 = 1 ∧
    decadeFloor 20 = 890102030748522 ∧ cosineFloors.getD 32 0 = 199032864766430 := by decide +kernel

/-- Forty codes more are ten times the gain, whatever the factor of the place is (R174). -/
theorem test_gain_decade : gain 220 = 10 * gain 180 := by
  show decadeFactor 20 * _ = 10 * (decadeFactor 20 * _)
  push_cast
  ring

/-! ### The Engineer Link -/

theorem test_frame :
    (after .selectFrameStart running).eli.frame = .headerDue ∧
    (after (.header 0x82) (console .basic)).eli.frame = .one .readCells ∧
    (after (.header 0x02) (console .basic)).eli.frame = .run .readCells ∧
    (after (.header 0x83) (console .basic)).eli.refused = true ∧
    (after .frameEnd (console .basic)).eli.frame = .noFrame := by decide +kernel

/-- Position 4 of the read walk of spec/09: 180 goes out, the level of (M15, S47) is fetched, DOWN wraps to (M0, S0). -/
theorem test_read_walk :
    (let s := ((cellBytes .readCells .level).setCell ⟨15, 47⟩ (cellAt 200 150 200)).setEli
       { EngineerLink.startUp with frame := .one .readCells, walk := .down, pointer := ⟨15, 47⟩, latch := 180 }
     let t := after (.readCells 0) s
     t.eli.dataOut = 180#8 ∧ t.eli.latch = 200#8 ∧ t.eli.pointer = ⟨0, 0⟩ ∧ t.eli.frame = .headerDue) := by decide +kernel

/-- The last frame of the read walk: a write to HEARD is ignored and refused, and the pointer advances. -/
theorem test_write_cells :
    (let t := after (.writeCells 150) (cellBytes .writeCells .heard)
     t.eli.refused = true ∧ t.eli.pointer = ⟨0, 1⟩ ∧ t.cell ⟨0, 0⟩ = Cell.startUp) ∧
    (let t := after (.writeCells 150) (cellBytes .writeCells .level)
     t.eli.refused = false ∧ t.eli.pointer = ⟨0, 1⟩ ∧ (t.cell ⟨0, 0⟩).level = 150 ∧
       (t.cell ⟨0, 0⟩).writer = some .engineer) := by decide +kernel

theorem test_status_and_replies :
    (after .status refusedConsole).eli.reply = [⟨0x41, 0⟩] ∧ (after .status refusedConsole).eli.refused = false ∧
    (after (.replyByte 0) (after .status refusedConsole)).eli.dataOut = 0x41#8 ∧
    (after (.replyByte 0) (after .status refusedConsole)).eli.reply = [] := by decide +kernel

/-- The two bytes of EVENTS, events 8 to 15 first; each clears what it returned as it goes out (R194). -/
theorem test_events :
    (let s := (console .basic).setEvl { marks := 0x8002, enables := 0xFFFF }
     (after .events s).eli.reply = [⟨0x80, 0x8000⟩, ⟨0x02, 0x0002⟩] ∧
     (after (.replyByte 0) (after .events s)).evl.marks = 0x0002#16) ∧
    (after (.enables 0x8001) (console .basic)).evl.enables = 0x8001#16 := by decide +kernel

theorem test_basic_settings :
    (after .nop (console .basic)).eli.refused = false ∧
    (after (.position 14 47) (console .basic)).eli.pointer = ⟨14, 47⟩ ∧
    (after (.position 16 0) (console .basic)).eli.refused = true ∧
    (after (.walk 1) (console .basic)).eli.walk = .down ∧ (after (.field 4) (console .basic)).eli.field = .heard ∧
    (after (.field 5) (console .basic)).eli.refused = true ∧ (after (.page 1) (console .basic)).eli.page = .extended ∧
    (after (.hush 1) (console .basic)).out.hush = true ∧
    ((after (.hush 1) (console .basic)).outputRecord 3).fadeIn = 0 := by decide +kernel

theorem test_unknown_and_other_page :
    (after (.unknownCode 0x0A) (console .basic)).eli.refused = true ∧
    (after (.otherPageCode 0x20 [3]) (console .basic)).eli.refused = true ∧
    (after (.otherPageCode 0x20 [3]) (console .basic)).lockout = 0 ∧
    (after (.otherPageCode 0x20 [3]) (console .basic)).eli.arrival = .none := by decide +kernel

theorem test_soft_reset :
    (let s := (console .basic).setCell aCell (cellAt 190 168 200)
     let t := after .softReset s
     (t.cell aCell).heard = 190 ∧ (t.cell aCell).level = 190 ∧ t.link.state = .resetting ∧ t.link.breakCount = 2 ∧
       t.evl.marks = 0#16 ∧ t.run = .run) := by decide +kernel

theorem test_extended_settings :
    (after (.lockout 3) (console .extended)).lockout = 3 ∧ (after (.lockout 8) (console .extended)).eli.refused = true ∧
    (after (.sourceMode 2) (console .extended)).src.mode = .force .b ∧
    (after (.glideLength 0) (console .extended)).eli.glideLength = 0 ∧
    ((after (.ceilingCommand 4 180) (console .extended)).outputRecord 4).ceiling = 180 ∧
    ((after (.outputMode 4 3 9) (console .extended)).outputRecord 4).target = 9 ∧
    ((after (.outputMode 4 0 99) (console .extended)).outputRecord 4).mode = .off ∧
    (after (.patch [46, 2, 1, 255]) (console .extended)).src.pending = [⟨46, [some 1, none]⟩] ∧
    (after (.patch [47, 2, 1, 255]) (console .extended)).eli.refused = true := by decide +kernel

/-- In INIT STATUS is taken, and no other code (R187). -/
theorem test_init_console :
    (let s := State.reset.setEli { EngineerLink.startUp with frame := .run .command, refused := true }
     (after .status s).eli.reply = [⟨0x40, 0⟩] ∧ (after .status s).eli.refused = false ∧
       (after (.unknownCode 0x0A) s).eli = s.eli) := by decide +kernel

theorem test_station_console :
    ((after (.stationProfile 3 5 1) (console .extended)).station 3).priority = 5 ∧
    (after (.stationProfile 3 8 1) (console .extended)).eli.refused = true ∧
    (let t := after (.stationRead 3) (stationThree .attached (some (aGrip .full .stale)) (console .extended))
     t.eli.reply.map (·.value) = [1, 1, 2, 0, 2, 0, 0, 3, 0x80, 0]) ∧
    ((after (.mapRead 3) (stationThree .attached none (console .extended))).eli.reply.take 6).map (·.value) =
      [3, 12, 2, 255, 255, 255] := by decide +kernel

theorem test_map_load :
    (after (.mapLoad [3, 1, 9, 6, 40, 0]) (console .extended)).eli.staging = some [0x23, 3, 1, 9, 6, 40, 0] ∧
    (let t := after .frameEnd (stationThree .attached (some (aGrip .full .fresh)) (staged [0x23, 3, 1, 9, 6, 40, 0]))
     mapAt (t.station 3).map 9 = some ⟨⟨6, 40⟩, .view⟩ ∧ mapAt (t.station 3).map 0 = none ∧ t.grip 3 = none) := by
  decide +kernel

theorem test_cue_load :
    (after .frameEnd (staged [0x25, 5, 0, 0, 0, 1, 44, 1, 0, 2, 1, 0, 1, 1, 3, 12, 0, 190])).slot 5 =
      some (aCue none none none) ∧
    (after .frameEnd (staged [0x25, 5, 0, 0, 0, 1, 44, 1, 0, 2, 1, 0, 1, 1, 3, 12, 0, 221])).eli.refused = true ∧
    (after (.cueLoad [5, 0, 0, 0, 1, 44, 0, 0, 1, 3, 12, 0, 190]) (console .extended)).eli.arrival = .none := by
  decide +kernel

theorem test_hits_read :
    (let s := (console .extended).setOutputRecord 0
       { mode := .normal, target := 0, ceiling := 200, hits := 258, fadeIn := 32 }
     ((after .hitsRead s).eli.reply.take 3).map (·.value) = [1, 2, 0] ∧ ((after .hitsRead s).outputRecord 0).hits = 0) := by
  decide +kernel

/-- One source of the example MIX COPY onto a capped mix (S1: 196 and -10 onto a cap of 180), and MIX CLEAR. -/
theorem test_mix_copy_and_clear :
    (let s := ((console .extended).setCell ⟨2, 1⟩ { cellAt 196 196 200 with pan := -10 }).setCell ⟨5, 1⟩ (cellAt 170 170 180)
     let t := after (.mixCopy 2 5) s
     let u := after (.mixClear 5) s
     (t.cell ⟨5, 1⟩).level = 180 ∧ (t.cell ⟨5, 1⟩).pan = -10 ∧ (t.cell ⟨5, 1⟩).cap = 180 ∧ (u.cell ⟨5, 1⟩).level = 0) := by
  decide +kernel

/-! ### Cues -/

/-- The GO of the example A song change, for its first edit: count, masks, pointer, phase. -/
theorem test_go :
    (let s := withCue (aCue none none (some ⟨31, 1500⟩)) ((withCell (cellAt 170 170 200)))
     let s := s.setCue { s.cue with flags := 1 }
     let t := after (.go .showLink) s
     t.cue.running = some ⟨5, 1, some ⟨31, 1500⟩⟩ ∧ t.cue.flags = 2#16 ∧ t.cue.nextPointer = some 31 ∧
       t.cue.phase = .fading ∧ t.latched .cueFired = true ∧ t.glides = [⟨aCell, 190, 300, some 5⟩]) := by decide +kernel

theorem test_goto :
    (after (.goto (.showLink 5)) (withCue (aCue none none none) running)).cue.phase = .fading ∧
    (after (.goto (.console 5)) (withCue (aCue none none none) (console .extended))).cue.phase = .fading ∧
    (after (.goto (.showLink 6)) (withCue (aCue none none none) running)).latched .cueRefused = true ∧
    (after (.goto (.console 96)) (console .extended)).eli.refused = true := by decide +kernel

/-- Block end 300 of the example: the count is 0, CUE_DONE, FOLLOW_WAIT of 1500 block ends. -/
theorem test_cue_done :
    (let s := inPhase .fading (some ⟨30, 0, some ⟨31, 1500⟩⟩) 0 false running
     (after .cueDone s).cue.phase = .followWait ∧ (after .cueDone s).cue.timer = 1500 ∧
       (after .cueDone s).latched .cueDone = true ∧ (after .cueDone s).cue.nextPointer = some 31) := by decide +kernel

theorem test_follow_wait :
    (after .followWaitExpiry (inPhase .followWait none 1 false (withCue (aCue none none none) running))).cue.phase = .fading ∧
    (after (.blockEnd badBlock badBlock false) (inPhase .followWait none 1100 false running)).cue.timer = 1099 := by
  decide +kernel

theorem test_cue_console :
    (let s := inPhase .followWait none 9 false (withCue (aCue none none none) (console .extended))
     (after .stop s).cue.phase = .idle ∧ (after .stop s).cue.timer = 0 ∧ (after (.hold 1) s).cue.hold = true ∧
       (after (.hold 1) s).cue.phase = .idle ∧ (after (.cuePointer 255) s).cue.nextPointer = none ∧
       (after (.cuePointer 6) s).eli.refused = true ∧ (after (.cueDelete 5) s).slot 5 = none ∧
       (after (.cueDelete 5) s).cue.poolUsed = 0 ∧ (after (.cueDelete 5) s).cue.nextPointer = none) := by decide +kernel

theorem test_flags_and_hold :
    (after (.flagsSet .console 0x8001) (console .extended)).cue.flags = 0x8001#16 ∧
    (after (.flagsSet .showLink 0x8001) running).cue.flags = 0x8001#16 ∧
    (after (.flagsClear .showLink 1) (running.setCue { CueEngine.startUp with flags := 3 })).cue.flags = 2#16 ∧
    (after .holdOn running).cue.hold = true ∧
    (after .holdOff (running.setCue { CueEngine.startUp with hold := true })).cue.hold = false := by decide +kernel

/-- The engine summary and an occupied slot of CUE READ (spec/09). -/
theorem test_cue_read :
    (after (.cueRead 5) (withCue (aCue none none none) (console .extended))).eli.reply.map (·.value) =
      [5, 0, 255, 0, 0, 0, 0, 0, 0, 0, 1, 1, 0, 0, 0, 1, 44, 1, 0, 2, 1, 0, 1, 1, 3, 12, 0, 190] ∧
    (after (.cueRead 6) (withCue (aCue none none none) (console .extended))).eli.reply.length = 12 := by decide +kernel

/-! ### The Band Link -/

theorem test_window :
    (after .windowOpen running).link.state = .window ∧
    (after .windowOpen running).link.sent = [[0x10, 0, 0, 0, 0, 0, 0, 0xB5]] ∧
    (after (.attn 3 (plainWord 2 3 0)) (after .windowOpen running)).link.contenders = [3] ∧
    (after .windowClose (after (.attn 3 (plainWord 2 3 0)) (after .windowOpen running))).link.selected = some 3 ∧
    (after .windowClose (after .windowOpen running)).link.state = .idle := by decide +kernel

/-- HELLO (the example A station comes back during a cue: LOST, ATTACHED, the count of present entries). -/
theorem test_hello :
    (let t := after (.hello 3 0) (selected .lost none)
     (t.station 3).state = .attached ∧ t.latched .stationAttached = true ∧ t.link.state = .answering ∧
       t.link.answer = some ⟨countReply .ok 3, false⟩) := by decide +kernel

theorem test_reply_sent :
    (let t := after .replySent (after (.ping 3 0) (selected .attached none))
     t.link.state = .idle ∧ t.link.selected = none ∧
       t.link.sent = [[0x63, 0, 0, 0, 0, 0, 0, 0xC6], [0x73, 0, 0, 0, 0, 0, 0, 0xD6]]) := by decide +kernel

theorem test_grips :
    (after (.openGrip 3 0) (selected .attached none)).grip 3 = some (aGrip .full .fresh) ∧
    ((after (.nextGrip 3 0) (selected .attached (some (aGrip .full .stale)))).grip 3).map (·.index) = some 4 ∧
    (after (.closeGrip 3 0) (selected .attached (some (aGrip .full .stale)))).grip 3 = none ∧
    (after (.openGrip 3 24) (selected .attached none)).link.answer = some ⟨plainReply .unmapped, false⟩ := by decide +kernel

/-- The example Two singers: a SET through a stale grip is refused and refreshes it; through a fresh one it is applied; a
NUDGE is applied through a stale one. -/
theorem test_station_edits :
    (let t := after (.setLevel 3 190) (selected .attached (some (aGrip .full .stale)))
     (t.cell aCell).level = 150 ∧ t.grip 3 = some (aGrip .full .fresh) ∧ t.link.answer.map (·.reply.status) = some .stale) ∧
    ((after (.setLevel 3 190) (selected .attached (some (aGrip .full .fresh)))).cell aCell).writer = some (.station 3) ∧
    ((after (.nudgeLevel 3 0xFFFE) (selected .attached (some (aGrip .full .stale)))).cell aCell).level = 148 ∧
    ((after (.panCell 3 0xFFE0) (selected .attached (some (aGrip .full .stale)))).cell aCell).pan = -32 := by decide +kernel

/-- A mask over the entries 0 (FULL), 4 (ADJUST) and 9 (VIEW): two changes, flag D. -/
theorem test_masks :
    (let t := after (.muteSet 3 0x000211) (selected .attached none)
     (t.cell aCell).muted = true ∧ (t.cell ⟨3, 13⟩).muted = true ∧ (t.cell ⟨3, 14⟩).muted = false ∧
       t.link.answer.map (·.reply.count) = some 2 ∧ t.link.answer.map (·.reply.flags.d) = some true) ∧
    (after (.request1 3 .muteSet 0) (selected .attached none)).link.arrival = some (request1Word 3 0x08 0) ∧
    (after (.muteClear 3 1) (after (.request1 3 .muteClear 0) (selected .attached none))).link.state = .answering := by
  decide +kernel

/-- A RECALL: three words, counted as they complete; STOP in the gap after the first. -/
theorem test_recall :
    (let a := after (.recallMap 3 0) (selected .attached none)
     let b := after .openingGapEnd a
     let c := after .dataInWord b
     a.link.cursor = some 0 ∧ b.link.sent.head? = some [0x83, 0, 150, 200, 0, 0x20, 0, 0x26 ^^^ 0x20 ^^^ 150 ^^^ 200] ∧
       c.link.cursor = some 4 ∧ c.link.wordsSent = 1) := by decide +kernel

theorem test_stop_word :
    (let b := inTransaction (sendingLink 4 (some windowWord) .running)
     (after .dataInWord (after (.stopWord 3 ⟨0, false⟩) b)).link.answer = some ⟨countReply .stopped 1, true⟩) ∧
    (after (.badKindRequest 3 0x0C 0) (selected .attached none)).link.answer = some ⟨plainReply .badValue, false⟩ := by
  decide +kernel

/-- A STOP that comes while a DATA-IN word goes out is not received, no more than another word (R155); the broken-off end of a
sending of eight is damaged; and of the polled station's words that are no ECHO an ATTN is charged (R83, R159), a STOP is not
(R158, R164). -/
theorem test_words_unheard_and_broken :
    (let b := inTransaction (sendingLink 4 (some windowWord) .running)
     (after (.stopWord 3 ⟨0, true⟩) b).link.transferEnd = .running ∧
       (after (.phaseError (unheard echoWord)) b).link.transferEnd = .running ∧
       ((after (.bandCheck (unheard brokenOff)) b).station 3).checkCount = 0 ∧
       ((after (.bandCheck brokenOff) b).station 3).checkCount = 1) ∧
    (after (.damagedRequest brokenOff) (selected .attached none)).link.answer = some ⟨plainReply .check, true⟩ ∧
    (let s := inTransaction { LinkRecord.startUp with state := .polling, window := 2 }
     ((after (.strayWord (plainWord 2 3 0)) s).station 3).checkCount = 1 ∧
       ((after (.attn 3 (plainWord 2 3 0)) s).station 3).checkCount = 1 ∧
       (after (.strayWord (plainWord 2 3 0)) s).link = s.link ∧
       ((after (.strayWord stopOf) s).station 3).checkCount = 0 ∧ (after (.strayWord stopOf) s).link = s.link) := by decide +kernel

/-- The example A station goes quiet: the third miss; and an echo that answers. -/
theorem test_polls :
    (let s := inTransaction { LinkRecord.startUp with state := .polling, window := 1 }
     ((after .echoWindowExpiry s).station 3).state = .lost ∧ (after .echoWindowExpiry s).latched .stationLost = true ∧
       ((after (.badCheckEcho (damaged echoWord)) s).station 3).missRun = 3 ∧ ((after (.echo 3 0) s).station 3).missRun = 0 ∧
       (after (.echo 3 0) s).link.state = .idle) := by decide +kernel

theorem test_request_window :
    ((after .requestWindowExpiry ((selected .attached none).setLink
      { (selected .attached none).link with window := 1 })).station 3).state = .lost ∧
    (after (.blockEnd badBlock badBlock false) (selected .attached none)).link.window = 2 := by decide +kernel

theorem test_bad_words :
    ((after (.strayWord echoWord) running).station 3).checkCount = 1 ∧
    (after (.bandCheck (damaged echoWord)) running).latched .bandCheck = true ∧
    (after (.damagedRequest (damaged echoWord)) (selected .attached none)).link.answer = some ⟨plainReply .check, true⟩ ∧
    (after (.phaseError echoWord) (selected .attached none)).link.answer = some ⟨plainReply .phase, true⟩ := by decide +kernel

theorem test_breaks :
    (after .breakReceived (selected .attached none)).link.state = .resetting ∧
    ((after .breakReceived (selected .attached none)).station 3).state = .absent ∧
    (after .breakRelease (after .breakReceived running)).link.state = .idle ∧
    (after .linkReset (console .extended)).link.breakCount = 2 ∧
    (after (.breakCountExpiry true) (running.setLink { LinkRecord.startUp with state := .resetting, breakCount := 1 })).link.state
      = .resetting := by decide +kernel

/-! ### The Show Link -/

theorem test_show_message :
    (after (.showCharacter 1) (partialMessage [3, 0x80] 0)).slr.chars = [3, 0x80, 1] ∧
    (after (.showMessage 0x7B) (partialMessage [3, 0x80, 1] 0)).cue.flags = 0x8001#16 ∧
    (after (.showMessage 0x7C) (partialMessage [3, 0x80, 1] 0)).latched .showCheck = true ∧
    (after .showFramingError (partialMessage [3] 0)).slr.chars = [] ∧
    (after .showGap (partialMessage [3] 1)).latched .showCheck = true := by decide +kernel

/-! ### States that meet the hypotheses of the statements

One theorem for each statement of the obligations file that has hypotheses, named after it: its clauses' hypotheses hold
together in a state written here, at the boundaries of their ranges. -/

theorem console_ready (p : Page) : CommandReady p (console p) := ⟨rfl, Or.inl rfl, rfl, rfl, rfl⟩

theorem message_ready : MessageReady running := ⟨rfl, rfl⟩

theorem request_ready (st : StationState) (g : Option Grip) : RequestReady 3 (selected st g) := ⟨rfl, rfl, rfl, rfl⟩

theorem test_hyp_StepTakesTheFrontCommand :
    (running.setPending [.nop, .status]).pending = [.nop, .status] ∧ running.pending = [] := by decide +kernel

/-- A state with something of everything, for the laws: a gliding cell tagged by the running cue, a cue in C5, an
attached station with a grip, a NOP waiting. -/
def busy : State :=
  inPhase .fading (some ⟨5, 1, none⟩) 0 false (withCue (aCue none none none)
    (((stationThree .attached (some (aGrip .full .stale)) (withCell (cellAt 190 150 200))).setGlides
      [⟨aCell, 190, 200, some 5⟩]).setPending [.nop]))

theorem busy_slots : slotsLawful busy := by
  have one : ∀ n, busy.slot n = none ∨ busy.slot n = some (aCue none none none) := by decide +kernel
  intro n r h
  rcases one n with e | e
  · rw [e] at h; cases h
  · rw [e] at h
    cases h
    refine ⟨by decide, by decide, by decide, ?_, by intro f hf; cases hf⟩
    intro e he
    simp only [aCue, List.mem_singleton] at he
    subst he
    show (190 : Nat) ≤ 220
    decide

theorem startUp_cell (c : CellId) : State.reset.cell c = Cell.startUp := tableGet_replicate _ _

theorem busy_cell (c : CellId) : busy.cell c = if aCell = c then cellAt 190 150 200 else Cell.startUp := by
  show (running.setCell aCell (cellAt 190 150 200)).cell c = _
  rw [State.cell_setCell]
  split
  · rfl
  · exact startUp_cell c

theorem busy_gliding (c : CellId) (h : busy.gliding c = false) : aCell ≠ c := by
  rintro rfl
  exact absurd h (by decide +kernel)

theorem test_hyp_EveryStepKeepsTheMatrixLaw : MatrixLaw busy ∧ ∃ t, step busy = .next t := by
  refine ⟨⟨fun c => ?_, by decide +kernel, by decide +kernel, ?_, fun c h => ?_, busy_slots, by
    unfold glideLengthLawful; decide +kernel⟩, _, rfl⟩
  · rw [busy_cell]; unfold Cell.lawful
    split <;> decide
  · unfold GlideEntry.lawful; decide +kernel
  · rw [busy_cell, if_neg (busy_gliding c h)]; rfl

theorem test_hyp_EveryStepKeepsTheCueLaw :
    CueLaw busy ∧ ∃ t, step busy = .next t := by
  refine ⟨⟨by decide +kernel, by decide +kernel, ?_, ?_, by decide +kernel⟩, _, rfl⟩
  · intro r h
    have e : r = ⟨5, 1, none⟩ := by cases h; rfl
    subst e
    exact ⟨by decide +kernel, by decide +kernel⟩
  · intro h; cases h

theorem test_hyp_EveryStepKeepsTheGripLaw :
    GripLaw busy ∧ ∃ t, step busy = .next t := by
  have one : ∀ n, busy.grip n = none ∨ (busy.grip n = some (aGrip .full .stale) ∧ n = 3) := by decide +kernel
  have only : ∀ n g, busy.grip n = some g → g = aGrip .full .stale ∧ n = 3 := by
    intro n g h
    rcases one n with e | e
    · rw [show busy.grip n = none from e] at h; cases h
    · rw [show busy.grip n = _ from e.1] at h
      cases h; exact ⟨rfl, e.2⟩
  refine ⟨⟨fun n g h => ?_, fun n g h => ?_, fun n g h => ?_⟩, _, rfl⟩
  all_goals
    obtain ⟨rfl, rfl⟩ := only n g h
    decide +kernel

theorem test_hyp_EveryStepKeepsTheOrderLaw :
    OrderLaw busy ∧ ∃ t, step busy = .next t :=
  ⟨⟨by decide +kernel, by decide +kernel⟩, _, rfl⟩

theorem test_hyp_EveryStepKeepsThePoolLaw :
    PoolLaw busy ∧ ∃ t, step busy = .next t :=
  ⟨⟨busy_slots, by decide +kernel, by decide +kernel⟩, _, rfl⟩

/-- The three entries of the map name three cells. -/
theorem aMap_lawful : StationMap.lawful aMap := by
  have one : ∀ i e, mapAt aMap i = some e → (i, e.cell) ∈ ([(0, aCell), (4, ⟨3, 13⟩), (9, ⟨3, 14⟩)] : List (LocalIndex × CellId)) := by
    have all : ∀ i, (mapAt aMap i).all (fun e =>
        decide ((i, e.cell) ∈ ([(0, aCell), (4, ⟨3, 13⟩), (9, ⟨3, 14⟩)] : List (LocalIndex × CellId)))) = true := by decide +kernel
    intro i e h
    have := all i
    rw [h] at this
    exact of_decide_eq_true this
  intro i j e f hi hj h
  have a := one i e hi
  have b := one j f hj
  rw [← h] at b
  simp only [List.mem_cons, List.not_mem_nil, or_false, Prod.mk.injEq] at a b
  rcases a with ⟨rfl, a⟩ | ⟨rfl, a⟩ | ⟨rfl, a⟩ <;> rcases b with ⟨rfl, b⟩ | ⟨rfl, b⟩ | ⟨rfl, b⟩ <;>
    first | rfl | (rw [a] at b; exact absurd b (by decide))

theorem noMap_lawful : StationMap.lawful Station.startUp.map := by
  intro i j e f hi
  rw [show mapAt Station.startUp.map i = none from tableGet_replicate _ _] at hi
  cases hi

theorem test_hyp_EveryStepKeepsTheStationLaw :
    StationLaw busy ∧ PortOutputLaw busy ∧ ∃ t, step busy = .next t := by
  have maps : ∀ n, (busy.station n).map = aMap ∨ (busy.station n).map = Station.startUp.map := by decide +kernel
  refine ⟨⟨by decide +kernel, by decide +kernel, by decide +kernel, by decide +kernel, by decide +kernel, by decide +kernel,
    fun n => ?_⟩, ⟨fun p => ?_, fun p => ?_, by decide +kernel, by decide +kernel, by decide +kernel⟩, _, rfl⟩
  · rcases maps n with e | e
    · rw [e]; exact aMap_lawful
    · rw [e]; exact noMap_lawful
  all_goals cases p <;> decide +kernel

theorem test_hyp_StartUpEntersInitAndCompletesIntoRun :
    State.reset.run = .init ∧ State.reset.resetPin = false ∧ (State.reset.setResetPin true).resetPin = true := by
  decide +kernel

theorem test_hyp_InitHoldsTheShow :
    State.reset.run = .init ∧ Instr.softReset ≠ .powerOn ∧ Instr.softReset ≠ .resetPinActive := by decide +kernel

theorem test_hyp_LevelIsClampedAtTheCap :
    (engineer (.level 181)).kind = .level 181 ∧ ((withCell (cellAt 100 100 180)).cell aCell).cap = 180 := by decide +kernel

theorem test_hyp_NudgeIsHeldBetweenZeroAndTheCap :
    (engineer (.nudge (-20))).kind = .nudge (-20) ∧
    ((withCell (cellAt 200 200 200)).cell aCell).level ≤ ((withCell (cellAt 200 200 200)).cell aCell).cap ∧
    ((withCell (cellAt 0 0 200)).cell aCell).level ≤ ((withCell (cellAt 0 0 200)).cell aCell).cap := by decide +kernel

theorem test_hyp_CapPanAndMuteWriteTheirFields :
    (engineer (.cap 0)).kind = .cap 0 ∧
    ((engineer (.pan 0)).kind = .pan 0 ∧ ((withCell (cellAt 9 9 200)).cell aCell).pan = 0) ∧
    ((engineer .mute).kind = (if true then .mute else .unmute) ∧
      (engineer .unmute).kind = (if false then .mute else .unmute)) ∧
    ((withCell (cellAt 9 9 200)).cell aCell).muted = false ∧
    ((withCell { cellAt 9 0 200 with muted := true }).cell aCell).muted = true := by decide +kernel

theorem test_hyp_AChangeRecordsItsOriginAndMarksGrips :
    (clampChange (.level 9) (cellAt 9 9 200)).cell.level = (cellAt 9 9 200).level ∧
    (clampChange (.level 10) (cellAt 9 9 200)).cell.level ≠ (cellAt 9 9 200).level ∧
    (busy.grip 3).map (·.cell) = some aCell ∧ (⟨3, 13⟩ : CellId) ≠ aCell := by decide +kernel

theorem test_hyp_AHandOffJumpsRetargetsOrAppends :
    (gliding 150 190 8).gliding aCell = true ∧ running.gliding aCell = false ∧ running.glides.length < 64 ∧
    fullList.gliding aCell = false ∧ 64 ≤ fullList.glides.length ∧ fullList.run = .run := by decide +kernel

theorem test_hyp_AnEntryWithOneBlockLeftCompletes :
    (let s := (busy.setGlides [⟨aCell, 190, 1, some 5⟩])
     s.run = .run ∧ s.glideOf aCell = some ⟨aCell, 190, 1, some 5⟩ ∧ s.cue.running = some ⟨5, 1, none⟩) := by decide +kernel

/-- Two tagged entries, one of them at its last block. -/
def twoEntries : State := running.setGlides [⟨aCell, 190, 1, some 5⟩, ⟨⟨3, 13⟩, 0, 2, some 5⟩]

theorem test_hyp_ABlockEndAdvancesTheGlides :
    (let s := running.setGlides [⟨aCell, 190, 1, none⟩, ⟨⟨3, 13⟩, 0, 2, none⟩]
     s.run = .run ∧ (s.glides.map (·.cell)).Nodup ∧ s.cue.phase = .idle ∧ (⟨aCell, 190, 1, none⟩ : GlideEntry) ∈ s.glides ∧
       (⟨⟨3, 13⟩, 0, 2, none⟩ : GlideEntry) ∈ s.glides ∧ s.gliding ⟨0, 0⟩ = false) ∧
    (let s := inPhase .fading (some ⟨5, 2, none⟩) 0 false twoEntries
     s.run = .run ∧ (s.glides.map (·.cell)).Nodup ∧ s.cue.phase = .fading ∧ s.cue.running = some ⟨5, 2, none⟩ ∧
       tagsLost 5 s = 1 ∧ tagsLost 5 s < 2) ∧
    (let s := inPhase .followWait none 2 false twoEntries
     s.run = .run ∧ (s.glides.map (·.cell)).Nodup ∧ s.cue.phase = .followWait ∧ 2 ≤ s.cue.timer) := by decide +kernel

theorem test_hyp_ABlockEndCountsIdleBlocksAndFadeIns :
    (selected .attached none).run = .run ∧ (selected .attached none).link.selected ≠ some 2 := by decide +kernel

theorem test_hyp_PortsAreJudgedAtTheBlockEnd :
    (let s := ports ⟨true, 2, 0⟩ ⟨false, 0, 14⟩ .auto none
     s.run = .run ∧ (s.src.port .a).locked = true ∧ goodBlock.good = true ∧ badBlock.good = false ∧
       (s.src.port .a).badRun < 3 ∧ (s.src.port .b).locked = false ∧ (s.src.port .b).goodRun < 15) ∧
    (let s := ports ⟨true, 3, 0⟩ ⟨false, 0, 15⟩ .auto none
     s.run = .run ∧ (s.src.port .a).locked = true ∧ (s.src.port .a).badRun = 3 ∧ (s.src.port .b).locked = false ∧
       (s.src.port .b).goodRun = 15) ∧
    ((ports lockedPort lockedPort .auto (some .b)).src.active = some .b ∧ (ports idlePort idlePort .auto none).src.active = none ∧
      tableGet Sources.startUp.patch 47 = some 47 ∧
      tableGet (writePatchRun 47 [none] Sources.startUp.patch) 47 = none) := by decide +kernel

/-- Each case of the two tables of R170, the ports' lock states read after the block end. -/
theorem test_hyp_TheActivePortFollowsTheLocks :
    (let t := after (.blockEnd goodBlock goodBlock false) (ports lockedPort lockedPort .auto (some .a))
     (t.src.port .a).locked = true) ∧
    (let t := after (.blockEnd badBlock goodBlock false) (ports failingPort lockedPort .auto (some .a))
     (t.src.port .a).locked = false ∧ (t.src.port .b).locked = true) ∧
    (let t := after (.blockEnd badBlock badBlock false) (ports failingPort idlePort .auto (some .a))
     (t.src.port .a).locked = false ∧ (t.src.port .b).locked = false) ∧
    (let t := after (.blockEnd goodBlock badBlock false) (ports ⟨false, 0, 15⟩ idlePort .auto none)
     t.src.portA.locked = true) ∧
    (let t := after (.blockEnd badBlock goodBlock false) (ports idlePort ⟨false, 0, 15⟩ .auto none)
     t.src.portA.locked = false ∧ t.src.portB.locked = true) ∧
    (let t := after (.blockEnd badBlock badBlock false) (ports idlePort idlePort .auto none)
     t.src.portA.locked = false ∧ t.src.portB.locked = false) ∧
    (let s := ports lockedPort idlePort (.force .a) (some .b)
     s.src.active = some (otherPort .a) ∧
       ((after (.blockEnd goodBlock badBlock false) s).src.port .a).locked = true) ∧
    (let s := ports lockedPort idlePort (.force .b) (some .a)
     s.src.active ≠ none ∧ ((after (.blockEnd goodBlock badBlock false) s).src.port .b).locked = false) := by
  decide +kernel

theorem test_hyp_ABlockStartFormsTheOutputs :
    (playing 0).run = .run ∧ ((playing 0).outputRecord 0).mode ≠ .off ∧ (playing 0).out.hush = false ∧
    gain ((playing 0).outputRecord 0).ceiling < blockPeak (mixSum 0 (playing 0)) ∧
    ¬ gain ((playing 200).outputRecord 0).ceiling < blockPeak (mixSum 0 (playing 200)) ∧
    ((setOutputMode 0 .off none (playing 0)).outputRecord 0).mode = .off ∧ State.reset.run = .init ∧
    ((46 ≤ (46 : Fin 48).val ∧ (46 : Fin 48).val < 46 + [some (1 : Channel), none].length) ∧
      (47 : Fin 48).val < 46 + [some (1 : Channel), none].length ∧ ¬ 46 ≤ (45 : Fin 48).val) ∧
    (-32 : Int) ≤ 0 ∧ (1 : Nat) ≤ 220 ∧ (16 + 31) % 48 = (47 + 0) % 48 := by decide +kernel

/-- The tone runs on by a block at a block start, in INIT too; its exact samples, and the seam of two blocks. -/
theorem test_tone :
    (after .blockStart (playing 0)).out.tone = 32 ∧ (after .blockStart State.reset).out.tone = 32 ∧
    (toneBlock 0).getD 0 (1, 1) = (0, 0) ∧ (toneBlock 0).getD 4 (0, 0) = (1 / 20, 1 / 20) ∧
    (toneBlock 0).getD 12 (0, 0) = (1 / 10, 1 / 10) ∧ (toneBlock 32).getD 4 (0, 0) = (-1 / 10, -1 / 10) := by decide +kernel

theorem test_hyp_ACueCompletesAndItsFollowOnRuns :
    (let s := inPhase .fading (some ⟨30, 0, none⟩) 0 false running
     s.run = .run ∧ s.cue.phase = .fading ∧ s.cue.running = some ⟨30, 0, none⟩) ∧
    (let s := inPhase .fading (some ⟨30, 0, some ⟨31, 0⟩⟩) 0 true running
     s.run = .run ∧ s.cue.phase = .fading ∧ s.cue.running = some ⟨30, 0, some ⟨31, 0⟩⟩ ∧ s.cue.hold = true) ∧
    (let s := inPhase .fading (some ⟨30, 0, some ⟨31, 1⟩⟩) 0 false running
     s.run = .run ∧ s.cue.phase = .fading ∧ s.cue.running = some ⟨30, 0, some ⟨31, 1⟩⟩ ∧ s.cue.hold = false) ∧
    (let s := inPhase .fading (some ⟨30, 0, some ⟨31, 0⟩⟩) 0 false running
     s.run = .run ∧ s.cue.phase = .fading ∧ s.cue.running = some ⟨30, 0, some ⟨31, 0⟩⟩ ∧ s.cue.hold = false) ∧
    (let s := inPhase .followWait none 1 false running
     s.run = .run ∧ s.cue.phase = .followWait ∧ s.cue.timer = 1) ∧
    (let s := inPhase .followWait none 2 false running
     s.run = .run ∧ s.cue.phase = .followWait ∧ 2 ≤ s.cue.timer) ∧
    (∀ f : Option FollowOn, ∀ hold : Bool, let s := inPhase .fading (some ⟨5, 1, f⟩) 0 hold twoEntries
     s.run = .run ∧ s.cue.phase = .fading ∧ s.cue.running = some ⟨5, 1, f⟩ ∧ s.cue.hold = hold) ∧
    ((twoEntries.glides.map (·.cell)).Nodup ∧ 1 ≤ tagsLost 5 twoEntries) ∧
    (let s := inPhase .followWait none 1 false twoEntries
     s.run = .run ∧ s.cue.phase = .followWait ∧ s.cue.timer = 1 ∧ s.cue.running = none) :=
  ⟨by decide +kernel, by decide +kernel, by decide +kernel, by decide +kernel, by decide +kernel, by decide +kernel,
    fun _ _ => ⟨rfl, rfl, rfl, rfl⟩, by decide +kernel, by decide +kernel⟩

/-- BLOCK_END itself: the last tagged entry completes and the cue with it; the follow wait fires at timer 1. -/
theorem test_cue_at_block_end :
    (let s := inPhase .fading (some ⟨5, 1, some ⟨31, 9⟩⟩) 0 false (running.setGlides [⟨aCell, 190, 1, some 5⟩])
     let t := after (.blockEnd badBlock badBlock false) s
     t.latched .cueDone = true ∧ t.cue.phase = .followWait ∧ t.cue.timer = 9 ∧ t.cue.nextPointer = some 31) ∧
    (after (.blockEnd badBlock badBlock false)
      (inPhase .followWait none 1 false (withCue (aCue none none none) running))).cue.phase = .fading := by decide +kernel

theorem test_hyp_TheChainMakesEightEvaluations :
    running.slot 5 = none ∧
    (let s := withCue (aCue needsF0 (some 7) none) running
     s.slot 5 = some (aCue needsF0 (some 7) none) ∧ guardPasses needsF0 s.cue.flags = false ∧ guardPasses needsF0 1 = true) ∧
    (aCue needsF0 (some 7) none).alternate = some 7 ∧ (aCue needsF0 none none).alternate = none := by decide +kernel

theorem test_hyp_GoAndGotoFireTheCue :
    (CueInputReady .showLink (withCue (aCue none none none) running) ∧
      CueInputReady .console (withCue (aCue none none none) (console .extended))) ∧
    (let s := withCue (aCue none none none) running
     s.cue.nextPointer = some 5 ∧ chain chainLimit 5 s = .fires 5 (aCue none none none)) ∧
    (let s := withCue (aCue none none none) (console .extended)
     s.cue.nextPointer = some 5 ∧ chain chainLimit 5 s = .fires 5 (aCue none none none)) :=
  ⟨⟨⟨rfl, rfl⟩, ⟨rfl, Or.inl rfl, rfl, rfl, rfl⟩⟩, by decide +kernel, by decide +kernel⟩

theorem test_hyp_GoIsRefusedOrSkips :
    (CueInputReady .showLink running ∧ running.cue.nextPointer = none) ∧
    (CueInputReady .showLink (withCue (aCue needsF0 (some 7) none) running) ∧
      chain chainLimit 5 (withCue (aCue needsF0 (some 7) none) running) = .refuses) ∧
    (CueInputReady .showLink (withCue (aCue needsF0 none none) running) ∧
      chain chainLimit 5 (withCue (aCue needsF0 none none) running) = .skips 5) ∧
    (CueInputReady .console (withCue (aCue needsF0 none none) (console .extended)) ∧
      chain chainLimit 5 (withCue (aCue needsF0 none none) (console .extended)) = .skips 5) ∧
    (console .extended).slot 95 = none ∧ CueInputReady .console (console .extended) ∧ 95 < (96#16).toNat ∧ 95 < (96#8).toNat :=
  ⟨⟨message_ready, by decide +kernel⟩, ⟨⟨rfl, rfl⟩, by decide +kernel⟩, ⟨⟨rfl, rfl⟩, by decide +kernel⟩,
    ⟨⟨rfl, Or.inl rfl, rfl, rfl, rfl⟩, by decide +kernel⟩, by decide +kernel, console_ready .extended, by decide, by decide⟩

/-- A GOTO of either link to an empty slot, and one whose chain skips. -/
theorem test_goto_refused_and_skipped :
    (after (.goto (.showLink 95)) running).latched .cueRefused = true ∧
    (after (.goto (.console 95)) (console .extended)).latched .cueRefused = true ∧
    (let t := after (.goto (.showLink 5)) (withCue (aCue needsF0 none none) running)
     t.latched .cueSkipped = true ∧ t.cue.nextPointer = none) := by decide +kernel

theorem test_hyp_StopHoldAndFlagsAreWritten :
    (∀ p r k, CommandReady .extended (inPhase p r k false (console .extended)) ∧
      (inPhase p r k false (console .extended)).cue.phase = p) ∧
    ∀ p r k, MessageReady (inPhase p r k false running) ∧ (inPhase p r k false running).cue.phase = p :=
  ⟨fun _ _ _ => ⟨⟨rfl, Or.inl rfl, rfl, rfl, rfl⟩, rfl⟩, fun _ _ _ => ⟨⟨rfl, rfl⟩, rfl⟩⟩

theorem test_hyp_PointerAndDeleteMoveTheList :
    (let s := withCue (aCue none none none) (console .extended)
     CommandReady .extended s ∧ (s.slot 5).isSome = true ∧ s.cue.nextPointer = some 5 ∧ s.cue.nextPointer ≠ some 6 ∧
       ∀ n : CueId, n.val = (6#8).toNat → s.slot n = none) ∧ 95 < (96#8).toNat :=
  ⟨⟨⟨rfl, Or.inl rfl, rfl, rfl, rfl⟩, by decide +kernel⟩, by decide⟩

theorem test_hyp_FramesBeginWithHeadersAndDropTheIncomplete :
    running.eli.frame = .noFrame ∧ (console .basic).eli.frame = .headerDue ∧ headerKind 0x80 ≠ .ignored ∧
    headerKind 0x83 = .ignored ∧ (console .basic).eli.arrival = .none ∧ (console .basic).eli.staging = none ∧
    (let s := (console .basic).setEli { (console .basic).eli with arrival := .bytes [1] }
     s.eli.frame ≠ .noFrame ∧ s.eli.frame ≠ .cut ∧ s.eli.arrival = .bytes [1] ∧ s.eli.staging = none) ∧
    (let s := (console .basic).setEli { (console .basic).eli with arrival := .staged, staging := some [0x23] }
     s.eli.frame ≠ .noFrame ∧ s.eli.frame ≠ .cut ∧ s.eli.arrival = .staged) ∧
    ((console .basic).setEli { (console .basic).eli with frame := .cut }).eli.frame = .cut := by decide +kernel

/-- Two entries of a MAP LOAD, at the ends of the ranges. -/
def twoMapEntries : List (Byte × Byte × Byte × Byte) := [(23, 15, 47, 2), (0, 0, 0, 0)]

theorem test_hyp_TheFrameEndAppliesAMapLoad :
    (let s := staged [0x23, 3, 1, 9, 6, 40, 0]
     s.run = .run ∧ s.eli.frame ≠ .noFrame ∧ s.eli.frame ≠ .cut ∧ s.eli.arrival = .none ∧
       s.eli.staging = some (0x23#8 :: [3, 1, 9, 6, 40, 0])) ∧
    readMapLoad [3, 1, 23, 15, 47, 2] = some (3, mapOfEntries [(23, ⟨⟨15, 47⟩, .full⟩)]) ∧
    readMapLoad [3, 1, 24, 15, 47, 2] = none ∧ readMapLoad [3, 2, 0, 1, 2, 0, 1, 1, 2, 0] = none ∧
    (15 < (16#8).toNat ∧ 24 < ((List.finRange 25).map (fun _ => (0#8, 0#8, 0#8, 0#8))).length ∧ 23 < (24#8).toNat ∧
      47 < (48#8).toNat ∧ 2 < (3#8).toNat ∧ ¬ ([7#8, 7#8] : List Byte).Nodup ∧
      ¬ ([(1#8, 2#8), (1#8, 2#8)] : List (Byte × Byte)).Nodup) ∧
    (let es := twoMapEntries
     es.length = (2#8).toNat ∧ ¬ 15 < (15#8).toNat ∧ ¬ 24 < es.length ∧
       es.all (fun e => !decide (23 < e.1.toNat ∨ 15 < e.2.1.toNat ∨ 47 < e.2.2.1.toNat ∨ 2 < e.2.2.2.toNat)) = true ∧
       (es.map (fun e => e.1)).Nodup ∧ (es.map (fun e => (e.2.1, e.2.2.1))).Nodup ∧
       (readMapLoad (15 :: 2 :: es.flatMap (fun e => [e.1, e.2.1, e.2.2.1, e.2.2.2]))).isSome = true) :=
  ⟨by decide +kernel, by decide +kernel, by decide +kernel, by decide +kernel, by decide +kernel, by decide +kernel⟩

theorem test_hyp_TheFrameEndAppliesACueLoad :
    (let body : List Byte := [5, 0, 0, 0, 15, 255, 0, 0, 1, 255, 47, 0, 220]
     let s := staged (0x25#8 :: body)
     s.run = .run ∧ s.eli.frame ≠ .noFrame ∧ s.eli.frame ≠ .cut ∧ s.eli.arrival = .none ∧
       s.eli.staging = some (0x25#8 :: body) ∧
       ∃ raw n r, parseCueLoad body = some (raw, []) ∧ readCueLoad raw = some (n, r) ∧
         s.cue.poolUsed - slotEdits (s.slot n) + r.edits.length ≤ 1024 ∧
         (let full := s.setCue { s.cue with poolUsed := 1024 }
          1024 < full.cue.poolUsed - slotEdits (full.slot n) + r.edits.length)) ∧
    ((parseCueLoad [5, 0, 0, 0, 16, 0, 0, 0, 1, 255, 47, 0, 220]).bind (fun p => readCueLoad p.1) = none ∧
      (parseCueLoad [5, 0, 0, 0, 16, 0, 0, 0, 1, 255, 47, 0, 220]).isSome = true) :=
  ⟨⟨rfl, by decide, by decide, rfl, rfl,
    { slot := 5, guard := ⟨0, []⟩, alternate := ⟨0, []⟩, followOn := ⟨0, []⟩, fadeHi := 15, fadeLo := 255,
      setMask := ⟨0, []⟩, clearMask := ⟨0, []⟩, edits := [255, 47, 0, 220] }, 5,
    { guard := none, alternate := none, followOn := none, fade := 4095, setMask := none, clearMask := none,
      edits := [⟨.all, 47, .level 220⟩] }, by decide +kernel, by decide +kernel, by decide +kernel, by decide +kernel⟩,
    by decide +kernel⟩

/-- A record with every item, its numbers at the ends of their ranges. -/
def fullCue : CueRecord :=
  { guard := some ⟨0x8000#16, .anyClear⟩, alternate := some 95, followOn := some ⟨95, 65535⟩, fade := 4095,
    setMask := some 0xFFFF#16, clearMask := some 0#16,
    edits := [⟨.mix 15, 47, .nudge (-40)⟩, ⟨.all, 0, .pan (-32)⟩, ⟨.mix 0, 1, .mute⟩, ⟨.mix 0, 2, .unmute⟩] }

/-- A load of four edits, each item absent. -/
def plainLoad : RawCueLoad :=
  { slot := 95, guard := ⟨0, []⟩, alternate := ⟨0, []⟩, followOn := ⟨0, []⟩, fadeHi := 15, fadeLo := 255,
    setMask := ⟨0, []⟩, clearMask := ⟨0, []⟩, edits := [15, 47, 0, 220] }

/-- The items as sent, the values just out of range, and the records that the last clause speaks of. -/
theorem test_hyp_TheFrameEndAppliesACueLoad_items :
    (((0 : Byte) = 0 ∧ ([] : List Byte) = []) ∧ ((2 : Byte) ≠ 0 ∧ ([1, 2, 3] : List Byte).length = 3) ∧
      plainLoad.edits.length = 4 * (1#8).toNat) ∧
    (plainLoad.edits = ([(15, 47, 0, 220)] : List (Byte × Byte × Byte × Byte)).flatMap
      (fun e => [e.1, e.2.1, e.2.2.1, e.2.2.2]) ∧
     (readCueLoad plainLoad).isSome = true ∧ readCueLoad { plainLoad with slot := 96 } = none ∧
     readCueLoad { plainLoad with guard := ⟨2, [0, 1, 0]⟩ } = none ∧
     readCueLoad { plainLoad with guard := ⟨1, [0, 1, 4]⟩ } = none ∧
     readCueLoad { plainLoad with alternate := ⟨1, [96]⟩ } = none ∧
     readCueLoad { plainLoad with followOn := ⟨1, [96, 0, 0]⟩ } = none ∧
     readCueLoad { plainLoad with fadeHi := 16, fadeLo := 0 } = none ∧ readCueLoad { plainLoad with edits := [] } = none ∧
     readCueLoad { plainLoad with edits := [16, 0, 2, 0] } = none ∧ readCueLoad { plainLoad with edits := [255, 48, 2, 0] } = none ∧
     readCueLoad { plainLoad with edits := [0, 0, 5, 0] } = none ∧ readCueLoad { plainLoad with edits := [0, 0, 0, 221] } = none ∧
     readCueLoad { plainLoad with edits := [0, 0, 1, 0xD7] } = none ∧
     readCueLoad { plainLoad with edits := [0, 0, 4, 33] } = none) ∧ fullCue.lawful := by
  refine ⟨by decide, by decide +kernel, by decide, by decide, by decide, ?_, ?_⟩
  · intro e he
    simp only [fullCue, List.mem_cons, List.not_mem_nil, or_false] at he
    rcases he with rfl | rfl | rfl | rfl <;> simp [CueEdit.lawful]
  · intro f hf
    cases hf
    decide

theorem test_hyp_LoadsWaitInTheStagingBuffer :
    CommandReady .extended (console .extended) ∧ (console .extended).eli.staging = none ∧
    (let s := (console .extended).setEli { (console .extended).eli with staging := some [0x23, 3, 0] }
     CommandReady .extended s ∧ s.eli.staging = some [0x23, 3, 0] ∧
       (after (.mapLoad [4, 0]) s).eli.staging = some [0x23, 3, 0] ∧ (after (.mapLoad [4, 0]) s).eli.refused = true) ∧
    ([9, 6, 40, 0] : List Byte).length = 4 * (1#8).toNat ∧
    (let body : List Byte := [5, 0, 0, 0, 1, 44, 0, 0, 1, 3, 12, 0, 190]
     (parseCueLoad body).isSome = true ∧ ∀ pre rest, body = pre ++ rest → rest ≠ [] → parseCueLoad pre = none) := by
  refine ⟨console_ready .extended, rfl, ⟨⟨rfl, Or.inl rfl, rfl, rfl, rfl⟩, by decide +kernel⟩, rfl, by decide +kernel, ?_⟩
  intro pre rest h hr
  have cut : ∀ k < 13, parseCueLoad (([5, 0, 0, 0, 1, 44, 0, 0, 1, 3, 12, 0, 190] : List Byte).take k) = none := by
    decide +kernel
  have len := congrArg List.length h
  have hk : pre.length < 13 := by
    have := List.length_pos_iff.mpr hr
    simp only [List.length_cons, List.length_nil, List.length_append] at len
    omega
  have := cut pre.length hk
  rwa [h, List.take_left] at this

theorem test_hyp_WriteCellsPresentsOneChange :
    (∀ f, CellByteReady .writeCells (cellBytes .writeCells f) ∧ (cellBytes .writeCells f).eli.field = f) ∧
    (220#8).toNat ≤ 220 ∧ 220 < (221#8).toNat ∧ (0x20#8).toInt ≤ 32 ∧ 32 < (0x21#8).toInt ∧ -32 ≤ (0xE0#8).toInt ∧
    (0xDF#8).toInt < -32 :=
  ⟨fun _ => ⟨⟨rfl, Or.inr (Or.inr rfl)⟩, rfl⟩, by decide⟩

theorem test_hyp_ReadCellsGoesThroughTheLatch :
    CellByteReady .readCells (cellBytes .readCells .level) ∧ (⟨15, 47⟩ : CellId).source.val = 47 ∧
    (⟨14, 47⟩ : CellId).mix.val < 15 ∧ (⟨15, 46⟩ : CellId).source.val < 47 := ⟨⟨rfl, Or.inr (Or.inr rfl)⟩, by decide⟩

theorem test_hyp_ReplyBytesGoOut :
    (let s := (console .basic).setEli { (console .basic).eli with reply := [⟨0x80, 0x8000⟩] }
     commandFrame s.eli.frame ∧ s.eli.reply = [⟨0x80, 0x8000⟩]) := ⟨Or.inl rfl, rfl⟩

theorem test_hyp_UnknownAndOtherPageCodesAreRefused :
    (CommandReady .basic (console .basic) ∧ codeOf 0x0A = none ∧ codeOf 0x38 = none) ∧
    (codeOnPage .lockout .basic = false ∧ operandsComplete (codeShape .lockout) [3] = true ∧
      ∀ pre rest : List Byte, [3] = pre ++ rest → rest ≠ [] → operandsComplete (codeShape .lockout) pre = false) := by
  refine ⟨⟨console_ready .basic, by decide +kernel, by decide +kernel⟩, by decide, by decide, ?_⟩
  intro pre rest h hr
  match pre, rest, h, hr with
  | [], _, _, _ => rfl
  | [_], [], _, hr => exact absurd rfl hr
  | _ :: _ :: _, _, h, _ => simp at h
  | [_], _ :: _, h, _ => simp at h

theorem test_hyp_BasicSettingsAreTakenOrRefused :
    CommandReady .basic (console .basic) ∧ 15 < (16#8).toNat ∧ 47 < (48#8).toNat ∧ (2#8 ≠ 0 ∧ 2#8 ≠ 1) ∧ 4 < (5#8).toNat :=
  ⟨console_ready .basic, by decide⟩

theorem test_hyp_StatusEventsAndEnables :
    CommandReady .basic refusedConsole ∧
    (let s := State.reset.setEli { EngineerLink.startUp with frame := .headerDue }
     s.run = .init ∧ commandFrame s.eli.frame ∧ s.eli.reply = []) ∧ (0x06#8 : Byte) ≠ 0x05 :=
  ⟨⟨rfl, Or.inl rfl, rfl, rfl, rfl⟩, ⟨rfl, Or.inl rfl, rfl⟩, by decide⟩

theorem test_hyp_HushSilencesAndFadesIn :
    (CommandReady .basic (console .basic) ∧ (console .basic).out.hush = false) ∧
    (let s := (console .basic).setOut { Outputs.startUp with hush := true }
     CommandReady .basic s ∧ s.out.hush = true) := ⟨⟨console_ready .basic, rfl⟩, ⟨rfl, Or.inl rfl, rfl, rfl, rfl⟩, rfl⟩

theorem test_hyp_SoftResetKeepsTheShow : CommandReady .basic (console .basic) := console_ready .basic

theorem test_hyp_ExtendedSettingsAreTakenOrRefused :
    CommandReady .extended (console .extended) ∧ (7#8).toNat ≤ 7 ∧ 7 < (8#8).toNat ∧ 2 < (3#8).toNat ∧
    (220#8).toNat ≤ 220 ∧ 220 < (221#8).toNat ∧ 15 < (16#8).toNat := ⟨console_ready .extended, by decide⟩

theorem test_hyp_OutputModeAndPatchAreTakenOrRefused :
    CommandReady .extended (console .extended) ∧ 3 < (4#8).toNat ∧
    (let body : List Byte := [63, 255]
     body.length = (2#8).toNat ∧ body = [byteOfNat (63 : Channel).val, 255] ∧ (2#8 ≠ 0) ∧
       (46#8).toNat + (2#8).toNat ≤ 48 ∧ 48 < (47#8).toNat + (2#8).toNat) ∧
    (63 < (64#8).toNat ∧ 64#8 ≠ 255#8) ∧ ([] : List Byte).length = (0#8).toNat :=
  ⟨console_ready .extended, by decide +kernel⟩

theorem test_hyp_StationProfileWritesTheRecord :
    CommandReady .extended (console .extended) ∧ (7#8).toNat ≤ 7 ∧ 7 < (8#8).toNat ∧ 1 < (2#8).toNat ∧
    ((console .extended).station 3).state = .absent ∧
    (let s := stationThree .lost none (console .extended)
     CommandReady .extended s ∧ s.link.selected ≠ some 3 ∧ (s.station 3).state ≠ .absent ∧
       CommandReady .extended (s.setLink { s.link with selected := some 3 })) :=
  ⟨console_ready .extended, by decide, by decide, by decide, by decide +kernel, ⟨rfl, Or.inl rfl, rfl, rfl, rfl⟩,
    by decide +kernel, by decide +kernel, ⟨rfl, Or.inl rfl, rfl, rfl, rfl⟩⟩

theorem test_hyp_ReadCommandsFormTheirReplies :
    CommandReady .extended (console .extended) ∧ (console .extended).slot 95 = none ∧ 95 < (96#8).toNat ∧
    15 < (16#8).toNat := ⟨console_ready .extended, by decide +kernel, by decide⟩

theorem test_hyp_MixCopyAndMixClearEditTheMix :
    CommandReady .extended (console .extended) ∧
    (∀ c, ((console .extended).cell c).level ≤ ((console .extended).cell c).cap) ∧ 15 < (16#8).toNat := by
  refine ⟨console_ready .extended, fun c => ?_, by decide⟩
  rw [show (console .extended).cell c = Cell.startUp from startUp_cell c]
  decide

/-- The part's own break ends inside BLOCK_END: two block ends, and a station that holds the pair on. -/
theorem test_break_at_block_end :
    (let s := running.setLink { LinkRecord.startUp with state := .resetting, breakCount := 2 }
     let t := after (.blockEnd badBlock badBlock false) s
     t.link.breakCount = 1 ∧ t.link.state = .resetting ∧
       (after (.blockEnd badBlock badBlock false) t).link.state = .idle ∧
       (after (.blockEnd badBlock badBlock true) t).link.state = .resetting) := by decide +kernel

theorem test_hyp_LinkResetClearsTheLink :
    (running.run = .run ∧ running.link.state ≠ .resetting) ∧ CommandReady .extended (console .extended) ∧
    State.reset.run = .init ∧
    ∀ k, (running.setLink { LinkRecord.startUp with state := .resetting, breakCount := k }).link.breakCount = k :=
  ⟨by decide +kernel, console_ready .extended, rfl, fun _ => rfl⟩

/-- The open window, a good ATTN, one of another tag, a damaged one, and a station that is not admitted. -/
theorem test_hyp_WindowsGatherContenders :
    (let s := running.setLink { LinkRecord.startUp with state := .window }
     let w := plainWord 2 3 0
     s.run = .run ∧ checkGood w = true ∧ w.driven = false ∧ wordStation w = 3 ∧ wordTag w = .attn ∧
       (s.station 3).admitted = true ∧ (damaged w).driven = false ∧
       (3 : StationId) ∉ s.link.contenders ∧ wordTag echoWord ≠ .attn ∧ checkGood (damaged w) = false ∧
       ((s.setStation 3 { Station.startUp with admitted := false }).station 3).admitted = false) := by decide +kernel

def openWindowWith (contenders : List StationId) : State :=
  running.setLink { LinkRecord.startUp with state := .window, contenders := contenders }

/-- ST3 is due, ST4 is one idle block short of it. -/
def dueWindow : State :=
  ((openWindowWith []).setStation 3 { Station.startUp with state := .attached, idle := 750 }).setStation 4
    { Station.startUp with state := .attached, idle := 749 }

/-- The three outcomes of a window's close: two contenders of one priority, of whom ST3 comes first; a due station of 750
idle blocks beside one of 749; nobody. -/
theorem test_hyp_AWindowClosesIntoASelection :
    ((openWindowWith [7, 3]).run = .run ∧ OrderLaw (openWindowWith [7, 3]) ∧
      (3 : StationId) ∈ (openWindowWith [7, 3]).link.contenders ∧ ((openWindowWith [7, 3]).station 3).admitted = true ∧
      ∀ k ∈ (openWindowWith [7, 3]).link.contenders, k ≠ 3 →
        ((openWindowWith [7, 3]).station k).priority = ((openWindowWith [7, 3]).station 3).priority ∧
          (openWindowWith [7, 3]).link.order.idxOf 3 < (openWindowWith [7, 3]).link.order.idxOf k) ∧
    (dueWindow.run = .run ∧ OrderLaw dueWindow ∧ dueWindow.link.contenders = [] ∧
      (dueWindow.station 3).state = .attached ∧ 750 ≤ (dueWindow.station 3).idle ∧
      ∀ k, k ≠ 3 → (dueWindow.station k).idle < 750) ∧
    ((openWindowWith []).link.contenders = [] ∧ ∀ k, ((openWindowWith []).station k).state ≠ .attached) := by
  refine ⟨⟨by decide +kernel, ⟨by decide +kernel, by decide +kernel⟩, by decide +kernel, by decide +kernel, ?_⟩,
    ⟨by decide +kernel, ⟨by decide +kernel, by decide +kernel⟩, by decide +kernel⟩, by decide +kernel⟩
  decide +kernel

theorem test_hyp_RequestsWithoutAChangeAreAnswered :
    (RequestReady 3 (selected .attached (some (aGrip .view .fresh))) ∧
      ((selected .attached (some (aGrip .view .fresh))).station 3).state = .attached ∧
      (selected .attached (some (aGrip .view .fresh))).grip 3 ≠ none) ∧
    (selected .attached none).grip 3 = none ∧ requestKind 0x00 = .unnamed ∧ requestKind 0x0C = .unnamed ∧
    RequestReady 3 (selected .lost none) ∧ ((selected .lost none).station 3).state ≠ .attached :=
  ⟨⟨request_ready _ _, by decide +kernel, by decide +kernel⟩, by decide +kernel, by decide, by decide, request_ready _ _,
    by decide +kernel⟩

theorem test_hyp_OpenAndNextMakeAFreshGrip :
    (RequestReady 3 (selected .attached none) ∧ ((selected .attached none).station 3).state = .attached) ∧
    mapAt ((selected .attached none).station 3).map 9 = some ⟨⟨3, 14⟩, .view⟩ ∧
    (∀ i : LocalIndex, i.val = (24#16).toNat → mapAt ((selected .attached none).station 3).map i = none) ∧
    nextIndex aMap (some 0) = some 4 ∧ nextIndex aMap (some 9) = some 0 ∧ nextIndex aMap none = some 0 ∧
    (∀ i, mapAt Station.startUp.map i = none) ∧
    (∀ k : LocalIndex, 0 < k → k < 4 → mapAt aMap k = none) ∧ (∀ k : LocalIndex, 9 < k → mapAt aMap k = none) :=
  ⟨⟨request_ready _ _, by decide +kernel⟩, by decide +kernel⟩

theorem test_hyp_EditsGoThroughTheGrip :
    EditAllowed 3 (aGrip .full .fresh) (selected .attached (some (aGrip .full .fresh))) ∧
    EditAllowed 3 (aGrip .adjust .stale) (selected .attached (some (aGrip .adjust .stale))) ∧
    (220#16).toNat ≤ 220 ∧ -40 ≤ (0xFFD8#16).toInt ∧ (0x0028#16).toInt ≤ 40 ∧ -32 ≤ (0xFFE0#16).toInt ∧
    (0x0020#16).toInt ≤ 32 :=
  ⟨⟨request_ready _ _, by decide +kernel, by decide +kernel, by decide, by decide +kernel⟩,
    ⟨request_ready _ _, by decide +kernel, by decide +kernel, by decide, by decide +kernel⟩, by decide⟩

/-- Each refusal of R131 in a state of its own: values just out of range, the rights, the lockout at the priority. -/
theorem test_hyp_EditChecksComeInOrder :
    (RequestReady 3 (selected .attached none) ∧ ((selected .attached none).station 3).state = .attached ∧
      (selected .attached none).grip 3 = none) ∧
    (∀ r f, (selected .attached (some (aGrip r f))).grip 3 = some (aGrip r f)) ∧
    (220 < (221#16).toNat ∧ (0xFFD7#16).toInt < -40 ∧ 40 < (0x0029#16).toInt ∧ (0xFFDF#16).toInt < -32 ∧
      32 < (0x0021#16).toInt) ∧
    (let s := (selected .attached (some (aGrip .full .stale))).setLockout 2
     RequestReady 3 s ∧ (s.station 3).priority ≤ s.lockout) ∧
    (let s := (selected .attached (some (aGrip .adjust .stale))).setLockout 1
     RequestReady 3 s ∧ s.lockout < (s.station 3).priority) :=
  ⟨⟨request_ready _ _, by decide +kernel⟩,
    by intro r f; cases r <;> cases f <;> decide +kernel, by decide, ⟨⟨rfl, rfl, rfl, rfl⟩, by decide +kernel⟩,
    ⟨rfl, rfl, rfl, rfl⟩, by decide +kernel⟩

theorem test_hyp_MaskRequestsMuteTogether :
    (RequestReady 3 (selected .attached none) ∧ ((selected .attached none).station 3).state = .attached ∧
      (selected .attached none).lockout < ((selected .attached none).station 3).priority) ∧
    (RequestReady 3 (selected .lost none) ∧ ((selected .lost none).station 3).state ≠ .attached) ∧
    (let s := (selected .attached none).setLockout 2
     RequestReady 3 s ∧ (s.station 3).state = .attached ∧ (s.station 3).priority ≤ s.lockout) ∧
    (presentedEntries aMap 0x000211).length = 2 ∧
    (∀ st g, let s := selected st g
     MaskReady 3 .muteSet s (s.setStation 3 { s.station 3 with missRun := 0 })) ∧
    ∀ st g, let s := (selected st g).setLink { (selected st g).link with arrival := some (request1Word 3 0x09 7) }
     MaskReady 3 .muteClear s s :=
  ⟨⟨request_ready _ _, by decide +kernel⟩, ⟨request_ready _ _, by decide +kernel⟩,
    ⟨⟨rfl, rfl, rfl, rfl⟩, by decide +kernel⟩, by decide +kernel, fun _ _ => Or.inl ⟨request_ready _ _, rfl⟩,
    fun _ _ => Or.inr ⟨rfl, rfl, rfl, ⟨7, rfl⟩, rfl⟩⟩

/-- The flags of a mask request: all named cells muted but not all of the map's, an entry in VIEW, a stale grip refreshed. -/
theorem test_mask_flags :
    (after (.muteSet 3 0x000211) (selected .attached (some (aGrip .full .stale)))).link.answer.map (·.reply.flags) =
      some { Flags.clear with d := true, s := true, g := true } ∧
    (after (.muteSet 3 0x000011) (selected .attached none)).link.answer.map (·.reply.flags.m) = some true := by
  decide +kernel

theorem test_hyp_RecallSendsOneWordPerEntry :
    (RequestReady 3 (selected .attached none) ∧ ((selected .attached none).station 3).state = .attached ∧
      lowestPresent ((selected .attached none).station 3).map = some 0) ∧
    (let s := inTransaction (sendingLink 0 none .running)
     s.run = .run ∧ s.link.state = .sending ∧ s.link.selected = some 3 ∧ s.link.inFlight = none ∧
       s.link.transferEnd = .running ∧ s.link.cursor = some 0 ∧ mapAt (s.station 3).map 0 = some ⟨aCell, .full⟩) ∧
    (let s := inTransaction (sendingLink 0 (some windowWord) .running)
     s.run = .run ∧ s.link.inFlight = some windowWord ∧ nextPresent (s.station 3).map 0 = some 4 ∧
       mapAt (s.station 3).map 4 = some ⟨⟨3, 13⟩, .adjust⟩) ∧
    (let s := inTransaction (sendingLink 9 (some windowWord) .running)
     s.link.cursor = some 9 ∧ nextPresent (s.station 3).map 9 = none) ∧
    (let s := (selected .attached none).setStation 3 { Station.startUp with state := .attached }
     RequestReady 3 s ∧ (s.station 3).state = .attached ∧ lowestPresent (s.station 3).map = none) :=
  ⟨⟨request_ready _ _, by decide +kernel⟩, by decide +kernel, by decide +kernel, by decide +kernel,
    ⟨⟨rfl, rfl, rfl, rfl⟩, by decide +kernel⟩⟩

theorem test_hyp_StopEndsTheTransfer :
    (let s := inTransaction (sendingLink 9 none .running)
     s.run = .run ∧ s.link.state = .sending ∧ s.link.selected = some 3 ∧ s.link.transferEnd = .running ∧
       s.link.inFlight = none) ∧
    cursorAfter (inTransaction (sendingLink 4 (some windowWord) .running)) ≠ none ∧
    cursorAfter (inTransaction (sendingLink 9 (some windowWord) .running)) = none ∧
    (inTransaction (sendingLink 9 (some windowWord) .stopped)).link.transferEnd ≠ .running ∧
    ∀ e ∈ [TransferEnd.stopped, .done, .mapChanged, .phase], ∀ w ∈ [none, some windowWord],
      let s := inTransaction (sendingLink 9 w e)
      s.run = .run ∧ s.link.state = .sending ∧ s.link.selected = some 3 ∧ s.link.transferEnd = e ∧ s.link.inFlight = w := by
  decide +kernel

/-- The final replies of a transfer that a MAP LOAD and a phase error end, and of an empty map. -/
theorem test_final_replies :
    (after .openingGapEnd (inTransaction (sendingLink 0 none .mapChanged))).link.answer =
      some ⟨countReply .mapChanged 0, true⟩ ∧
    (after .dataInWord (inTransaction (sendingLink 0 (some windowWord) .mapChanged))).link.answer =
      some ⟨countReply .mapChanged 1, true⟩ ∧
    (after .dataInWord (inTransaction (sendingLink 0 (some windowWord) .phase))).link.answer =
      some ⟨plainReply .phase, true⟩ ∧
    (let s := (selected .attached none).setStation 3 { Station.startUp with state := .attached }
     (after .openingGapEnd (after (.recallMap 3 0) s)).link.answer = some ⟨countReply .done 0, true⟩) := by decide +kernel

theorem test_hyp_TheReplyEndsTheTransaction :
    (let s := inTransaction { LinkRecord.startUp with state := .answering, answer := some ⟨plainReply .ok, false⟩ }
     s.run = .run ∧ s.link.state = .answering ∧ s.link.selected = some 3 ∧
       s.link.answer = some ⟨plainReply .ok, false⟩ ∧ (s.station 3).admitted = true ∧
       (let t := s.setStation 3 { Station.startUp with state := .attached, admitted := false }
        (t.station 3).admitted = false ∧ (t.station 3).state ≠ .absent)) := by decide +kernel

theorem test_hyp_PollsAndMissesAreCounted :
    (let s := inTransaction { LinkRecord.startUp with state := .polling, window := 1 }
     s.run = .run ∧ s.link.selected = some 3 ∧ (s.station 3).admitted = true ∧ s.link.state = .polling ∧
       s.link.window = 1 ∧ (s.station 3).missRun = 2 ∧ (s.station 3).state = .attached ∧
       ((s.setStation 3 { Station.startUp with missRun := 1 }).station 3).missRun < 2 ∧
       checkGood (damaged echoWord) = false ∧ (damaged echoWord).driven = false) ∧
    (∀ k, let s := inTransaction { LinkRecord.startUp with state := .selected, window := k }
     s.run = .run ∧ s.link.selected = some 3 ∧ s.link.window = k ∧ (s.station 3).missRun = 2) ∧
    (∀ k, let s := inTransaction { LinkRecord.startUp with state := .polling, window := k }
     s.link.state = .polling ∧ s.link.window = k) ∧
    (let s := inTransaction { LinkRecord.startUp with state := .selected, window := 1 }
     s.run = .run ∧ s.link.state = .selected ∧ s.link.window = 1 ∧ (s.station 3).missRun = 2) :=
  ⟨by decide +kernel, fun _ => ⟨rfl, rfl, rfl, congrArg Station.missRun (State.station_setStation_same _ 3 _)⟩, fun _ => ⟨rfl, rfl⟩,
    by decide +kernel⟩

/-- BLOCK_END counts a window of 2 down, and at a window of 1 the third miss comes inside it. -/
theorem test_windows_at_block_end :
    (let s := inTransaction { LinkRecord.startUp with state := .polling, window := 2 }
     let t := after (.blockEnd badBlock badBlock false) s
     t.link.window = 1 ∧ (t.station 3).idle = 1 ∧
       (let u := after (.blockEnd badBlock badBlock false) t
        (u.station 3).state = .lost ∧ (u.station 3).idle = 2 ∧ u.link.state = .idle ∧ u.latched .stationLost = true)) := by
  decide +kernel

theorem test_hyp_BadWordsAreAnsweredOrCharged :
    (let s := inTransaction { LinkRecord.startUp with state := .selected, window := 3 }
     s.run = .run ∧ s.link.state = .selected ∧ s.link.selected = some 3 ∧ s.link.arrival = none) ∧
    (checkGood (damaged echoWord) = false ∧ checkGood echoWord = true ∧ wordStation echoWord = 3 ∧
      wordTag echoWord ≠ .request1 ∧ wordTag echoWord ≠ .stop ∧ wordStation (plainWord 11 4 0) ≠ 3) ∧
    (let s := inTransaction { LinkRecord.startUp with state := .answering, answer := some ⟨plainReply .ok, false⟩ }
     s.link.state = .answering ∧ s.link.answer = some ⟨plainReply .ok, false⟩) ∧
    (let s := inTransaction (sendingLink 0 none .running)
     s.link.state = .sending ∧ s.link.transferEnd = .running) ∧ running.link.state = .idle ∧
    (let s := inTransaction { LinkRecord.startUp with state := .selected, window := 3, arrival := some (request1Word 3 8 0) }
     s.run = .run ∧ s.link.arrival ≠ none ∧ wordTag echoWord ≠ .request2) ∧
    (let s := inTransaction { LinkRecord.startUp with state := .answering, answer := some ⟨plainReply .ok, true⟩ }
     s.link.answer = some ⟨plainReply .ok, true⟩) ∧
    (inTransaction (sendingLink 0 none .phase)).link.transferEnd ≠ .running ∧
    (let s := inTransaction { LinkRecord.startUp with state := .polling, window := 3 }
     s.link.state = .polling ∧ s.link.selected = some 3 ∧ wordTag (plainWord 2 3 0) = .attn ∧
       wordStation (plainWord 2 3 0) = 3 ∧ checkGood (plainWord 2 3 0) = true ∧ (plainWord 2 3 0).driven = false ∧
       wordTag stopOf ≠ .echo ∧ wordTag stopOf ≠ .attn ∧ wordStation stopOf = 3 ∧ checkGood stopOf = true ∧
       stopOf.driven = false) ∧
    echoWord.driven = false ∧ (unheard echoWord).driven = true ∧ brokenOff.bytes.length ≠ 5 ∧
    ([0, 0, 0, 0, 0, 0] : List Byte).length ≠ 5 := by decide +kernel

theorem test_hyp_ShowCharactersMakeMessages :
    (partialMessage [3, 0x80] 0).run = .run ∧ (partialMessage [3, 0x80] 0).slr.chars.length < 3 ∧
    (partialMessage [3, 0x80, 1] 0).slr.chars = [3, 0x80, 1] ∧ (3 + 0x80 + 1 + 0x7B : Byte) = 0xFF ∧
    (3 + 0x80 + 1 + 0x7C : Byte) ≠ 0xFF ∧ 6 < (7#8).toNat ∧ (6 + 0 + 0 + 0xF9 : Byte) = 0xFF ∧
    (partialMessage [3] 1).slr.chars ≠ [] ∧ (partialMessage [3] 1).slr.gap = 1 ∧ (partialMessage [] 0).slr.chars = [] ∧
    (partialMessage [3] 0).slr.gap = 0 := by decide +kernel

/-- The gap inside BLOCK_END: the first block end counts, the second discards; and a fourth character sent as such. -/
theorem test_show_at_block_end :
    (let t := after (.blockEnd badBlock badBlock false) (partialMessage [3] 0)
     t.slr = ⟨[3], 1⟩ ∧ (after (.blockEnd badBlock badBlock false) t).slr = ⟨[], 0⟩ ∧
       (after (.blockEnd badBlock badBlock false) t).latched .showCheck = true) ∧
    (after (.showCharacter 0x7B) (partialMessage [3, 0x80, 1] 0)).cue.flags = 0x8001#16 := by decide +kernel

end Sys2Proof.Tests
end

-- The change path of spec/01 (R10 to R17): what a change records, what it reports, and the statements on it.
section
namespace Sys2Proof.Machine

/-! ### What a change of a given kind records and reports -/

/-- The four stored fields and the flags V and C of a change are those of the clamp of its kind: the one rule that the
statements on single kinds (R10 to R13) rest on. -/
theorem takeChange_clamped {ch : Change} {k : ChangeKind} (hk : ch.kind = k) (s : State) :
    let r := clampChange k (s.cell ch.cell)
    let y := (takeChange ch s).cell ch.cell
    y.level = r.cell.level ∧ y.muted = r.cell.muted ∧ y.pan = r.cell.pan ∧ y.cap = r.cell.cap ∧
      (changeFlags ch s).v = r.heldAtCap ∧ (changeFlags ch s).c = r.heldAtZero := by
  subst hk
  obtain ⟨hlevel, hmuted, hpan, hcap⟩ := takeChange_stored ch ch.cell rfl s
  exact ⟨hlevel, hmuted, hpan, hcap, rfl, rfl⟩

theorem isNoOp_iff (x y : Cell) :
    isNoOp x y = true ↔ y.level = x.level ∧ y.muted = x.muted ∧ y.pan = x.pan ∧ y.cap = x.cap := by
  simp [isNoOp]

/-- A change after which the four fields stand as before was a no-op, and so left the whole state alone (R14). -/
theorem takeChange_eq_self_of_fields {ch : Change} {s : State}
    (hlevel : ((takeChange ch s).cell ch.cell).level = (s.cell ch.cell).level)
    (hmuted : ((takeChange ch s).cell ch.cell).muted = (s.cell ch.cell).muted)
    (hpan : ((takeChange ch s).cell ch.cell).pan = (s.cell ch.cell).pan)
    (hcap : ((takeChange ch s).cell ch.cell).cap = (s.cell ch.cell).cap) : takeChange ch s = s := by
  obtain ⟨rlevel, rmuted, rpan, rcap⟩ := takeChange_stored ch ch.cell rfl s
  exact takeChange_noOp ch s ((isNoOp_iff _ _).mpr
    ⟨rlevel.symm.trans hlevel, rmuted.symm.trans hmuted, rpan.symm.trans hpan, rcap.symm.trans hcap⟩)

/-- The clamp of a NUDGE (R11): three outcomes, above the cap, below 0, and between. They are exclusive because a cap is
never below 0. -/
theorem clampChange_nudge (d : Int) (x : Cell) :
    let r := clampChange (.nudge d) x
    (r.cell.level : Int) = max 0 (min ((x.level : Int) + d) x.cap) ∧
      r.cell.muted = x.muted ∧ r.cell.pan = x.pan ∧ r.cell.cap = x.cap ∧
      r.heldAtCap = decide ((x.cap : Int) < x.level + d) ∧ r.heldAtZero = decide ((x.level : Int) + d < 0) := by
  by_cases above : (x.cap : Int) < x.level + d
  · have notBelow : ¬ (x.level : Int) + d < 0 := by omega
    simp only [clampChange, above, notBelow, if_true, decide_true, decide_false, and_true]
    omega
  · by_cases below : (x.level : Int) + d < 0
    · simp only [clampChange, above, below, if_true, if_false, decide_true, decide_false, and_true]
      omega
    · simp only [clampChange, above, below, if_false, decide_false, and_true]
      omega

/-! ### What a change that is not a no-op writes -/

/-- The grips after steps 3 to 5 are those of step 4: a hand-off moves none (R16, R17). -/
theorem applyChange_grips (ch : Change) (x y : Cell) (s : State) :
    (applyChange ch x y s).grips = (markStale ch.cell ch.origin s).grips := by
  unfold applyChange
  simp only
  split
  · exact handOff_grips _ _ _ _ _
  · rfl

/-- A change that is not a no-op writes its record and its stale marks, and hands the goal over last (R15 to R17). -/
theorem takeChange_of_not_noOp (ch : Change) (s : State)
    (h : isNoOp (s.cell ch.cell) (clampChange ch.kind (s.cell ch.cell)).cell = false) :
    let x := s.cell ch.cell
    let y := (clampChange ch.kind x).cell
    let m := (s.setCell ch.cell { y with writer := some ch.origin }).setGrips (takeChange ch s).grips
    takeChange ch s =
      if goalOf x ≠ goalOf y ∨ s.gliding ch.cell = true then handOff ch.cell (goalOf y) ch.length ch.tag m else m := by
  have applied : takeChange ch s =
      applyChange ch (s.cell ch.cell) (clampChange ch.kind (s.cell ch.cell)).cell s := by
    simp [takeChange, h]
  simp only [applied, applyChange_grips]
  rfl

/-- A change that is not a no-op makes its origin the cell's last writer; the hand-off leaves it (R15). -/
theorem takeChange_writer (ch : Change) (s : State)
    (h : isNoOp (s.cell ch.cell) (clampChange ch.kind (s.cell ch.cell)).cell = false) :
    ((takeChange ch s).cell ch.cell).writer = some ch.origin := by
  have recordedWriter : (recorded ch (s.cell ch.cell)).writer = some ch.origin := by simp [recorded, h]
  rcases takeChange_cell ch ch.cell s with ⟨other, _⟩ | ⟨_, kept | jumped⟩
  · exact absurd rfl other
  · rw [kept, recordedWriter]
  · rw [jumped]; exact recordedWriter

/-- Step 4 in every station's place: STALE on the changed cell, unless the grip's own station is the origin (R16). -/
theorem takeChange_marks (ch : Change) (s : State) (n : StationId)
    (h : isNoOp (s.cell ch.cell) (clampChange ch.kind (s.cell ch.cell)).cell = false) :
    (takeChange ch s).grip n = (s.grip n).map (fun g =>
      if g.cell = ch.cell ∧ ch.origin ≠ .station g.station then { g with state := .stale } else g) := by
  rw [takeChange_grip, h]
  simp [isOriginating]

theorem takeChange_other_cell (ch : Change) (s : State) {d : CellId} (hd : d ≠ ch.cell) :
    (takeChange ch s).cell d = s.cell d := by
  rcases takeChange_cell ch d s with ⟨_, same⟩ | ⟨own, _⟩
  · exact same
  · exact absurd own hd

/-! ### The statements -/

/-- Settles O12, from the clamp of a LEVEL. -/
theorem levelIsClampedAtTheCap : Obligations.LevelIsClampedAtTheCap := by
  unfold Obligations.LevelIsClampedAtTheCap
  intro ch v s hk
  exact takeChange_clamped hk s

/-- Settles O13, from the three outcomes of the clamp of a NUDGE. The statement's hypothesis on the cap is not needed. -/
theorem nudgeIsHeldBetweenZeroAndTheCap : Obligations.NudgeIsHeldBetweenZeroAndTheCap := by
  unfold Obligations.NudgeIsHeldBetweenZeroAndTheCap
  intro ch d s hk _
  obtain ⟨level, muted, pan, cap, v, c⟩ := takeChange_clamped hk s
  obtain ⟨clampLevel, clampMuted, clampPan, clampCap, clampV, clampC⟩ := clampChange_nudge d (s.cell ch.cell)
  have keptMuted := muted.trans clampMuted
  have keptPan := pan.trans clampPan
  have keptCap := cap.trans clampCap
  exact ⟨(congrArg Int.ofNat level).trans clampLevel, keptMuted, keptPan, keptCap, v.trans clampV, c.trans clampC,
    fun keptLevel => takeChange_eq_self_of_fields keptLevel keptMuted keptPan keptCap⟩

/-- CAP v (R12), the first part of O14. -/
theorem takeChange_cap {ch : Change} {v : Nat} (hk : ch.kind = .cap v) (s : State) :
    let x := s.cell ch.cell
    let y := (takeChange ch s).cell ch.cell
    y.cap = v ∧ y.level = min x.level v ∧ y.muted = x.muted ∧ y.pan = x.pan ∧
      (changeFlags ch s).v = false ∧ (changeFlags ch s).c = false := by
  obtain ⟨level, muted, pan, cap, vFlag, cFlag⟩ := takeChange_clamped hk s
  exact ⟨cap, level, muted, pan, vFlag, cFlag⟩

/-- PAN p (R13), the second part of O14. -/
theorem takeChange_pan {ch : Change} {p : Int} (hk : ch.kind = .pan p) (s : State) :
    let x := s.cell ch.cell
    let y := (takeChange ch s).cell ch.cell
    y.pan = p ∧ y.level = x.level ∧ y.cap = x.cap ∧ y.muted = x.muted ∧
      (changeFlags ch s).v = false ∧ (changeFlags ch s).c = false ∧ (x.pan = p → takeChange ch s = s) := by
  obtain ⟨level, muted, pan, cap, vFlag, cFlag⟩ := takeChange_clamped hk s
  exact ⟨pan, level, cap, muted, vFlag, cFlag,
    fun already => takeChange_eq_self_of_fields level muted (pan.trans already.symm) cap⟩

/-- The clamp of MUTE and of UNMUTE writes the muted field alone (R13). -/
theorem clampChange_mute (on : Bool) (x : Cell) :
    clampChange (if on then .mute else .unmute) x =
      { cell := { x with muted := on }, heldAtCap := false, heldAtZero := false } := by
  cases on <;> rfl

/-- MUTE and UNMUTE (R13), the third part of O14. -/
theorem takeChange_mute {ch : Change} {on : Bool} (hk : ch.kind = if on then .mute else .unmute) (s : State) :
    let x := s.cell ch.cell
    let y := (takeChange ch s).cell ch.cell
    y.muted = on ∧ y.level = x.level ∧ y.cap = x.cap ∧ y.pan = x.pan ∧
      (changeFlags ch s).v = false ∧ (changeFlags ch s).c = false ∧ (x.muted = on → takeChange ch s = s) := by
  have clamped := takeChange_clamped hk s
  rw [clampChange_mute] at clamped
  obtain ⟨level, muted, pan, cap, vFlag, cFlag⟩ := clamped
  exact ⟨muted, level, cap, pan, vFlag, cFlag,
    fun already => takeChange_eq_self_of_fields level (muted.trans already.symm) pan cap⟩

/-- Settles O14, kind by kind. -/
theorem capPanAndMuteWriteTheirFields : Obligations.CapPanAndMuteWriteTheirFields := by
  unfold Obligations.CapPanAndMuteWriteTheirFields
  exact ⟨fun _ _ s hk => takeChange_cap hk s, fun _ _ s hk => takeChange_pan hk s, fun _ _ s hk => takeChange_mute hk s⟩

/-- Settles O15: the no-op test is the statement's own condition, and each of its clauses is one of the rules above. -/
theorem aChangeRecordsItsOriginAndMarksGrips : Obligations.AChangeRecordsItsOriginAndMarksGrips := by
  unfold Obligations.AChangeRecordsItsOriginAndMarksGrips
  intro ch s x y same
  have noOp_of_same : same → isNoOp x y = true := (isNoOp_iff x y).mpr
  have moves_of_not_same : ¬ same → isNoOp x y = false := fun h =>
    Bool.eq_false_iff.mpr (mt (isNoOp_iff x y).mp h)
  refine ⟨fun h => takeChange_noOp ch s (noOp_of_same h), fun h => ?record, fun h => ?handOver, fun d hd => ?others⟩
  case record =>
    have moves := moves_of_not_same h
    exact ⟨takeChange_writer ch s moves, fun n => takeChange_marks ch s n moves⟩
  case handOver => exact takeChange_of_not_noOp ch s (moves_of_not_same h)
  case others => exact takeChange_other_cell ch s hd

end Sys2Proof.Machine
end

-- Guards and the chain of spec/03 (R53, R54): what each sense tests, where one evaluation leads, and the statement on them.
section
namespace Sys2Proof.Machine

/-! ### What the four senses test (R53) -/

/-- A mask names set flags alone: ALL_SET and, denied, ANY_CLEAR. -/
theorem and_mask_eq_mask_iff (mask flags : Word16) :
    flags &&& mask = mask ↔ ∀ i, mask.getLsbD i = true → flags.getLsbD i = true := by
  constructor
  · intro same i named
    rw [← same, BitVec.getLsbD_and, Bool.and_eq_true] at named
    exact named.1
  · intro allSet
    apply BitVec.eq_of_getLsbD_eq
    intro i _
    rw [BitVec.getLsbD_and, Bool.and_eq_right_iff_imp]
    exact allSet i

/-- A mask names clear flags alone: ALL_CLEAR and, denied, ANY_SET. -/
theorem and_mask_eq_zero_iff (mask flags : Word16) :
    flags &&& mask = 0 ↔ ∀ i, mask.getLsbD i = true → flags.getLsbD i = false := by
  constructor
  · intro noneSet i named
    have bit : (flags &&& mask).getLsbD i = false := by rw [noneSet]; exact BitVec.getLsbD_zero
    rwa [BitVec.getLsbD_and, named, Bool.and_true] at bit
  · intro allClear
    apply BitVec.eq_of_getLsbD_eq
    intro i _
    rw [BitVec.getLsbD_and, Bool.and_comm, BitVec.ofNat_eq_ofNat, BitVec.getLsbD_zero, Bool.and_eq_false_imp]
    exact allClear i

@[simp] theorem guardPasses_none (flags : Word16) : guardPasses none flags = true := rfl

theorem guardPasses_allSet (mask flags : Word16) :
    guardPasses (some ⟨mask, .allSet⟩) flags = true ↔ ∀ i, mask.getLsbD i = true → flags.getLsbD i = true :=
  decide_eq_true_iff.trans (and_mask_eq_mask_iff mask flags)

theorem guardPasses_allClear (mask flags : Word16) :
    guardPasses (some ⟨mask, .allClear⟩) flags = true ↔ ∀ i, mask.getLsbD i = true → flags.getLsbD i = false :=
  decide_eq_true_iff.trans (and_mask_eq_zero_iff mask flags)

/-- ANY_SET passes exactly where ALL_CLEAR fails. -/
theorem guardPasses_anySet (mask flags : Word16) :
    guardPasses (some ⟨mask, .anySet⟩) flags = true ↔ ∃ i, mask.getLsbD i = true ∧ flags.getLsbD i = true :=
  calc guardPasses (some ⟨mask, .anySet⟩) flags = true
    _ ↔ ¬ flags &&& mask = 0 := decide_eq_true_iff
    _ ↔ ¬ ∀ i, mask.getLsbD i = true → flags.getLsbD i = false := not_congr (and_mask_eq_zero_iff mask flags)
    _ ↔ ∃ i, mask.getLsbD i = true ∧ flags.getLsbD i = true := by
      simp only [not_forall, exists_prop, Bool.not_eq_false]

/-- ANY_CLEAR passes exactly where ALL_SET fails. -/
theorem guardPasses_anyClear (mask flags : Word16) :
    guardPasses (some ⟨mask, .anyClear⟩) flags = true ↔ ∃ i, mask.getLsbD i = true ∧ flags.getLsbD i = false :=
  calc guardPasses (some ⟨mask, .anyClear⟩) flags = true
    _ ↔ ¬ flags &&& mask = mask := decide_eq_true_iff
    _ ↔ ¬ ∀ i, mask.getLsbD i = true → flags.getLsbD i = true := not_congr (and_mask_eq_mask_iff mask flags)
    _ ↔ ∃ i, mask.getLsbD i = true ∧ flags.getLsbD i = false := by
      simp only [not_forall, exists_prop, Bool.not_eq_true]

/-! ### Where one evaluation leads (R54) -/

/-- No evaluation left: the fire is refused. -/
@[simp] theorem chain_zero (c : CueId) (s : State) : chain 0 c s = .refuses := rfl

theorem chain_succ_empty (k : Nat) {c : CueId} {s : State} (empty : s.slot c = none) :
    chain (k + 1) c s = .refuses := by
  simp only [chain, empty]

theorem chain_succ_passes (k : Nat) {c : CueId} {r : CueRecord} {s : State} (loaded : s.slot c = some r)
    (passes : guardPasses r.guard s.cue.flags = true) : chain (k + 1) c s = .fires c r := by
  simp only [chain, loaded, passes, if_true]

theorem chain_succ_alternate (k : Nat) {c a : CueId} {r : CueRecord} {s : State} (loaded : s.slot c = some r)
    (fails : guardPasses r.guard s.cue.flags = false) (next : r.alternate = some a) :
    chain (k + 1) c s = chain k a s := by
  simp only [chain, loaded, fails, next, Bool.false_eq_true, if_false]

theorem chain_succ_skips (k : Nat) {c : CueId} {r : CueRecord} {s : State} (loaded : s.slot c = some r)
    (fails : guardPasses r.guard s.cue.flags = false) (last : r.alternate = none) :
    chain (k + 1) c s = .skips c := by
  simp only [chain, loaded, fails, last, Bool.false_eq_true, if_false]

/-! ### The statement -/

/-- Settles O25, from the five outcomes of an evaluation and the four senses of a guard. -/
theorem theChainMakesEightEvaluations : Obligations.TheChainMakesEightEvaluations := by
  unfold Obligations.TheChainMakesEightEvaluations
  refine ⟨⟨rfl, chain_zero, ?empty, ?passes, ?alternate, ?skips⟩, fun mask flags => ?senses⟩
  case empty => exact fun k _ _ => chain_succ_empty k
  case passes => exact fun k _ _ _ => chain_succ_passes k
  case alternate => exact fun k _ _ _ _ => chain_succ_alternate k
  case skips => exact fun k _ _ _ => chain_succ_skips k
  case senses =>
    exact ⟨guardPasses_none flags, guardPasses_allSet mask flags, guardPasses_allClear mask flags,
      guardPasses_anySet mask flags, guardPasses_anyClear mask flags⟩

end Sys2Proof.Machine
end

-- The laws of the block at reset and over every step, the front of the queue, start-up, and what INIT leaves alone.
section
namespace Sys2Proof.Machine

/-! ### Every step keeps the laws -/

/-- Settles O4: every operation that steps are made of keeps the matrix law (`MatrixLaw.kept`). -/
theorem everyStepKeepsTheMatrixLaw : Obligations.EveryStepKeepsTheMatrixLaw := by
  unfold Obligations.EveryStepKeepsTheMatrixLaw
  exact MatrixLaw.kept.step

/-- Settles O5: every operation that steps are made of keeps the running cue's law (`CueLaw.kept`). -/
theorem everyStepKeepsTheCueLaw : Obligations.EveryStepKeepsTheCueLaw := by
  unfold Obligations.EveryStepKeepsTheCueLaw
  exact CueLaw.kept.step

/-- Settles O6: every operation that steps are made of keeps the grips' law (`GripLaw.kept`). -/
theorem everyStepKeepsTheGripLaw : Obligations.EveryStepKeepsTheGripLaw := by
  unfold Obligations.EveryStepKeepsTheGripLaw
  exact GripLaw.kept.step

/-- Settles O7: every operation that steps are made of keeps the service order's law (`OrderLaw.kept`). -/
theorem everyStepKeepsTheOrderLaw : Obligations.EveryStepKeepsTheOrderLaw := by
  unfold Obligations.EveryStepKeepsTheOrderLaw
  exact OrderLaw.kept.step

/-- Settles O8: every operation that steps are made of keeps the pool's law (`PoolLaw.kept`). -/
theorem everyStepKeepsThePoolLaw : Obligations.EveryStepKeepsThePoolLaw := by
  unfold Obligations.EveryStepKeepsThePoolLaw
  exact PoolLaw.kept.step

/-- Settles O9: every operation that steps are made of keeps the station records' law, and the law of ports and outputs. -/
theorem everyStepKeepsTheStationLaw : Obligations.EveryStepKeepsTheStationLaw := by
  unfold Obligations.EveryStepKeepsTheStationLaw
  exact ⟨StationLaw.kept.step, PortOutputLaw.kept.step⟩

/-! ### The tables after reset, and the laws there -/

@[simp] theorem reset_cell (c : CellId) : State.reset.cell c = Cell.startUp := by simp [State.reset, State.cell]

@[simp] theorem reset_slot (n : CueId) : State.reset.slot n = none := by
  simp [State.reset, State.slot, CueEngine.startUp]

@[simp] theorem reset_station (n : StationId) : State.reset.station n = Station.startUp := by
  simp [State.reset, State.station]

@[simp] theorem reset_grip (n : StationId) : State.reset.grip n = none := by simp [State.reset, State.grip]

@[simp] theorem reset_outputRecord (m : Fin 16) : State.reset.outputRecord m =
    { mode := .normal, target := m, ceiling := 200, hits := 0, fadeIn := 32 } := by
  simp [State.reset, State.outputRecord, Outputs.startUp]

theorem mapAt_startUp (i : LocalIndex) : mapAt Station.startUp.map i = none := by simp [mapAt, Station.startUp]

theorem PoolLaw.reset : PoolLaw State.reset where
  slots n r h := by simp at h
  used := by
    show 0 = editTotal (Vector.replicate 96 none)
    decide
  room := Nat.zero_le _

theorem CueLaw.reset : CueLaw State.reset where
  once := List.nodup_nil
  present := by simp [State.reset, CueEngine.startUp]
  counted r h := by simp [State.reset, CueEngine.startUp] at h
  untagged _ e he := by simp [State.reset] at he
  timer _ := rfl

theorem GripLaw.reset : GripLaw State.reset where
  own n g h := by simp at h
  attached n g h := by simp at h
  entry n g h := by simp at h

theorem OrderLaw.reset : OrderLaw State.reset := ⟨show LinkRecord.startOrder.Nodup by decide, rfl⟩

theorem Station.startUp_lawful : Station.startUp.lawful where
  priority := by decide
  checks := by decide
  misses := by decide
  idle := by decide
  absent _ := rfl
  map i j e f hi := by simp [mapAt_startUp] at hi

theorem StationLaw.reset : StationLaw State.reset :=
  StationLaw.of (fun n => by rw [reset_station]; exact Station.startUp_lawful) (Nat.zero_le 7)

/-- Settles O3, law by law. -/
theorem theLawsHoldAtReset : Obligations.TheLawsHoldAtReset := by
  unfold Obligations.TheLawsHoldAtReset
  exact ⟨MatrixLaw.reset, PoolLaw.reset, CueLaw.reset, GripLaw.reset, OrderLaw.reset, StationLaw.reset,
    PortOutputLaw.reset rfl rfl⟩

theorem startUp_patch (x : Fin 48) : (tableGet Sources.startUp.patch x).map (·.val) = some x.val := by
  simp [Sources.startUp]

/-- Settles O2: the tables entry by entry, every other field by its value in `State.reset`. -/
theorem resetHoldsTheStartUpValues : Obligations.ResetHoldsTheStartUpValues := by
  unfold Obligations.ResetHoldsTheStartUpValues
  have cells (c : CellId) : (State.reset.cell c).cleared := by
    rw [reset_cell]; exact ⟨rfl, rfl, rfl, rfl, rfl, rfl⟩
  have stations (n : StationId) : (State.reset.station n).state = .absent ∧ (State.reset.station n).admitted = true ∧
      (State.reset.station n).priority = 1 ∧ (∀ i, mapAt (State.reset.station n).map i = none) ∧
      (State.reset.station n).checkCount = 0 ∧ (State.reset.station n).missRun = 0 ∧ (State.reset.station n).idle = 0 := by
    rw [reset_station]; exact ⟨rfl, rfl, rfl, mapAt_startUp, rfl, rfl, rfl⟩
  refine ⟨rfl, cells, rfl, reset_slot, rfl, rfl, rfl, rfl, rfl, rfl, rfl, stations, rfl, reset_grip, rfl,
    rfl, rfl, rfl, rfl, rfl, rfl, rfl, rfl, startOrder_eq, rfl, ?_⟩
  exact ⟨rfl, rfl, rfl, rfl, rfl, rfl, rfl, rfl, rfl, rfl, rfl, rfl, rfl, startUp_patch, rfl, reset_outputRecord,
    rfl, rfl, rfl⟩

/-! ### The front of the queue (log 2) -/

theorem step_of_pending {c : Instr} {rest : List Instr} {s : State} (h : s.pending = c :: rest) :
    step s = exec c (s.setPending rest) := by
  simp only [step, h]

theorem step_of_idle {s : State} (h : s.pending = []) : step s = .next s := by
  simp only [step, h]

/-- Settles O1: the two cases of the queue. -/
theorem stepTakesTheFrontCommand : Obligations.StepTakesTheFrontCommand := by
  unfold Obligations.StepTakesTheFrontCommand
  exact ⟨fun _ _ _ => step_of_pending, fun _ => step_of_idle⟩

/-! ### Entering INIT, and the start-up clear's completion (R195, R196) -/

theorem cutFrame_eq (f : FrameState) : cutFrame f = if f = .noFrame then .noFrame else .cut := by
  cases f <;> rfl

theorem completeStartUp_released {s : State} (init : s.run = .init) (released : s.resetPin = false) :
    completeStartUp s = (s.setRun .run).setEvl { s.evl with marks := s.evl.marks ||| 1#16 } := by
  rw [completeStartUp, if_pos ⟨init, released⟩, State.report_in_run _ _ rfl]
  rfl

theorem completeStartUp_held {s : State} (held : s.resetPin = true) : completeStartUp s = s := by
  rw [completeStartUp, if_neg (fun both => by simp [held] at both)]

/-- Settles O10. -/
theorem startUpEntersInitAndCompletesIntoRun : Obligations.StartUpEntersInitAndCompletesIntoRun := by
  unfold Obligations.StartUpEntersInitAndCompletesIntoRun
  refine ⟨fun s => ?clear, fun s => rfl, fun s init released => ?completes, fun s _ held => ?waits⟩
  case clear =>
    simp only [← cutFrame_eq]
    exact ⟨rfl, rfl⟩
  case completes => exact congrArg _ (completeStartUp_released init released)
  case waits => exact congrArg _ (completeStartUp_held held)

/-! ### INIT leaves the show alone (R195) -/

theorem SameShow.refl (s : State) : SameShow s s := ⟨rfl, rfl, rfl, rfl, rfl, rfl, rfl, rfl⟩

theorem SameShow.trans {s t u : State} (h : SameShow s t) (k : SameShow t u) : SameShow s u :=
  ⟨k.cells.trans h.cells, k.glides.trans h.glides, k.cue.trans h.cue, k.stations.trans h.stations,
    k.lockout.trans h.lockout, k.grips.trans h.grips, k.order.trans h.order, k.length.trans h.length⟩

/-- What a command may do in INIT: the show as it was, and INIT still. -/
structure InitKept (s t : State) : Prop where
  init : t.run = .init
  shows : SameShow s t

theorem InitKept.refl {s : State} (h : s.run = .init) : InitKept s s := ⟨h, SameShow.refl s⟩

theorem InitKept.trans {s t u : State} (h : InitKept s t) (k : InitKept t u) : InitKept s u :=
  ⟨k.init, h.shows.trans k.shows⟩

theorem InitKept.setEli {s : State} (h : s.run = .init) (e : EngineerLink) (length : e.glideLength = s.eli.glideLength) :
    InitKept s (s.setEli e) := ⟨h, rfl, rfl, rfl, rfl, rfl, rfl, rfl, length⟩

theorem not_run_of_init {s : State} (h : s.run = .init) : s.run ≠ .run := by simp [h]

theorem inRun_init (f : State → State) {s : State} (h : s.run = .init) : inRun f s = s := if_neg (not_run_of_init h)

/-- In INIT a COMMAND position sends a reply byte, takes STATUS or does nothing (R187). -/
theorem streamByte_init (b : Byte) {s : State} (h : s.run = .init) : InitKept s (streamByte b s) := by
  unfold streamByte
  split
  · exact ⟨h, rfl, rfl, rfl, rfl, rfl, rfl, rfl, rfl⟩
  · simp only [State.setEli_run, h, reduceCtorEq, if_false]
    split
    · exact ⟨h, rfl, rfl, rfl, rfl, rfl, rfl, rfl, rfl⟩
    · exact InitKept.setEli h _ rfl

theorem streamBytes_init (bs : List Byte) {s : State} (h : s.run = .init) :
    InitKept s (bs.foldl (fun s b => streamByte b s) s) := by
  induction bs generalizing s with
  | nil => exact InitKept.refl h
  | cons b bs ih =>
    have first := streamByte_init b h
    exact first.trans (ih first.init)

theorem sendBytes_init (bs : List Byte) {s : State} (h : s.run = .init) : InitKept s (sendBytes bs s) := by
  unfold sendBytes
  split
  · exact InitKept.refl h
  · have sent := streamBytes_init bs h
    exact sent.trans (InitKept.setEli sent.init _ rfl)

theorem byteOfKind_init (k : ByteKind) (act : State → State) {s : State} (h : s.run = .init)
    (ha : InitKept s (act s)) : InitKept s (byteOfKind k act s) := by
  unfold byteOfKind
  split
  · exact InitKept.setEli h _ rfl
  · exact InitKept.setEli h _ rfl
  · split
    · exact InitKept.refl h
    · exact ha.trans (InitKept.setEli ha.init _ rfl)

theorem writeCell_init (b : Byte) {s : State} (h : s.run = .init) : InitKept s (writeCell b s) := by
  unfold writeCell
  simp only [State.setEli_run, h, reduceCtorEq, if_false]
  exact InitKept.setEli h _ rfl

theorem readCell_init {s : State} (h : s.run = .init) : InitKept s (readCell s) := by
  unfold readCell
  rw [if_neg (not_run_of_init h)]
  exact InitKept.setEli h _ rfl

theorem headerByte_init (b : Byte) {s : State} (h : s.run = .init) : InitKept s (headerByte b s) := by
  unfold headerByte
  split
  · unfold takeHeader
    simp only
    split <;> exact InitKept.setEli h _ rfl
  · exact InitKept.setEli h _ rfl
  · exact InitKept.setEli h _ rfl
  · exact InitKept.refl h

theorem dropIncomplete_init {s : State} (h : s.run = .init) : InitKept s (dropIncomplete s) := by
  unfold dropIncomplete
  split
  · exact InitKept.refl h
  · exact InitKept.setEli h _ rfl
  · exact InitKept.setEli h _ rfl

theorem endFrame_init {s : State} (h : s.run = .init) : InitKept s (endFrame s) := by
  unfold endFrame
  split
  · exact InitKept.refl h
  · exact InitKept.setEli h _ rfl
  · have dropped := dropIncomplete_init h
    simp only [inRun_init _ dropped.init]
    exact dropped.trans (InitKept.setEli dropped.init _ rfl)

theorem replyPosition_init (b : Byte) {s : State} (h : s.run = .init) : InitKept s (replyPosition b s) := by
  unfold replyPosition
  split
  · exact InitKept.refl h
  · exact byteOfKind_init _ _ h (streamByte_init b h)

theorem startFrame_init {s : State} (h : s.run = .init) : InitKept s (startFrame s) := by
  unfold startFrame
  split
  · exact InitKept.setEli h _ rfl
  · exact InitKept.refl h

/-- In INIT every character is discarded (R77), and every word (R163). -/
theorem showCharacter_init (b : Byte) {s : State} (h : s.run = .init) : showCharacter b s = s :=
  if_neg (not_run_of_init h)

theorem showFourth_init (b : Byte) {s : State} (h : s.run = .init) : showFourth b s = s := by
  rw [showFourth, showCharacter_init b h, ite_self]

theorem showMessageOf_init (k : Byte) (w : Word16) {s : State} (h : s.run = .init) : showMessageOf k w s = s := by
  simp only [showMessageOf, messageChars, List.foldl, showCharacter_init _ h]

theorem receiveWord_init (slot : Option StationId) (w : BandWord) {s : State} (h : s.run = .init) :
    receiveWord slot w s = s :=
  if_neg (fun both => not_run_of_init h both.1)

theorem receiveMaskRequest_init (n : StationId) (k : MaskKind) (mask : Word24) {s : State} (h : s.run = .init) :
    receiveMaskRequest n k mask s = s := by
  simp only [receiveMaskRequest, receiveWord_init _ _ h, ite_self]

theorem completeStartUp_show (s : State) : SameShow s (completeStartUp s) := by
  unfold completeStartUp
  split
  · exact ⟨by simp, by simp, by simp, by simp, by simp, by simp, by simp, by simp⟩
  · exact SameShow.refl s

theorem blockStart_init {s : State} (h : s.run = .init) : blockStart s =
    s.setOut { s.out with delivered := Vector.replicate 16 StereoBlock.silence, tone := nextTone s.out.tone } :=
  if_neg (not_run_of_init h)

/-- Every operation that comes about in RUN alone leaves INIT's state as it is. -/
theorem run_guard_init {s : State} (h : s.run = .init) {p : Prop} [Decidable (s.run = .run ∧ p)] (t : State) :
    (if s.run = .run ∧ p then t else s) = s :=
  if_neg (fun both => not_run_of_init h both.1)

/-- In INIT every command but the start-up clear's two answers a next state that shows what it showed (R195). -/
theorem exec_init_show (c : Instr) {s : State} (h : s.run = .init) (powerOn : c ≠ .powerOn)
    (resetPin : c ≠ .resetPinActive) : ∃ t, exec c s = .next t ∧ SameShow s t := by
  have same := SameShow.refl s
  cases c with
  | powerOn => exact absurd rfl powerOn
  | resetPinActive => exact absurd rfl resetPin
  | resetPinRelease => exact ⟨_, rfl, rfl, rfl, rfl, rfl, rfl, rfl, rfl, rfl⟩
  | startupDone => exact ⟨_, rfl, completeStartUp_show s⟩
  | blockStart => exact ⟨_, congrArg Host.Outcome.next (blockStart_init h), rfl, rfl, rfl, rfl, rfl, rfl, rfl, rfl⟩
  | blockEnd => exact ⟨s, congrArg _ (if_neg (not_run_of_init h)), same⟩
  | glideEntryComplete | cueDone | followWaitExpiry => exact ⟨s, congrArg _ (inRun_init _ h), same⟩
  | portLock | portLoseLock | breakCountExpiry | windowOpen | windowClose | requestWindowExpiry | dataInWord | replySent
  | echoWindowExpiry | breakReceived | breakRelease | showGap | openingGapEnd =>
    exact ⟨s, congrArg _ (run_guard_init h _), same⟩
  | selectFrameStart => exact ⟨_, rfl, (startFrame_init h).shows⟩
  | header b => exact ⟨_, rfl, (headerByte_init b h).shows⟩
  | frameEnd => exact ⟨_, rfl, (endFrame_init h).shows⟩
  | writeCells b => exact ⟨_, rfl, (byteOfKind_init _ _ h (writeCell_init b h)).shows⟩
  | readCells => exact ⟨_, rfl, (byteOfKind_init _ _ h (readCell_init h)).shows⟩
  | replyByte b => exact ⟨_, rfl, (replyPosition_init b h).shows⟩
  | unknownCode b => exact ⟨_, rfl, (byteOfKind_init _ _ h (streamByte_init b h)).shows⟩
  | otherPageCode | nop | position | walk | field | page | status | events | enables | hush | softReset | lockout
  | stationProfile | stationRead | mapLoad | mapRead | cueLoad | cueDelete | cueRead | cuePointer | stop | hold
  | linkReset | sourceMode | patch | outputMode | ceilingCommand | hitsRead | glideLength | mixCopy | mixClear =>
    exact ⟨_, rfl, (sendBytes_init _ h).shows⟩
  | go link | flagsSet link | flagsClear link =>
    cases link
    · exact ⟨_, rfl, (sendBytes_init _ h).shows⟩
    · exact ⟨s, congrArg _ (showMessageOf_init _ _ h), same⟩
  | goto operand =>
    cases operand
    · exact ⟨_, rfl, (sendBytes_init _ h).shows⟩
    · exact ⟨s, congrArg _ (showMessageOf_init _ _ h), same⟩
  | holdOn | holdOff => exact ⟨s, congrArg _ (showMessageOf_init _ _ h), same⟩
  | attn | request1 | damagedRequest | phaseError | hello | ping | openGrip | nextGrip | setLevel | nudgeLevel | panCell
  | closeGrip | recallMap | badKindRequest | stopWord | echo | strayWord | bandCheck | badCheckEcho =>
    exact ⟨s, congrArg _ (receiveWord_init _ _ h), same⟩
  | muteSet | muteClear => exact ⟨s, congrArg _ (receiveMaskRequest_init _ _ _ h), same⟩
  | showCharacter b => exact ⟨s, congrArg _ (showCharacter_init b h), same⟩
  | showMessage b => exact ⟨s, congrArg _ (showFourth_init b h), same⟩
  | showFramingError => exact ⟨s, congrArg _ (if_neg (not_run_of_init h)), same⟩

/-- Settles O11, command by command. -/
theorem initHoldsTheShow : Obligations.InitHoldsTheShow := by
  unfold Obligations.InitHoldsTheShow
  intro c s init powerOn resetPin
  obtain ⟨t, answers, kept⟩ := exec_init_show c init powerOn resetPin
  exact ⟨t, answers, kept.cells, kept.glides, kept.cue, kept.stations, kept.lockout, kept.grips⟩

end Sys2Proof.Machine
end

-- The Engineer Link's own settings and the commands that write one value (spec/09): what a command that is taken, and one
-- that is refused, leaves, and the statements on such commands.
section
namespace Sys2Proof.Machine

/-! ### A command with a fixed number of operand bytes, taken or refused -/

/-- A code of a page that is no load and has a fixed number of operand bytes (R184). -/
structure FixedOn (p : Page) (c : ConsoleCode) (n : Nat) : Prop where
  page : codeOnPage c p = true
  load : isLoad c = false
  shape : codeShape c = .fixed n

/-- The state in which a command reaches its meaning: its bytes have come in at positions that carry no reply byte. -/
def delivered (s : State) : State := s.setEli { s.eli with dataOut := 0 }

/-- The frame moved on after a command's last byte (R182). -/
def framed (s t : State) : State := t.setEli { t.eli with frame := frameRest s.eli.frame }

theorem framed_delivered (s : State) : framed s (delivered s) = s.setEli (eliAfter s) := rfl

theorem framed_refuse (s : State) : framed s (refuseConsole (delivered s)) = refusedAfter s := rfl

/-- A command that is taken leaves what its meaning leaves, the frame moved on. -/
theorem CommandReady.takes {p : Page} {s t u : State} (h : CommandReady p s) {c : ConsoleCode} {ops : List Byte}
    (k : FixedOn p c ops.length) (meaning : takeCode c ops (delivered s) = t) (result : framed s t = u := by rfl) :
    (.next (sendCommand c ops s) : Host.Outcome State Fault Refusal) = .next u := by
  subst meaning result
  exact congrArg _ (sendCommand_fixed h c k.page k.load ops.length k.shape ops rfl)

/-- A command whose operands are refused leaves the refused indicator (R186). -/
theorem CommandReady.refuses {p : Page} {s : State} (h : CommandReady p s) {c : ConsoleCode} {ops : List Byte}
    (k : FixedOn p c ops.length) (meaning : takeCode c ops (delivered s) = refuseConsole (delivered s)) :
    (.next (sendCommand c ops s) : Host.Outcome State Fault Refusal) = .next (refusedAfter s) := h.takes k meaning

/-- A byte of a kind that can come next is acted on, and the frame moves on (R182). -/
theorem byteOfKind_due {k : ByteKind} (known : k ≠ .ignored) (act : State → State) {s : State}
    (due : s.eli.frame = .headerDue ∨ s.eli.frame = .one k ∨ s.eli.frame = .run k) :
    byteOfKind k act s = framed s (act s) := by
  cases k with
  | ignored => exact absurd rfl known
  | command | writeCells | readCells =>
    rcases due with f | f | f
    · simp only [byteOfKind, framed, f]; rfl
    · simp only [byteOfKind, framed, f]; rfl
    · simp only [byteOfKind, framed, f]; rfl

theorem byteOfKind_command (act : State → State) {s : State} (h : commandFrame s.eli.frame) :
    byteOfKind .command act s = framed s (act s) := byteOfKind_due (by decide) act h

/-! ### Operand bytes out of range -/

/-- A byte above a bound is none of the codes up to it. -/
theorem byte_ne_of_lt {v : Byte} {m : Nat} (above : m < v.toNat) (k : Byte) (hk : k.toNat ≤ m) : v ≠ k := by
  rintro rfl
  omega

theorem inRange_above {m : Nat} {v : Byte} (above : m < v.toNat) : inRange (m + 1) v = none := inRange_none above

theorem fieldOf_none {v : Byte} (above : 4 < v.toNat) : fieldOf v = none := by
  have other := byte_ne_of_lt above
  simp only [fieldOf, other 0 (by decide), other 1 (by decide), other 2 (by decide), other 3 (by decide),
    other 4 (by decide), if_false]

theorem selectionModeOf_none {v : Byte} (above : 2 < v.toNat) : selectionModeOf v = none := by
  have other := byte_ne_of_lt above
  simp only [selectionModeOf, other 0 (by decide), other 1 (by decide), other 2 (by decide), if_false]

theorem outputModeOf_none {v : Byte} (above : 3 < v.toNat) : outputModeOf v = none := by
  have other := byte_ne_of_lt above
  simp only [outputModeOf, other 0 (by decide), other 1 (by decide), other 2 (by decide), other 3 (by decide), if_false]

theorem walkModeOf_none {v : Byte} (ne0 : v ≠ 0) (ne1 : v ≠ 1) : walkModeOf v = none := by
  simp only [walkModeOf, ne0, ne1, if_false]

theorem pageOf_none {v : Byte} (ne0 : v ≠ 0) (ne1 : v ≠ 1) : pageOf v = none := by
  simp only [pageOf, ne0, ne1, if_false]

theorem yesNo_none {v : Byte} (ne0 : v ≠ 0) (ne1 : v ≠ 1) : yesNo v = none := by
  simp only [yesNo, ne0, ne1, if_false]

theorem levelOf_some {v : Byte} (low : v.toNat ≤ 220) : levelOf v = some v.toNat := if_pos low

theorem levelOf_none {v : Byte} (above : 220 < v.toNat) : levelOf v = none := if_neg (by omega)

theorem takePosition_inRange (c : CellId) (s : State) :
    takePosition (byteOfNat c.mix.val) (byteOfNat c.source.val) s = s.setEli { s.eli with pointer := c } := by
  simp only [takePosition, inRange_byteOfNat c.mix (by decide), inRange_byteOfNat c.source (by decide)]

theorem takePosition_refused {m src : Byte} (above : 15 < m.toNat ∨ 47 < src.toNat) (s : State) :
    takePosition m src s = refuseConsole s := by
  unfold takePosition
  split
  · next hm hsrc =>
    have := inRange_lt hm
    have := inRange_lt hsrc
    omega
  · rfl

theorem takeCeiling_inRange (m : Fin 16) {code : Byte} (low : code.toNat ≤ 220) (s : State) :
    takeCeiling (byteOfNat m.val) code s = setCeiling m code.toNat s := by
  simp only [takeCeiling, inRange_byteOfNat m (by decide), levelOf_some low]

theorem takeCeiling_refused {m code : Byte} (above : 15 < m.toNat ∨ 220 < code.toNat) (s : State) :
    takeCeiling m code s = refuseConsole s := by
  unfold takeCeiling
  split
  · next hm hcode =>
    have := inRange_lt hm
    rcases above with high | high
    · omega
    · simp [levelOf_none high] at hcode
  · rfl

/-! ### The BASIC settings (R184, R188) and HUSH (R179) -/

/-- PAGE is taken on either page (R184). -/
theorem pageFixed (p : Page) : FixedOn p .page 1 := ⟨rfl, rfl, rfl⟩

/-- Settles O38. -/
theorem basicSettingsAreTakenOrRefused : Obligations.BasicSettingsAreTakenOrRefused := by
  unfold Obligations.BasicSettingsAreTakenOrRefused
  refine ⟨fun s ready => ?basic, fun p s ready => ?page⟩
  case basic =>
    have nop : FixedOn .basic .nop 0 := ⟨rfl, rfl, rfl⟩
    have position : FixedOn .basic .position 2 := ⟨rfl, rfl, rfl⟩
    have walk : FixedOn .basic .walk 1 := ⟨rfl, rfl, rfl⟩
    have field : FixedOn .basic .field 1 := ⟨rfl, rfl, rfl⟩
    refine ⟨ready.takes nop rfl, fun c => ready.takes position (takePosition_inRange c _),
      fun m src above => ready.refuses position (takePosition_refused above _),
      ready.takes walk rfl, ready.takes walk rfl,
      fun v ne0 ne1 => ready.refuses walk ?noWalk,
      ready.takes field rfl, ready.takes field rfl, ready.takes field rfl,
      ready.takes field rfl, ready.takes field rfl,
      fun v above => ready.refuses field ?noField⟩
    case noWalk => simp only [takeCode, takeWalk, walkModeOf_none ne0 ne1]
    case noField => simp only [takeCode, takeField, fieldOf_none above]
  case page =>
    refine ⟨ready.takes (pageFixed p) rfl, ready.takes (pageFixed p) rfl,
      fun v ne0 ne1 => ready.refuses (pageFixed p) ?_⟩
    simp only [takeCode, takePage, pageOf_none ne0 ne1]

/-- HUSH on, with hush on already, changes nothing (R179). -/
theorem setHush_again {s : State} (hushed : s.out.hush = true) : setHush true s = s := by
  have same : ({ s.out with hush := true } : Outputs) = s.out := by rw [← hushed]
  simp only [setHush, hushed, Bool.not_true, Bool.and_false, Bool.false_eq_true, if_false, same]
  rfl

theorem setHush_on {s : State} (open_ : s.out.hush = false) : setHush true s =
    s.setOut { s.out with hush := true, records := s.out.records.map (fun r => { r with fadeIn := 0 }) } := by
  simp only [setHush, open_, Bool.not_false, Bool.and_self, if_true]

/-- Settles O40. -/
theorem hushSilencesAndFadesIn : Obligations.HushSilencesAndFadesIn := by
  unfold Obligations.HushSilencesAndFadesIn
  intro s ready
  have hush : FixedOn .basic .hush 1 := ⟨rfl, rfl, rfl⟩
  refine ⟨fun off => ?on, fun on => ready.takes hush (setHush_again (s := delivered s) on),
    ready.takes hush rfl, fun v ne0 ne1 => ready.refuses hush ?neither⟩
  case on =>
    refine ⟨_, ready.takes hush (setHush_on (s := delivered s) off), rfl, fun m => ?_, rfl⟩
    exact tableGet_map _ _ m
  case neither => simp only [takeCode, takeHush, yesNo_none ne0 ne1]

/-! ### The EXTENDED settings (R41, R96, R169, R177) -/

/-- Settles O42. -/
theorem extendedSettingsAreTakenOrRefused : Obligations.ExtendedSettingsAreTakenOrRefused := by
  unfold Obligations.ExtendedSettingsAreTakenOrRefused
  intro s ready u
  have lockout : FixedOn .extended .lockout 1 := ⟨rfl, rfl, rfl⟩
  have source : FixedOn .extended .sourceMode 1 := ⟨rfl, rfl, rfl⟩
  have ceiling : FixedOn .extended .ceiling 2 := ⟨rfl, rfl, rfl⟩
  have length : FixedOn .extended .glideLength 1 := ⟨rfl, rfl, rfl⟩
  refine ⟨fun v low => ready.takes lockout (if_pos low),
    fun v above => ready.refuses lockout (if_neg (by omega)),
    ready.takes source rfl, ready.takes source rfl, ready.takes source rfl,
    fun v above => ready.refuses source ?noMode, fun m c low => ready.takes ceiling (takeCeiling_inRange m low _),
    fun m c above => ready.refuses ceiling (takeCeiling_refused above _),
    fun v => ready.takes length rfl⟩
  case noMode => simp only [takeCode, takeSourceMode, selectionModeOf_none above]

/-! ### Codes that are not taken, and reply bytes (R184, R185) -/

theorem streamByte_delivered (b : Byte) {p : Page} {s : State} (ready : CommandReady p s) :
    streamByte b s = collectByte b (delivered s) := streamByte_run b s ready.run ready.reply

theorem collectByte_unknown {b : Byte} {s : State} (idle : s.eli.arrival = .none) (unknown : codeOf b = none) :
    collectByte b s = refuseConsole s := by
  have same : ({ s.eli with arrival := .none } : EngineerLink) = s.eli := by rw [← idle]
  simp only [collectByte, heldBytes, idle, List.nil_append, List.headD_cons, unknown, same]
  rfl

/-- Settles O37. -/
theorem unknownAndOtherPageCodesAreRefused : Obligations.UnknownAndOtherPageCodesAreRefused := by
  unfold Obligations.UnknownAndOtherPageCodesAreRefused
  refine ⟨fun b p s ready unknown => congrArg Host.Outcome.next ?unknown,
    fun c ops p s ready other complete minimal => congrArg Host.Outcome.next ?other⟩
  case unknown =>
    rw [byteOfKind_command _ ready.frame, streamByte_delivered b ready,
      collectByte_unknown (s := delivered s) ready.arrival unknown]
    rfl
  case other => exact sendCommand_otherPage ready c ops other ⟨complete, minimal⟩

/-- Settles O36. -/
theorem replyBytesGoOut : Obligations.ReplyBytesGoOut := by
  unfold Obligations.ReplyBytesGoOut
  intro b r rest s frame due
  have waiting : s.eli.reply ≠ [] := by simp [due]
  refine congrArg Host.Outcome.next ?_
  rw [replyPosition, if_neg waiting, byteOfKind_command _ frame]
  simp only [streamByte, due]
  rfl

end Sys2Proof.Machine
end

-- Frames, staged loads, cell bytes and replies of the Engineer Link (spec/09), and the commands with a record behind them.
section
namespace Sys2Proof.Machine

/-! ### Frames (R182, R187) -/

theorem applyStaged_empty {s : State} (empty : s.eli.staging = none) : applyStaged s = s := by
  simp only [applyStaged, empty]

/-- With no load staged the frame end passes nothing on, in INIT or in RUN. -/
theorem inRun_applyStaged_empty {s : State} (empty : s.eli.staging = none) : inRun applyStaged s = s := by
  rw [inRun, applyStaged_empty empty, ite_self]

theorem endFrame_open {s : State} (opened : s.eli.frame ≠ .noFrame) (uncut : s.eli.frame ≠ .cut) :
    endFrame s =
      (let t := inRun applyStaged (dropIncomplete s)
       t.setEli { t.eli with frame := .noFrame, arrival := .none, reply := [] }) := by
  unfold endFrame
  split
  · contradiction
  · contradiction
  · rfl

theorem dropIncomplete_none {s : State} (none : s.eli.arrival = .none) : dropIncomplete s = s := by
  simp only [dropIncomplete, none]

theorem dropIncomplete_bytes {s : State} {held : List Byte} (bytes : s.eli.arrival = .bytes held) :
    dropIncomplete s = refuseConsole (s.setEli { s.eli with arrival := .none }) := by
  simp only [dropIncomplete, bytes]

theorem dropIncomplete_staged {s : State} (staged : s.eli.arrival = .staged) :
    dropIncomplete s = refuseConsole (s.setEli { s.eli with arrival := .none, staging := none }) := by
  simp only [dropIncomplete, staged]

theorem endFrame_cut {s : State} (cut : s.eli.frame = .cut) : endFrame s = s.setEli { s.eli with frame := .noFrame } := by
  simp only [endFrame, cut]

theorem headerByte_due (b : Byte) {s : State} (due : s.eli.frame = .headerDue) : headerByte b s = takeHeader b s := by
  simp only [headerByte, due]

theorem takeHeader_known {b : Byte} (known : headerKind b ≠ .ignored) (s : State) : takeHeader b s =
    s.setEli { s.eli with frame := if b.getLsbD 7 then .one (headerKind b) else .run (headerKind b), dataOut := 0 } := by
  simp only [takeHeader, known, if_false]

theorem takeHeader_ignored {b : Byte} (ignored : headerKind b = .ignored) (s : State) : takeHeader b s =
    s.setEli { s.eli with frame := if b.getLsbD 7 then .one .ignored else .run .ignored, dataOut := 0, refused := true } := by
  simp only [takeHeader, ignored, if_true]
  rfl

/-- Settles O30. -/
theorem framesBeginWithHeadersAndDropTheIncomplete : Obligations.FramesBeginWithHeadersAndDropTheIncomplete := by
  unfold Obligations.FramesBeginWithHeadersAndDropTheIncomplete
  refine ⟨⟨fun s closed => congrArg Host.Outcome.next (if_pos closed),
      fun b s due known => congrArg Host.Outcome.next ((headerByte_due b due).trans (takeHeader_known known s)),
      fun b s due ignored => congrArg Host.Outcome.next ((headerByte_due b due).trans (takeHeader_ignored ignored s)),
      by decide, by decide, by decide, by decide⟩,
    fun s opened uncut none empty => congrArg Host.Outcome.next ?nothing,
    fun held s opened uncut bytes empty => congrArg Host.Outcome.next ?bytes,
    fun s opened uncut staged => congrArg Host.Outcome.next ?staged,
    fun s cut => congrArg Host.Outcome.next (endFrame_cut cut)⟩
  case nothing =>
    rw [endFrame_open opened uncut, dropIncomplete_none none, inRun_applyStaged_empty empty, ← none]
  case bytes =>
    rw [endFrame_open opened uncut, dropIncomplete_bytes bytes, inRun_applyStaged_empty (by exact empty)]
    rfl
  case staged =>
    rw [endFrame_open opened uncut, dropIncomplete_staged staged, inRun_applyStaged_empty rfl]
    rfl

/-! ### The staging buffer (R190) -/

theorem endsWith_cueLoad {body : List Byte} (whole : (parseCueLoad body).isSome = true)
    (minimal : ∀ pre rest, body = pre ++ rest → rest ≠ [] → parseCueLoad pre = none) : endsWith .cueLoad body :=
  ⟨whole, fun pre rest split more => by
    show (parseCueLoad pre).isSome = false
    rw [minimal pre rest split more]
    rfl⟩

/-- A load beside a staged one is refused, and the staged one stays. -/
theorem sendCommand_beside {s : State} {first : List Byte} (ready : CommandReady .extended s) {c : ConsoleCode}
    (load : isLoad c = true) (full : s.eli.staging = some first) {ops : List Byte} (ends : endsWith c ops) :
    sendCommand c ops s = s.setEli { eliAfter s with staging := some first, refused := true } := by
  rw [sendCommand_second ready c ops load (by rw [full]; rfl) ends, ← full]
  rfl

/-- Settles O33. -/
theorem loadsWaitInTheStagingBuffer : Obligations.LoadsWaitInTheStagingBuffer := by
  unfold Obligations.LoadsWaitInTheStagingBuffer
  refine ⟨fun n count body s ready free length => congrArg Host.Outcome.next
      (sendCommand_staged ready .mapLoad _ rfl free (endsWith_mapLoad n count body length)),
    fun body s ready free whole minimal => congrArg Host.Outcome.next
      (sendCommand_staged ready .cueLoad _ rfl free (endsWith_cueLoad whole minimal)),
    fun n count body first s ready full length => congrArg Host.Outcome.next
      (sendCommand_beside ready rfl full (endsWith_mapLoad n count body length)),
    fun body first s ready full whole minimal => congrArg Host.Outcome.next
      (sendCommand_beside ready rfl full (endsWith_cueLoad whole minimal))⟩

/-! ### Cell bytes (R188, R189) -/

theorem CellByteReady.byteOfKind {k : ByteKind} {s : State} (ready : CellByteReady k s) (known : k ≠ .ignored)
    (act : State → State) : byteOfKind k act s = framed s (act s) := byteOfKind_due known act ready.frame

/-- ELI after a WRITE-CELLS byte: the pointer has advanced (R188). -/
def writtenEli (s : State) : EngineerLink :=
  { s.eli with frame := frameRest s.eli.frame, dataOut := 0, pointer := walkStep s.eli.walk s.eli.pointer }

/-- A WRITE-CELLS byte that reads presents its change, and the pointer advances; the change itself does not see ELI. -/
theorem writeCell_presents {b : Byte} {k : ChangeKind} {s : State} (run : s.run = .run)
    (reads : writtenChange s.eli.field b = some k) :
    framed s (writeCell b s) = (takeChange
      { cell := s.eli.pointer, kind := k, origin := .engineer, length := s.eli.glideLength, tag := none } s).setEli
        (writtenEli s) := by
  have change := (inner_takeChange
    { cell := s.eli.pointer, kind := k, origin := .engineer, length := s.eli.glideLength, tag := none }).setEli s
      { s.eli with dataOut := 0 }
  simp only [writeCell, State.setEli_run, State.setEli_eli, run, if_true, reads]
  rw [engineerChange, State.setEli_eli, change]
  rfl

theorem writeCell_ignored {b : Byte} {s : State} (run : s.run = .run) (reads : writtenChange s.eli.field b = none) :
    framed s (writeCell b s) = s.setEli { writtenEli s with refused := true } := by
  simp only [writeCell, State.setEli_run, State.setEli_eli, run, if_true, reads]
  rfl

theorem panOf_some {b : Byte} (low : -32 ≤ b.toInt ∧ b.toInt ≤ 32) : panOf b = some b.toInt := if_pos low

theorem panOf_none {b : Byte} (out : b.toInt < -32 ∨ 32 < b.toInt) : panOf b = none := if_neg (by omega)

/-- Settles O34, field by field. -/
theorem writeCellsPresentsOneChange : Obligations.WriteCellsPresentsOneChange := by
  unfold Obligations.WriteCellsPresentsOneChange
  intro b s ready rest presents ignored
  have presented (k : ChangeKind) (reads : writtenChange s.eli.field b = some k) : presents k :=
    congrArg Host.Outcome.next ((ready.byteOfKind (by decide) _).trans (writeCell_presents ready.run reads))
  have refused (reads : writtenChange s.eli.field b = none) : ignored :=
    congrArg Host.Outcome.next ((ready.byteOfKind (by decide) _).trans (writeCell_ignored ready.run reads))
  refine ⟨fun level => ⟨fun low => presented _ ?_, fun above => refused ?_⟩,
    fun cap => ⟨fun low => presented _ ?_, fun above => refused ?_⟩,
    fun pan => ⟨fun low => presented _ ?_, fun out => refused ?_⟩,
    fun mute => ⟨fun one => presented _ ?_, fun zero => presented _ ?_, fun ne0 ne1 => refused ?_⟩,
    fun heard => refused ?_⟩
  · rw [level, writtenChange, levelOf_some low]; rfl
  · rw [level, writtenChange, levelOf_none above]; rfl
  · rw [cap, writtenChange, levelOf_some low]; rfl
  · rw [cap, writtenChange, levelOf_none above]; rfl
  · rw [pan, writtenChange, panOf_some low]; rfl
  · rw [pan, writtenChange, panOf_none out]; rfl
  · rw [mute, one]; rfl
  · rw [mute, zero]; rfl
  · rw [mute, writtenChange, yesNo_none ne0 ne1]; rfl
  · rw [heard]; rfl

theorem readCell_latched {s : State} (run : s.run = .run) : framed s (readCell s) = s.setEli { s.eli with
    frame := frameRest s.eli.frame, dataOut := s.eli.latch, latch := fetchedByte s.eli.field (s.cell s.eli.pointer)
    pointer := walkStep s.eli.walk s.eli.pointer } := by
  rw [readCell, if_pos run]
  rfl

theorem fetchedByte_eq (f : FieldSelect) (x : Cell) : fetchedByte f x =
    match f with
    | .level => byteOfNat x.level
    | .cap => byteOfNat x.cap
    | .pan => byteOfInt x.pan
    | .mute => if x.muted then 1 else 0
    | .heard => byteOfNat x.heard := by
  cases f <;> rfl

theorem walkStep_across {c : CellId} (inside : c.source.val < 47) :
    (walkStep .across c).mix = c.mix ∧ (walkStep .across c).source.val = c.source.val + 1 := by
  have notLast : c.source ≠ 47 := fun last => by simp [last] at inside
  simp only [walkStep, notLast, if_false, true_and, Fin.val_add]
  exact Nat.mod_eq_of_lt (Nat.succ_lt_succ inside)

theorem walkStep_across_wrap {c : CellId} (last : c.source.val = 47) (inside : c.mix.val < 15) :
    (walkStep .across c).mix.val = c.mix.val + 1 ∧ (walkStep .across c).source = 0 := by
  have atLast : c.source = 47 := Fin.ext last
  simp only [walkStep, atLast, if_true, and_true, Fin.val_add]
  exact Nat.mod_eq_of_lt (Nat.succ_lt_succ inside)

theorem walkStep_down {c : CellId} (inside : c.mix.val < 15) :
    (walkStep .down c).source = c.source ∧ (walkStep .down c).mix.val = c.mix.val + 1 := by
  have notLast : c.mix ≠ 15 := fun last => by simp [last] at inside
  simp only [walkStep, notLast, if_false, true_and, Fin.val_add]
  exact Nat.mod_eq_of_lt (Nat.succ_lt_succ inside)

theorem walkStep_down_wrap {c : CellId} (last : c.mix.val = 15) (inside : c.source.val < 47) :
    (walkStep .down c).source.val = c.source.val + 1 ∧ (walkStep .down c).mix = 0 := by
  have atLast : c.mix = 15 := Fin.ext last
  simp only [walkStep, atLast, if_true, and_true, Fin.val_add]
  exact Nat.mod_eq_of_lt (Nat.succ_lt_succ inside)

/-- Both walks end at the last cell and go on at the first (R188). -/
theorem walkStep_last (w : WalkMode) {c : CellId} (mix : c.mix.val = 15) (source : c.source.val = 47) :
    walkStep w c = ⟨0, 0⟩ := by
  obtain ⟨m, src⟩ := c
  obtain rfl : m = 15 := Fin.ext mix
  obtain rfl : src = 47 := Fin.ext source
  cases w <;> rfl

/-- Settles O35. -/
theorem readCellsGoesThroughTheLatch : Obligations.ReadCellsGoesThroughTheLatch := by
  unfold Obligations.ReadCellsGoesThroughTheLatch
  refine ⟨fun b s ready => ?latch, fun c => ?walks⟩
  case latch =>
    refine congrArg Host.Outcome.next ?_
    rw [ready.byteOfKind (by decide), readCell_latched ready.run, fetchedByte_eq] <;> rfl
  case walks =>
    refine ⟨?_, ?_, ?_, ?_, fun mix source => ⟨walkStep_last _ mix source, walkStep_last _ mix source⟩⟩
    · rintro inside _ rfl; exact walkStep_across inside
    · rintro last inside _ rfl; exact walkStep_across_wrap last inside
    · rintro inside _ rfl; exact walkStep_down inside
    · rintro last inside _ rfl; exact walkStep_down_wrap last inside

/-! ### STATUS, EVENTS and ENABLES (R187, R191, R193, R194) -/

theorem getLsbD_flagBit (b : Bool) (k i : Nat) (hk : k < 8) : (flagBit b k).getLsbD i = (b && decide (i = k)) := by
  cases b
  · simp [flagBit]
  · simp only [flagBit, if_true, BitVec.getLsbD_shiftLeft, Bool.true_and]
    by_cases same : i = k
    · subst same; simp [hk]
    · by_cases below : i < k
      · simp [below, same]
      · have : i - k ≠ 0 := by omega
        simp [same, this]

/-- The STATUS byte, bit by bit (R191). -/
theorem statusReplyByte_bits (s : State) :
    (statusReplyByte s).getLsbD 0 = decide (s.run = .run) ∧
    (statusReplyByte s).getLsbD 1 = decide (s.evl.marks &&& s.evl.enables ≠ 0) ∧
    (statusReplyByte s).getLsbD 2 = s.out.hush ∧ (statusReplyByte s).getLsbD 3 = s.cue.hold ∧
    (statusReplyByte s).getLsbD 4 = decide (s.eli.page = .extended) ∧
    (statusReplyByte s).getLsbD 5 = decide (s.cue.phase ≠ .idle) ∧
    (statusReplyByte s).getLsbD 6 = s.eli.refused ∧ (statusReplyByte s).getLsbD 7 = false := by
  simp only [statusReplyByte, State.attention, BitVec.getLsbD_or, getLsbD_flagBit _ 0 _ (by decide),
    getLsbD_flagBit _ 1 _ (by decide), getLsbD_flagBit _ 2 _ (by decide), getLsbD_flagBit _ 3 _ (by decide),
    getLsbD_flagBit _ 4 _ (by decide), getLsbD_flagBit _ 5 _ (by decide), getLsbD_flagBit _ 6 _ (by decide)]
  simp

/-- A byte at a COMMAND position in INIT, no reply byte being due: STATUS is taken, and no other (R187). -/
theorem streamByte_init_idle (b : Byte) {s : State} (init : s.run = .init) (idle : s.eli.reply = []) :
    streamByte b s = if b = codeByte .status then takeStatus (delivered s) else delivered s := by
  simp only [streamByte, delivered, idle, State.setEli_run, init, reduceCtorEq, if_false]

theorem sendBytes_one (b : Byte) {s : State} (frame : commandFrame s.eli.frame) :
    sendBytes [b] s = framed s (streamByte b s) := by
  simp only [sendBytes, frameAfter_command frame, List.foldl]
  rfl

theorem framed_takeStatus (s : State) : framed s (takeStatus (delivered s)) = s.setEli
    { eliAfter s with reply := [{ value := statusReplyByte s, clears := 0 }], refused := false } := rfl

theorem hiByte_getLsbD (w : Word16) {i : Nat} (hi : i < 8) : (hiByte w).getLsbD i = w.getLsbD (i + 8) := by
  simp [hiByte, hi, Nat.add_comm]

theorem loByte_getLsbD (w : Word16) {i : Nat} (hi : i < 8) : (loByte w).getLsbD i = w.getLsbD i := by
  simp [loByte, hi]

/-- Settles O39. -/
theorem statusEventsAndEnables : Obligations.StatusEventsAndEnables := by
  unfold Obligations.StatusEventsAndEnables
  refine ⟨fun s init frame idle => ⟨⟨statusReplyByte s, ?statusInInit, ?bitsInInit⟩,
      fun b other => congrArg Host.Outcome.next ?otherInInit⟩,
    fun s ready => ⟨⟨statusReplyByte s, ?status, ?bits⟩, ⟨
      { value := hiByte s.evl.marks, clears := s.evl.marks &&& 0xFF00#16 },
      { value := loByte s.evl.marks, clears := s.evl.marks &&& 0x00FF#16 }, ?events, ?eventBits, rfl, rfl⟩, fun mask => ?enables⟩⟩
  case statusInInit =>
    refine congrArg Host.Outcome.next ((sendBytes_one _ frame).trans ?_)
    rw [streamByte_init_idle _ init idle, if_pos rfl, framed_takeStatus]
  case bitsInInit => simpa [init] using statusReplyByte_bits s
  case otherInInit =>
    have notStatus : b ≠ codeByte .status := other
    rw [byteOfKind_command _ frame, streamByte_init_idle _ init idle, if_neg notStatus, framed_delivered]
  case status => exact ready.takes (c := .status) (ops := []) ⟨rfl, rfl, rfl⟩ rfl
  case bits => simpa [ready.run, ready.page] using statusReplyByte_bits s
  case events => exact ready.takes (c := .events) (ops := []) ⟨rfl, rfl, rfl⟩ rfl
  case eventBits => exact fun i hi => ⟨hiByte_getLsbD _ hi, loByte_getLsbD _ hi⟩
  case enables =>
    refine ready.takes (c := .enables) (ops := [hiByte mask, loByte mask]) ⟨rfl, rfl, rfl⟩ rfl ?_
    simp only [takeCode, word16_bytes]
    rfl

end Sys2Proof.Machine
end

-- OUTPUT MODE, PATCH, STATION PROFILE and the read commands of the EXTENDED page (spec/09).
section
namespace Sys2Proof.Machine

/-! ### Lists that are read entry by entry -/

/-- A list is read as a whole exactly when each entry is read as the one in its place. -/
theorem mapM_eq_some_iff {α β : Type} (f : α → Option β) (l : List α) (r : List β) :
    l.mapM f = some r ↔ List.Forall₂ (fun a b => f a = some b) l r := by
  induction l generalizing r with
  | nil => simp [eq_comm]
  | cons a l ih =>
    simp only [List.mapM_cons, Option.bind_eq_bind, Option.bind_eq_some_iff, Option.pure_def, Option.some.injEq]
    constructor
    · rintro ⟨b, hb, bs, hbs, rfl⟩
      exact .cons hb ((ih bs).mp hbs)
    · rintro (_ | ⟨hb, hbs⟩)
      exact ⟨_, hb, _, (ih _).mpr hbs, rfl⟩

theorem mapM_length {α β : Type} {f : α → Option β} {l : List α} {r : List β} (h : l.mapM f = some r) :
    r.length = l.length := ((mapM_eq_some_iff f l r).mp h).length_eq.symm

theorem reads_of_mapM {α β : Type} {f : α → Option β} {l : List α} {r : List β} (h : l.mapM f = some r) :
    ∀ a ∈ l, ∃ b ∈ r, f a = some b := by
  induction (mapM_eq_some_iff f l r).mp h with
  | nil => simp
  | cons hb rest ih =>
    rintro a (_ | ⟨_, mem⟩)
    · exact ⟨_, List.mem_cons_self, hb⟩
    · obtain ⟨b, inRest, reads⟩ := ih ((mapM_eq_some_iff f _ _).mpr rest) a mem
      exact ⟨b, List.mem_cons_of_mem _ inRest, reads⟩

/-- One entry that does not read refuses the list. -/
theorem mapM_eq_none {α β : Type} {f : α → Option β} {l : List α} {a : α} (mem : a ∈ l) (unread : f a = none) :
    l.mapM f = none := by
  cases read : l.mapM f with
  | none => rfl
  | some r =>
    obtain ⟨b, _, hb⟩ := reads_of_mapM read a mem
    rw [unread] at hb
    cases hb

/-! ### OUTPUT MODE and PATCH (R173, R175) -/

theorem outputModeOf_some {b : Byte} {mode : OutputMode}
    (code : (b = 0 ∧ mode = .off) ∨ (b = 1 ∧ mode = .normal) ∨ (b = 2 ∧ mode = .tone)) :
    outputModeOf b = some mode ∧ mode ≠ .mirror := by
  rcases code with ⟨rfl, rfl⟩ | ⟨rfl, rfl⟩ | ⟨rfl, rfl⟩ <;> decide

/-- Any mode but MIRROR leaves the target as it was (R175). -/
theorem takeOutputMode_plain (m : Fin 16) {b : Byte} {mode : OutputMode} (reads : outputModeOf b = some mode)
    (plain : mode ≠ .mirror) (target : Byte) (s : State) :
    takeOutputMode (byteOfNat m.val) b target s = setOutputMode m mode none s := by
  simp only [takeOutputMode, inRange_byteOfNat m (by decide), reads, plain, if_false]

theorem takeOutputMode_mirror (m k : Fin 16) (s : State) :
    takeOutputMode (byteOfNat m.val) 3 (byteOfNat k.val) s = setOutputMode m .mirror (some k) s := by
  have mirror : outputModeOf 3 = some .mirror := by decide
  simp only [takeOutputMode, inRange_byteOfNat m (by decide), inRange_byteOfNat k (by decide), mirror, if_true]

theorem takeOutputMode_refused {m b target : Byte}
    (out : 15 < m.toNat ∨ 3 < b.toNat ∨ (b = 3 ∧ 15 < target.toNat)) (s : State) :
    takeOutputMode m b target s = refuseConsole s := by
  unfold takeOutputMode
  split
  · next mix mode hmix hmode =>
    have mixLow := inRange_lt hmix
    rcases out with high | high | ⟨rfl, high⟩
    · omega
    · rw [outputModeOf_none high] at hmode
      cases hmode
    · obtain rfl : .mirror = mode := Option.some.inj hmode
      simp only [inRange_above high, if_true]
  · rfl

theorem readChannel_byte (c : Option Channel) :
    readChannel (match c with
      | none => 255
      | some k => byteOfNat k.val) = some c := by
  cases c with
  | none => rfl
  | some k =>
    have low := byteOfNat_toNat k.val (by omega)
    have notUnpatched : byteOfNat k.val ≠ 255 := fun same => by
      have high := congrArg BitVec.toNat same
      rw [low] at high
      have := k.isLt
      simp at high
      omega
    simp only [readChannel, notUnpatched, if_false, inRange_byteOfNat k (by decide), Option.map_some]

theorem readChannel_none {b : Byte} (above : 63 < b.toNat) (patched : b ≠ 255) : readChannel b = none := by
  simp only [readChannel, patched, if_false, inRange_above above, Option.map_none]

theorem readChannels_bytes (channels : List (Option Channel)) :
    (channels.map (fun c => match c with
      | none => 255
      | some k => byteOfNat k.val)).mapM readChannel = some channels := by
  rw [mapM_eq_some_iff, List.forall₂_map_left_iff, List.forall₂_same]
  exact fun c _ => readChannel_byte c

/-- A PATCH in range reads as its run (R173). -/
theorem readPatch_some {first count : Byte} {body : List Byte} {channels : List (Option Channel)}
    (reads : body.mapM readChannel = some channels) (length : body.length = count.toNat) (some_ : count ≠ 0)
    (fits : first.toNat + count.toNat ≤ 48) :
    readPatch (first :: count :: body) = some { first := first.toNat, channels := channels } := by
  have positive : 0 < count.toNat := Nat.pos_of_ne_zero fun zero => some_ (BitVec.eq_of_toNat_eq zero)
  have counted := mapM_length reads
  have inside : ¬ (47 < first.toNat ∨ count = 0 ∨ 48 < first.toNat + count.toNat ∨ channels.length ≠ count.toNat) := by
    rintro (h | h | h | h)
    · omega
    · exact some_ h
    · omega
    · omega
  simp only [readPatch, reads, Option.bind_eq_bind, Option.bind_some, inside, if_false]

theorem readPatch_none {first count : Byte} {body : List Byte} (out : (∃ b ∈ body, 63 < b.toNat ∧ b ≠ 255) ∨ count = 0 ∨
    48 < first.toNat + count.toNat ∨ 47 < first.toNat) : readPatch (first :: count :: body) = none := by
  cases reads : body.mapM readChannel with
  | none => simp only [readPatch, reads, Option.bind_eq_bind, Option.bind_none]
  | some channels =>
    have outside : 47 < first.toNat ∨ count = 0 ∨ 48 < first.toNat + count.toNat ∨ channels.length ≠ count.toNat := by
      rcases out with ⟨b, mem, above, patched⟩ | zero | high | high
      · rw [mapM_eq_none mem (readChannel_none above patched)] at reads
        cases reads
      · exact .inr (.inl zero)
      · exact .inr (.inr (.inl high))
      · exact .inl high
    simp only [readPatch, reads, Option.bind_eq_bind, Option.bind_some, outside, if_true]

/-- A PATCH of the length its count byte gives is what its meaning makes of it (R173, R184). -/
theorem sendCommand_patch {s t : State} (ready : CommandReady .extended s) {first count : Byte} {body : List Byte}
    (length : body.length = count.toNat) (meaning : takePatch (first :: count :: body) (delivered s) = t) :
    sendCommand .patch (first :: count :: body) s = framed s t := by
  subst meaning
  exact sendCommand_taken ready .patch _ rfl rfl (endsWith_patch first count body length)

/-- Settles O43. -/
theorem outputModeAndPatchAreTakenOrRefused : Obligations.OutputModeAndPatchAreTakenOrRefused := by
  unfold Obligations.OutputModeAndPatchAreTakenOrRefused
  refine ⟨fun s ready => ?mode, fun first count body s ready length => ⟨?patched, ?refused⟩⟩
  case mode =>
    have outputMode : FixedOn .extended .outputMode 3 := ⟨rfl, rfl, rfl⟩
    refine ⟨fun m b target mode code => ?plain, fun m k => ready.takes outputMode (takeOutputMode_mirror m k _) ?mirror,
      fun m b target out => ready.refuses outputMode (takeOutputMode_refused out _)⟩
    case plain =>
      obtain ⟨reads, notMirror⟩ := outputModeOf_some code
      exact ready.takes outputMode (takeOutputMode_plain m reads notMirror target _)
    case mirror =>
      simp only [setOutputMode, ne_eq, reduceCtorEq, not_false_eq_true, and_true]
      rfl
  case patched =>
    intro channels bytes some_ fits
    have reads : body.mapM readChannel = some channels := by rw [bytes]; exact readChannels_bytes channels
    have waits : takePatch (first :: count :: body) (delivered s) =
        addPatch { first := first.toNat, channels := channels } (delivered s) := by
      simp only [takePatch, readPatch_some reads length some_ fits]
    exact congrArg Host.Outcome.next (sendCommand_patch ready length waits)
  case refused =>
    intro out
    refine congrArg Host.Outcome.next ((sendCommand_patch ready length ?_).trans (framed_refuse s))
    simp only [takePatch, readPatch_none out]

/-! ### STATION PROFILE (R86, R87) -/

theorem takeStationProfile_inRange (n : StationId) {p : Byte} (low : p.toNat ≤ 7) {a : Byte} {admitted : Bool}
    (reads : yesNo a = some admitted) (s : State) :
    takeStationProfile (byteOfNat n.val) p a s = applyProfile n p.toNat admitted s := by
  simp only [takeStationProfile, inRange_byteOfNat n (by decide), inRange_some (Nat.lt_succ_of_le low), reads]

theorem takeStationProfile_refused {n p a : Byte} (out : 15 < n.toNat ∨ 7 < p.toNat ∨ 1 < a.toNat) (s : State) :
    takeStationProfile n p a s = refuseConsole s := by
  unfold takeStationProfile
  split
  · next hn hp ha =>
    have nLow := inRange_lt hn
    have pLow := inRange_lt hp
    rcases out with high | high | high
    · omega
    · omega
    · rw [yesNo_none (byte_ne_of_lt high 0 (by decide)) (byte_ne_of_lt high 1 (by decide))] at ha
      cases ha
  · rfl

/-- A profile that leaves the station admitted, or a station that BLC holds selected, or an ABSENT one, writes the two fields. -/
theorem applyProfile_writes (n : StationId) (p : Nat) (a : Bool) {s : State}
    (stays : a = true ∨ s.link.selected = some n ∨ (s.station n).state = .absent) :
    applyProfile n p a s = s.setStation n { s.station n with priority := p, admitted := a } := by
  have absent : (s.station n).state = .absent → makeAbsent n (s.setStation n { s.station n with priority := p, admitted := a }) =
      s.setStation n { s.station n with priority := p, admitted := a } := fun h =>
    if_pos (by rw [State.station_setStation_same]; exact h)
  unfold applyProfile
  rcases stays with rfl | selected | h
  · exact if_neg (by simp)
  · exact if_neg (by simp [selected])
  · simp only [absent h, ite_self]

theorem makeAbsent_present {n : StationId} {s : State} (present : (s.station n).state ≠ .absent) :
    makeAbsent n s = (s.setStation n (s.station n).toAbsent).setGrip n none := if_neg present

/-- A station whose admission is taken away while BLC does not hold it selected becomes ABSENT at once (R86). -/
theorem applyProfile_absent (n : StationId) (p : Nat) {s : State} (free : s.link.selected ≠ some n)
    (present : (s.station n).state ≠ .absent) :
    applyProfile n p false s = (s.setStation n { s.station n with
      priority := p, admitted := false, state := .absent, missRun := 0, idle := 0 }).setGrip n none := by
  let written := s.setStation n { s.station n with priority := p, admitted := false }
  have record : written.station n = { s.station n with priority := p, admitted := false } := State.station_setStation_same ..
  have here : (written.station n).state ≠ .absent := by rw [record]; exact present
  calc applyProfile n p false s = makeAbsent n written := if_pos ⟨rfl, free⟩
    _ = (written.setStation n (written.station n).toAbsent).setGrip n none := makeAbsent_present here
    _ = _ := by rw [record, State.setStation_setStation]; rfl

/-- Settles O44. -/
theorem stationProfileWritesTheRecord : Obligations.StationProfileWritesTheRecord := by
  unfold Obligations.StationProfileWritesTheRecord
  intro s ready u
  have profile : FixedOn .extended .stationProfile 3 := ⟨rfl, rfl, rfl⟩
  have inRange (n : StationId) (p a : Byte) (low : p.toNat ≤ 7) (admitted : Bool) (reads : yesNo a = some admitted) (t : State)
      (applied : applyProfile n p.toNat admitted (delivered s) = t) :
      exec (.stationProfile (byteOfNat n.val) p a) s = .next (framed s t) :=
    ready.takes profile ((takeStationProfile_inRange n low reads _).trans applied)
  exact ⟨fun n p low => inRange n p 1 low true rfl _ (applyProfile_writes n p.toNat true (.inl rfl)),
    fun n p low stays => inRange n p 0 low false rfl _ (applyProfile_writes n p.toNat false (.inr stays)),
    fun n p low free present => inRange n p 0 low false rfl _ (applyProfile_absent n p.toNat free present),
    fun n p a out => ready.refuses profile (takeStationProfile_refused out _)⟩

end Sys2Proof.Machine
end

-- The read commands of the EXTENDED page (R74, R94, R95, R178), and SOFT RESET (R197).
section
namespace Sys2Proof.Machine

/-! ### The replies byte by byte -/

theorem flagBit_zero (b : Bool) : flagBit b 0 = if b then 1 else 0 := by cases b <;> rfl

/-- The index of a STALE grip travels with bit 7 set (spec/09, STATION READ). -/
theorem index_or_stale : ∀ i : LocalIndex, byteOfNat i.val ||| 0x80#8 = byteOfNat (i.val + 128) := by decide

theorem gripByte_eq (g : Option Grip) : gripByte g =
    match g with
    | none => 255
    | some g => byteOfNat (if g.state = .stale then g.index.val + 128 else g.index.val) := by
  cases g with
  | none => rfl
  | some g =>
    by_cases stale : g.state = .stale
    · simp only [gripByte, stale, decide_true, if_true]
      exact index_or_stale g.index
    · simp only [gripByte, stale, decide_false, if_false, flagBit, Bool.false_eq_true]
      exact BitVec.or_zero

theorem append_congr {a b c d : List Byte} (h : a = b) (k : c = d) : a ++ c = b ++ d := congrArg₂ _ h k

theorem mapSlotBytes_eq (x : Option MapEntry) : mapSlotBytes x =
    match x with
    | none => [255, 255, 255]
    | some e => [byteOfNat e.cell.mix.val, byteOfNat e.cell.source.val, match e.right with
      | .view => 0
      | .adjust => 1
      | .full => 2] := by
  cases x with
  | none => rfl
  | some e =>
    obtain ⟨cell, right⟩ := e
    cases right <;> rfl

/-- The edits of a record with their places: the free value of the edit in place i is the one numbered i from the first
(log 20). -/
theorem editsBytes_eq (free k : Nat) (edits : List CueEdit) : editsBytes (free + k) edits =
    (edits.zipIdx k).flatMap (fun e =>
      [targetByte e.1.target, byteOfNat e.1.source.val] ++ actionBytes (free + e.2) e.1.action) := by
  induction edits generalizing k with
  | nil => rfl
  | cons e rest ih => rw [editsBytes, List.zipIdx_cons, List.flatMap_cons, Nat.add_assoc, ih]

/-! ### The read commands -/

theorem takeStationRead_inRange (n : StationId) (s : State) : takeStationRead (byteOfNat n.val) s =
    (formReply (stationReadBytes n s) s).setStation n { s.station n with checkCount := 0 } := by
  simp only [takeStationRead, inRange_byteOfNat n (by decide)]

theorem takeMapRead_inRange (n : StationId) (s : State) : takeMapRead (byteOfNat n.val) s =
    formReply ((List.finRange 24).flatMap (fun i => mapSlotBytes (mapAt (s.station n).map i))) s := by
  simp only [takeMapRead, inRange_byteOfNat n (by decide)]

theorem takeCueRead_inRange (n : CueId) (s : State) : takeCueRead (byteOfNat n.val) s =
    (formReply (engineSummary s ++ cueSlotBytes s.free (s.slot n)) s).setFree (s.free + slotEdits (s.slot n)) := by
  simp only [takeCueRead, inRange_byteOfNat n (by decide)]

theorem takeStationRead_refused {v : Byte} (above : 15 < v.toNat) (s : State) : takeStationRead v s = refuseConsole s := by
  simp only [takeStationRead, inRange_above above]

theorem takeMapRead_refused {v : Byte} (above : 15 < v.toNat) (s : State) : takeMapRead v s = refuseConsole s := by
  simp only [takeMapRead, inRange_above above]

theorem takeCueRead_refused {v : Byte} (above : 95 < v.toNat) (s : State) : takeCueRead v s = refuseConsole s := by
  simp only [takeCueRead, inRange_above above]

/-- Settles O45. -/
theorem readCommandsFormTheirReplies : Obligations.ReadCommandsFormTheirReplies := by
  unfold Obligations.ReadCommandsFormTheirReplies
  intro s ready reply two mask yes cue
  have stationRead : FixedOn .extended .stationRead 1 := ⟨rfl, rfl, rfl⟩
  have mapRead : FixedOn .extended .mapRead 1 := ⟨rfl, rfl, rfl⟩
  have hitsRead : FixedOn .extended .hitsRead 0 := ⟨rfl, rfl, rfl⟩
  have cueRead : FixedOn .extended .cueRead 1 := ⟨rfl, rfl, rfl⟩
  refine ⟨fun n => ready.takes stationRead (takeStationRead_inRange n _) ?station,
    fun n => ready.takes mapRead (takeMapRead_inRange n _) ?map,
    ⟨_, ready.takes hitsRead rfl rfl, fun m => tableGet_map s.out.records _ m, rfl⟩,
    fun n => ⟨fun i => Config.muteEditByte (s.free + i), ?cue⟩,
    fun v above => ⟨ready.refuses stationRead (takeStationRead_refused above _),
      ready.refuses mapRead (takeMapRead_refused above _)⟩,
    fun v above => ready.refuses cueRead (takeCueRead_refused above _)⟩
  case station =>
    show (reply (stationReadBytes n s)).setStation n _ = _
    rw [stationReadBytes, flagBit_zero, gripByte_eq]
    rfl
  case map =>
    exact congrArg (fun slot => reply ((List.finRange 24).flatMap slot))
      (funext fun i => mapSlotBytes_eq (mapAt (s.station n).map i))
  case cue =>
    intro summary record
    have summarized : engineSummary s = summary := by
      simp only [engineSummary, flagBit_zero]
      refine append_congr (append_congr (append_congr (append_congr ?head rfl) rfl) rfl) rfl
      cases s.cue.running <;> rfl
    have recorded (r : CueRecord) : cueRecordBytes s.free r = record r := by
      have edits := editsBytes_eq s.free 0 r.edits
      rw [Nat.add_zero] at edits
      rw [cueRecordBytes, edits]
      refine append_congr (append_congr (append_congr (append_congr (append_congr (append_congr (append_congr
        ?guard ?alternate) ?followOn) rfl) ?setMask) ?clearMask) rfl) rfl
      case guard => cases r.guard <;> rfl
      case alternate => cases r.alternate <;> rfl
      case followOn => cases r.followOn <;> rfl
      case setMask => cases r.setMask <;> rfl
      case clearMask => cases r.clearMask <;> rfl
    have slotted : cueSlotBytes s.free (s.slot n) =
        match s.slot n with
        | none => [0]
        | some r => [1] ++ record r := by
      cases s.slot n with
      | none => rfl
      | some r => exact congrArg (1 :: ·) (recorded r)
    refine ready.takes cueRead (takeCueRead_inRange n _) ?_
    show (reply (engineSummary s ++ cueSlotBytes s.free (s.slot n))).setFree _ = _
    rw [summarized, slotted]
    rfl

end Sys2Proof.Machine
end

-- SOFT RESET (R197), the link reset (R99, R161, R162), and the cue commands of both links (spec/03).
section
namespace Sys2Proof.Machine

/-! ### SOFT RESET (R197) -/

theorem station_absent {s t : State} (stations : t.stations = s.stations.map Station.toAbsent) (n : StationId) :
    t.station n = { s.station n with state := .absent, missRun := 0, idle := 0 } := by
  rw [State.station, stations, tableGet_map]
  rfl

theorem grip_dropped {s : State} (grips : s.grips = Vector.replicate 16 none) (n : StationId) : s.grip n = none := by
  rw [State.grip, grips, tableGet_replicate]

/-- Settles O41, field by field of what SOFT RESET leaves. -/
theorem softResetKeepsTheShow : Obligations.SoftResetKeepsTheShow := by
  unfold Obligations.SoftResetKeepsTheShow
  intro s ready
  refine ⟨_, ready.takes (c := .softReset) (ops := []) ⟨rfl, rfl, rfl⟩ (softReset_eq (delivered s)) rfl,
    fun c => ?cells, rfl, rfl, station_absent rfl, rfl, grip_dropped rfl, rfl, rfl, ?link, rfl,
    fun m => ?records, rfl, rfl, rfl, ready.run⟩
  case cells => exact tableGet_map s.cells _ (cellIndex c)
  case link => rw [← startOrder_eq]; rfl
  case records => exact tableGet_map s.out.records _ m

/-! ### The link reset (R99, R161, R162) -/

/-- A link reset in RUN, BAND_RESET latched: every station ABSENT, every grip dropped, the link RESETTING. -/
theorem linkReset_reported (n : Nat) {s : State} (run : s.run = .run) : (linkReset n s).report .bandReset =
    ((((s.setStations (s.stations.map Station.toAbsent)).setGrips (Vector.replicate 16 none)).setInHand none).setLink
      { idleLink s.link with
        state := .resetting, breakCount := n, order := List.finRange 16, contenders := [] }).setEvl
          { s.evl with marks := s.evl.marks ||| 0x0008#16 } := by
  rw [State.report_in_run _ _ (by rw [linkReset_eq]; exact run), linkReset_eq, ← startOrder_eq]
  rfl

theorem receiveBreak_run {s : State} (run : s.run = .run) (awake : s.link.state ≠ .resetting) :
    receiveBreak s = (linkReset 0 s).report .bandReset := if_pos ⟨run, awake⟩

theorem expireBreakCount_last (h : Bool) {s : State} (run : s.run = .run) (resetting : s.link.state = .resetting)
    (last : s.link.breakCount = 1) : expireBreakCount h s =
      s.setLink { s.link with breakCount := 0, state := if h then .resetting else .idle } := if_pos ⟨run, resetting, last⟩

/-- BLC's block end while the part's own break runs: counted down, and expired at its last block end (R162). -/
theorem linkBlockEnd_resetting (h : Bool) {s : State} (resetting : s.link.state = .resetting) : linkBlockEnd h s =
    if s.link.breakCount ≤ 1 then expireBreakCount h s else s.setLink { s.link with breakCount := s.link.breakCount - 1 } := by
  simp only [linkBlockEnd, resetting]

/-- What BLC holds after a block end is what its own work leaves of the link as it was. -/
theorem blockEnd_link (a b : PortBlock) (h : Bool) {s : State} (run : s.run = .run) :
    ∃ u : State, u.run = .run ∧ u.link = s.link ∧ (blockEnd a b h s).link = (linkBlockEnd h u).link := by
  obtain ⟨⟨link, -, -, -⟩, uRun, uLink, -⟩ := blockEnd_band a b h s run
  exact ⟨_, uRun, uLink, link⟩

/-- Settles O47. -/
theorem linkResetClearsTheLink : Obligations.LinkResetClearsTheLink := by
  unfold Obligations.LinkResetClearsTheLink
  refine ⟨⟨fun s run awake => ?received, fun s ready => ?issued, fun s init => congrArg Host.Outcome.next ?ignored⟩,
    fun s run resetting free => congrArg Host.Outcome.next (if_pos ⟨run, resetting, free⟩),
    fun s run resetting last => ⟨congrArg Host.Outcome.next (expireBreakCount_last false run resetting last), ?held⟩,
    fun a b h s run resetting two => ⟨_, rfl, ?counted⟩, fun a b h s run resetting last => ⟨_, rfl, ?expired⟩⟩
  case received =>
    refine ⟨_, congrArg Host.Outcome.next ((receiveBreak_run run awake).trans (linkReset_reported 0 run)),
      station_absent rfl, grip_dropped rfl, rfl⟩
  case issued =>
    exact ⟨_, ready.takes (c := .linkReset) (ops := []) ⟨rfl, rfl, rfl⟩ (linkReset_reported 2 (s := delivered s) ready.run) rfl,
      station_absent rfl, grip_dropped rfl, rfl⟩
  case ignored => exact if_neg (fun both => not_run_of_init init both.1)
  case held =>
    refine congrArg Host.Outcome.next ((expireBreakCount_last true run resetting last).trans ?_)
    rw [if_pos rfl, ← resetting]
  case counted =>
    obtain ⟨u, -, link, left⟩ := blockEnd_link a b h run
    rw [left, linkBlockEnd_resetting h (link ▸ resetting), link, two]
    rfl
  case expired =>
    obtain ⟨u, uRun, link, left⟩ := blockEnd_link a b h run
    rw [left, linkBlockEnd_resetting h (link ▸ resetting), link, last, if_pos (Nat.le_refl 1),
      expireBreakCount_last h uRun (link ▸ resetting) (link ▸ last), link]
    rfl

/-! ### Fires (R55 to R60, R65, R66) -/

theorem fire_fires {c f : CueId} {r : CueRecord} {s : State} (ends : chain chainLimit c s = .fires f r) :
    fire c s = fireCue f r s := by
  simp only [fire, ends]

theorem fire_refuses {c : CueId} {s : State} (run : s.run = .run) (ends : chain chainLimit c s = .refuses) :
    fire c s = s.setEvl { s.evl with marks := s.evl.marks ||| 0x0800#16 } := by
  simp only [fire, ends, refuseFire, State.report_in_run s _ run]
  rfl

theorem fire_skips {c k : CueId} {s : State} (run : s.run = .run) (ends : chain chainLimit c s = .skips k) :
    fire c s = (s.setCue { s.cue with nextPointer := lowestAbove k s }).setEvl
      { s.evl with marks := s.evl.marks ||| 0x0400#16 } := by
  simp only [fire, ends, skipCue]
  rw [State.report_in_run _ _ (by exact run)]
  rfl

theorem fireNext_pointer {c : CueId} {s : State} (pointer : s.cue.nextPointer = some c) : fireNext s = fire c s := by
  simp only [fireNext, pointer]

/-- A GO on END is refused (R56). -/
theorem fireNext_end {s : State} (run : s.run = .run) (pointer : s.cue.nextPointer = none) :
    fireNext s = s.setEvl { s.evl with marks := s.evl.marks ||| 0x0800#16 } := by
  simp only [fireNext, pointer, refuseFire, State.report_in_run s _ run]
  rfl

theorem chain_refuses {c : CueId} {s : State} (refused : s.slot c = none ∨ chain chainLimit c s = .refuses) :
    chain chainLimit c s = .refuses := refused.elim (chain_succ_empty 7) id

theorem chain_cueInput (link : CueLink) (c : CueId) (s : State) :
    chain chainLimit c (cueInput link s) = chain chainLimit c s := chain_congr (cueInput_cue link s) _ _

theorem lowestAbove_slots {s t : State} (same : t.cue.slots = s.cue.slots) (k : CueId) : lowestAbove k t = lowestAbove k s := by
  simp only [lowestAbove, State.occupied, State.slot, same]

/-- GOTO of either link with a cue number is a fire of that cue. -/
theorem exec_goto_cue (link : CueLink) (n : CueId) (s : State) : CueInputReady link s →
    exec (.goto (match link with
      | .console => .console (byteOfNat n.val)
      | .showLink => .showLink (BitVec.ofNat 16 n.val))) s = .next (fire n (cueInput link s)) := by
  intro ready
  cases link with
  | console =>
    have value : (byteOfNat n.val).toNat = n.val := byteOfNat_toNat _ (by omega)
    have same : (⟨(byteOfNat n.val).toNat, by omega⟩ : CueId) = n := Fin.ext value
    rw [exec_goto_console _ s ready (by omega), same]
  | showLink =>
    have value : (BitVec.ofNat 16 n.val).toNat = n.val := by
      rw [BitVec.toNat_ofNat]
      omega
    simp only [exec_goto_showLink _ s ready, cueGoto, value, n.isLt, dif_pos]

theorem targetMixes_eq (t : EditTarget) : targetMixes t =
    match t with
    | .mix m => [m]
    | .all => List.finRange 16 := by
  cases t <;> rfl

/-- Settles O26. -/
theorem goAndGotoFireTheCue : Obligations.GoAndGotoFireTheCue := by
  unfold Obligations.GoAndGotoFireTheCue
  have fired (link : CueLink) (c f : CueId) (r : CueRecord) (s : State) (ready : CueInputReady link s)
      (ends : chain chainLimit c s = .fires f r) : Fired f r (cueInput link s) (fire c (cueInput link s)) := by
    rw [fire_fires ((chain_cueInput link c s).trans ends)]
    exact fireCue_fired f r _ ((cueInput_run link s).trans (cueInputReady_run link s ready))
  refine ⟨fun link c f r s ready pointer ends => ⟨_, exec_go link s ready, ?go⟩,
    fun b f r s low ready ends => ⟨_, exec_goto_console b s ready low, fired .console _ f r s ready ends⟩,
    fun w f r s low ready ends => ⟨_, exec_goto_showLink w s ready, ?showGoto⟩,
    fun c r => ?changes, fun s => rfl, fun ch chs s => rfl, fun c r s => ?record⟩
  case go =>
    rw [fireNext_pointer ((congrArg CueEngine.nextPointer (cueInput_cue link s)).trans pointer)]
    exact fired link c f r s ready ends
  case showGoto =>
    rw [cueGoto, dif_pos low]
    exact fired .showLink _ f r s ready ends
  case changes => rfl
  case record =>
    unfold supersede
    cases s.cue.running <;> rfl

/-- Settles O27. -/
theorem goIsRefusedOrSkips : Obligations.GoIsRefusedOrSkips := by
  unfold Obligations.GoIsRefusedOrSkips
  have run (link : CueLink) (s : State) (ready : CueInputReady link s) : (cueInput link s).run = .run :=
    (cueInput_run link s).trans (cueInputReady_run link s ready)
  have pointed (link : CueLink) (s : State) {p : Option CueId} (pointer : s.cue.nextPointer = p) :
      (cueInput link s).cue.nextPointer = p := (congrArg CueEngine.nextPointer (cueInput_cue link s)).trans pointer
  have refuses (link : CueLink) (c : CueId) (s : State) (ready : CueInputReady link s)
      (refused : s.slot c = none ∨ chain chainLimit c s = .refuses) : fire c (cueInput link s) =
        (cueInput link s).setEvl { s.evl with marks := s.evl.marks ||| 0x0800#16 } := by
    rw [fire_refuses (run link s ready) ((chain_cueInput link c s).trans (chain_refuses refused)), cueInput_evl]
  have skips (link : CueLink) (c k : CueId) (s : State) (ready : CueInputReady link s)
      (ends : chain chainLimit c s = .skips k) : fire c (cueInput link s) =
        ((cueInput link s).setCue { s.cue with nextPointer := lowestAbove k s }).setEvl
          { s.evl with marks := s.evl.marks ||| 0x0400#16 } := by
    rw [fire_skips (run link s ready) ((chain_cueInput link c s).trans ends), cueInput_evl, cueInput_cue,
      lowestAbove_slots (congrArg CueEngine.slots (cueInput_cue link s))]
  refine ⟨fun link s ready pointer => (exec_go link s ready).trans (congrArg Host.Outcome.next ?goEnd),
    fun link c s ready pointer refused => (exec_go link s ready).trans (congrArg Host.Outcome.next ?goRefused),
    fun link c k s ready pointer ends => (exec_go link s ready).trans (congrArg Host.Outcome.next ?goSkips),
    fun link n s ready =>
      ⟨fun refused => (exec_goto_cue link n s ready).trans (congrArg Host.Outcome.next (refuses link n s ready refused)),
        fun k ends => (exec_goto_cue link n s ready).trans (congrArg Host.Outcome.next (skips link n k s ready ends))⟩,
    fun w s ready above => (exec_goto_showLink w s ready).trans (congrArg Host.Outcome.next ?showAbove),
    fun b s ready above => CommandReady.refuses (c := .goto) (ops := [b]) ready ⟨rfl, rfl, rfl⟩ ?consoleAbove⟩
  case goEnd => rw [fireNext_end (run link s ready) (pointed link s pointer), cueInput_evl]
  case goRefused => rw [fireNext_pointer (pointed link s pointer), refuses link c s ready refused]
  case goSkips => rw [fireNext_pointer (pointed link s pointer), skips link c k s ready ends]
  case showAbove =>
    have out : ¬ w.toNat < 96 := by omega
    rw [cueGoto, dif_neg out, refuseFire, State.report_in_run _ _ (run .showLink s ready), cueInput_evl]
    rfl
  case consoleAbove => simp only [takeCode, takeGoto, inRange_above above]

/-! ### STOP, hold, flags, pointer and delete (R52, R67 to R69, R72) -/

theorem cueStop_fading {s : State} (phase : s.cue.phase = .fading) : cueStop s =
    (s.setGlides (s.glides.map (fun e => { e with tag := none }))).setCue { s.cue with running := none, phase := .idle } := by
  simp only [cueStop, phase]
  rfl

theorem cueStop_followWait {s : State} (phase : s.cue.phase = .followWait) :
    cueStop s = s.setCue { s.cue with timer := 0, phase := .idle } := by
  simp only [cueStop, phase]

theorem cueStop_idle {s : State} (phase : s.cue.phase = .idle) : cueStop s = s := by
  simp only [cueStop, phase]

theorem cueHoldOn_followWait {s : State} (phase : s.cue.phase = .followWait) :
    cueHoldOn s = s.setCue { s.cue with hold := true, timer := 0, phase := .idle } := by
  simp only [cueHoldOn, phase]

theorem cueHoldOn_other {s : State} (phase : s.cue.phase ≠ .followWait) :
    cueHoldOn s = s.setCue { s.cue with hold := true } := by
  unfold cueHoldOn
  split
  · contradiction
  · rfl

/-- Settles O28. -/
theorem stopHoldAndFlagsAreWritten : Obligations.StopHoldAndFlagsAreWritten := by
  unfold Obligations.StopHoldAndFlagsAreWritten
  have stop : FixedOn .extended .stop 0 := ⟨rfl, rfl, rfl⟩
  have hold : FixedOn .extended .hold 1 := ⟨rfl, rfl, rfl⟩
  have set : FixedOn .extended .flagsSet 2 := ⟨rfl, rfl, rfl⟩
  have clear : FixedOn .extended .flagsClear 2 := ⟨rfl, rfl, rfl⟩
  have message (k : Byte) (w : Word16) (s t : State) (ready : MessageReady s)
      (taken : showCommand k (hiByte w) (loByte w) (cueInput .showLink s) = some t) :
      (.next (showMessageOf k w s) : Host.Outcome State Fault Refusal) = .next t :=
    congrArg Host.Outcome.next (showMessageOf_ready k w s ready.run ready.chars t taken)
  refine ⟨fun s ready => ⟨fun phase => ready.takes stop (cueStop_fading (s := delivered s) phase),
      fun phase => ready.takes stop (cueStop_followWait (s := delivered s) phase),
      fun phase => ready.takes stop (cueStop_idle (s := delivered s) phase)⟩,
    fun s ready phase => message 5 0 s _ ready (congrArg some (cueHoldOn_other (s := cueInput .showLink s) phase)),
    fun s ready phase => message 5 0 s _ ready (congrArg some (cueHoldOn_followWait (s := cueInput .showLink s) phase)),
    fun s ready => message 6 0 s _ ready rfl,
    fun s ready phase => ready.takes hold (cueHoldOn_other (s := delivered s) phase),
    fun s ready phase => ready.takes hold (cueHoldOn_followWait (s := delivered s) phase),
    fun s ready => ready.takes hold rfl, fun v s ready ne0 ne1 => ready.refuses hold ?neither,
    fun link mask s ready => ?flagsSet, fun link mask s ready => ?flagsClear⟩
  case neither => simp only [takeCode, takeHold, yesNo_none ne0 ne1]
  case flagsSet =>
    cases link with
    | console =>
      refine CommandReady.takes ready set (ops := [hiByte mask, loByte mask]) (t := cueFlagsSet mask (delivered s)) ?_
      simp only [takeCode, word16_bytes]
    | showLink =>
      refine message 3 mask s _ ready ?_
      show some (cueFlagsSet (word16 (hiByte mask) (loByte mask)) _) = _
      rw [word16_bytes]
      rfl
  case flagsClear =>
    cases link with
    | console =>
      refine CommandReady.takes ready clear (ops := [hiByte mask, loByte mask]) (t := cueFlagsClear mask (delivered s)) ?_
      simp only [takeCode, word16_bytes]
    | showLink =>
      refine message 4 mask s _ ready ?_
      show some (cueFlagsClear (word16 (hiByte mask) (loByte mask)) _) = _
      rw [word16_bytes]
      rfl

theorem byteOfNat_ne_255 (n : CueId) : byteOfNat n.val ≠ 255 := fun same => by
  have value := congrArg BitVec.toNat same
  rw [byteOfNat_toNat n.val (by omega)] at value
  have low := n.isLt
  simp at value
  omega

theorem takeCuePointer_occupied {n : CueId} {s : State} (occupied : (s.slot n).isSome = true) :
    takeCuePointer (byteOfNat n.val) s = cueSetPointer (some n) s := by
  have taken : s.occupied n = true := occupied
  simp only [takeCuePointer, byteOfNat_ne_255, inRange_byteOfNat n (by decide), taken, if_true, if_false]

/-- Any other pointer but END names no slot, or an empty one (R69). -/
theorem takeCuePointer_refused {v : Byte} {s : State} (notEnd : v ≠ 255) (empty : ∀ n : CueId, n.val = v.toNat → s.slot n = none) :
    takeCuePointer v s = refuseConsole s := by
  unfold takeCuePointer
  rw [if_neg notEnd]
  split
  · next n reads =>
    have free : s.occupied n = false := by rw [State.occupied, empty n (inRange_val reads)]; rfl
    simp only [free, Bool.false_eq_true, if_false]
  · rfl

theorem takeCueDelete_inRange (n : CueId) (s : State) : takeCueDelete (byteOfNat n.val) s = cueDelete n s := by
  simp only [takeCueDelete, inRange_byteOfNat n (by decide)]

/-- CUE DELETE: the slot is emptied, its edits go back to the pool, and a pointer that named it moves up (R72). -/
theorem cueDelete_eq (n : CueId) (s : State) : cueDelete n s = s.setCue { s.cue with
    slots := tableSet s.cue.slots n none
    poolUsed := s.cue.poolUsed - slotEdits (s.slot n)
    nextPointer := if s.cue.nextPointer = some n then lowestAbove n (writeSlot n none s) else s.cue.nextPointer } := by
  unfold cueDelete
  simp only
  split
  · next named =>
    rw [if_pos (show s.cue.nextPointer = some n from named)]
    rfl
  · next other =>
    rw [if_neg (show ¬ s.cue.nextPointer = some n from other)]
    rfl

/-- Settles O29. -/
theorem pointerAndDeleteMoveTheList : Obligations.PointerAndDeleteMoveTheList := by
  unfold Obligations.PointerAndDeleteMoveTheList
  have pointer : FixedOn .extended .cuePointer 1 := ⟨rfl, rfl, rfl⟩
  have delete : FixedOn .extended .cueDelete 1 := ⟨rfl, rfl, rfl⟩
  refine ⟨fun n s ready occupied => ready.takes pointer (takeCuePointer_occupied (s := delivered s) occupied),
    fun s ready => ready.takes pointer rfl,
    fun v s ready notEnd empty => ready.refuses pointer (takeCuePointer_refused (s := delivered s) notEnd empty),
    fun n s ready => ⟨_, ready.takes delete ((takeCueDelete_inRange n _).trans (cueDelete_eq n _)) rfl, ?deleted⟩,
    fun v s ready above => ready.refuses delete ?none⟩
  case deleted =>
    refine ⟨tableGet_tableSet_same s.cue.slots n none, fun m other => tableGet_tableSet_ne s.cue.slots none (Ne.symm other),
      rfl, fun named => (if_pos named).trans ?above, fun other => if_neg other, rfl⟩
    exact lowestAbove_slots rfl n
  case none => simp only [takeCode, takeCueDelete, inRange_above above]

end Sys2Proof.Machine
end

-- Result flags, hand-offs and completions (spec/01, spec/02), and the compound operations MIX COPY and MIX CLEAR.
section
namespace Sys2Proof.Machine

/-! ### The result flags (R18) -/

theorem gliding_true_iff (s : State) (c : CellId) : s.gliding c = true ↔ ∃ e ∈ s.glides, e.cell = c := by
  rw [← not_iff_not, Bool.not_eq_true, gliding_false_iff]
  simp only [not_exists, not_and, ne_eq]

/-- The clamp holds a value at the cap for a LEVEL above it and for a NUDGE whose sum is above it. -/
theorem heldAtCap_iff (k : ChangeKind) (x : Cell) : (clampChange k x).heldAtCap = true ↔
    (∃ v, k = .level v ∧ x.cap < v) ∨ ∃ d, k = .nudge d ∧ (x.cap : Int) < x.level + d := by
  cases k with
  | level v => simp [clampChange]
  | nudge d =>
    obtain ⟨-, -, -, -, held, -⟩ := clampChange_nudge d x
    simp [held]
  | mute | unmute | pan | cap => simp [clampChange]

/-- The clamp holds a value at 0 for a NUDGE whose sum is below it. -/
theorem heldAtZero_iff (k : ChangeKind) (x : Cell) : (clampChange k x).heldAtZero = true ↔
    ∃ d, k = .nudge d ∧ (x.level : Int) + d < 0 := by
  cases k with
  | nudge d =>
    obtain ⟨-, -, -, -, -, held⟩ := clampChange_nudge d x
    simp [held]
  | level | mute | unmute | pan | cap => simp [clampChange]

/-- Settles O16, flag by flag. -/
theorem resultFlagsDescribeTheCell : Obligations.ResultFlagsDescribeTheCell := by
  unfold Obligations.ResultFlagsDescribeTheCell
  intro ch s x y f
  refine ⟨decide_eq_true_iff, decide_eq_true_iff, fun z => ?silentIsBelowUnity, rfl, gliding_true_iff _ _, heldAtCap_iff _ _,
    heldAtZero_iff _ _, rfl, rfl⟩
  have silent : y.level = 0 := of_decide_eq_true z
  exact decide_eq_true (by omega : y.level < 200)

/-! ### The four cases of a hand-off (R32 to R34) -/

theorem handOff_jumps (c : CellId) (goal : Nat) (tag : Option CueId) (s : State) :
    handOff c goal 0 tag s = glideJump c goal s := if_pos rfl

theorem handOff_retargets {c : CellId} {e : GlideEntry} {length : Nat} {s : State} (goal : Nat) (tag : Option CueId)
    (glides : length ≠ 0) (entry : s.glideOf c = some e) : handOff c goal length tag s = glideRetarget e goal length tag s := by
  simp only [handOff, glides, if_false, entry]

theorem handOff_appends {c : CellId} {length : Nat} {s : State} (goal : Nat) (tag : Option CueId)
    (glides : length ≠ 0) (free : s.glideOf c = none) (room : s.glides.length < 64) :
    handOff c goal length tag s = glideAppend c goal length tag s := by
  simp only [handOff, glides, if_false, free, glideRoom, room, if_true]

theorem handOff_overflows {c : CellId} {length : Nat} {s : State} (goal : Nat) (tag : Option CueId)
    (glides : length ≠ 0) (free : s.glideOf c = none) (full : 64 ≤ s.glides.length) :
    handOff c goal length tag s = glideOverflow c goal s := by
  simp only [handOff, glides, if_false, free, glideRoom, Nat.not_lt.mpr full]

theorem State.cell_of_cells {s t : State} (same : t.cells = s.cells) (c : CellId) : t.cell c = s.cell c :=
  congrArg (fun x => tableGet x (cellIndex c)) same

theorem State.cell_setHeard_same {s t : State} (same : t.cells = s.cells) (c : CellId) (goal : Nat) :
    (t.setHeard c goal).cell c = { s.cell c with heard := goal } := by
  rw [State.cell_setHeard, if_pos rfl, State.cell_of_cells same]

/-- Settles O17, case by case of the hand-off. -/
theorem aHandOffJumpsRetargetsOrAppends : Obligations.AHandOffJumpsRetargetsOrAppends := by
  unfold Obligations.AHandOffJumpsRetargetsOrAppends
  intro c goal length tag s t
  have free_of (notGliding : s.gliding c = false) : s.glideOf c = none := Option.isNone_iff_eq_none.mp (by
    rw [← Option.not_isSome]; exact congrArg not notGliding)
  refine ⟨fun jump => ?jumps, fun glides gliding => ?retargets, fun glides notGliding room => ?appends,
    fun glides notGliding full run => ?overflows, fun d other => ?others, handOff_frame c goal length tag s,
    handOff_grips c goal length tag s⟩
  case jumps =>
    have is : t = glideJump c goal s := by rw [← handOff_jumps c goal tag s, ← jump]
    rw [is]
    exact ⟨State.cell_setHeard_same (tagNotices_cells _ _ s) c goal,
      congrArg (List.filter _) (tagNotices_glides _ _ s), tagNotices_evl _ _ s⟩
  case retargets =>
    obtain ⟨e, entry⟩ := Option.isSome_iff_exists.mp gliding
    obtain ⟨-, own⟩ := glideOf_some entry
    have is : t = glideRetarget e goal length tag s := handOff_retargets goal tag glides entry
    rw [is, ← own]
    exact ⟨tagNotices_cells _ _ s, tagNotices_evl _ _ s, congrArg (List.map _) (tagNotices_glides _ _ s)⟩
  case appends =>
    have is : t = glideAppend c goal length tag s := handOff_appends goal tag glides (free_of notGliding) room
    rw [is]
    exact ⟨tagNotices_cells _ _ s, tagNotices_evl _ _ s, congrArg (· ++ _) (tagNotices_glides _ _ s)⟩
  case overflows =>
    have is : t = glideOverflow c goal s := handOff_overflows goal tag glides (free_of notGliding) full
    rw [is]
    exact ⟨(State.cell_of_cells (State.report_cells _ _) c).trans (State.cell_setHeard_same rfl c goal),
      State.report_glides _ _, State.latched_report_same _ _ run⟩
  case others =>
    rcases handOff_cell c d goal length tag s with same | ⟨own, -⟩
    · exact same
    · exact absurd own.symm other

/-! ### The completion of an entry (R38) -/

/-- An entry's last step takes 1 from the running cue's count if the entry carries its tag (R36). -/
theorem glideFinish_cue {e : GlideEntry} {s : State} {r : RunningCue} (last : e.remaining = 1)
    (running : s.cue.running = some r) : (glideFinish e s).cue.running =
      some (if e.tag = some r.cue then { r with outstanding := r.outstanding - 1 } else r) := by
  have advanced := advanceEntries_cue [e] s
  simp only [advanceEntries, last, Nat.le_refl, if_true] at advanced
  rw [advanced, running]
  by_cases tagged : e.tag = some r.cue <;> simp [tagged, last]

/-- Settles O18. -/
theorem anEntryWithOneBlockLeftCompletes : Obligations.AnEntryWithOneBlockLeftCompletes := by
  unfold Obligations.AnEntryWithOneBlockLeftCompletes
  intro c e s run entry last
  obtain ⟨-, own⟩ := glideOf_some entry
  have completes : glideComplete c s = (glideFinish e s).setGlides (s.glides.filter (fun x => decide (x.cell ≠ c))) := by
    simp only [glideComplete, entry, last, if_true, glideFinish_glides]
  have cell (d : CellId) : (glideComplete c s).cell d = if e.cell = d then { s.cell d with heard := e.goal } else s.cell d := by
    rw [completes]
    exact glideFinish_cell e s d
  refine ⟨glideComplete c s, congrArg Host.Outcome.next (if_pos run), ?done, fun d other => ?others, ?list, ?grips,
    glideComplete_frame c s, ?events, fun r running => ?count⟩
  case done => rw [cell, if_pos own]
  case others => rw [cell, if_neg (fun same => other (same.symm.trans own))]
  case list => rw [completes]; rfl
  case grips => rw [completes]; exact glideFinish_grips e s
  case events => rw [completes]; exact glideFinish_evl e s
  case count => rw [completes]; exact glideFinish_cue last running

/-! ### MIX COPY and MIX CLEAR (R25, R26) -/

theorem takeChanges_cons (ch : Change) (chs : List Change) (s : State) :
    takeChanges (ch :: chs) s = takeChanges chs (takeChange ch s) := rfl

/-- PAN, LEVEL and MUTE or UNMUTE of one cell, one after the other, leave the cell with all three values. -/
theorem takeChanges_copy {p l m : Change} {v : Nat} {q : Int} {on : Bool} {c : CellId} (pan : p.cell = c ∧ p.kind = .pan q)
    (level : l.cell = c ∧ l.kind = .level v) (mute : m.cell = c ∧ m.kind = if on then .mute else .unmute) (s : State) :
    let x := (takeChanges [p, l, m] s).cell c
    x.pan = q ∧ x.muted = on ∧ x.level = min v (s.cell c).cap ∧ x.cap = (s.cell c).cap := by
  obtain ⟨rfl, panKind⟩ := pan
  obtain ⟨own, levelKind⟩ := level
  obtain ⟨here, muteKind⟩ := mute
  obtain ⟨pan1, -, cap1, -⟩ := takeChange_pan panKind s
  obtain ⟨level2, -, pan2, cap2, -⟩ := takeChange_clamped levelKind (takeChange p s)
  obtain ⟨muted3, level3, cap3, pan3, -⟩ := takeChange_mute muteKind (takeChange l (takeChange p s))
  rw [own] at level2 pan2 cap2
  rw [here] at muted3 level3 cap3 pan3
  exact ⟨(pan3.trans pan2).trans pan1, muted3, (level3.trans level2).trans (congrArg (min v) cap1), (cap3.trans cap2).trans cap1⟩

/-- LEVEL 0 and UNMUTE of one cell leave its pan and its cap. -/
theorem takeChanges_clear {l m : Change} {c : CellId} (level : l.cell = c ∧ l.kind = .level 0)
    (mute : m.cell = c ∧ m.kind = .unmute) (s : State) :
    let x := (takeChanges [l, m] s).cell c
    x.level = 0 ∧ x.muted = false ∧ x.pan = (s.cell c).pan ∧ x.cap = (s.cell c).cap := by
  obtain ⟨rfl, levelKind⟩ := level
  obtain ⟨own, muteKind⟩ := mute
  obtain ⟨level1, -, pan1, cap1, -⟩ := takeChange_clamped levelKind s
  obtain ⟨muted2, level2, cap2, pan2, -⟩ := takeChange_mute (on := false) muteKind (takeChange l s)
  rw [own] at muted2 level2 cap2 pan2
  exact ⟨(level2.trans level1).trans (Nat.zero_min _), muted2, pan2.trans pan1, cap2.trans cap1⟩

/-- A compound operation on one mix, a group of changes for each of its cells, leaves the other mixes alone. -/
theorem takeChanges_otherMix {m : Fin 16} {G : Fin 48 → List Change} (own : ∀ x, ∀ ch ∈ G x, ch.cell = ⟨m, x⟩)
    {c : CellId} (other : c.mix ≠ m) (s : State) : (takeChanges ((List.finRange 48).flatMap G) s).cell c = s.cell c := by
  refine takeChanges_other _ c (fun ch member same => other ?_) s
  obtain ⟨x, -, inGroup⟩ := List.mem_flatMap.mp member
  rw [← same, own x ch inGroup]

theorem mixCopyChanges_own (a b : Fin 16) (s : State) (x : Fin 48) : ∀ ch ∈
    [engineerChange s ⟨b, x⟩ (.pan (s.cell ⟨a, x⟩).pan), engineerChange s ⟨b, x⟩ (.level (s.cell ⟨a, x⟩).level),
      engineerChange s ⟨b, x⟩ (if (s.cell ⟨a, x⟩).muted then .mute else .unmute)], ch.cell = ⟨b, x⟩ := by
  simp [engineerChange]

theorem mixClearChanges_own (m : Fin 16) (s : State) (x : Fin 48) : ∀ ch ∈
    [engineerChange s ⟨m, x⟩ (.level 0), engineerChange s ⟨m, x⟩ .unmute], ch.cell = ⟨m, x⟩ := by
  simp [engineerChange]

theorem takeMixCopy_refused {a b : Byte} (above : 15 < a.toNat ∨ 15 < b.toNat) (s : State) :
    takeMixCopy a b s = refuseConsole s := by
  unfold takeMixCopy
  split
  · next first second =>
    rcases above with above | above
    · exact absurd ((inRange_above above).symm.trans first) (by simp)
    · exact absurd ((inRange_above above).symm.trans second) (by simp)
  · rfl

/-- Settles O46. The statement's hypothesis on levels and caps is not needed. -/
theorem mixCopyAndMixClearEditTheMix : Obligations.MixCopyAndMixClearEditTheMix := by
  unfold Obligations.MixCopyAndMixClearEditTheMix
  refine ⟨⟨fun a b s ready _ => ?copy, fun a b s ready above => ?copyRefused⟩, fun m s ready => ?clear,
    fun m s ready above => ?clearRefused⟩
  case copy =>
    refine ⟨takeChanges (mixCopyChanges a b s) (s.setEli (eliAfter s)), congrArg Host.Outcome.next
      (sendCommand_inner ready .mixCopy rfl rfl 2 rfl _ rfl _ (inner_takeChanges _) ?taken), fun src => ?cell,
      fun c other => takeChanges_otherMix (mixCopyChanges_own a b s) other _, takeChanges_frame _ _⟩
    case taken =>
      simp only [takeCode, takeMixCopy, inRange_byteOfNat a (by decide), inRange_byteOfNat b (by decide)]
      rfl
    case cell =>
      obtain ⟨u, same, grouped⟩ := takeChanges_groups b _ (mixCopyChanges_own a b s) (List.finRange 48)
        (List.nodup_finRange 48) (s.setEli (eliAfter s)) src (List.mem_finRange src)
      obtain ⟨pan, muted, level, cap⟩ := takeChanges_copy (c := ⟨b, src⟩) (on := (s.cell ⟨a, src⟩).muted)
        (p := engineerChange s ⟨b, src⟩ (.pan (s.cell ⟨a, src⟩).pan))
        (l := engineerChange s ⟨b, src⟩ (.level (s.cell ⟨a, src⟩).level))
        (m := engineerChange s ⟨b, src⟩ (if (s.cell ⟨a, src⟩).muted then .mute else .unmute))
        ⟨rfl, rfl⟩ ⟨rfl, rfl⟩ ⟨rfl, rfl⟩ u
      rw [same] at level cap
      rw [mixCopyChanges, grouped]
      exact ⟨pan, muted, level, cap⟩
  case copyRefused =>
    exact CommandReady.refuses (c := .mixCopy) (ops := [a, b]) ready ⟨rfl, rfl, rfl⟩ (takeMixCopy_refused above _)
  case clear =>
    refine ⟨takeChanges (mixClearChanges m s) (s.setEli (eliAfter s)), congrArg Host.Outcome.next
      (sendCommand_inner ready .mixClear rfl rfl 1 rfl _ rfl _ (inner_takeChanges _) ?wiped), fun src => ?cleared,
      fun c other => takeChanges_otherMix (mixClearChanges_own m s) other _, takeChanges_frame _ _⟩
    case wiped =>
      simp only [takeCode, takeMixClear, inRange_byteOfNat m (by decide)]
      rfl
    case cleared =>
      obtain ⟨u, same, grouped⟩ := takeChanges_groups m _ (mixClearChanges_own m s) (List.finRange 48)
        (List.nodup_finRange 48) (s.setEli (eliAfter s)) src (List.mem_finRange src)
      have cleared := takeChanges_clear (c := ⟨m, src⟩) (l := engineerChange s ⟨m, src⟩ (.level 0)) ⟨rfl, rfl⟩
        (m := engineerChange s ⟨m, src⟩ .unmute) ⟨rfl, rfl⟩ u
      rw [same] at cleared
      rw [mixClearChanges, grouped]
      exact cleared
  case clearRefused =>
    refine CommandReady.refuses (c := .mixClear) (ops := [m]) ready ⟨rfl, rfl, rfl⟩ ?_
    simp only [takeCode, takeMixClear, inRange_above above]

end Sys2Proof.Machine
end

-- The block end (R171): glides, idle blocks, fade-ins, ports and cues at it, each from the part of it that does the work.
section
namespace Sys2Proof.Machine

/-! ### What each block finds and leaves at a block end -/

/-- What follows CUE at a block end leaves CUE's work, the matrix and the glides as they are. -/
theorem blockEnd_afterCue (a b : PortBlock) (h : Bool) {s : State} (run : s.run = .run) :
    TailKept (cueBlockEnd (glideAdvance (sourceBlockEnd a b s))) (blockEnd a b h s) := by
  rw [blockEnd_eq a b h s run]
  exact blockEndTail_kept h _

/-- A block end leaves ELI, the lockout level and the waiting commands. -/
theorem blockEnd_kept (a b : PortBlock) (h : Bool) {s : State} (run : s.run = .run) :
    (blockEnd a b h s).eli = s.eli ∧ (blockEnd a b h s).pending = s.pending ∧ (blockEnd a b h s).lockout = s.lockout := by
  have tail := blockEnd_afterCue a b h run
  have head := blockEndHead_frame a b s
  obtain ⟨-, -, -, eli, -, -, -, pending, lockout, -⟩ := sourceBlockEnd_kept a b s
  exact ⟨(tail.eli.trans head.eli).trans eli, (tail.pending.trans head.pending).trans pending,
    (tail.lockout.trans head.lockout).trans lockout⟩

theorem glideAdvance_run (a b : PortBlock) (s : State) : (glideAdvance (sourceBlockEnd a b s)).run = s.run := by
  obtain ⟨-, -, -, -, -, -, -, -, -, run⟩ := sourceBlockEnd_kept a b s
  exact (glideAdvance_frame _).outer.run.trans run

/-! ### CUE at a block end (R61 to R63) -/

theorem cueBlockEnd_idle {s : State} (phase : s.cue.phase = .idle) : cueBlockEnd s = s := by
  simp only [cueBlockEnd, phase]

theorem cueBlockEnd_fading {s : State} (phase : s.cue.phase = .fading) : cueBlockEnd s = completionCheck s := by
  simp only [cueBlockEnd, phase]

theorem cueBlockEnd_counts {s : State} (phase : s.cue.phase = .followWait) (left : 2 ≤ s.cue.timer) :
    cueBlockEnd s = s.setCue { s.cue with timer := s.cue.timer - 1 } := by
  simp only [cueBlockEnd, phase]
  exact if_neg (by omega)

theorem cueBlockEnd_expires {s : State} (phase : s.cue.phase = .followWait) (last : s.cue.timer = 1) :
    cueBlockEnd s = fireNext (s.setCue { s.cue with timer := 0, phase := .idle }) := by
  simp only [cueBlockEnd, phase]
  exact if_pos (by omega)

theorem completionCheck_waits {s : State} {r : RunningCue} (phase : s.cue.phase = .fading) (running : s.cue.running = some r)
    (left : r.outstanding ≠ 0) : completionCheck s = s := by
  simp only [completionCheck, phase, running, left, if_false]

theorem completionCheck_completes {s : State} {r : RunningCue} (phase : s.cue.phase = .fading)
    (running : s.cue.running = some r) (none_left : r.outstanding = 0) : completionCheck s =
      followOnHandling r.followOn ((s.report .cueDone).setCue { s.cue with running := none }) := by
  simp only [completionCheck, phase, running, none_left, if_true, State.report_cue]

theorem followOnHandling_held (f : FollowOn) {s : State} (hold : s.cue.hold = true) : followOnHandling (some f) s =
    s.setCue { s.cue with nextPointer := some f.cue, phase := .idle } := by
  simp only [followOnHandling, State.setCue_cue, hold, if_true]

theorem followOnHandling_waits {f : FollowOn} {s : State} (hold : s.cue.hold = false) (wait : f.wait ≠ 0) :
    followOnHandling (some f) s =
      s.setCue { s.cue with nextPointer := some f.cue, phase := .followWait, timer := f.wait } := by
  simp only [followOnHandling, State.setCue_cue, hold, wait, Bool.false_eq_true, if_false]
  rfl

theorem followOnHandling_fires {f : FollowOn} {s : State} (hold : s.cue.hold = false) (wait : f.wait = 0) :
    followOnHandling (some f) s = fireNext (s.setCue { s.cue with nextPointer := some f.cue, phase := .idle }) := by
  simp only [followOnHandling, State.setCue_cue, hold, wait, Bool.false_eq_true, if_false, if_true]

theorem LatchKept.followOnHandling (f : Option FollowOn) (s : State) : LatchKept s (followOnHandling f s) := by
  unfold Machine.followOnHandling
  cases f with
  | none => exact LatchKept.of_eq rfl
  | some f =>
    simp only
    split
    · exact LatchKept.of_eq rfl
    · split
      · exact (LatchKept.fireNext _).after rfl
      · exact LatchKept.of_eq rfl

/-! ### The advance of the glides (R38) -/

/-- What CUE, with nothing to complete or fire, makes of its record at a block end. -/
theorem cueBlockEnd_quiet {s : State} (quiet : s.cue.phase = .idle ∨
    (s.cue.phase = .fading ∧ ∃ r, s.cue.running = some r ∧ r.outstanding ≠ 0) ∨ (s.cue.phase = .followWait ∧ 2 ≤ s.cue.timer)) :
    cueBlockEnd s = s.setCue { s.cue with
      timer := if s.cue.phase = .followWait then s.cue.timer - 1 else s.cue.timer } := by
  rcases quiet with phase | ⟨phase, r, running, left⟩ | ⟨phase, left⟩
  · rw [cueBlockEnd_idle phase, phase]; rfl
  · rw [cueBlockEnd_fading phase, completionCheck_waits phase running left, phase]; rfl
  · rw [cueBlockEnd_counts phase left, phase]; rfl

/-- Settles O19. -/
theorem aBlockEndAdvancesTheGlides : Obligations.ABlockEndAdvancesTheGlides := by
  unfold Obligations.ABlockEndAdvancesTheGlides
  intro a b h s run once quiet
  obtain ⟨advanced, cue⟩ := glideAdvance_advanced a b s once
  have tail := blockEnd_afterCue a b h run
  obtain ⟨eli, pending, -⟩ := blockEnd_kept a b h run
  have stillQuiet := cueBlockEnd_quiet (s := glideAdvance (sourceBlockEnd a b s)) (by
    rw [cue]
    refine quiet.imp id (Or.imp (fun fading => ?_) id)
    obtain ⟨phase, r, running, left⟩ := fading
    exact ⟨phase, _, congrArg (Option.map _) running, Nat.sub_ne_zero_of_lt left⟩)
  rw [stillQuiet] at tail
  refine ⟨_, rfl, advanced.of tail.cells tail.glides, tail.cue.trans ?_, eli, pending⟩
  rw [State.setCue_cue, cue]

/-! ### Idle blocks and fade-ins (R84, R179) -/

theorem blockEnd_out (a b : PortBlock) (h : Bool) {s : State} (run : s.run = .run) :
    (blockEnd a b h s).out = (fadeBlockEnd s).out := by
  have link : (linkBlockEnd h (idleBlockEnd (blockEndHead a b s))).out = s.out := by
    obtain ⟨-, -, -, -, -, -, source, -, -, -⟩ := sourceBlockEnd_kept a b s
    exact (linkBlockEnd_out h _).trans ((blockEndHead_frame a b s).out.trans source)
  rw [blockEnd_eq a b h s run]
  refine (showBlockEnd_out _).1.trans ?_
  unfold fadeBlockEnd
  rw [link]
  cases s.out.hush
  · rfl
  · exact link

theorem fadeBlockEnd_record (s : State) (m : Fin 16) : (fadeBlockEnd s).outputRecord m =
    { s.outputRecord m with
      fadeIn := if s.out.hush = false ∧ (s.outputRecord m).fadeIn < 32 then (s.outputRecord m).fadeIn + 1
        else (s.outputRecord m).fadeIn } := by
  unfold fadeBlockEnd
  cases hushed : s.out.hush with
  | true => simp
  | false =>
    simp only [Bool.false_eq_true, if_false, true_and]
    exact tableGet_map s.out.records _ m

theorem fadeBlockEnd_hush (s : State) : (fadeBlockEnd s).out.hush = s.out.hush := by
  unfold fadeBlockEnd
  cases hushed : s.out.hush with
  | true => exact hushed
  | false => exact hushed

/-- Settles O20. -/
theorem aBlockEndCountsIdleBlocksAndFadeIns : Obligations.ABlockEndCountsIdleBlocksAndFadeIns := by
  unfold Obligations.ABlockEndCountsIdleBlocksAndFadeIns
  intro a b h s run
  obtain ⟨⟨-, stations, -, -⟩, -, link, ticked⟩ := blockEnd_band a b h s run
  obtain ⟨eli, -, lockout⟩ := blockEnd_kept a b h run
  have out := blockEnd_out a b h run
  refine ⟨_, rfl, fun n notSelected => ?idle, fun m => ?fadeIn, lockout, ?hush, eli⟩
  case idle =>
    refine (congrArg (tableGet · n) stations).trans ((linkBlockEnd_station h _ n (by rwa [link])).trans ?_)
    rw [State.station, ticked, tableGet_map]
    rfl
  case fadeIn => exact (congrArg (fun x : Outputs => tableGet x.records m) out).trans (fadeBlockEnd_record s m)
  case hush => rw [out, fadeBlockEnd_hush]

/-! ### The source ports (R167, R168, R170, R172) -/

/-- The sources once a block end has captured the block and judged both ports, the active port not yet evaluated. -/
def judgedSources (a b : PortBlock) (s : State) : Sources :=
  { s.src with
    captured := captureBlock s.src.active a b
    portA := judgePort a.good s.src.portA
    portB := judgePort b.good s.src.portB }

theorem blockEnd_sources (a b : PortBlock) (h : Bool) {s : State} (run : s.run = .run) : (blockEnd a b h s).src =
    { judgedSources a b s with active := (selectPort (judgedSources a b s)).active } :=
  (blockEnd_src a b h s run).trans (sourceBlockEnd_src a b s)

/-- The event of the evaluation is latched, and nothing later in the block end clears it. -/
theorem blockEnd_latches (a b : PortBlock) (h : Bool) {s : State} (run : s.run = .run) {e : Event}
    (event : (selectPort (judgedSources a b s)).event = some e) : (blockEnd a b h s).latched e = true := by
  refine blockEnd_latchKept a b h s run e ?_
  have reports : sourceBlockEnd a b s = (s.setSrc { judgedSources a b s with
      active := (selectPort (judgedSources a b s)).active }).report e := by
    show (match (selectPort (judgedSources a b s)).event with
      | none => s.setSrc { judgedSources a b s with active := (selectPort (judgedSources a b s)).active }
      | some e => (s.setSrc { judgedSources a b s with active := (selectPort (judgedSources a b s)).active }).report e) = _
    rw [event]
  rw [reports]
  exact State.latched_report_same _ e run

theorem judgePort_locked_good {r : PortRecord} (locked : r.locked = true) : judgePort true r = { r with badRun := 0 } := by
  simp only [judgePort, locked, if_true]

theorem judgePort_locked_bad {r : PortRecord} (locked : r.locked = true) (low : r.badRun < 3) :
    judgePort false r = { r with badRun := r.badRun + 1 } := by
  simp only [judgePort, locked, low, if_true, Bool.false_eq_true, if_false]

theorem judgePort_unlocks {r : PortRecord} (locked : r.locked = true) (last : r.badRun = 3) :
    judgePort false r = { locked := false, badRun := 0, goodRun := 0 } := by
  simp only [judgePort, locked, last, Nat.lt_irrefl, if_true, Bool.false_eq_true, if_false]

theorem judgePort_unlocked_good {r : PortRecord} (unlocked : r.locked = false) (low : r.goodRun < 15) :
    judgePort true r = { r with goodRun := r.goodRun + 1 } := by
  simp only [judgePort, unlocked, low, if_true, Bool.false_eq_true, if_false]

theorem judgePort_locks {r : PortRecord} (unlocked : r.locked = false) (last : r.goodRun = 15) :
    judgePort true r = { locked := true, badRun := 0, goodRun := 0 } := by
  simp only [judgePort, unlocked, last, Nat.lt_irrefl, if_true, Bool.false_eq_true, if_false]

theorem judgePort_unlocked_bad {r : PortRecord} (unlocked : r.locked = false) :
    judgePort false r = { r with goodRun := 0 } := by
  simp only [judgePort, unlocked, Bool.false_eq_true, if_false]

/-- The judgement of a port by the six rows of R167. -/
theorem judgePort_rows (good : Bool) (r : PortRecord) :
    (r.locked = true → good = true → judgePort good r = { r with badRun := 0 }) ∧
    (r.locked = true → good = false → r.badRun < 3 → judgePort good r = { r with badRun := r.badRun + 1 }) ∧
    (r.locked = true → good = false → r.badRun = 3 → judgePort good r = { locked := false, badRun := 0, goodRun := 0 }) ∧
    (r.locked = false → good = true → r.goodRun < 15 → judgePort good r = { r with goodRun := r.goodRun + 1 }) ∧
    (r.locked = false → good = true → r.goodRun = 15 → judgePort good r = { locked := true, badRun := 0, goodRun := 0 }) ∧
    (r.locked = false → good = false → judgePort good r = { r with goodRun := 0 }) :=
  ⟨fun locked good => good ▸ judgePort_locked_good locked, fun locked bad low => bad ▸ judgePort_locked_bad locked low,
    fun locked bad last => bad ▸ judgePort_unlocks locked last,
    fun unlocked good low => good ▸ judgePort_unlocked_good unlocked low,
    fun unlocked good last => good ▸ judgePort_locks unlocked last, fun unlocked bad => bad ▸ judgePort_unlocked_bad unlocked⟩

theorem sourceSamples_nothing {x : Sources} (nothing : x.captured = []) (src : Fin 48) : sourceSamples x src = [] := by
  unfold sourceSamples
  rw [nothing]
  cases tableGet x.patch src <;> rfl

/-- With every source silent a mix sum is silence. -/
theorem mixSum_silent {s : State} (silent : ∀ src, sourceSamples s.src src = []) (m : Fin 16) :
    mixSum m s = StereoBlock.silence := by
  have stays (l : List (Fin 48)) : l.foldl (fun block src =>
      addContribution (gain (s.cell ⟨m, src⟩).heard * panLeft (s.cell ⟨m, src⟩).pan)
        (gain (s.cell ⟨m, src⟩).heard * panRight (s.cell ⟨m, src⟩).pan) block (sourceSamples s.src src))
      StereoBlock.silence = StereoBlock.silence := by
    induction l with
    | nil => rfl
    | cons src l ih => rw [List.foldl_cons, silent, addContribution_nil, ih]
  exact stays _

/-- Settles O21. -/
theorem portsAreJudgedAtTheBlockEnd : Obligations.PortsAreJudgedAtTheBlockEnd := by
  unfold Obligations.PortsAreJudgedAtTheBlockEnd
  refine ⟨fun a b h s p run => ⟨_, rfl, ?judged, ?mode, ?patch, ?pending⟩, fun a b h s run => ⟨_, rfl, ?heard, ?silent⟩,
    fun x src => ⟨?unpatched, ?patched⟩, fun p s run unlocked last => ?locks, fun p s run locked last => ?unlocks⟩
  case judged =>
    rw [blockEnd_sources a b h run]
    cases p with
    | a => exact judgePort_rows a.good s.src.portA
    | b => exact judgePort_rows b.good s.src.portB
  case mode | patch | pending => rw [blockEnd_sources a b h run]; rfl
  case heard =>
    intro p active good
    rw [blockEnd_sources a b h run]
    cases p with
    | a | b => simp only [judgedSources, captureBlock, active]; exact if_pos good
  case silent =>
    intro nothing
    have captured : (blockEnd a b h s).src.captured = [] := by
      rw [blockEnd_sources a b h run]
      rcases nothing with active | ⟨p, active, bad⟩
      · simp only [judgedSources, captureBlock, active]
      · cases p with
        | a | b => simp only [judgedSources, captureBlock, active]; exact if_neg (Bool.eq_false_iff.mp bad)
    exact ⟨sourceSamples_nothing captured, mixSum_silent (sourceSamples_nothing captured)⟩
  case unpatched => exact fun free => by simp only [sourceSamples, free]
  case patched => exact fun ch patched => by simp only [sourceSamples, patched]
  case locks =>
    refine congrArg Host.Outcome.next ((if_pos ⟨run, unlocked, last⟩).trans ?_)
    rw [judgePort_locks unlocked last]
  case unlocks =>
    refine congrArg Host.Outcome.next ((if_pos ⟨run, locked, last⟩).trans ?_)
    rw [judgePort_unlocks locked last]

/-- The evaluation of the active port under AUTO (R170). -/
theorem selectPort_auto {x : Sources} (auto : x.mode = .auto) :
    (∀ p, x.active = some p → (x.port p).locked = true → selectPort x = ⟨some p, none⟩) ∧
    (∀ p, x.active = some p → (x.port p).locked = false → (x.port (otherPort p)).locked = true →
      selectPort x = ⟨some (otherPort p), some .sourceSwitch⟩) ∧
    (∀ p, x.active = some p → (x.port p).locked = false → (x.port (otherPort p)).locked = false →
      selectPort x = ⟨none, some .sourceLost⟩) ∧
    (x.active = none → x.portA.locked = true → selectPort x = ⟨some .a, some .sourceRestored⟩) ∧
    (x.active = none → x.portA.locked = false → x.portB.locked = true → selectPort x = ⟨some .b, some .sourceRestored⟩) ∧
    (x.active = none → x.portA.locked = false → x.portB.locked = false → selectPort x = ⟨none, none⟩) := by
  refine ⟨fun p active own => ?_, fun p active own other => ?_, fun p active own other => ?_, fun active isA => ?_,
    fun active isA isB => ?_, fun active isA isB => ?_⟩
  · simp only [selectPort, auto, active, own, if_true]
  · simp only [selectPort, auto, active, own, other, Bool.false_eq_true, if_true, if_false]
  · simp only [selectPort, auto, active, own, other, Bool.false_eq_true, if_false]
  · simp only [selectPort, auto, active, isA, if_true]
  · simp only [selectPort, auto, active, isA, isB, Bool.false_eq_true, if_true, if_false]
  · simp only [selectPort, auto, active, isA, isB, Bool.false_eq_true, if_false]

theorem otherPort_ne (p : Port) : otherPort p ≠ p := by cases p <;> decide

/-- The evaluation of the active port under FORCE (R170). -/
theorem selectPort_force {x : Sources} {p : Port} (force : x.mode = .force p) :
    ((x.port p).locked = true → (selectPort x).active = some p) ∧
    ((x.port p).locked = true → x.active = some (otherPort p) → (selectPort x).event = some .sourceSwitch) ∧
    ((x.port p).locked = true → x.active = none → (selectPort x).event = some .sourceRestored) ∧
    ((x.port p).locked = false → (selectPort x).active = none) ∧
    ((x.port p).locked = false → x.active ≠ none → (selectPort x).event = some .sourceLost) := by
  refine ⟨fun locked => ?_, fun locked active => ?_, fun locked active => ?_, fun unlocked => ?_, fun unlocked active => ?_⟩
  · cases active : x.active with
    | none => simp only [selectPort, force, active, locked, if_true]
    | some q => by_cases same : q = p <;> simp only [selectPort, force, active, locked, same, if_true, if_false]
  · simp only [selectPort, force, active, locked, otherPort_ne, if_true, if_false]
  · simp only [selectPort, force, active, locked, if_true]
  · cases active : x.active with
    | none | some => simp only [selectPort, force, active, unlocked, Bool.false_eq_true, if_false]
  · obtain ⟨q, active⟩ := Option.ne_none_iff_exists'.mp active
    simp only [selectPort, force, active, unlocked, Bool.false_eq_true, if_false]

theorem port_withActive (x : Sources) (o : Option Port) (p : Port) : ({ x with active := o } : Sources).port p = x.port p := by
  cases p <;> rfl

/-- Settles O22, from the two tables of the evaluation. -/
theorem theActivePortFollowsTheLocks : Obligations.TheActivePortFollowsTheLocks := by
  unfold Obligations.TheActivePortFollowsTheLocks
  intro a b h s run
  have sources := blockEnd_sources a b h run
  have active : (blockEnd a b h s).src.active = (selectPort (judgedSources a b s)).active := by rw [sources]
  have port (p : Port) : (blockEnd a b h s).src.port p = (judgedSources a b s).port p := by rw [sources, port_withActive]
  have portA : (blockEnd a b h s).src.portA = (judgedSources a b s).portA := port .a
  have portB : (blockEnd a b h s).src.portB = (judgedSources a b s).portB := port .b
  have chooses {o : Option Port} {e : Event} (chosen : selectPort (judgedSources a b s) = ⟨o, some e⟩) :
      (blockEnd a b h s).src.active = o ∧ (blockEnd a b h s).latched e = true :=
    ⟨by rw [active, chosen], blockEnd_latches a b h run (by rw [chosen])⟩
  have keeps {o : Option Port} (chosen : selectPort (judgedSources a b s) = ⟨o, none⟩) :
      (blockEnd a b h s).src.active = o := by rw [active, chosen]
  refine ⟨_, rfl, fun auto => ?auto, fun x force => ?force⟩
  case auto =>
    obtain ⟨stays, switches, lost, restoredA, restoredB, silent⟩ := selectPort_auto (x := judgedSources a b s) auto
    simp only [port, portA, portB]
    exact ⟨fun p on own => keeps (stays p on own), fun p on own other => chooses (switches p on own other),
      fun p on own other => chooses (lost p on own other), fun on isA => chooses (restoredA on isA),
      fun on isA isB => chooses (restoredB on isA isB), fun on isA isB => keeps (silent on isA isB)⟩
  case force =>
    obtain ⟨taken, switched, restored, dropped, lost⟩ := selectPort_force (x := judgedSources a b s) force
    simp only [port, active]
    exact ⟨taken, fun locked on => blockEnd_latches a b h run (switched locked on),
      fun locked on => blockEnd_latches a b h run (restored locked on), dropped,
      fun unlocked on => blockEnd_latches a b h run (lost unlocked on)⟩

/-! ### The completion of a cue (R61 to R63) -/

/-- CUE_DONE is latched by the completion, and what follows clears no mark. -/
theorem completionCheck_latches {s : State} {r : RunningCue} (run : s.run = .run) (phase : s.cue.phase = .fading)
    (running : s.cue.running = some r) (none_left : r.outstanding = 0) : (completionCheck s).latched .cueDone = true := by
  rw [completionCheck_completes phase running none_left]
  exact LatchKept.followOnHandling _ _ _ (State.latched_report_same s .cueDone run)

/-- The four ways on from a completion (R62). -/
theorem completionCheck_ways {s : State} {r : RunningCue} (phase : s.cue.phase = .fading) (running : s.cue.running = some r)
    (none_left : r.outstanding = 0) :
    let done := s.report .cueDone
    (r.followOn = none → completionCheck s = done.setCue { s.cue with running := none, phase := .idle }) ∧
    (∀ f, r.followOn = some f → s.cue.hold = true →
      completionCheck s = done.setCue { s.cue with running := none, nextPointer := some f.cue, phase := .idle }) ∧
    (∀ f, r.followOn = some f → s.cue.hold = false → f.wait ≠ 0 → completionCheck s = done.setCue
      { s.cue with running := none, nextPointer := some f.cue, phase := .followWait, timer := f.wait }) ∧
    ∀ f, r.followOn = some f → s.cue.hold = false → f.wait = 0 → completionCheck s =
      fireNext (done.setCue { s.cue with running := none, nextPointer := some f.cue, phase := .idle }) := by
  have completes := completionCheck_completes phase running none_left
  refine ⟨fun last => ?_, fun f next hold => ?_, fun f next hold wait => ?_, fun f next hold wait => ?_⟩
  · rw [completes, last]; rfl
  · rw [completes, next, followOnHandling_held f (by exact hold)]; rfl
  · rw [completes, next, followOnHandling_waits (by exact hold) wait]; rfl
  · rw [completes, next, followOnHandling_fires (by exact hold) wait]; rfl

/-- Settles O24: as commands of their own, and inside BLOCK_END from what GLU's advance leaves. -/
theorem aCueCompletesAndItsFollowOnRuns : Obligations.ACueCompletesAndItsFollowOnRuns := by
  unfold Obligations.ACueCompletesAndItsFollowOnRuns
  refine ⟨fun r s run phase running none_left => ?cueDone, ⟨fun s run phase last => ?expiry, fun a b h s run phase left => ?counts⟩,
    fun a b h r s run once phase running left => ?completes, fun a b h s run once phase last running => ?expires⟩
  case cueDone =>
    have own : exec .cueDone s = .next (completionCheck s) := congrArg Host.Outcome.next (if_pos run)
    rw [own]
    obtain ⟨idle, held, waits, fires⟩ := completionCheck_ways phase running none_left
    rw [State.report_in_run s .cueDone run] at idle held waits fires
    exact ⟨fun last => congrArg Host.Outcome.next (idle last), fun f next hold => congrArg Host.Outcome.next (held f next hold),
      fun f next hold wait => congrArg Host.Outcome.next (waits f next hold wait),
      fun f next hold wait => congrArg Host.Outcome.next (fires f next hold wait)⟩
  case expiry =>
    exact congrArg Host.Outcome.next ((if_pos run).trans (if_pos ⟨phase, by omega⟩))
  case counts =>
    have tail := blockEnd_afterCue a b h run
    obtain ⟨-, -, cueSame, -⟩ := sourceBlockEnd_kept a b s
    have cue := (glideAdvance_frame (sourceBlockEnd a b s)).cue
    rw [cueSame] at cue
    rw [cueBlockEnd_counts (by rw [cue]; exact phase) (by rw [cue]; exact left)] at tail
    refine ⟨_, rfl, ?_⟩
    rw [tail.cue, State.setCue_cue, cue]
    exact ⟨phase, rfl, rfl, rfl, rfl, rfl⟩
  case completes =>
    obtain ⟨advanced, cue⟩ := glideAdvance_advanced a b s once
    have tail := blockEnd_afterCue a b h run
    have runs := (glideAdvance_run a b s).trans run
    revert advanced cue tail runs
    generalize glideAdvance (sourceBlockEnd a b s) = u
    intro advanced cue tail runs
    rw [running] at cue
    have fading : u.cue.phase = .fading := by rw [cue]; exact phase
    have counted : u.cue.running = some { r with outstanding := r.outstanding - tagsLost r.cue s } := by rw [cue]; rfl
    have none_left : r.outstanding - tagsLost r.cue s = 0 := Nat.sub_eq_zero_of_le left
    obtain ⟨idle, held, waits, fires⟩ := completionCheck_ways fading counted none_left
    have latched := completionCheck_latches runs fading counted none_left
    rw [cueBlockEnd_fading fading] at tail
    rw [cue] at idle held waits fires
    have still (x : CueEngine) : GlidesAdvanced s ((u.report .cueDone).setCue x) :=
      advanced.of (State.report_cells _ _) (State.report_glides _ _)
    have left_as {x : CueEngine} (is : completionCheck u = (u.report .cueDone).setCue x) :
        GlidesAdvanced s (blockEnd a b h s) ∧ (blockEnd a b h s).cue = x := by
      rw [is] at tail
      exact ⟨(still x).of tail.cells tail.glides, tail.cue⟩
    refine ⟨_, rfl, tail.latch _ latched, fun last => left_as (idle last), fun f next hold => left_as (held f next hold),
      fun f next hold wait => left_as (waits f next hold wait), fun f next hold wait => ⟨_, still _, rfl, ?runs, ?_⟩⟩
    case runs => exact (State.report_run _ _).trans runs
    rw [fires f next hold wait] at tail
    exact ⟨tail.cells, tail.glides, tail.cue, tail.latch⟩
  case expires =>
    obtain ⟨advanced, cue⟩ := glideAdvance_advanced a b s once
    have tail := blockEnd_afterCue a b h run
    have runs := (glideAdvance_run a b s).trans run
    revert advanced cue tail runs
    generalize glideAdvance (sourceBlockEnd a b s) = u
    intro advanced cue tail runs
    rw [running] at cue
    rw [cueBlockEnd_expires (by rw [cue]; exact phase) (by rw [cue]; exact last)] at tail
    refine ⟨_, u.setCue { u.cue with timer := 0, phase := .idle }, rfl, advanced.of rfl rfl, ?cue, runs, tail.cells,
      tail.glides, tail.cue, tail.latch⟩
    case cue =>
      rw [State.setCue_cue, cue, Option.map_none, ← running]

end Sys2Proof.Machine
end

-- The block start (R173, R174, R176, R177): patches, sums, the output stage, and the factors inside their bounds.
section
namespace Sys2Proof.Machine

/-! ### The output stage (R176, R177) -/

theorem formOutputs_out (s : State) : (formOutputs s).out = { s.out with
    records := Vector.ofFn (fun m => countHit m s)
    delivered := Vector.ofFn (fun m => outputBlock m s)
    tone := nextTone s.out.tone } := by
  unfold formOutputs
  simp only
  split
  · rw [State.report_out]; rfl
  · rfl

theorem formOutputs_record (s : State) (m : Fin 16) : (formOutputs s).outputRecord m = countHit m s := by
  rw [State.outputRecord, formOutputs_out, tableGet_ofFn]

theorem formOutputs_delivered (s : State) (m : Fin 16) : tableGet (formOutputs s).out.delivered m = outputBlock m s := by
  rw [formOutputs_out, tableGet_ofFn]

/-- OUT's work at a block start touches OUT and the events alone. -/
theorem formOutputs_kept (s : State) : (formOutputs s).src = s.src ∧ (formOutputs s).cells = s.cells ∧
    (formOutputs s).glides = s.glides ∧ (formOutputs s).cue = s.cue ∧ (formOutputs s).link = s.link ∧
    (formOutputs s).eli = s.eli := by
  unfold formOutputs
  simp only
  split <;> simp only [State.report_src, State.report_cells, State.report_glides, State.report_cue, State.report_link,
    State.report_eli, State.setOut_src, State.setOut_cells, State.setOut_glides, State.setOut_cue, State.setOut_link,
    State.setOut_eli, and_self]

theorem formOutputs_latches {s : State} {m : Fin 16} (run : s.run = .run) (hot : exceedsCeiling m s = true) :
    (formOutputs s).latched .ceiling = true := by
  have some_hot : (List.finRange 16).any (fun m => exceedsCeiling m s) = true :=
    List.any_eq_true.mpr ⟨m, List.mem_finRange m, hot⟩
  simp only [formOutputs, some_hot, if_true]
  exact State.latched_report_same _ _ run

theorem outputSilenced_true {m : Fin 16} {s : State} (silenced : (s.outputRecord m).mode = .off ∨ s.out.hush = true) :
    outputSilenced m s = true := by
  simpa [outputSilenced] using silenced

theorem outputSilenced_false {m : Fin 16} {s : State} (mode : (s.outputRecord m).mode ≠ .off) (hush : s.out.hush = false) :
    outputSilenced m s = false := by
  simp [outputSilenced, mode, hush]

theorem exceedsCeiling_silenced {m : Fin 16} {s : State} (silenced : outputSilenced m s = true) :
    exceedsCeiling m s = false := by
  simp [exceedsCeiling, silenced]

theorem exceedsCeiling_iff {m : Fin 16} {s : State} (open_ : outputSilenced m s = false) :
    exceedsCeiling m s = true ↔ gain (s.outputRecord m).ceiling < blockPeak (outputSource m s) := by
  simp [exceedsCeiling, open_]

/-- A silenced mix delivers silence and keeps its record. -/
theorem outputBlock_silenced {m : Fin 16} {s : State} (silenced : outputSilenced m s = true) :
    outputBlock m s = StereoBlock.silence ∧ countHit m s = s.outputRecord m := by
  constructor
  · simp only [outputBlock, silenced, if_true]
  · simp only [countHit, exceedsCeiling_silenced silenced, Bool.false_eq_true, if_false]

/-- A block inside its ceiling is faded and clipped. -/
theorem outputBlock_within {m : Fin 16} {s : State} (open_ : outputSilenced m s = false) (within : exceedsCeiling m s = false) :
    countHit m s = s.outputRecord m ∧ outputBlock m s =
      (scaleBlock (((s.outputRecord m).fadeIn : Rat) / 32) (outputSource m s)).map
        (fun x => (clipSample x.1, clipSample x.2)) := by
  constructor
  · simp only [countHit, within, Bool.false_eq_true, if_false]
  · simp only [outputBlock, open_, within, Bool.false_eq_true, if_false]

/-- A block above its ceiling is a hit, and is scaled down to it first. -/
theorem outputBlock_hot {m : Fin 16} {s : State} (open_ : outputSilenced m s = false) (hot : exceedsCeiling m s = true) :
    countHit m s = { s.outputRecord m with hits := min ((s.outputRecord m).hits + 1) 65535 } ∧ outputBlock m s =
      (scaleBlock (((s.outputRecord m).fadeIn : Rat) / 32)
        (scaleBlock (gain (s.outputRecord m).ceiling / blockPeak (outputSource m s)) (outputSource m s))).map
          (fun x => (clipSample x.1, clipSample x.2)) := by
  constructor
  · simp only [countHit, hot, if_true]
  · simp only [outputBlock, open_, hot, Bool.false_eq_true, if_true, if_false]

theorem outputSource_on {m : Fin 16} {s : State} (mode : (s.outputRecord m).mode ≠ .off) : outputSource m s =
    match (s.outputRecord m).mode with
    | .normal => mixSum m s
    | .mirror => mixSum (s.outputRecord m).target s
    | _ => toneBlock s.out.tone := by
  unfold outputSource
  cases on : (s.outputRecord m).mode with
  | off => exact absurd on mode
  | normal | mirror | tone => rfl

/-! ### The sums (R174) -/

/-- Contributions added one after the other add up, sample by sample. -/
theorem foldl_addContribution (left right : Fin 48 → Rat) (samples : Fin 48 → List Rat) (l : List (Fin 48)) (block : StereoBlock) :
    let sums := l.foldl (fun b src => addContribution (left src) (right src) b (samples src)) block
    sums.length = block.length ∧ ∀ i < block.length, sums.getD i (0, 0) =
      ((block.getD i (0, 0)).1 + (l.map (fun src => (samples src).getD i 0 * left src)).sum,
        (block.getD i (0, 0)).2 + (l.map (fun src => (samples src).getD i 0 * right src)).sum) := by
  induction l generalizing block with
  | nil => simp
  | cons src l ih =>
    obtain ⟨length, sample⟩ := ih (addContribution (left src) (right src) block (samples src))
    rw [addContribution_length] at length sample
    refine ⟨length, fun i inside => (sample i inside).trans ?_⟩
    rw [addContribution_getD _ _ _ _ _ inside, List.map_cons, List.map_cons, List.sum_cons, List.sum_cons, add_assoc, add_assoc]

theorem silence_getD (i : Nat) : StereoBlock.silence.getD i (0, 0) = (0, 0) := by
  rw [List.getD_eq_getElem?_getD, StereoBlock.silence, List.getElem?_replicate]
  split <;> rfl

theorem mixSum_sample (m : Fin 16) (s : State) : (mixSum m s).length = 32 ∧ ∀ i < 32,
    let total (factor : Int → Rat) : Rat := ((List.finRange 48).map (fun src =>
      (sourceSamples s.src src).getD i 0 * gain (s.cell ⟨m, src⟩).heard * factor (s.cell ⟨m, src⟩).pan)).sum
    (mixSum m s).getD i (0, 0) = (total panLeft, total panRight) := by
  obtain ⟨length, sample⟩ := foldl_addContribution
    (fun src => gain (s.cell ⟨m, src⟩).heard * panLeft (s.cell ⟨m, src⟩).pan)
    (fun src => gain (s.cell ⟨m, src⟩).heard * panRight (s.cell ⟨m, src⟩).pan)
    (sourceSamples s.src) (List.finRange 48) StereoBlock.silence
  refine ⟨length.trans rfl, fun i inside => (sample i inside).trans ?_⟩
  simp only [silence_getD, zero_add, mul_assoc]

/-! ### The gains (R174) -/

theorem gain_decade {l : Nat} (pos : 1 ≤ l) : gain (l + 40) = 10 * gain l := by
  rw [gain_of_pos _ (by omega), gain_of_pos l pos, Nat.add_mod_right, Nat.add_div_right l (by omega), pow_succ]
  ring

/-- The 40th power of a bound of a gain, its decade taken out. -/
theorem bound_pow (n c : Rat) (q : Nat) : (n / c * (10 ^ q / 10 ^ 5)) ^ 40 * 10 ^ 200 = n ^ 40 / c ^ 40 * 10 ^ (40 * q) := by
  rw [mul_pow, div_pow, div_pow, ← pow_mul, ← pow_mul, mul_comm q 40, show 5 * 40 = 200 from rfl, mul_assoc,
    div_mul_cancel₀ _ (by positivity)]

theorem decade_scale {q : Nat} (decade : q ≤ 5) : 0 ≤ (10 : Rat) ^ q / 10 ^ 5 ∧ (10 : Rat) ^ q / 10 ^ 5 ≤ 1 :=
  ⟨by positivity, (div_le_one (by positivity)).mpr (pow_le_pow_right₀ (by norm_num) decade)⟩

/-- A factor of a place between its floor and the next gives bounds for its codes of every decade up to full scale. -/
theorem decade_bounds {n r q : Nat} {f : Rat} (decade : q ≤ 5) (below : n ^ 40 ≤ 10 ^ r * (2 ^ 48) ^ 40)
    (above : 10 ^ r * (2 ^ 48) ^ 40 ≤ (n + 1) ^ 40) (factorLo : (n : Rat) / 2 ^ 48 ≤ f) (factorHi : f ≤ ((n : Rat) + 1) / 2 ^ 48) :
    ∃ lo hi : Rat, 0 ≤ lo ∧ lo ≤ f * (10 ^ q / 10 ^ 5) ∧ f * (10 ^ q / 10 ^ 5) ≤ hi ∧ (hi - lo) * 2 ^ 48 ≤ 1 ∧
      lo ^ 40 * 10 ^ 200 ≤ 10 ^ (r + 40 * q) ∧ 10 ^ (r + 40 * q) ≤ hi ^ 40 * 10 ^ 200 := by
  obtain ⟨scaleNonneg, scale⟩ := decade_scale decade
  have powers : (0 : Rat) ≤ 10 ^ (40 * q) := pow_nonneg (by norm_num) _
  have floorLo : (n : Rat) ^ 40 / (2 ^ 48) ^ 40 ≤ 10 ^ r := (div_le_iff₀ (by norm_num)).mpr (by exact_mod_cast below)
  have floorHi : (10 : Rat) ^ r ≤ (n + 1 : Rat) ^ 40 / (2 ^ 48) ^ 40 :=
    (le_div_iff₀ (by norm_num)).mpr (by exact_mod_cast above)
  refine ⟨n / 2 ^ 48 * (10 ^ q / 10 ^ 5), (n + 1) / 2 ^ 48 * (10 ^ q / 10 ^ 5),
    mul_nonneg (div_nonneg n.cast_nonneg (by norm_num)) scaleNonneg, mul_le_mul_of_nonneg_right factorLo scaleNonneg,
    mul_le_mul_of_nonneg_right factorHi scaleNonneg, ?_, ?_, ?_⟩
  · calc _ = (10 : Rat) ^ q / 10 ^ 5 := by ring
      _ ≤ 1 := scale
  · rw [bound_pow, pow_add]
    exact mul_le_mul_of_nonneg_right floorLo powers
  · rw [bound_pow, pow_add]
    exact mul_le_mul_of_nonneg_right floorHi powers

/-- A code's gain lies between bounds one part in 2 to the 48 apart, between which lies its real gain. -/
theorem gain_bounds {l : Nat} (pos : 1 ≤ l) (top : l ≤ 220) : ∃ lo hi : Rat, 0 ≤ lo ∧ lo ≤ gain l ∧ gain l ≤ hi ∧
    (hi - lo) * 2 ^ 48 ≤ 1 ∧ lo ^ 40 * 10 ^ 200 ≤ 10 ^ l ∧ 10 ^ l ≤ hi ^ 40 * 10 ^ 200 := by
  obtain ⟨below, above⟩ := decadeFloor_bounds (l % 40) (Nat.mod_lt _ (by omega))
  obtain ⟨factorLo, factorHi⟩ := decadeFactor_mem (l % 40)
  have bounds := decade_bounds (q := l / 40) (by omega) below above factorLo factorHi
  rwa [Nat.mod_add_div, ← gain_of_pos l pos] at bounds

/-! ### The pan factors (R174) -/

/-- The cosine of a place in 48-bit fractions, between its floor and the next. -/
theorem panCosine_scaled {k : Nat} (inside : k ≤ 64) :
    ((cosineFloors.getD k 0 : Nat) : Rat) ≤ panCosine k * 2 ^ 48 ∧ panCosine k * 2 ^ 48 ≤ ((cosineFloors.getD k 0 : Nat) : Rat) + 1 := by
  obtain ⟨lo, hi⟩ := panCosine_mem k inside
  exact ⟨(div_le_iff₀ (by positivity)).mp lo, (le_div_iff₀ (by positivity)).mp hi⟩

theorem panCosine_nonneg {k : Nat} (inside : k ≤ 64) : 0 ≤ panCosine k :=
  le_trans (by positivity) (panCosine_mem k inside).1

/-- The square of a cosine in 48-bit fractions, between the squares of its floor and the next. -/
theorem panCosine_square {k : Nat} (inside : k ≤ 64) :
    ((cosineFloors.getD k 0 : Nat) : Rat) ^ 2 ≤ panCosine k ^ 2 * 2 ^ 96 ∧
      panCosine k ^ 2 * 2 ^ 96 ≤ (((cosineFloors.getD k 0 : Nat) : Rat) + 1) ^ 2 := by
  obtain ⟨lo, hi⟩ := panCosine_scaled inside
  have square : panCosine k ^ 2 * 2 ^ 96 = (panCosine k * 2 ^ 48) ^ 2 := by ring
  have scaled : 0 ≤ panCosine k * 2 ^ 48 := mul_nonneg (panCosine_nonneg inside) (by positivity)
  rw [square]
  exact ⟨pow_le_pow_left₀ (by positivity) lo 2, pow_le_pow_left₀ scaled hi 2⟩

/-- The constant power of a place and the rest of the quarter turn. -/
theorem panCosine_power {k : Nat} (inside : k ≤ 64) :
    |panCosine k ^ 2 + panCosine (64 - k) ^ 2 - 1| * 2 ^ 46 ≤ 1 := by
  obtain ⟨lo, hi⟩ := panCosine_square inside
  obtain ⟨restLo, restHi⟩ := panCosine_square (k := 64 - k) (by omega)
  obtain ⟨floorLo, floorHi⟩ := cosineFloors_square k inside
  have sumLo : (2 : Rat) ^ 96 - 2 ^ 50 ≤
      ((cosineFloors.getD k 0 : Nat) : Rat) ^ 2 + ((cosineFloors.getD (64 - k) 0 : Nat) : Rat) ^ 2 := by exact_mod_cast floorLo
  have sumHi : (((cosineFloors.getD k 0 : Nat) : Rat) + 1) ^ 2 + (((cosineFloors.getD (64 - k) 0 : Nat) : Rat) + 1) ^ 2 ≤
      2 ^ 96 + 2 ^ 50 := by exact_mod_cast floorHi
  have near : |panCosine k ^ 2 + panCosine (64 - k) ^ 2 - 1| ≤ 1 / 2 ^ 46 :=
    abs_le.mpr ⟨by linarith, by linarith⟩
  linarith

/-- The double angle of a place in the first half of the quarter turn. -/
theorem panCosine_double {k : Nat} (half : k ≤ 32) : |2 * panCosine k ^ 2 - 1 - panCosine (2 * k)| * 2 ^ 45 ≤ 1 := by
  obtain ⟨lo, hi⟩ := panCosine_square (k := k) (by omega)
  obtain ⟨doubleLo, doubleHi⟩ := panCosine_scaled (k := 2 * k) (by omega)
  obtain ⟨floorLo, floorHi⟩ := cosineFloors_double k half
  have differenceLo : -(2 : Rat) ^ 51 ≤ 2 * ((cosineFloors.getD k 0 : Nat) : Rat) ^ 2 - 2 ^ 96 -
      2 ^ 48 * (((cosineFloors.getD (2 * k) 0 : Nat) : Rat) + 1) := by exact_mod_cast floorLo
  have differenceHi : 2 * (((cosineFloors.getD k 0 : Nat) : Rat) + 1) ^ 2 - 2 ^ 96 -
      2 ^ 48 * ((cosineFloors.getD (2 * k) 0 : Nat) : Rat) ≤ 2 ^ 51 := by exact_mod_cast floorHi
  have near : |2 * panCosine k ^ 2 - 1 - panCosine (2 * k)| ≤ 1 / 2 ^ 45 :=
    abs_le.mpr ⟨by linarith, by linarith⟩
  linarith

theorem pan_bounds {p : Int} (low : -32 ≤ p) (high : p ≤ 32) :
    0 ≤ panLeft p ∧ panRight p = panLeft (-p) ∧ |panLeft p ^ 2 + panRight p ^ 2 - 1| * 2 ^ 46 ≤ 1 ∧
      (p ≤ 0 → |2 * panLeft p ^ 2 - 1 - panLeft (2 * p + 32)| * 2 ^ 45 ≤ 1) := by
  have inside : (p + 32).toNat ≤ 64 := by omega
  refine ⟨panCosine_nonneg inside, congrArg panCosine (by omega), ?power, fun left => ?double⟩
  case power =>
    have rest : (32 - p).toNat = 64 - (p + 32).toNat := by omega
    rw [panRight, rest]
    exact panCosine_power inside
  case double =>
    have twice : (2 * p + 32 + 32).toNat = 2 * (p + 32).toNat := by omega
    rw [panLeft, panLeft, twice]
    exact panCosine_double (by omega)

/-! ### The tone (R176) -/

theorem toneBlock_sample (place i : Nat) (inside : i < 32) : ∃ x : Rat, (toneBlock place).getD i (0, 0) = (x, x) ∧
    |(x : ℝ) - Real.sin (2 * Real.pi * (place + i) / 48) / 10| * (10 * 2 ^ 48) ≤ 1 ∧
    ∀ q j, j < 32 → (q + j) % 48 = (place + i) % 48 → (toneBlock q).getD j (0, 0) = (x, x) := by
  refine ⟨1 / 10 * cycleSine ((place + i) % 48), toneBlock_getD place i inside, ?near, fun q j within same => ?joins⟩
  case near =>
    have near := cycleSine_near (place + i)
    push_cast at near ⊢
    have tenth (x y : ℝ) : |1 / 10 * x - y / 10| * (10 * 2 ^ 48) = |x - y| * 2 ^ 48 := by
      rw [show 1 / 10 * x - y / 10 = (x - y) / 10 by ring, abs_div, abs_of_pos (by norm_num : (0 : ℝ) < 10)]
      ring
    rw [tenth]
    exact near
  case joins => rw [toneBlock_getD q j within, same]

/-! ### The block start -/

theorem blockStart_run {s : State} (run : s.run = .run) : blockStart s = formOutputs (applyPatches s) := if_pos run

/-- Settles O23, from the patch, the sums, the factors, the tone and the output stage in turn. -/
theorem aBlockStartFormsTheOutputs : Obligations.ABlockStartFormsTheOutputs := by
  unfold Obligations.ABlockStartFormsTheOutputs
  refine ⟨fun s run => ?start, fun s init => ?silent, fun place => ⟨toneBlock_length place, toneBlock_sample place⟩,
    fun first channels patch src => tableGet_writePatchRun channels first patch src, mixSum_sample,
    ⟨rfl, ?unity, fun l => gain_decade, fun l => gain_bounds⟩, rfl, rfl, fun p => pan_bounds⟩
  case unity => norm_num [gain, decadeFactor]
  case silent =>
    refine ⟨_, rfl, ?_⟩
    rw [blockStart_init init]
    exact ⟨rfl, fun m => tableGet_replicate _ m⟩
  case start =>
    have forms := blockStart_run run
    obtain ⟨src, cells, glides, cue, link, eli⟩ := formOutputs_kept (applyPatches s)
    refine ⟨_, congrArg Host.Outcome.next forms, src, fun m silenced => ?off, fun m mode hush => ?on,
      congrArg Outputs.tone (formOutputs_out _), cells, glides, cue, link, eli⟩
    case off =>
      obtain ⟨block, record⟩ := outputBlock_silenced (s := applyPatches s) (outputSilenced_true silenced)
      exact ⟨(formOutputs_delivered _ m).trans block, (formOutputs_record _ m).trans record⟩
    case on =>
      have open_ : outputSilenced m (applyPatches s) = false := outputSilenced_false mode hush
      have source := outputSource_on (s := applyPatches s) mode
      rw [src, formOutputs_record, formOutputs_delivered]
      constructor
      · intro within
        have cool : exceedsCeiling m (applyPatches s) = false :=
          Bool.eq_false_iff.mpr (fun hot => within (by rw [exceedsCeiling_iff open_, source] at hot; exact hot))
        obtain ⟨record, block⟩ := outputBlock_within open_ cool
        rw [source] at block
        exact ⟨record, block⟩
      · intro above
        have hot : exceedsCeiling m (applyPatches s) = true := by rw [exceedsCeiling_iff open_, source]; exact above
        obtain ⟨record, block⟩ := outputBlock_hot open_ hot
        rw [source] at block
        exact ⟨record, formOutputs_latches run hot, block⟩

end Sys2Proof.Machine
end

-- The Show Link Receiver (R75, R76): characters, messages, framing errors and the gap, on the link and at a block end.
section
namespace Sys2Proof.Machine

/-! ### What the block end does to the receiver -/

theorem stationMissed_slr (n : StationId) (s : State) : (stationMissed n s).slr = s.slr := by
  unfold stationMissed
  simp only
  split
  · rfl
  · split
    · simp only [State.report_slr, dropGrip, State.setGrip_slr, State.setStation_slr]
    · rfl

theorem endTransaction_slr (s : State) : (endTransaction s).slr = s.slr := by
  unfold endTransaction completeDeferred makeAbsent
  split
  · split
    · rfl
    · split <;> rfl
  · rfl

theorem missAndEnd_slr (s : State) : (missAndEnd s).slr = s.slr := by
  unfold missAndEnd
  split
  · exact (endTransaction_slr _).trans (stationMissed_slr _ s)
  · exact endTransaction_slr s

/-- BLC's block-end work leaves the Show Link Receiver as it was. -/
theorem linkBlockEnd_slr (h : Bool) (s : State) : (linkBlockEnd h s).slr = s.slr := by
  unfold linkBlockEnd
  split
  · split
    · unfold expireRequestWindow; split
      · exact missAndEnd_slr s
      · rfl
    · rfl
  · split
    · unfold expireEchoWindow; split
      · exact missAndEnd_slr s
      · rfl
    · rfl
  · split
    · unfold expireBreakCount; split <;> rfl
    · rfl
  · rfl

theorem sourceBlockEnd_slr (a b : PortBlock) (s : State) : (sourceBlockEnd a b s).slr = s.slr := by
  unfold sourceBlockEnd
  simp only
  split
  · rfl
  · rw [State.report_slr, State.setSrc_slr]

theorem fadeBlockEnd_slr (s : State) : (fadeBlockEnd s).slr = s.slr := by
  unfold fadeBlockEnd
  split <;> rfl

/-- A block end is SLR's own work on a state, in RUN, whose receiver is as it was. -/
theorem blockEnd_show (a b : PortBlock) (h : Bool) {s : State} (run : s.run = .run) :
    ∃ u : State, u.run = .run ∧ u.slr = s.slr ∧ blockEnd a b h s = showBlockEnd u := by
  obtain ⟨-, counted, -, -⟩ := blockEnd_band a b h s run
  refine ⟨fadeBlockEnd (linkBlockEnd h (idleBlockEnd (blockEndHead a b s))), ?run, ?slr, blockEnd_eq a b h s run⟩
  case run =>
    have linked := (linkBlockEnd_kept h (idleBlockEnd (blockEndHead a b s))).run.trans counted
    unfold fadeBlockEnd
    split <;> exact linked
  case slr =>
    have head : (idleBlockEnd (blockEndHead a b s)).slr = s.slr :=
      (blockEndHead_frame a b s).slr.trans (sourceBlockEnd_slr a b s)
    exact (fadeBlockEnd_slr _).trans ((linkBlockEnd_slr h _).trans head)

theorem showBlockEnd_empty {s : State} (empty : s.slr.chars = []) : showBlockEnd s = s := if_pos empty

theorem showBlockEnd_counts {s : State} (held : s.slr.chars ≠ []) (first : s.slr.gap = 0) :
    showBlockEnd s = s.setSlr { s.slr with gap := 1 } := by
  rw [showBlockEnd, if_neg held, if_neg (by omega), first]

theorem showBlockEnd_discards {s : State} (held : s.slr.chars ≠ []) (second : s.slr.gap = 1) :
    showBlockEnd s = discardMessage s := by
  rw [showBlockEnd, if_neg held, if_pos (by omega)]

/-! ### Characters and messages -/

theorem discardMessage_run {s : State} (run : s.run = .run) : discardMessage s =
    (s.setSlr { chars := [], gap := 0 }).setEvl { s.evl with marks := s.evl.marks ||| 0x0020#16 } :=
  State.report_in_run (clearPartial s) .showCheck run

theorem showCharacter_gathers (b : Byte) {s : State} (run : s.run = .run) (room : s.slr.chars.length < 3) :
    showCharacter b s = s.setSlr { chars := s.slr.chars ++ [b], gap := 0 } := by
  unfold showCharacter
  rw [if_pos run]
  split
  · next three => simp [three] at room
  · rfl

theorem showCharacter_fourth {b0 b1 b2 : Byte} (b3 : Byte) {s : State} (run : s.run = .run) (held : s.slr.chars = [b0, b1, b2]) :
    showCharacter b3 s = takeMessage b0 b1 b2 b3 s := by
  simp only [showCharacter, run, if_true, held]

/-- The fourth character, sent as either command, has the message checked. -/
theorem exec_fourth {b0 b1 b2 b3 : Byte} {s t : State} (run : s.run = .run) (held : s.slr.chars = [b0, b1, b2])
    (taken : takeMessage b0 b1 b2 b3 s = t) : exec (.showMessage b3) s = .next t ∧ exec (.showCharacter b3) s = .next t := by
  have character : showCharacter b3 s = t := (showCharacter_fourth b3 run held).trans taken
  have three : s.slr.chars.length = 3 := by rw [held]; rfl
  exact ⟨congrArg Host.Outcome.next ((if_pos three).trans character), congrArg Host.Outcome.next character⟩

theorem takeMessage_badCheck {b0 b1 b2 b3 : Byte} (bad : b0 + b1 + b2 + b3 ≠ 0xFF) (s : State) :
    takeMessage b0 b1 b2 b3 s = discardMessage s := if_neg bad

theorem takeMessage_goodCheck {b0 b1 b2 b3 : Byte} (good : b0 + b1 + b2 + b3 = 0xFF) (s : State) :
    takeMessage b0 b1 b2 b3 s = (showCommand b0 b1 b2 (clearPartial s)).getD (discardMessage s) := by
  rw [takeMessage, if_pos good]
  cases showCommand b0 b1 b2 (clearPartial s) <;> rfl

theorem showCommand_unknown {k : Byte} (unknown : k = 0 ∨ 6 < k.toNat) (hi lo : Byte) (s : State) :
    showCommand k hi lo s = none := by
  have code : k.toNat = 0 ∨ 6 < k.toNat := unknown.imp (fun is => by rw [is]; rfl) id
  unfold showCommand
  split
  case h_7 => rfl
  all_goals omega

theorem takeMessage_unknown {b0 : Byte} (unknown : b0 = 0 ∨ 6 < b0.toNat) (b1 b2 b3 : Byte) (s : State) :
    takeMessage b0 b1 b2 b3 s = discardMessage s := by
  by_cases check : b0 + b1 + b2 + b3 = 0xFF
  · rw [takeMessage_goodCheck check, showCommand_unknown unknown]; rfl
  · exact takeMessage_badCheck check s

/-- Settles O60. -/
theorem showCharactersMakeMessages : Obligations.ShowCharactersMakeMessages := by
  unfold Obligations.ShowCharactersMakeMessages
  intro s run discarded
  have discards : discardMessage s = discarded := discardMessage_run run
  refine ⟨fun b room => congrArg Host.Outcome.next (showCharacter_gathers b run room),
    fun b0 b1 b2 b3 held bad => exec_fourth run held ((takeMessage_badCheck bad s).trans discards),
    fun b0 b1 b2 b3 held unknown => (exec_fourth run held ((takeMessage_unknown unknown b1 b2 b3 s).trans discards)).1,
    fun b1 b2 b3 held good => exec_fourth run held (takeMessage_goodCheck good s),
    fun b1 b2 b3 held good => exec_fourth run held (takeMessage_goodCheck good s),
    congrArg Host.Outcome.next ((if_pos run).trans discards),
    fun held second => congrArg Host.Outcome.next ((if_pos ⟨run, held, second⟩).trans discards), fun a b h => ?blockEnd⟩
  case blockEnd =>
    obtain ⟨u, uRun, slr, ends⟩ := blockEnd_show a b h run
    refine ⟨_, congrArg Host.Outcome.next ends, fun empty => ?empty, fun held first => ?counts, fun held second => ?discards⟩
    case empty => rw [showBlockEnd_empty (slr ▸ empty), slr]
    case counts => rw [showBlockEnd_counts (slr ▸ held) (slr ▸ first), slr]; rfl
    case discards =>
      rw [showBlockEnd_discards (slr ▸ held) (slr ▸ second)]
      exact ⟨State.report_slr _ _, State.latched_report_same _ _ uRun⟩

end Sys2Proof.Machine
end

-- The staged loads at the frame end (R49, R71, R91, R92, R190): how a load reads, and what its owner makes of it.
section
namespace Sys2Proof.Machine

/-! ### The frame end with a load staged (R190) -/

/-- ELI after a frame end that passed a staged load on (R187, R190). -/
def loadedEli (s : State) : EngineerLink := { s.eli with frame := .noFrame, reply := [], staging := none }

/-- The state in which a staged load reaches its owner. -/
def unstaged (s : State) : State := s.setEli { s.eli with staging := none }

theorem applyStaged_map {s : State} {body : List Byte} (staged : s.eli.staging = some (0x23#8 :: body)) :
    applyStaged s = applyStagedMap body (unstaged s) := by
  simp only [applyStaged, staged]
  rfl

theorem applyStaged_cue {s : State} {body : List Byte} (staged : s.eli.staging = some (0x25#8 :: body)) :
    applyStaged s = applyCueLoad body (unstaged s) := by
  simp only [applyStaged, staged]
  rfl

/-- A frame end in RUN with no command incomplete passes the staged load on and closes the frame. -/
theorem endFrame_loads {s t : State} (run : s.run = .run) (opened : s.eli.frame ≠ .noFrame) (uncut : s.eli.frame ≠ .cut)
    (whole : s.eli.arrival = .none) (applied : applyStaged s = t) :
    endFrame s = t.setEli { t.eli with frame := .noFrame, arrival := .none, reply := [] } := by
  rw [endFrame_open opened uncut, dropIncomplete_none whole, inRun, if_pos run, applied]

theorem endFrame_refuses {s : State} (run : s.run = .run) (opened : s.eli.frame ≠ .noFrame) (uncut : s.eli.frame ≠ .cut)
    (whole : s.eli.arrival = .none) (refused : applyStaged s = refuseConsole (unstaged s)) :
    endFrame s = s.setEli { s.eli with frame := .noFrame, reply := [], staging := none, refused := true } := by
  rw [endFrame_loads run opened uncut whole refused, ← whole]
  rfl

/-! ### MAP LOAD (R91, R92) -/

theorem applyMapLoad_eq (n : StationId) (m : StationMap) (s : State) : applyMapLoad n m s =
    ((s.setStation n { s.station n with map := m }).setGrip n none).setLink { s.link with
      transferEnd := if s.link.state = .sending ∧ s.link.selected = some n ∧ s.link.transferEnd = .running then .mapChanged
        else s.link.transferEnd } := by
  by_cases running : s.link.state = .sending ∧ s.link.selected = some n ∧ s.link.transferEnd = .running
  · rw [if_pos running]
    exact if_pos running
  · rw [if_neg running]
    exact if_neg running

theorem mapM_reads {α β : Type} {f : α → Option β} {l : List α} (reads : ∀ a ∈ l, ∃ b, f a = some b) :
    ∃ r, l.mapM f = some r := by
  induction l with
  | nil => exact ⟨[], rfl⟩
  | cons a l ih =>
    obtain ⟨b, first⟩ := reads a List.mem_cons_self
    obtain ⟨r, rest⟩ := ih (fun c member => reads c (List.mem_cons_of_mem a member))
    exact ⟨b :: r, by rw [List.mapM_cons, first, rest]; rfl⟩

/-- Values that are read element by element agree with what they are read from, element by element. -/
theorem map_eq_of_mapM {α β γ : Type} {f : α → Option β} {g : β → γ} {k : α → γ} {l : List α} {r : List β}
    (read : l.mapM f = some r) (agree : ∀ a b, f a = some b → g b = k a) : r.map g = l.map k := by
  induction (mapM_eq_some_iff f l r).mp read with
  | nil => rfl
  | cons first _ ih => rw [List.map_cons, List.map_cons, agree _ _ first, ih ((mapM_eq_some_iff _ _ _).mpr ‹_›)]

/-- Lists with equal images under two injections are both without repetition or both not. -/
theorem nodup_iff_of_map_eq {α β γ : Type} {g : α → γ} {k : β → γ} (hg : Function.Injective g) (hk : Function.Injective k)
    {l : List α} {r : List β} (same : l.map g = r.map k) : l.Nodup ↔ r.Nodup := by
  rw [← List.nodup_map_iff hg, same, List.nodup_map_iff hk]

/-- The four bytes of a load's entry, read. -/
def readQuad (e : Byte × Byte × Byte × Byte) : Option (LocalIndex × MapEntry) := readMapEntry e.1 e.2.1 e.2.2.1 e.2.2.2

theorem byte_toNat_injective : Function.Injective (fun b : Byte => b.toNat) := fun _ _ => BitVec.eq_of_toNat_eq

/-- Entries that read repeat a local index exactly where their bytes do. -/
theorem indices_nodup {es : List (Byte × Byte × Byte × Byte)} {xs : List (LocalIndex × MapEntry)}
    (read : es.mapM readQuad = some xs) : (xs.map (·.1)).Nodup ↔ (es.map (fun e => e.1)).Nodup := by
  refine nodup_iff_of_map_eq (g := fun i : LocalIndex => i.val) Fin.val_injective byte_toNat_injective ?_
  rw [List.map_map, List.map_map]
  refine map_eq_of_mapM read (fun e x reads => ?_)
  obtain ⟨-, -, -, -, index, -⟩ := readMapEntry_some reads
  exact index

/-- Entries that read repeat a cell exactly where their bytes do. -/
theorem cells_nodup {es : List (Byte × Byte × Byte × Byte)} {xs : List (LocalIndex × MapEntry)}
    (read : es.mapM readQuad = some xs) : (xs.map (·.2.cell)).Nodup ↔ (es.map (fun e => (e.2.1, e.2.2.1))).Nodup := by
  refine nodup_iff_of_map_eq (g := fun c : CellId => (c.mix.val, c.source.val))
    (k := fun p : Byte × Byte => (p.1.toNat, p.2.toNat)) ?_ ?_ ?_
  · rintro ⟨m, x⟩ ⟨n, y⟩ same
    obtain ⟨mix, source⟩ := Prod.mk.inj same
    exact congrArg₂ CellId.mk (Fin.ext mix) (Fin.ext source)
  · rintro ⟨m, x⟩ ⟨n, y⟩ same
    obtain ⟨mix, source⟩ := Prod.mk.inj same
    exact congrArg₂ Prod.mk (BitVec.eq_of_toNat_eq mix) (BitVec.eq_of_toNat_eq source)
  · rw [List.map_map, List.map_map]
    refine map_eq_of_mapM read (fun e x reads => ?_)
    obtain ⟨-, -, -, -, -, mix, source, -⟩ := readMapEntry_some reads
    exact congrArg₂ Prod.mk mix source

theorem readMapLoad_cons (n count : Byte) (es : List (Byte × Byte × Byte × Byte)) :
    readMapLoad (n :: count :: es.flatMap (fun e => [e.1, e.2.1, e.2.2.1, e.2.2.2])) =
      (inRange 16 n).bind (fun n => (es.mapM readQuad).bind (fun xs =>
        if 24 < count.toNat ∨ xs.length ≠ count.toNat then none
        else if (xs.map (·.1)).Nodup ∧ (xs.map (·.2.cell)).Nodup then some (n, mapOfEntries xs) else none)) := by
  have entries : readMapEntries (es.flatMap (fun e => [e.1, e.2.1, e.2.2.1, e.2.2.2])) = es.mapM readQuad :=
    readMapEntries_flatMap es
  rw [← entries]
  rfl

theorem readMapLoad_unread {n count : Byte} {es : List (Byte × Byte × Byte × Byte)}
    (unread : 15 < n.toNat ∨ es.mapM readQuad = none) :
    readMapLoad (n :: count :: es.flatMap (fun e => [e.1, e.2.1, e.2.2.1, e.2.2.2])) = none := by
  rw [readMapLoad_cons]
  rcases unread with above | unread
  · rw [inRange_above above, Option.bind_none]
  · rw [unread]
    exact Option.bind_fun_none _

/-- A load whose station and entries read is judged by its count and by what its entries repeat (R91). -/
theorem readMapLoad_judged {n count : Byte} {es : List (Byte × Byte × Byte × Byte)} {xs : List (LocalIndex × MapEntry)}
    (low : n.toNat < 16) (read : es.mapM readQuad = some xs) (length : es.length = count.toNat) :
    readMapLoad (n :: count :: es.flatMap (fun e => [e.1, e.2.1, e.2.2.1, e.2.2.2])) =
      if es.length ≤ 24 ∧ (es.map (fun e => e.1)).Nodup ∧ (es.map (fun e => (e.2.1, e.2.2.1))).Nodup then
        some (⟨n.toNat, low⟩, mapOfEntries xs) else none := by
  have counted : xs.length = count.toNat := (mapM_length read).trans length
  simp only [readMapLoad_cons, inRange_some low, Option.bind_some, read, ← indices_nodup read, ← cells_nodup read, counted,
    ← length]
  by_cases fits : es.length ≤ 24
  · rw [if_neg (by omega)]
    simp only [fits, true_and]
  · rw [if_pos (by omega), if_neg (fun good => fits good.1)]

theorem readQuad_none {e : Byte × Byte × Byte × Byte} (out : 23 < e.1.toNat ∨ 15 < e.2.1.toNat ∨ 47 < e.2.2.1.toNat ∨ 2 < e.2.2.2.toNat) :
    readQuad e = none := by
  refine Option.eq_none_iff_forall_not_mem.mpr (fun x reads => ?_)
  obtain ⟨index, mix, source, right, -⟩ := readMapEntry_some (Option.mem_def.mp reads)
  omega

/-- Settles O31: the frame end, and how the load's bytes are read. -/
theorem theFrameEndAppliesAMapLoad : Obligations.TheFrameEndAppliesAMapLoad := by
  unfold Obligations.TheFrameEndAppliesAMapLoad
  refine ⟨fun body s run opened uncut whole staged => ⟨fun n m reads => ?applies, fun unread => ?refuses⟩,
    fun n count es length => ?judged⟩
  case applies =>
    have applied : applyStaged s = applyMapLoad n m (unstaged s) := by
      rw [applyStaged_map staged]
      simp only [applyStagedMap, reads]
    rw [applyMapLoad_eq] at applied
    refine ⟨_, congrArg Host.Outcome.next (endFrame_loads run opened uncut whole applied),
      tableGet_tableSet_same s.stations n _, fun k other => tableGet_tableSet_ne s.stations _ (Ne.symm other),
      tableGet_tableSet_same s.grips n _, fun k other => tableGet_tableSet_ne s.grips _ (Ne.symm other), rfl, ?eli, rfl, rfl,
      rfl, rfl⟩
    case eli => rw [← whole]; rfl
  case refuses =>
    refine congrArg Host.Outcome.next (endFrame_refuses run opened uncut whole ?_)
    rw [applyStaged_map staged]
    simp only [applyStagedMap, unread]
  case judged =>
    intro body bad
    constructor
    · intro isBad
      by_cases low : n.toNat < 16
      · cases read : es.mapM readQuad with
        | none => exact readMapLoad_unread (.inr read)
        | some xs =>
          refine (readMapLoad_judged low read length).trans (if_neg (fun good => ?_))
          obtain ⟨fits, indices, cells⟩ := good
          rcases isBad with above | long | ⟨e, member, out⟩ | twice | twice
          · omega
          · omega
          · obtain ⟨x, -, reads⟩ := reads_of_mapM read e member
            exact absurd ((readQuad_none out).symm.trans reads) (by simp)
          · exact twice indices
          · exact twice cells
      · exact readMapLoad_unread (.inl (by omega))
    · intro good
      simp only [bad, not_or, not_exists, not_and, not_not, Nat.not_lt] at good
      obtain ⟨low, fits, inside, indices, cells⟩ := good
      obtain ⟨xs, read⟩ := mapM_reads (f := readQuad) (l := es) (fun e member => by
        obtain ⟨index, mix, source, right⟩ := inside e member
        exact readMapEntry_ok (by omega) (by omega) (by omega) right)
      have distinct := (indices_nodup read).mpr indices
      refine ⟨_, _, (readMapLoad_judged (by omega) read length).trans (if_pos ⟨fits, indices, cells⟩), rfl,
        fun e member i here => ?present, fun i absent => ?absent⟩
      case present =>
        obtain ⟨x, entry, reads⟩ := reads_of_mapM read e member
        obtain ⟨-, -, -, -, index, mix, source, right⟩ := readMapEntry_some reads
        obtain rfl : i = x.1 := Fin.ext (here.trans index.symm)
        exact ⟨x.2, mapAt_of_mem_entries distinct entry, mix, source, right⟩
      case absent =>
        refine Option.eq_none_iff_forall_not_mem.mpr (fun y held => ?_)
        have entry := mapAt_mapOfEntries (Option.mem_def.mp held)
        have same : xs.map (fun x => x.1.val) = es.map (fun e => e.1.toNat) := map_eq_of_mapM read (fun e x reads => by
          obtain ⟨-, -, -, -, index, -⟩ := readMapEntry_some reads
          exact index)
        have listed : i.val ∈ es.map (fun e => e.1.toNat) := same ▸ List.mem_map_of_mem entry
        obtain ⟨e, member, is⟩ := List.mem_map.mp listed
        exact absent e member is

end Sys2Proof.Machine
end

-- A staged CUE LOAD (R49, R70, R71): its items, the loads that are refused, and the record that is read back.
section
namespace Sys2Proof.Machine

/-! ### The load cut into its items (R184) -/

theorem takeItem_front {k : Nat} {i : RawItem} (sent : (i.presence = 0 ∧ i.bytes = []) ∨ (i.presence ≠ 0 ∧ i.bytes.length = k))
    (rest : List Byte) : takeItem k (i.presence :: (i.bytes ++ rest)) = some (i, rest) := takeItem_sent sent rest

/-! ### What a load that reads consists of (R71) -/

theorem word16_toNat (hi lo : Byte) : (word16 hi lo).toNat = hi.toNat * 256 + lo.toNat := by
  rw [word16, BitVec.toNat_append, ← Nat.shiftLeft_add_eq_or_of_lt lo.isLt, Nat.shiftLeft_eq]

/-- A load reads exactly where each of its items does and its counts are in range. -/
theorem readCueLoad_some_iff {raw : RawCueLoad} {n : CueId} {r : CueRecord} : readCueLoad raw = some (n, r) ↔
    (inRange 96 raw.slot = some n ∧ readItem readGuard raw.guard = some r.guard ∧
      readItem readCue raw.alternate = some r.alternate ∧ readItem readFollowOn raw.followOn = some r.followOn) ∧
    ((word16 raw.fadeHi raw.fadeLo).toNat = r.fade ∧ readItem readMask raw.setMask = some r.setMask ∧
      readItem readMask raw.clearMask = some r.clearMask ∧ readEdits raw.edits = some r.edits) ∧
    r.fade ≤ 4095 ∧ 1 ≤ r.edits.length ∧ r.edits.length ≤ 24 := by
  unfold readCueLoad
  simp only [bind, Option.bind_eq_some_iff]
  constructor
  · rintro ⟨slot, hslot, guard, hguard, alternate, halternate, followOn, hfollowOn, setMask, hset, clearMask, hclear, edits,
      hedits, judged⟩
    split at judged
    · exact absurd judged (by simp)
    · next inside =>
      obtain ⟨rfl, rfl⟩ := Prod.mk.inj (Option.some.inj judged)
      simp only [not_or, Nat.not_lt] at inside
      obtain ⟨fade, some_, few⟩ := inside
      exact ⟨⟨hslot, hguard, halternate, hfollowOn⟩, ⟨rfl, hset, hclear, hedits⟩, fade, some_, few⟩
  · rintro ⟨⟨slot, guard, alternate, followOn⟩, ⟨fade, setMask, clearMask, edits⟩, long, some_, few⟩
    refine ⟨n, slot, _, guard, _, alternate, _, followOn, _, setMask, _, clearMask, _, edits, ?_⟩
    rw [fade, if_neg (by omega)]

theorem readItem_presence {α : Type} {read : List Byte → Option α} {i : RawItem} {x : Option α}
    (reads : readItem read i = some x) : i.presence.toNat ≤ 1 := by
  unfold readItem at reads
  split at reads
  · next absent => rw [absent]; decide
  · split at reads
    · next present => rw [present]; decide
    · exact absurd reads (by simp)

/-- A present item reads only where its bytes do. -/
theorem readItem_present {α : Type} {read : List Byte → Option α} {i : RawItem} {x : Option α} (present : i.presence = 1)
    (unread : read i.bytes = none) : readItem read i ≠ some x := by
  rw [readItem, present, if_neg (by decide), if_pos rfl, unread]
  simp

theorem senseOf_none {b : Byte} (above : 3 < b.toNat) : senseOf b = none := by
  have other := byte_ne_of_lt above
  simp only [senseOf, other 0 (by decide), other 1 (by decide), other 2 (by decide), other 3 (by decide), if_false]

/-- A present guard whose sense byte is above 3 does not read. -/
theorem readGuard_none {hi lo q : Byte} (above : 3 < q.toNat) : readGuard [hi, lo, q] = none := by
  rw [readGuard, senseOf_none above, Option.map_none]

theorem readCue_none {c : Byte} (above : 95 < c.toNat) : readCue [c] = none := inRange_above above

theorem readFollowOn_none {c hi lo : Byte} (above : 95 < c.toNat) : readFollowOn [c, hi, lo] = none := by
  rw [readFollowOn, inRange_above above, Option.map_none]

/-! ### A record's own values read back (R70, R71) -/

/-- Edits whose four bytes each read back read back as a list. -/
theorem readEdits_back {bytes : CueEdit → List Byte} {edits : List CueEdit}
    (four : ∀ e ∈ edits, ∃ t src a v, bytes e = [t, src, a, v] ∧ readEdit t src a v = some e) :
    readEdits (edits.flatMap bytes) = some edits := by
  induction edits with
  | nil => rfl
  | cons e edits ih =>
    obtain ⟨t, src, a, v, is, reads⟩ := four e List.mem_cons_self
    have rest := ih (fun k member => four k (List.mem_cons_of_mem e member))
    rw [List.flatMap_cons, is]
    show (readEdit t src a v).bind (fun x => (readEdits (edits.flatMap bytes)).bind (fun xs => some (x :: xs))) = _
    rw [reads, rest]
    rfl

theorem readItem_absent {α : Type} (read : List Byte → Option α) (bytes : List Byte) : readItem read ⟨0, bytes⟩ = some none := rfl

theorem readItem_reads {α : Type} {read : List Byte → Option α} {bytes : List Byte} {x : α} (reads : read bytes = some x) :
    readItem read ⟨1, bytes⟩ = some (some x) := congrArg (Option.map some) reads

theorem readMask_back (w : Word16) : readMask [hiByte w, loByte w] = some w := congrArg some (word16_hi_lo w)

theorem readGuard_back {k : Byte} {sense : Sense} (code : senseOf k = some sense) (w : Word16) :
    readGuard [hiByte w, loByte w, k] = some ⟨w, sense⟩ := by
  rw [readGuard, code, Option.map_some, word16_hi_lo]

theorem readFollowOn_back {f : FollowOn} (wait : f.wait ≤ 65535) :
    readFollowOn [byteOfNat f.cue.val, byteOfNat (f.wait / 256), byteOfNat f.wait] = some f := by
  rw [readFollowOn, inRange_byteOfNat f.cue (by decide), word16_byteOfNat wait]
  rfl

/-! ### The frame end (R49, R71, R190) -/

theorem applyCueLoad_judged {body rest : List Byte} {raw : RawCueLoad} (parsed : parseCueLoad body = some (raw, rest)) (s : State) :
    applyCueLoad body s = match readCueLoad raw with
      | some (n, r) => if loadFits n r s then writeSlot n (some r) s else refuseConsole s
      | none => refuseConsole s := by
  rw [applyCueLoad, parsed, Option.bind_some] <;> rfl

/-- Settles O32: the frame end, the items, the loads refused, and the record read back. -/
theorem theFrameEndAppliesACueLoad : Obligations.TheFrameEndAppliesACueLoad := by
  unfold Obligations.TheFrameEndAppliesACueLoad
  refine ⟨fun body rest raw s run opened uncut whole staged parsed => ?frameEnd, fun raw count rest => ?items,
    fun raw es bytes bad => ?refused, fun n r value lawful => ?back⟩
  case frameEnd =>
    have staged_judged := (applyStaged_cue staged).trans (applyCueLoad_judged parsed (unstaged s))
    refine ⟨fun n r reads fits => ?applies, fun n r reads above => ?full, fun unread => ?unread⟩
    case applies =>
      have fit : loadFits n r (unstaged s) = true := decide_eq_true fits
      simp only [reads, fit, if_true] at staged_judged
      refine congrArg Host.Outcome.next ((endFrame_loads run opened uncut whole staged_judged).trans ?_)
      rw [← whole]
      rfl
    case full =>
      have full : loadFits n r (unstaged s) = false := decide_eq_false (Nat.not_le.mpr above)
      simp only [reads, full, Bool.false_eq_true, if_false] at staged_judged
      exact congrArg Host.Outcome.next (endFrame_refuses run opened uncut whole staged_judged)
    case unread =>
      simp only [unread] at staged_judged
      exact congrArg Host.Outcome.next (endFrame_refuses run opened uncut whole staged_judged)
  case items =>
    intro sent item guard alternate followOn setMask clearMask edits
    have room : ¬ (raw.edits ++ rest).length < 4 * count.toNat := by
      rw [List.length_append]
      omega
    simp only [item, parseCueLoad, List.append_assoc, List.cons_append, List.nil_append, List.head?_cons, List.tail_cons,
      List.drop_succ_cons, List.drop_zero, takeItem_front guard, takeItem_front alternate, takeItem_front followOn,
      takeItem_front setMask, takeItem_front clearMask, bind, Option.bind_some, room, if_false, List.take_left' edits,
      List.drop_left' edits]
  case refused =>
    refine Option.eq_none_iff_forall_not_mem.mpr (fun ⟨n, r⟩ reads => ?_)
    obtain ⟨⟨slot, guard, alternate, followOn⟩, ⟨fade, setMask, clearMask, edits⟩, long, some_, few⟩ :=
      readCueLoad_some_iff.mp (Option.mem_def.mp reads)
    rw [bytes, readEdits_flatMap] at edits
    have length := mapM_length edits
    rcases bad with above | ⟨i, member, twice⟩ | ⟨present, hi, lo, q, is, above⟩ | ⟨present, c, is, above⟩ |
      ⟨present, c, hi, lo, is, above⟩ | above | none_ | many | ⟨e, member, out⟩
    · have low := inRange_lt slot
      omega
    · have small : ∀ i ∈ [raw.guard, raw.alternate, raw.followOn, raw.setMask, raw.clearMask], i.presence.toNat ≤ 1 := by
        simp only [List.forall_mem_cons, List.not_mem_nil, false_implies, implies_true, and_true]
        exact ⟨readItem_presence guard, readItem_presence alternate, readItem_presence followOn, readItem_presence setMask,
          readItem_presence clearMask⟩
      exact absurd (small i member) (by omega)
    · exact readItem_present present (is ▸ readGuard_none above) guard
    · exact readItem_present present (is ▸ readCue_none above) alternate
    · exact readItem_present present (is ▸ readFollowOn_none above) followOn
    · rw [word16_toNat] at fade
      omega
    · omega
    · omega
    · obtain ⟨x, -, read⟩ := reads_of_mapM edits e member
      exact readEdit_inRange read out
  case back =>
    intro mask
    obtain ⟨fade, some_, few, edits, wait⟩ := lawful
    refine readCueLoad_some_iff.mpr ⟨⟨inRange_byteOfNat n (by decide), ?guard, ?alternate, ?followOn⟩,
      ⟨word16_byteOfNat (by omega), ?setMask, ?clearMask, readEdits_back (fun e member => ?edit)⟩, fade, some_, few⟩
    case guard =>
      dsimp only
      cases r.guard with
      | none => rfl
      | some g =>
        obtain ⟨w, sense⟩ := g
        cases sense with
        | allSet | allClear | anySet | anyClear => exact readItem_reads (readGuard_back rfl w)
    case alternate =>
      dsimp only
      cases r.alternate with
      | none => rfl
      | some c => exact readItem_reads (inRange_byteOfNat c (by decide))
    case followOn =>
      dsimp only
      cases next : r.followOn with
      | none => rfl
      | some f => exact readItem_reads (readFollowOn_back (wait f next))
    case setMask =>
      dsimp only
      cases r.setMask with
      | none => rfl
      | some w => exact readItem_reads (readMask_back w)
    case clearMask =>
      dsimp only
      cases r.clearMask with
      | none => rfl
      | some w => exact readItem_reads (readMask_back w)
    case edit =>
      have back := readEdit_back e (edits e member) value
      obtain ⟨target, source, action⟩ := e
      cases action with
      | level | nudge | mute | unmute | pan => exact ⟨_, _, _, _, rfl, back _ _ _ _ rfl⟩

end Sys2Proof.Machine
end

-- The Band Link's words as they arrive, its windows, the end of a transaction and the misses (R82, R83, R149 to R160).
section
namespace Sys2Proof.Machine

/-! ### A word arrives (R155, R160) -/

theorem receiveWord_good (slot : Option StationId) {w : BandWord} {s : State} (run : s.run = .run) (listens : w.driven = false)
    (good : checkGood w = true) : receiveWord slot w s = receiveGood slot w s := by
  rw [receiveWord, if_pos ⟨run, listens⟩, if_pos good]

theorem receiveWord_bad (slot : Option StationId) {w : BandWord} {s : State} (run : s.run = .run) (listens : w.driven = false)
    (bad : checkGood w = false) : receiveWord slot w s = receiveBad s := by
  rw [receiveWord, if_pos ⟨run, listens⟩, if_neg (Bool.eq_false_iff.mp bad)]

/-- A word that comes while the part drives the pair is not received (log 35). -/
theorem receiveWord_driven (slot : Option StationId) {w : BandWord} (driven : w.driven = true) (s : State) :
    receiveWord slot w s = s := if_neg (fun both => absurd (driven.symm.trans both.2) (by decide))

theorem reportBadCheck_run {s : State} (run : s.run = .run) :
    reportBadCheck s = s.setEvl { s.evl with marks := s.evl.marks ||| 0x0010#16 } := State.report_in_run s .bandCheck run

theorem receiveFrom_own {w : BandWord} {s : State} {n : StationId} (own : StationId → State)
    (selected : s.link.selected = some n) (is : wordStation w = n) : receiveFrom w own s = own n := by
  simp only [receiveFrom, selected, is, if_true]

theorem receiveFrom_intruder {w : BandWord} {s : State} {n : StationId} (own : StationId → State)
    (selected : s.link.selected = some n) (other : wordStation w ≠ n) : receiveFrom w own s = chargeStation (wordStation w) s := by
  simp only [receiveFrom, selected, other, if_false]

/-! ### Words in a window (R150) -/

theorem receiveGood_window (slot : Option StationId) (w : BandWord) {s : State} (window : s.link.state = .window) :
    receiveGood slot w s = receiveWindow slot w s := by
  simp only [receiveGood, window]

theorem receiveWindow_marks {n : StationId} {w : BandWord} {s : State} (is : wordStation w = n) (attn : wordTag w = .attn)
    (admitted : (s.station n).admitted = true) (fresh : n ∉ s.link.contenders) :
    receiveWindow (some n) w s = s.setLink { s.link with contenders := n :: s.link.contenders } := by
  simp only [receiveWindow, is, attn, admitted, fresh, and_self, if_true, if_false]

theorem receiveWindow_notAdmitted {n : StationId} {w : BandWord} {s : State} (is : wordStation w = n) (attn : wordTag w = .attn)
    (admitted : (s.station n).admitted = false) : receiveWindow (some n) w s = s := by
  simp only [receiveWindow, is, attn, admitted, and_self, if_true, Bool.false_eq_true, if_false]

theorem receiveWindow_stray {slot : StationId} {w : BandWord} (stray : wordStation w ≠ slot ∨ wordTag w ≠ .attn) (s : State) :
    receiveWindow (some slot) w s = chargeStation (wordStation w) s := by
  refine if_neg (fun both => ?_)
  obtain ⟨own, attn⟩ := both
  exact stray.elim (fun other => other (Option.some.inj own).symm) (fun tag => tag attn)

theorem receiveBad_window {s : State} (window : s.link.state = .window) : receiveBad s = reportBadCheck s := by
  simp only [receiveBad, window]

/-- Settles O48. -/
theorem windowsGatherContenders : Obligations.WindowsGatherContenders := by
  unfold Obligations.WindowsGatherContenders
  refine ⟨fun s run idle => congrArg Host.Outcome.next (if_pos ⟨run, idle⟩),
    fun n w s run window good listens is attn admitted fresh => congrArg Host.Outcome.next ?marks,
    fun n w s run window good listens is attn admitted => congrArg Host.Outcome.next ?notAdmitted,
    fun slot w s run window good listens stray => congrArg Host.Outcome.next ?stray,
    fun slot w s run window bad listens => congrArg Host.Outcome.next ?bad⟩
  case marks => rw [receiveWord_good _ run listens good, receiveGood_window _ _ window, receiveWindow_marks is attn admitted fresh]
  case notAdmitted => rw [receiveWord_good _ run listens good, receiveGood_window _ _ window, receiveWindow_notAdmitted is attn admitted]
  case stray =>
    rw [receiveWord_good _ run listens good, receiveGood_window _ _ window, receiveWindow_stray stray]
    rfl
  case bad => rw [receiveWord_bad _ run listens bad, receiveBad_window window, reportBadCheck_run run]

/-! ### The close of a window (R151, R152) -/

theorem firstHighest_mem {rank : StationId → Nat} {l : List StationId} {n : StationId} (first : firstHighest rank l = some n) :
    n ∈ l := by
  induction l generalizing n with
  | nil => exact absurd first (by simp [firstHighest])
  | cons a l ih =>
    unfold firstHighest at first
    split at first
    · exact Option.some.inj first ▸ List.mem_cons_self
    · next k later =>
      split at first
      · exact List.mem_cons_of_mem a (Option.some.inj first ▸ ih later)
      · exact Option.some.inj first ▸ List.mem_cons_self

/-- Of the stations of a list that count, the one that ranks highest, and comes first among equals, is chosen. -/
theorem firstHighest_filter {rank : StationId → Nat} {p : StationId → Bool} {l : List StationId} {n : StationId} (once : l.Nodup)
    (member : n ∈ l) (counts : p n = true)
    (best : ∀ k, p k = true → k ≠ n → rank k < rank n ∨ (rank k = rank n ∧ l.idxOf n < l.idxOf k)) :
    firstHighest rank (l.filter p) = some n := by
  induction l with
  | nil => exact absurd member List.not_mem_nil
  | cons a l ih =>
    rw [List.nodup_cons] at once
    obtain ⟨absent, once⟩ := once
    by_cases here : a = n
    · subst here
      rw [List.filter_cons_of_pos counts, firstHighest]
      split
      · rfl
      · next k later =>
        obtain ⟨inTail, counted⟩ := List.mem_filter.mp (firstHighest_mem later)
        have low : ¬ rank a < rank k := by
          rcases best k counted (fun same => absent (same ▸ inTail)) with less | ⟨equal, -⟩ <;> omega
        rw [if_neg low]
    · have tail : n ∈ l := (List.mem_cons.mp member).resolve_left (Ne.symm here)
      have chosen : firstHighest rank (l.filter p) = some n := ih once tail (fun k counted other => by
        rcases best k counted other with less | ⟨equal, before⟩
        · exact .inl less
        · rw [List.idxOf_cons_ne _ here] at before
          by_cases first : a = k
          · rw [first, List.idxOf_cons_self] at before
            omega
          · rw [List.idxOf_cons_ne _ first] at before
            exact .inr ⟨equal, by omega⟩)
      by_cases counted : p a = true
      · have lower : rank a < rank n := by
          rcases best a counted here with less | ⟨-, before⟩
          · exact less
          · rw [List.idxOf_cons_self] at before
            omega
        rw [List.filter_cons_of_pos counted, firstHighest, chosen]
        exact if_pos lower
      · rw [List.filter_cons_of_neg counted, chosen]

/-- Sixteen different stations are all of them (R149). -/
theorem OrderLaw.mem {s : State} (order : OrderLaw s) (n : StationId) : n ∈ s.link.order := by
  obtain ⟨once, length⟩ := order
  have all : s.link.order.toFinset = Finset.univ := Finset.eq_univ_of_card _ (by
    rw [List.toFinset_card_of_nodup once, length, Fintype.card_fin])
  exact List.mem_toFinset.mp (all ▸ Finset.mem_univ n)

theorem closingContenders_none {s : State} (noneAdmitted : ∀ k ∈ s.link.contenders, (s.station k).admitted = false) :
    windowWinner s = none := by
  have empty : closingContenders s = [] := List.filter_eq_nil_iff.mpr (fun k _ counts => by
    rw [Bool.and_eq_true, decide_eq_true_eq] at counts
    obtain ⟨marked, admitted⟩ := counts
    exact absurd (admitted.symm.trans (noneAdmitted k marked)) (by decide))
  rw [windowWinner, empty, firstHighest]

theorem windowWinner_eq {n : StationId} {s : State} (order : OrderLaw s) (marked : n ∈ s.link.contenders)
    (admitted : (s.station n).admitted = true) (best : ∀ k, k ∈ s.link.contenders → (s.station k).admitted = true → k ≠ n →
      (s.station k).priority < (s.station n).priority ∨
      ((s.station k).priority = (s.station n).priority ∧ s.link.order.idxOf n < s.link.order.idxOf k)) :
    windowWinner s = some n := by
  refine firstHighest_filter order.1 (order.mem n) ?_ (fun k counts other => ?_)
  · rw [Bool.and_eq_true, decide_eq_true_eq]
    exact ⟨marked, admitted⟩
  · rw [Bool.and_eq_true, decide_eq_true_eq] at counts
    exact best k counts.1 counts.2 other

theorem pollChoice_eq {n : StationId} {s : State} (order : OrderLaw s) (attached : (s.station n).state = .attached)
    (due : 750 ≤ (s.station n).idle) (best : ∀ k, k ≠ n → (s.station k).state = .attached → 750 ≤ (s.station k).idle →
      (s.station k).idle < (s.station n).idle ∨
      ((s.station k).idle = (s.station n).idle ∧ s.link.order.idxOf n < s.link.order.idxOf k)) :
    pollChoice s = some n := by
  refine firstHighest_filter order.1 (order.mem n) (decide_eq_true ⟨attached, due⟩) (fun k counts other => ?_)
  obtain ⟨isAttached, isDue⟩ := of_decide_eq_true counts
  exact best k other isAttached isDue

theorem pollChoice_none {s : State} (noneDue : ∀ k, (s.station k).state = .attached → (s.station k).idle < 750) :
    pollChoice s = none := by
  have empty : dueStations s = [] := List.filter_eq_nil_iff.mpr (fun k _ counts => by
    obtain ⟨attached, due⟩ := of_decide_eq_true counts
    exact absurd (noneDue k attached) (Nat.not_lt.mpr due))
  rw [pollChoice, empty, firstHighest]

/-- Settles O49. -/
theorem aWindowClosesIntoASelection : Obligations.AWindowClosesIntoASelection := by
  unfold Obligations.AWindowClosesIntoASelection
  refine ⟨fun n s run window order marked admitted best => ?selects, fun n s run window order noneAdmitted attached due best => ?polls,
    fun s run window noneAdmitted noneDue => ?rests⟩
  case selects =>
    have closes : closeWindow s = selectStation n s := by
      simp only [closeWindow, run, window, and_self, if_true, windowWinner_eq order marked admitted best]
    exact ⟨_, congrArg Host.Outcome.next closes, State.station_setStation_same s n _,
      fun k other => (State.station_setStation s n k _).trans (if_neg (Ne.symm other)), rfl, rfl⟩
  case polls =>
    have closes : closeWindow s = pollStation n s := by
      simp only [closeWindow, run, window, and_self, if_true, closingContenders_none noneAdmitted,
        pollChoice_eq order attached due best]
    exact congrArg Host.Outcome.next closes
  case rests =>
    have closes : closeWindow s = s.setLink { s.link with state := .idle, contenders := [] } := by
      simp only [closeWindow, run, window, and_self, if_true, closingContenders_none noneAdmitted, pollChoice_none noneDue]
    exact congrArg Host.Outcome.next closes

/-! ### The end of a transaction (R86, R156) -/

theorem endTransaction_admitted {n : StationId} {s : State} (selected : s.link.selected = some n)
    (admitted : (s.station n).admitted = true) : endTransaction s = s.setLink (idleLink s.link) := by
  simp only [endTransaction, selected, completeDeferred, admitted, if_true]
  rfl

theorem endTransaction_notAdmitted {n : StationId} {s : State} (selected : s.link.selected = some n)
    (admitted : (s.station n).admitted = false) (present : (s.station n).state ≠ .absent) : endTransaction s =
      ((s.setStation n { s.station n with state := .absent, missRun := 0, idle := 0 }).setGrip n none).setLink
        (idleLink s.link) := by
  have absent : completeDeferred n s = dropGrip n (s.setStation n (s.station n).toAbsent) := by
    rw [completeDeferred, if_neg (Bool.eq_false_iff.mp admitted), makeAbsent, if_neg present]
  simp only [endTransaction, selected, absent]
  rfl

/-- Settles O57. -/
theorem theReplyEndsTheTransaction : Obligations.TheReplyEndsTheTransaction := by
  unfold Obligations.TheReplyEndsTheTransaction
  intro n a s run answering selected answer link
  have sends {t : State} (ends : endTransaction s = t) :
      sendReply s = t.setLink { t.link with sent := [reply1Word n a.reply, reply2Word n a.reply] } := by
    simp only [sendReply, run, answering, and_self, if_true, selected, answer, ends]
  exact ⟨fun admitted => congrArg Host.Outcome.next (sends (endTransaction_admitted selected admitted)),
    fun admitted present => congrArg Host.Outcome.next (sends (endTransaction_notAdmitted selected admitted present))⟩

/-! ### Misses (R82, R153, R158) -/

theorem stationMissed_counts {n : StationId} {s : State} (low : (s.station n).missRun < 2) :
    stationMissed n s = s.setStation n { s.station n with missRun := (s.station n).missRun + 1 } := by
  have below : ¬ 3 ≤ (s.station n).missRun := by omega
  have notThird : ¬ (s.station n).missRun + 1 = 3 := by omega
  simp only [stationMissed, below, notThird, false_and, if_false]

theorem stationMissed_third {n : StationId} {s : State} (run : s.run = .run) (second : (s.station n).missRun = 2)
    (attached : (s.station n).state = .attached) : stationMissed n s =
      ((s.setStation n { s.station n with missRun := 3, state := .lost }).setGrip n none).setEvl
        { s.evl with marks := s.evl.marks ||| 0x0004#16 } := by
  simp only [stationMissed, second, attached, and_self, if_true, State.station_setStation_same, State.setStation_setStation]
  exact State.report_in_run _ .stationLost run

theorem stationMissed_link (n : StationId) (s : State) : (stationMissed n s).link = s.link := by
  unfold stationMissed
  simp only
  split
  · rfl
  · split
    · rw [State.report_link]; rfl
    · rfl

theorem endTransaction_link (s : State) : (endTransaction s).link = idleLink s.link := by
  unfold endTransaction completeDeferred makeAbsent
  cases s.link.selected with
  | none => rfl
  | some n =>
    simp only
    split
    · rfl
    · split <;> rfl

theorem missAndEnd_link (s : State) : (missAndEnd s).link = idleLink s.link := by
  unfold missAndEnd
  cases s.link.selected with
  | none => exact endTransaction_link s
  | some n => exact (endTransaction_link _).trans (congrArg idleLink (stationMissed_link n s))

/-- A miss that is not the third: the miss run rises, and the transaction ends. -/
theorem missAndEnd_counts {n : StationId} {s : State} (selected : s.link.selected = some n)
    (admitted : (s.station n).admitted = true) (low : (s.station n).missRun < 2) : missAndEnd s =
      (s.setStation n { s.station n with missRun := (s.station n).missRun + 1 }).setLink (idleLink s.link) := by
  simp only [missAndEnd, selected, stationMissed_counts low]
  exact endTransaction_admitted selected (by rw [State.station_setStation_same]; exact admitted)

/-- The third miss of an ATTACHED station: LOST, its grip dropped, and the transaction ends. -/
theorem missAndEnd_third {n : StationId} {s : State} (run : s.run = .run) (selected : s.link.selected = some n)
    (admitted : (s.station n).admitted = true) (second : (s.station n).missRun = 2)
    (attached : (s.station n).state = .attached) : missAndEnd s =
      (((s.setStation n { s.station n with missRun := 3, state := .lost }).setGrip n none).setEvl
        { s.evl with marks := s.evl.marks ||| 0x0004#16 }).setLink (idleLink s.link) := by
  simp only [missAndEnd, selected, stationMissed_third run second attached]
  refine endTransaction_admitted selected ?_
  exact (congrArg Station.admitted (State.station_setStation_same s n _)).trans admitted

theorem receiveBad_polling {s : State} (polling : s.link.state = .polling) : receiveBad s = missAndEnd (reportBadCheck s) := by
  simp only [receiveBad, polling]

theorem receiveGood_polling (slot : Option StationId) {n : StationId} {w : BandWord} {s : State} (polling : s.link.state = .polling)
    (selected : s.link.selected = some n) (is : wordStation w = n) : receiveGood slot w s = receivePolling n w s := by
  simp only [receiveGood, polling, receiveFrom_own _ selected is]

/-- BLC's block-end work while a window runs: counted down, and a miss at its last block end. -/
theorem linkBlockEnd_window (h : Bool) {s : State} (run : s.run = .run)
    (waits : s.link.state = .selected ∨ s.link.state = .polling) : linkBlockEnd h s =
      if s.link.window ≤ 1 then missAndEnd s else s.setLink { s.link with window := s.link.window - 1 } := by
  have expires (last : s.link.window ≤ 1) : (s.link.state = .selected → expireRequestWindow s = missAndEnd s) ∧
      (s.link.state = .polling → expireEchoWindow s = missAndEnd s) :=
    ⟨fun state => if_pos ⟨run, state, last⟩, fun state => if_pos ⟨run, state, last⟩⟩
  rcases waits with state | state
  · simp only [linkBlockEnd, state]
    split
    · next last => exact (expires last).1 state
    · rfl
  · simp only [linkBlockEnd, state]
    split
    · next last => exact (expires last).2 state
    · rfl

/-- Settles O58. -/
theorem pollsAndMissesAreCounted : Obligations.PollsAndMissesAreCounted := by
  unfold Obligations.PollsAndMissesAreCounted
  refine ⟨fun n s run selected admitted => ?misses, fun n content s run polling selected admitted => ?echo,
    fun a b h n s run selected waits => ?blockEnd⟩
  case misses =>
    intro missed lost ended
    have expires (state : s.link.state = .selected) (last : s.link.window = 1) : expireRequestWindow s = missAndEnd s :=
      if_pos ⟨run, state, by omega⟩
    have echoExpires (state : s.link.state = .polling) (last : s.link.window = 1) : expireEchoWindow s = missAndEnd s :=
      if_pos ⟨run, state, by omega⟩
    have counts := missAndEnd_counts selected admitted
    have third := missAndEnd_third run selected admitted
    refine ⟨fun state last low => congrArg Host.Outcome.next ((expires state last).trans (counts low)),
      fun state last second attached => congrArg Host.Outcome.next ((expires state last).trans (third second attached)),
      fun state last low => congrArg Host.Outcome.next ((echoExpires state last).trans (counts low)),
      fun state last second attached => congrArg Host.Outcome.next ((echoExpires state last).trans (third second attached)),
      fun w polling bad listens low => congrArg Host.Outcome.next ?badEcho⟩
    rw [receiveWord_bad _ run listens bad, receiveBad_polling polling, reportBadCheck_run run]
    exact missAndEnd_counts (s := s.setEvl { s.evl with marks := s.evl.marks ||| 0x0010#16 }) selected admitted low
  case echo =>
    refine congrArg Host.Outcome.next ?_
    rw [receiveWord_good _ run rfl (checkGood_plainWord 11 n content), receiveGood_polling _ polling selected (wordStation_echo n content)]
    simp only [receivePolling, wordTag_echo, clearIdle, stationAnswered, State.station_setStation_same, State.setStation_setStation]
    exact endTransaction_admitted selected (by rw [State.station_setStation_same]; exact admitted)
  case blockEnd =>
    intro idle
    obtain ⟨⟨link, stations, grips, latch⟩, uRun, uLink, ticked⟩ := blockEnd_band a b h s run
    revert link stations grips latch uRun uLink ticked
    generalize idleBlockEnd (blockEndHead a b s) = u
    intro link stations grips latch uRun uLink ticked
    have counted : u.station n = { s.station n with idle := idle } := by
      rw [State.station, ticked, tableGet_map]
      rfl
    have works := linkBlockEnd_window h uRun (uLink ▸ waits)
    rw [uLink] at works
    refine ⟨_, rfl, fun left => ?counts, fun last admitted => ?expires⟩
    case counts =>
      rw [if_neg (by omega)] at works
      rw [works] at link stations
      exact ⟨link, (congrArg (tableGet · n) stations).trans counted⟩
    case expires =>
      rw [if_pos (by omega)] at works
      have selectedU : u.link.selected = some n := uLink ▸ selected
      have admittedU : (u.station n).admitted = true := by rw [counted]; exact admitted
      have station : (blockEnd a b h s).station n = (linkBlockEnd h u).station n := congrArg (tableGet · n) stations
      have grip : (blockEnd a b h s).grip n = (linkBlockEnd h u).grip n := congrArg (tableGet · n) grips
      refine ⟨?idleAgain, fun low => ?risen, fun second attached => ?lost⟩
      case idleAgain =>
        rw [link, works]
        exact (missAndEnd_link u).trans (congrArg idleLink uLink)
      case risen =>
        rw [station, works, missAndEnd_counts selectedU admittedU (by rw [counted]; exact low), counted]
        exact State.station_setStation_same u n _
      case lost =>
        have missed := missAndEnd_third uRun selectedU admittedU (by rw [counted]; exact second) (by rw [counted]; exact attached)
        rw [counted] at missed
        rw [station, grip, works, missed]
        refine ⟨State.station_setStation_same u n _, State.grip_setGrip_same _ n none, latch _ ?_⟩
        rw [works, missed]
        have reported := congrArg State.evl (State.report_in_run u .stationLost uRun)
        exact LatchKept.of_eq reported.symm _ (State.latched_report_same u .stationLost uRun)

end Sys2Proof.Machine
end

-- Words that go wrong (R83, R154, R155, R159, R160), and the requests that change no cell (R97, R103 to R105, R126 to R131).
section
namespace Sys2Proof.Machine

/-! ### Words that go wrong -/

theorem receiveGood_idle (slot : Option StationId) (w : BandWord) {s : State} (idle : s.link.state = .idle) :
    receiveGood slot w s = chargeStation (wordStation w) s := by
  simp only [receiveGood, idle]

/-- A good word of another station than the selected one is stray (R159). -/
theorem receiveGood_intruder (slot : Option StationId) {n : StationId} {w : BandWord} {s : State}
    (inTransaction : s.link.state = .selected ∨ s.link.state = .answering ∨ s.link.state = .sending ∨ s.link.state = .polling)
    (selected : s.link.selected = some n) (other : wordStation w ≠ n) :
    receiveGood slot w s = chargeStation (wordStation w) s := by
  rcases inTransaction with state | state | state | state
  · simp only [receiveGood, state, receiveFrom_intruder _ selected other]
  · simp only [receiveGood, state, receiveFrom_intruder _ selected other]
  · simp only [receiveGood, state, receiveFrom_intruder _ selected other]
  · simp only [receiveGood, state, receiveFrom_intruder _ selected other]

theorem receiveGood_selected (slot : Option StationId) {n : StationId} {w : BandWord} {s : State} (state : s.link.state = .selected)
    (selected : s.link.selected = some n) (is : wordStation w = n) : receiveGood slot w s = receiveSelected n w s := by
  simp only [receiveGood, state, receiveFrom_own _ selected is]

theorem receiveGood_answering (slot : Option StationId) {n : StationId} {w : BandWord} {s : State} (state : s.link.state = .answering)
    (selected : s.link.selected = some n) (is : wordStation w = n) : receiveGood slot w s = receiveAnswering s := by
  simp only [receiveGood, state, receiveFrom_own _ selected is]

theorem receiveGood_sending (slot : Option StationId) {n : StationId} {w : BandWord} {s : State} (state : s.link.state = .sending)
    (selected : s.link.selected = some n) (is : wordStation w = n) : receiveGood slot w s = receiveSending w s := by
  simp only [receiveGood, state, receiveFrom_own _ selected is]

/-- A word of the wrong phase in SELECTED is answered PHASE (R155). -/
theorem receiveSelected_phase {n : StationId} {w : BandWord} {s : State}
    (wrong : (s.link.arrival = none ∧ wordTag w ≠ .request1) ∨ (s.link.arrival ≠ none ∧ wordTag w ≠ .request2)) :
    receiveSelected n w s = repliedByBlc .phase s := by
  rcases wrong with ⟨arrival, tag⟩ | ⟨arrival, tag⟩
  · simp only [receiveSelected, arrival, tag, if_false]
    rfl
  · obtain ⟨first, arrival⟩ := Option.ne_none_iff_exists'.mp arrival
    simp only [receiveSelected, arrival, tag, if_false]
    rfl

theorem receiveAnswering_open {r : Reply} {s : State} (answer : s.link.answer = some { reply := r, settled := false }) :
    receiveAnswering s = repliedByBlc .phase s := by
  simp only [receiveAnswering, answer, Bool.false_eq_true, if_false]
  rfl

theorem receiveAnswering_settled {r : Reply} {s : State} (answer : s.link.answer = some { reply := r, settled := true }) :
    receiveAnswering s = s := by
  simp only [receiveAnswering, answer, if_true]

theorem receiveSending_phase {w : BandWord} {s : State} (running : s.link.transferEnd = .running) (tag : wordTag w ≠ .stop) :
    receiveSending w s = s.setLink { s.link with transferEnd := .phase } := by
  simp only [receiveSending, running, ne_eq, not_true_eq_false, tag, if_false]

theorem receiveSending_ended {s : State} (ended : s.link.transferEnd ≠ .running) (w : BandWord) : receiveSending w s = s :=
  if_pos ended

theorem receivePolling_attn {n : StationId} {w : BandWord} (attn : wordTag w = .attn) (s : State) :
    receivePolling n w s = chargeStation n s := by
  simp only [receivePolling, attn]

theorem receivePolling_other {n : StationId} {w : BandWord} (notEcho : wordTag w ≠ .echo) (notAttn : wordTag w ≠ .attn) (s : State) :
    receivePolling n w s = s := by
  unfold receivePolling
  split
  · contradiction
  · contradiction
  · rfl

theorem chargeStation_run (n : StationId) (s : State) : (chargeStation n s).run = s.run := rfl

/-- A damaged word in SELECTED is answered CHECK and charged to the selected station (R154). -/
theorem receiveBad_selected {n : StationId} {s : State} (run : s.run = .run) (state : s.link.state = .selected)
    (selected : s.link.selected = some n) : receiveBad s = repliedByBlc .check
      ((chargeStation n s).setEvl { s.evl with marks := s.evl.marks ||| 0x0010#16 }) := by
  simp only [receiveBad, state, selected, reportBadCheck_run (s := chargeStation n s) run]
  rfl

/-- A damaged word in ANSWERING and in SENDING is charged to the selected station alone (R160). -/
theorem receiveBad_charged {n : StationId} {s : State} (run : s.run = .run)
    (state : s.link.state = .answering ∨ s.link.state = .sending) (selected : s.link.selected = some n) :
    receiveBad s = (chargeStation n s).setEvl { s.evl with marks := s.evl.marks ||| 0x0010#16 } := by
  rcases state with state | state
  · simp only [receiveBad, state, selected, reportBadCheck_run (s := chargeStation n s) run]
    rfl
  · simp only [receiveBad, state, selected, reportBadCheck_run (s := chargeStation n s) run]
    rfl

theorem receiveBad_idle {s : State} (run : s.run = .run) (idle : s.link.state = .idle) :
    receiveBad s = s.setEvl { s.evl with marks := s.evl.marks ||| 0x0010#16 } := by
  simp only [receiveBad, idle, reportBadCheck_run run]

/-- A word that is not of five bytes is damaged (log 36). -/
theorem checkGood_length {w : BandWord} (length : w.bytes.length ≠ 5) : checkGood w = false := by
  unfold checkGood
  split
  · next five =>
    rw [five] at length
    exact absurd rfl length
  · rfl

/-- Settles O59. -/
theorem badWordsAreAnsweredOrCharged : Obligations.BadWordsAreAnsweredOrCharged := by
  unfold Obligations.BadWordsAreAnsweredOrCharged
  refine ⟨fun w s run listens => ?words, fun w s driven => ?driven, fun w => checkGood_length⟩
  case driven =>
    have ignored := congrArg (Host.Outcome.next (φ := Fault) (ρ := Refusal)) (receiveWord_driven none driven s)
    exact ⟨ignored, ignored, ignored⟩
  case words =>
    intro charged
    have good {slot : Option StationId} {t : State} (check : checkGood w = true) (received : receiveGood slot w s = t) :
        (.next (receiveWord slot w s) : Host.Outcome State Fault Refusal) = .next t :=
      congrArg Host.Outcome.next ((receiveWord_good slot run listens check).trans received)
    have bad {t : State} (check : checkGood w = false) (received : receiveBad s = t) :
        (.next (receiveWord none w s) : Host.Outcome State Fault Refusal) = .next t :=
      congrArg Host.Outcome.next ((receiveWord_bad none run listens check).trans received)
    refine ⟨fun n state selected check => bad check (receiveBad_selected run state selected),
      fun n state selected arrival check is tag => good check
        ((receiveGood_selected _ state selected is).trans (receiveSelected_phase (.inl ⟨arrival, tag⟩))),
      fun n state selected arrival check is tag => good check
        ((receiveGood_selected _ state selected is).trans (receiveSelected_phase (.inr ⟨arrival, tag⟩))),
      fun n r state selected answer check is => good check
        ((receiveGood_answering _ state selected is).trans (receiveAnswering_open answer)),
      fun n r state selected answer check is => good check
        ((receiveGood_answering _ state selected is).trans (receiveAnswering_settled answer)),
      fun n state selected running check is tag => good check
        ((receiveGood_sending _ state selected is).trans (receiveSending_phase running tag)),
      fun n state selected ended check is => good check
        ((receiveGood_sending _ state selected is).trans (receiveSending_ended ended w)),
      fun n state selected check is => ⟨fun attn => ?attn, fun notEcho notAttn => good check
        ((receiveGood_polling _ state selected is).trans (receivePolling_other notEcho notAttn s))⟩,
      fun state check => good check (receiveGood_idle none w state),
      fun n state selected check other => good check (receiveGood_intruder none ?inTransaction selected other),
      fun state check => bad check (receiveBad_idle run state),
      fun n state selected check => bad check (receiveBad_charged run state selected)⟩
    case attn =>
      have charges (slot : Option StationId) : receiveGood slot w s = charged n :=
        (receiveGood_polling slot state selected is).trans (receivePolling_attn attn s)
      exact ⟨good check (charges none), fun slot => good check (charges (some slot))⟩
    case inTransaction => simpa only [List.mem_cons, List.not_mem_nil, or_false] using state

/-! ### A request of one word (R122, R153) -/

/-- The state in which a request is executed: the station's answer is reported (R82). -/
def heard (n : StationId) (s : State) : State := s.setStation n { s.station n with missRun := 0 }

theorem heard_station (n : StationId) (s : State) : (heard n s).station n = { s.station n with missRun := 0 } :=
  State.station_setStation_same s n _

/-- A one-word request that is executed with a reply leaves that reply in its turnaround. -/
theorem RequestReady.replies {n : StationId} {s t : State} (ready : RequestReady n s) {k : Byte} {op : Word16} {p : Reply}
    (single : needsMask (requestKind k) = false)
    (executed : executeRequest { station := n, kind := requestKind k, operand := op, mask := 0 } (heard n s) = ⟨t, some p⟩) :
    (.next (receiveWord none (request1Word n k op) s) : Host.Outcome State Fault Refusal) = .next (replied p t) :=
  congrArg Host.Outcome.next ((receiveWord_request ready k op single).trans (handToSru_replied _ _ t p executed))

/-- What an ATTACHED station's one-word request executes. -/
theorem RequestReady.executes {n : StationId} {s t : State} (ready : RequestReady n s) (attached : (s.station n).state = .attached)
    {k : Byte} {op : Word16} {p : Reply} (single : needsMask (requestKind k) = false)
    (meaning : (match requestKind k with
      | .hello => requestHello n (heard n s)
      | .ping => answered .ok (heard n s)
      | .openGrip => requestOpen n op.toNat (heard n s)
      | .nextGrip => requestNext n (heard n s)
      | .setLevel => requestSet n op.toNat (heard n s)
      | .nudge => requestNudge n op.toInt (heard n s)
      | .pan => requestPan n op.toInt (heard n s)
      | .muteSet => requestMask n .mute 0 (heard n s)
      | .muteClear => requestMask n .unmute 0 (heard n s)
      | .closeGrip => requestClose n (heard n s)
      | .recallMap => requestRecall (heard n s)
      | .unnamed => answered .badValue (heard n s)) = ⟨t, some p⟩) :
    (.next (receiveWord none (request1Word n k op) s) : Host.Outcome State Fault Refusal) = .next (replied p t) :=
  ready.replies single ((executeRequest_attached _ _ ((congrArg Station.state (heard_station n s)).trans attached)).trans meaning)

/-- A station that is not ATTACHED is answered NOT_ATTACHED to everything but HELLO (R126). -/
theorem RequestReady.notAttached {n : StationId} {s : State} (ready : RequestReady n s) (away : (s.station n).state ≠ .attached)
    {k : Byte} (op : Word16) (single : needsMask (requestKind k) = false) (notHello : requestKind k ≠ .hello) :
    (.next (receiveWord none (request1Word n k op) s) : Host.Outcome State Fault Refusal) =
      .next (replied (plainReply .notAttached) (heard n s)) :=
  ready.replies single (executeRequest_notAttached _ _ (by
    rw [heard_station]
    exact away) notHello)

theorem requestHello_heard {n : StationId} {s : State} (run : s.run = .run) : requestHello n (heard n s) =
    ⟨((s.setStation n { s.station n with missRun := 0, state := .attached }).setGrip n none).setEvl
        { s.evl with marks := s.evl.marks ||| 0x0002#16 }, some (countReply .ok (presentCount (s.station n).map))⟩ := by
  unfold requestHello attachStation
  rw [heard_station, State.report_in_run _ .stationAttached (by exact run)]
  unfold heard
  rw [State.setStation_setStation]
  rfl

theorem requestClose_held {n : StationId} {s : State} (held : s.grip n ≠ none) : requestClose n s = answered .ok (s.setGrip n none) := by
  obtain ⟨g, grip⟩ := Option.ne_none_iff_exists'.mp held
  simp only [requestClose, grip]
  rfl

theorem requestClose_empty {n : StationId} {s : State} (empty : s.grip n = none) : requestClose n s = answered .noGrip s := by
  simp only [requestClose, empty]

theorem executeRequest_hello {r : Request} (hello : r.kind = .hello) (s : State) : executeRequest r s = requestHello r.station s := by
  simp only [executeRequest, hello, ne_eq, not_true_eq_false, and_false, if_false]

/-- Settles O50. -/
theorem requestsWithoutAChangeAreAnswered : Obligations.RequestsWithoutAChangeAreAnswered := by
  unfold Obligations.RequestsWithoutAChangeAreAnswered
  intro n op s ready u
  refine ⟨ready.replies rfl ((executeRequest_hello rfl _).trans (requestHello_heard ready.run)),
    fun attached => ⟨ready.executes attached rfl rfl, fun held => ready.executes attached rfl (requestClose_held (s := heard n s) held),
      fun empty => ready.executes attached rfl (requestClose_empty (s := heard n s) empty), fun k unnamed => ?unnamed⟩,
    fun away => ?away⟩
  case unnamed =>
    refine ready.executes attached (by rw [unnamed]; rfl) ?_
    rw [unnamed]
    rfl
  case away =>
    have answers {k : Byte} := ready.notAttached away (k := k) op
    exact ⟨answers rfl (by decide), answers rfl (by decide), answers rfl (by decide), answers rfl (by decide),
      answers rfl (by decide), answers rfl (by decide), answers rfl (by decide), answers rfl (by decide),
      fun k unnamed => answers (by rw [unnamed]; rfl) (by rw [unnamed]; decide)⟩

/-! ### OPEN and NEXT (R90, R103, R104, R129) -/

/-- The first number of a range that passes a test is the one that passes with none below it. -/
theorem finRange_find? {k : Nat} {p : Fin k → Bool} {i : Fin k} (passes : p i = true) (below : ∀ j, j < i → p j = false) :
    (List.finRange k).find? p = some i := by
  rw [List.find?_eq_some_iff_getElem]
  refine ⟨passes, i.val, by simp, by simp, fun j before => ?_⟩
  have fails := below ⟨j, by omega⟩ before
  simpa using fails

theorem lowestPresent_eq_find? (m : StationMap) : lowestPresent m = (List.finRange 24).find? (fun i => (mapAt m i).isSome) :=
  List.head?_filter

theorem nextPresent_eq_find? (m : StationMap) (g : LocalIndex) : nextPresent m g =
    (List.finRange 24).find? (fun i => (mapAt m i).isSome && decide (g < i)) := by
  rw [nextPresent, presentIndices, List.find?_filter]
  simp only [decide_eq_true_eq, Bool.decide_and, Bool.decide_eq_true]

theorem lowestPresent_of {m : StationMap} {i : LocalIndex} (present : (mapAt m i).isSome = true)
    (below : ∀ k, k < i → mapAt m k = none) : lowestPresent m = some i := by
  rw [lowestPresent_eq_find?]
  exact finRange_find? present (fun j before => by rw [below j before]; rfl)

theorem nextPresent_of {m : StationMap} {g i : LocalIndex} (present : (mapAt m i).isSome = true) (above : g < i)
    (between : ∀ k, g < k → k < i → mapAt m k = none) : nextPresent m g = some i := by
  rw [nextPresent_eq_find?]
  refine finRange_find? (by rw [present, decide_eq_true above]; rfl) (fun j before => ?_)
  by_cases after : g < j
  · rw [between j after before]; rfl
  · rw [decide_eq_false after, Bool.and_false]

theorem nextPresent_none {m : StationMap} {g : LocalIndex} (above : ∀ k, g < k → mapAt m k = none) : nextPresent m g = none := by
  rw [nextPresent_eq_find?, List.find?_eq_none]
  intro j _
  by_cases after : g < j
  · rw [above j after]; simp
  · simp [after]

theorem lowestPresent_none {m : StationMap} (empty : ∀ i, mapAt m i = none) : lowestPresent m = none := by
  rw [lowestPresent_eq_find?, List.find?_eq_none]
  intro j _
  rw [empty j]
  simp

theorem nextIndex_above {m : StationMap} {g i : LocalIndex} (next : nextPresent m g = some i) : nextIndex m (some g) = some i := by
  simp only [nextIndex, next]

theorem nextIndex_wraps {m : StationMap} {g : LocalIndex} (last : nextPresent m g = none) :
    nextIndex m (some g) = lowestPresent m := by
  simp only [nextIndex, last]

/-- With no entry present NEXT opens none. -/
theorem nextIndex_none {m : StationMap} (empty : ∀ i, mapAt m i = none) (held : Option LocalIndex) : nextIndex m held = none := by
  cases held with
  | none => exact lowestPresent_none empty
  | some g => rw [nextIndex_wraps (nextPresent_none (fun k _ => empty k)), lowestPresent_none empty]

theorem openAt_present {n : StationId} {i : LocalIndex} {e : MapEntry} {s : State} (entry : mapAt (s.station n).map i = some e) :
    openAt n (some i) s = ⟨makeGrip n i e s, some (gripReply i e s)⟩ := by
  simp only [openAt, entry]

theorem openAt_absent {n : StationId} {i : LocalIndex} {s : State} (absent : mapAt (s.station n).map i = none) :
    openAt n (some i) s = answered .unmapped s := by
  simp only [openAt, absent]

theorem requestOpen_absent {n : StationId} {w : Nat} {s : State}
    (absent : ∀ i : LocalIndex, i.val = w → mapAt (s.station n).map i = none) : requestOpen n w s = answered .unmapped s := by
  unfold requestOpen
  split
  · next low => exact openAt_absent (absent ⟨w, low⟩ rfl)
  · rfl

theorem requestOpen_index (n : StationId) (i : LocalIndex) (s : State) :
    requestOpen n (BitVec.ofNat 16 i.val).toNat s = openAt n (some i) s := by
  have value : (BitVec.ofNat 16 i.val).toNat = i.val := by
    rw [BitVec.toNat_ofNat]
    omega
  have low := i.isLt
  simp only [requestOpen, value, low, dif_pos]

/-- Settles O51. -/
theorem openAndNextMakeAFreshGrip : Obligations.OpenAndNextMakeAFreshGrip := by
  unfold Obligations.OpenAndNextMakeAFreshGrip
  refine ⟨fun n s ready attached => ?requests, fun m i present => ⟨fun g above between => ?next, fun g last below => ?wraps,
    fun below => lowestPresent_of present below⟩⟩
  case next => exact nextIndex_above (nextPresent_of present above between)
  case wraps => rw [nextIndex_wraps (nextPresent_none last), lowestPresent_of present below]
  case requests =>
    intro u opened
    have map : ((heard n s).station n).map = (s.station n).map := by rw [heard_station]
    have opens {i : LocalIndex} {e : MapEntry} (entry : mapAt (s.station n).map i = some e) :
        openAt n (some i) (heard n s) = ⟨makeGrip n i e (heard n s), some (gripReply i e (heard n s))⟩ :=
      openAt_present (by rw [map]; exact entry)
    refine ⟨fun i e entry => ?openEntry, fun w absent => ?openNone, fun w i e next entry => ?nextEntry, fun w empty => ?nextNone⟩
    case openEntry => exact ready.executes attached rfl ((requestOpen_index n i _).trans (opens entry))
    case openNone =>
      refine ready.executes attached rfl (requestOpen_absent (fun i is => ?_))
      rw [map]
      exact absent i is
    case nextEntry =>
      have index : requestNext n (heard n s) = openAt n (some i) (heard n s) := by
        rw [requestNext, map]
        exact congrArg (openAt n · (heard n s)) next
      exact ready.executes attached rfl (index.trans (opens entry))
    case nextNone =>
      have index : requestNext n (heard n s) = openAt n none (heard n s) := by
        rw [requestNext, map, nextIndex_none empty]
      exact ready.executes attached rfl index

end Sys2Proof.Machine
end

-- Edits through a grip and mute masks (R97, R107 to R110, R131 to R138).
section
namespace Sys2Proof.Machine

/-! ### The checks of an edit (R131) -/

/-- The checks that SET, NUDGE and PAN share, in their order: a grip, the value, the right, the lockout; `rest` follows. -/
def checkedEdit (n : StationId) (badValue : Bool) (denied : Right → Bool) (rest : Grip → Executed) (s : State) : Executed :=
  match s.grip n with
  | none => answered .noGrip s
  | some g =>
    if badValue then answered .badValue s
    else if denied g.right then answered .denied s
    else if lockedOut n s then answeredLocked s
    else rest g

theorem requestSet_eq (n : StationId) (v : Nat) (s : State) : requestSet n v s =
    checkedEdit n (decide (220 < v)) (fun r => decide (r = .view))
      (fun g => if g.state = .stale then refusedStale n g s else throughGrip n g (.level v) s) s := by
  unfold requestSet checkedEdit
  cases s.grip n with
  | none => rfl
  | some g => simp only [decide_eq_true_eq]

theorem requestNudge_eq (n : StationId) (d : Int) (s : State) : requestNudge n d s =
    checkedEdit n (decide (d < -40 ∨ 40 < d)) (fun r => decide (r = .view)) (fun g => throughGrip n g (.nudge d) s) s := by
  unfold requestNudge checkedEdit
  cases s.grip n with
  | none => rfl
  | some g => simp only [decide_eq_true_eq]

theorem requestPan_eq (n : StationId) (p : Int) (s : State) : requestPan n p s =
    checkedEdit n (decide (p < -32 ∨ 32 < p)) (fun r => decide (r ≠ .full)) (fun g => throughGrip n g (.pan p) s) s := by
  unfold requestPan checkedEdit
  cases s.grip n with
  | none => rfl
  | some g => simp only [decide_eq_true_eq]

section Checks
variable {n : StationId} {s : State} {g : Grip} {badValue : Bool} {denied : Right → Bool} {rest : Grip → Executed}

theorem checkedEdit_noGrip (empty : s.grip n = none) : checkedEdit n badValue denied rest s = answered .noGrip s := by
  simp only [checkedEdit, empty]

theorem checkedEdit_badValue (grip : s.grip n = some g) (bad : badValue = true) :
    checkedEdit n badValue denied rest s = answered .badValue s := by
  simp only [checkedEdit, grip, bad, if_true]

theorem checkedEdit_denied (grip : s.grip n = some g) (good : badValue = false) (no : denied g.right = true) :
    checkedEdit n badValue denied rest s = answered .denied s := by
  simp only [checkedEdit, grip, good, no, Bool.false_eq_true, if_true, if_false]

theorem checkedEdit_locked (grip : s.grip n = some g) (good : badValue = false) (yes : denied g.right = false)
    (locked : lockedOut n s = true) : checkedEdit n badValue denied rest s = answeredLocked s := by
  simp only [checkedEdit, grip, good, yes, locked, Bool.false_eq_true, if_true, if_false]

theorem checkedEdit_passes (grip : s.grip n = some g) (good : badValue = false) (yes : denied g.right = false)
    (unlocked : lockedOut n s = false) : checkedEdit n badValue denied rest s = rest g := by
  simp only [checkedEdit, grip, good, yes, unlocked, Bool.false_eq_true, if_false]

end Checks

theorem lockedOut_heard (n : StationId) (s : State) : lockedOut n (heard n s) = decide ((s.station n).priority ≤ s.lockout) := by
  rw [lockedOut, heard_station]
  rfl

theorem answeredLocked_run {s : State} (run : s.run = .run) : answeredLocked s =
    ⟨s.setEvl { s.evl with marks := s.evl.marks ||| 0x8000#16 }, some (plainReply .locked)⟩ := by
  rw [answeredLocked, State.report_in_run s .lockoutHit run]
  rfl

/-! ### A change through a grip (R133, R135, R136) -/

theorem takeChange_heard (ch : Change) (n : StationId) (s : State) :
    takeChange ch (heard n s) = (takeChange ch s).setStations (heard n s).stations := (inner_takeChange ch).setStations s _

/-- What a change through a grip leaves, its reply formed from the state before the request and the cell after it. -/
theorem throughGrip_heard (n : StationId) (g : Grip) (k : ChangeKind) (s : State) : throughGrip n g k (heard n s) =
    ⟨(let t := takeChange (stationChange n g.cell k) (heard n s)
      t.setGrip n ((t.grip n).map (fun g => { g with state := .fresh }))), some (editReply g (stationChange n g.cell k) s)⟩ := by
  have flags : changeFlags (stationChange n g.cell k) (heard n s) = changeFlags (stationChange n g.cell k) s := by
    unfold changeFlags
    rw [takeChange_heard]
    rfl
  have report : entryReport g.index g.right g.cell (refreshGrip n (takeChange (stationChange n g.cell k) (heard n s))) =
      entryReport g.index g.right g.cell (takeChange (stationChange n g.cell k) s) := by
    rw [takeChange_heard]
    rfl
  unfold throughGrip editReply
  simp only [flags, report]
  rfl

/-- Settles O52. -/
theorem editsGoThroughTheGrip : Obligations.EditsGoThroughTheGrip := by
  unfold Obligations.EditsGoThroughTheGrip
  intro n g w s allowed u change applied
  obtain ⟨ready, attached, grip, right, lockout⟩ := allowed
  have unlocked : lockedOut n (heard n s) = false := by
    rw [lockedOut_heard]
    exact decide_eq_false (Nat.not_le.mpr lockout)
  have held : (heard n s).grip n = some g := grip
  refine ⟨fun low fresh => ready.executes attached rfl ?set, fun low high => ready.executes attached rfl ?nudge,
    fun low high full => ready.executes attached rfl ?pan⟩
  case set =>
    have notStale : g.state ≠ .stale := by rw [fresh]; decide
    refine (requestSet_eq n _ _).trans ((checkedEdit_passes held (decide_eq_false (by omega)) (decide_eq_false right)
      unlocked).trans ?_)
    exact (if_neg notStale).trans (throughGrip_heard n g _ s)
  case nudge =>
    exact (requestNudge_eq n _ _).trans ((checkedEdit_passes held (decide_eq_false (by omega)) (decide_eq_false right)
      unlocked).trans (throughGrip_heard n g _ s))
  case pan =>
    exact (requestPan_eq n _ _).trans ((checkedEdit_passes held (decide_eq_false (by omega))
      (decide_eq_false (not_not_intro full)) unlocked).trans (throughGrip_heard n g _ s))

/-- SET refused STALE: the grip becomes FRESH and the reply shows the cell as it stands (R134). -/
theorem refusedStale_held {n : StationId} {g : Grip} {s : State} (grip : s.grip n = some g) : refusedStale n g s =
    ⟨s.setGrip n (some { g with state := .fresh }), some
      { status := .stale, flags := { cellFlags (s.cell g.cell) (s.gliding g.cell) with s := true }, count := 0,
        report := some (entryReport g.index g.right g.cell s) }⟩ := by
  unfold refusedStale refreshGrip
  rw [grip]
  rfl

/-- Settles O53, check by check. -/
theorem editChecksComeInOrder : Obligations.EditChecksComeInOrder := by
  unfold Obligations.EditChecksComeInOrder
  intro n w s ready attached u refused locked
  have set {t : State} {p : Reply} (meaning : requestSet n w.toNat (heard n s) = ⟨t, some p⟩) :
      exec (.setLevel n w) s = .next (replied p t) := ready.executes attached rfl meaning
  have nudge {t : State} {p : Reply} (meaning : requestNudge n w.toInt (heard n s) = ⟨t, some p⟩) :
      exec (.nudgeLevel n w) s = .next (replied p t) := ready.executes attached rfl meaning
  have pan {t : State} {p : Reply} (meaning : requestPan n w.toInt (heard n s) = ⟨t, some p⟩) :
      exec (.panCell n w) s = .next (replied p t) := ready.executes attached rfl meaning
  refine ⟨fun empty => ⟨set ((requestSet_eq n _ _).trans (checkedEdit_noGrip empty)),
    nudge ((requestNudge_eq n _ _).trans (checkedEdit_noGrip empty)), pan ((requestPan_eq n _ _).trans (checkedEdit_noGrip empty))⟩,
    fun g grip => ?held⟩
  have held : (heard n s).grip n = some g := grip
  have lockedOut_of (low : (s.station n).priority ≤ s.lockout) : lockedOut n (heard n s) = true := by
    rw [lockedOut_heard]
    exact decide_eq_true low
  have locks : answeredLocked (heard n s) = ⟨u.setEvl { s.evl with marks := s.evl.marks ||| 0x8000#16 },
      some (plainReply .locked)⟩ := answeredLocked_run (s := heard n s) ready.run
  refine ⟨fun bad => set ((requestSet_eq n _ _).trans (checkedEdit_badValue held (decide_eq_true bad))),
    fun bad => nudge ((requestNudge_eq n _ _).trans (checkedEdit_badValue held (decide_eq_true bad))),
    fun bad => pan ((requestPan_eq n _ _).trans (checkedEdit_badValue held (decide_eq_true bad))),
    fun low view => set ((requestSet_eq n _ _).trans
      (checkedEdit_denied held (decide_eq_false (by omega)) (decide_eq_true view))),
    fun low high view => nudge ((requestNudge_eq n _ _).trans
      (checkedEdit_denied held (decide_eq_false (by omega)) (decide_eq_true view))),
    fun low high notFull => pan ((requestPan_eq n _ _).trans
      (checkedEdit_denied held (decide_eq_false (by omega)) (decide_eq_true notFull))),
    fun low right below => set ((requestSet_eq n _ _).trans
      ((checkedEdit_locked held (decide_eq_false (by omega)) (decide_eq_false right) (lockedOut_of below)).trans locks)),
    fun low high right below => nudge ((requestNudge_eq n _ _).trans
      ((checkedEdit_locked held (decide_eq_false (by omega)) (decide_eq_false right) (lockedOut_of below)).trans locks)),
    fun low high full below => pan ((requestPan_eq n _ _).trans
      ((checkedEdit_locked held (decide_eq_false (by omega)) (decide_eq_false (not_not_intro full)) (lockedOut_of below)).trans
        locks)),
    fun low right above stale => set ?stale⟩
  case stale =>
    have unlocked : lockedOut n (heard n s) = false := by
      rw [lockedOut_heard]
      exact decide_eq_false (Nat.not_le.mpr above)
    exact (requestSet_eq n _ _).trans ((checkedEdit_passes held (decide_eq_false (by omega)) (decide_eq_false right)
      unlocked).trans ((if_pos stale).trans (refusedStale_held held)))

/-! ### Mute masks (R137, R138) -/

theorem mem_namedEntries {m : StationMap} {mask : Word24} {i : LocalIndex} {e : MapEntry} :
    (i, e) ∈ namedEntries m mask ↔ mask.getLsbD i.val = true ∧ mapAt m i = some e := by
  unfold namedEntries
  rw [List.mem_filterMap]
  constructor
  · rintro ⟨j, -, named⟩
    split at named
    · next bit =>
      obtain ⟨x, entry, same⟩ := Option.map_eq_some_iff.mp named
      obtain ⟨rfl, rfl⟩ := Prod.mk.inj same
      exact ⟨bit, entry⟩
    · exact absurd named (by simp)
  · rintro ⟨bit, entry⟩
    exact ⟨i, List.mem_finRange i, by rw [if_pos bit, entry]; rfl⟩

theorem namedEntries_ascend (m : StationMap) (mask : Word24) : (namedEntries m mask).Pairwise (fun p q => p.1 < q.1) := by
  have index {i : LocalIndex} {p : LocalIndex × MapEntry}
      (named : (if mask.getLsbD i.val then (mapAt m i).map (fun e => (i, e)) else none) = some p) : p.1 = i := by
    split at named
    · obtain ⟨x, -, rfl⟩ := Option.map_eq_some_iff.mp named
      rfl
    · exact absurd named (by simp)
  refine List.Pairwise.filterMap _ (fun i j less p first q second => ?_) (List.pairwise_lt_finRange 24)
  rw [index first, index second]
  exact less

theorem mem_presentEntries {m : StationMap} {e : MapEntry} : e ∈ presentEntries m ↔ ∃ i, mapAt m i = some e := by
  simp only [presentEntries, List.mem_filterMap, List.mem_finRange, true_and]

theorem all_of_nonempty_iff {α : Type} (l : List α) (p : α → Bool) :
    (!l.isEmpty && l.all p) = true ↔ l ≠ [] ∧ ∀ x ∈ l, p x = true := by
  rw [Bool.and_eq_true, Bool.not_eq_true', List.isEmpty_eq_false_iff, List.all_eq_true]

theorem maskFlags_z (m : StationMap) (mask : Word24) (b : Bool) (s : State) : (maskFlags m mask b s).z = true ↔
    (∃ i e, mapAt m i = some e) ∧ ∀ i e, mapAt m i = some e → (s.cell e.cell).muted = true := by
  refine (all_of_nonempty_iff _ _).trans (and_congr ?_ ?_)
  · have some_present : presentEntries m ≠ [] ↔ ∃ e, e ∈ presentEntries m :=
      ⟨List.exists_mem_of_ne_nil _, fun ⟨_, present⟩ => List.ne_nil_of_mem present⟩
    simp only [some_present, mem_presentEntries]
    exact exists_comm
  · simp only [mem_presentEntries]
    exact ⟨fun all i e entry => all e ⟨i, entry⟩, fun all e present => present.elim (fun i entry => all i e entry)⟩

theorem maskFlags_m (m : StationMap) (mask : Word24) (b : Bool) (s : State) : (maskFlags m mask b s).m = true ↔
    namedEntries m mask ≠ [] ∧ ∀ p ∈ namedEntries m mask, (s.cell p.2.cell).muted = true := by
  refine (all_of_nonempty_iff _ _).trans (and_congr ?_ ?_)
  · rw [ne_eq, List.map_eq_nil_iff]
  · exact List.forall_mem_map

theorem maskFlags_g (m : StationMap) (mask : Word24) (b : Bool) (s : State) : (maskFlags m mask b s).g = true ↔
    ∃ p ∈ namedEntries m mask, ∃ x ∈ s.glides, x.cell = p.2.cell := by
  show (((namedEntries m mask).map (·.2)).any (fun e => s.gliding e.cell)) = true ↔ _
  rw [List.any_map, List.any_eq_true]
  simp only [Function.comp_apply, gliding_true_iff]

theorem maskFlags_d (m : StationMap) (mask : Word24) (b : Bool) (s : State) : (maskFlags m mask b s).d =
    (namedEntries m mask).any (fun p => decide (p.2.right = .view)) := List.any_map

theorem maskRefreshes_eq (g : Option Grip) (l : List (LocalIndex × MapEntry)) :
    maskRefreshes g l = g.any (fun g => l.any (fun p => decide (p.1 = g.index))) := by
  cases g <;> rfl

/-- The change that each presented entry of a mask request gets. -/
def maskChangeKind (k : MaskKind) : ChangeKind :=
  match k with
  | .muteSet => .mute
  | .muteClear => .unmute

theorem maskChangeKind_eq (k : MaskKind) : maskChangeKind k = if decide (k = .muteSet) then .mute else .unmute := by
  cases k <;> rfl

theorem exec_maskCommand (k : MaskKind) (n : StationId) (mask : Word24) (s : State) :
    exec (maskCommand k n mask) s = .next (receiveMaskRequest n k mask s) := by
  cases k <;> rfl

theorem executeRequest_mask {n : StationId} {s : State} (attached : (s.station n).state = .attached) (k : MaskKind) (mask : Word24) :
    executeRequest { station := n, kind := requestKind (maskKindCode k), operand := 0, mask := mask } s =
      requestMask n (maskChangeKind k) mask s := by
  refine (executeRequest_attached _ _ attached).trans ?_
  cases k <;> rfl

/-- What the state in which a mask request is executed has in common with the state that the command finds. -/
structure SameRequest (n : StationId) (s u : State) : Prop where
  run : u.run = .run
  state : (u.station n).state = (s.station n).state
  priority : (u.station n).priority = (s.station n).priority
  map : (u.station n).map = (s.station n).map
  lockout : u.lockout = s.lockout
  grip : u.grip n = s.grip n
  evl : u.evl = s.evl

theorem MaskReady.same {n : StationId} {k : MaskKind} {s u : State} (ready : MaskReady n k s u) : SameRequest n s u := by
  rcases ready with ⟨waits, rfl⟩ | ⟨run, -, -, -, rfl⟩
  · have station : (heard n s).station n = { s.station n with missRun := 0 } := heard_station n s
    exact ⟨waits.run, (congrArg Station.state station).trans rfl, (congrArg Station.priority station).trans rfl,
      (congrArg Station.map station).trans rfl, rfl, rfl, rfl⟩
  · exact ⟨run, rfl, rfl, rfl, rfl, rfl, rfl⟩

/-- A mask request that is not locked out: the changes of the presented entries as one, then the refresh. -/
theorem requestMask_applied {n : StationId} {s : State} {m : StationMap} {g : Option Grip} {mask : Word24} {refreshed : Bool}
    (unlocked : lockedOut n s = false) (map : (s.station n).map = m) (grip : s.grip n = g)
    (refreshes : maskRefreshes g (presentedEntries m mask) = refreshed) (k : ChangeKind) : requestMask n k mask s =
      (let v := takeChanges (maskChanges n k m mask) s
       let t := if refreshed then refreshGrip n v else v
       ⟨t, some {
         status := .ok
         flags := maskFlags m mask (refreshed && decide (g.map (·.state) = some Freshness.stale)) t
         count := (presentedEntries m mask).length
         report := none }⟩) := by
  subst map grip refreshes
  simp only [requestMask, unlocked, Bool.false_eq_true, if_false]

/-- A refresh of the grip leaves cells, link and the request in hand. -/
theorem refreshed_kept (b : Bool) (n : StationId) (s : State) :
    let t := if b then refreshGrip n s else s
    t.cells = s.cells ∧ t.link = s.link ∧ t.inHand = s.inHand := by
  cases b <;> exact ⟨rfl, rfl, rfl⟩

/-- Settles O54. -/
theorem maskRequestsMuteTogether : Obligations.MaskRequestsMuteTogether := by
  unfold Obligations.MaskRequestsMuteTogether
  refine ⟨fun n k op s ready => congrArg Host.Outcome.next (receiveWord_request1 ready k op), fun n k mask s u ready => ?request,
    fun m mask => ⟨fun i e => mem_namedEntries, namedEntries_ascend m mask⟩⟩
  case request =>
    obtain ⟨run, state, priority, map, lockout, grip, evl⟩ := ready.same
    have answers {t : State} {p : Reply} (executed : executeRequest
        { station := n, kind := requestKind (maskKindCode k), operand := 0, mask := mask } u = ⟨t, some p⟩)
        (link : t.link = u.link) (inHand : t.inHand = u.inHand) : exec (maskCommand k n mask) s = .next (replied p t) :=
      (exec_maskCommand k n mask s).trans (congrArg Host.Outcome.next (receiveMaskRequest_ready ready mask executed link inHand))
    have lockedOut_eq : lockedOut n u = decide ((s.station n).priority ≤ s.lockout) := by rw [lockedOut, priority, lockout]
    refine ⟨fun away => ?away, fun attached below => ?locked, fun attached above => ?applied⟩
    case away =>
      have notHello : requestKind (maskKindCode k) ≠ .hello := by cases k <;> decide
      exact answers (executeRequest_notAttached _ _ (by rw [state]; exact away) notHello) rfl rfl
    case locked =>
      have is : lockedOut n u = true := lockedOut_eq.trans (decide_eq_true below)
      have locks : requestMask n (maskChangeKind k) mask u = answeredLocked u := if_pos is
      rw [answeredLocked_run run, evl] at locks
      exact answers ((executeRequest_mask (state.trans attached) k mask).trans locks) rfl rfl
    case applied =>
      intro m named presented refreshed
      have is : lockedOut n u = false := lockedOut_eq.trans (decide_eq_false (Nat.not_le.mpr above))
      have applies := (executeRequest_mask (state.trans attached) k mask).trans
        (requestMask_applied is map grip (maskRefreshes_eq (s.grip n) presented) (maskChangeKind k))
      have frame := (inner_takeChanges (maskChanges n (maskChangeKind k) m mask)).frame u
      obtain ⟨cells, link, inHand⟩ := refreshed_kept refreshed n (takeChanges (maskChanges n (maskChangeKind k) m mask) u)
      refine ⟨_, _, answers applies (link.trans frame.link) (inHand.trans frame.inHand), rfl, rfl, rfl, maskFlags_z m mask _ _,
        maskFlags_m m mask _ _, maskFlags_g m mask _ _, maskFlags_d m mask _ _, rfl, rfl, rfl, rfl, ?state, fun p member => ?muted⟩
      case state => cases k <;> rfl
      case muted =>
        have changed : stationChange n p.2.cell (maskChangeKind k) ∈ maskChanges n (maskChangeKind k) m mask :=
          List.mem_map_of_mem member
        have same := takeChanges_muted (maskChanges n (maskChangeKind k) m mask) (decide (k = .muteSet)) u (fun ch listed => by
          obtain ⟨q, -, rfl⟩ := List.mem_map.mp listed
          exact maskChangeKind_eq k) _ changed
        exact (congrArg Cell.muted (State.cell_of_cells cells p.2.cell)).trans same

end Sys2Proof.Machine
end

-- RECALL transfers (R139 to R144, R155, R157): how they start, go on from word to word, and end.
section
namespace Sys2Proof.Machine

/-! ### The start (R139) -/

/-- An ATTACHED station's RECALL starts a transfer once its answer is reported. -/
theorem exec_recallMap {n : StationId} {s : State} (ready : RequestReady n s) (op : Word16)
    (attached : (s.station n).state = .attached) :
    exec (.recallMap n op) s = .next (startTransfer n ((heard n s).setInHand none)) := by
  have executed : executeRequest { station := n, kind := requestKind 0x0B, operand := op, mask := 0 } (heard n s) =
      requestRecall (heard n s) := executeRequest_attached _ _ ((congrArg Station.state (heard_station n s)).trans attached)
  refine congrArg Host.Outcome.next ((receiveWord_request ready 0x0B op rfl).trans ?_)
  refine (handToSru_eq _ (heard n s)).trans ?_
  rw [executed] <;> rfl

theorem startTransfer_first {n : StationId} {s : State} {first : Option LocalIndex}
    (lowest : lowestPresent (s.station n).map = first) : startTransfer n s = s.setLink { s.link with
      state := .sending, arrival := none, window := 0, wordsSent := 0, inFlight := none, cursor := first,
      transferEnd := if first = none then .done else .running } := by
  simp only [startTransfer, lowest]

/-! ### From word to word (R140, R157) -/

/-- A running transfer whose cursor names an entry sends that entry's word. -/
theorem continueTransfer_runs {n : StationId} {i : LocalIndex} {e : MapEntry} {s : State}
    (running : s.link.transferEnd = .running) (selected : s.link.selected = some n) (cursor : s.link.cursor = some i)
    (entry : mapAt (s.station n).map i = some e) : continueTransfer s = startWord n i e s := by
  simp only [continueTransfer, running, selected, cursor, entry]

/-- A transfer that has ended has its final reply. -/
theorem continueTransfer_ended {s : State} (ended : s.link.transferEnd ≠ .running) :
    continueTransfer s = answerWith (finalReply s.link) true s := by
  unfold continueTransfer
  split
  · contradiction
  · rfl

theorem endOpeningGap_gap {s : State} (run : s.run = .run) (sending : s.link.state = .sending) (gap : s.link.inFlight = none) :
    endOpeningGap s = continueTransfer s := if_pos ⟨run, sending, gap⟩

theorem cursorAfter_eq {n : StationId} {i : LocalIndex} {s : State} (selected : s.link.selected = some n)
    (cursor : s.link.cursor = some i) : cursorAfter s = nextPresent (s.station n).map i := by
  simp only [cursorAfter, selected, cursor]

/-- The link once a word and its gap are over: the word is counted and the cursor moved on (R140). -/
def wordOver (s : State) : LinkRecord :=
  { s.link with inFlight := none, wordsSent := s.link.wordsSent + 1, cursor := cursorAfter s }

theorem endWord_more {s : State} (run : s.run = .run) (sending : s.link.state = .sending) (flies : s.link.inFlight ≠ none)
    (more : cursorAfter s ≠ none ∨ s.link.transferEnd ≠ .running) : endWord s = continueTransfer (s.setLink (wordOver s)) := by
  have same : ¬ (s.link.transferEnd = .running ∧ cursorAfter s = none) := by
    rintro ⟨running, last⟩
    exact more.elim (fun entry => entry last) (fun ended => ended running)
  exact (if_pos ⟨run, sending, flies⟩).trans
    (congrArg (fun e => continueTransfer (s.setLink { wordOver s with transferEnd := e })) (if_neg same))

theorem endWord_last {s : State} (run : s.run = .run) (sending : s.link.state = .sending) (flies : s.link.inFlight ≠ none)
    (running : s.link.transferEnd = .running) (last : cursorAfter s = none) :
    endWord s = continueTransfer (s.setLink { wordOver s with transferEnd := .done }) :=
  (if_pos ⟨run, sending, flies⟩).trans
    (congrArg (fun e => continueTransfer (s.setLink { wordOver s with transferEnd := e })) (if_pos ⟨running, last⟩))

theorem finalReply_done {l : LinkRecord} (is : l.transferEnd = .done) : finalReply l = countReply .done l.wordsSent := by
  simp only [finalReply, is]

theorem finalReply_stopped {l : LinkRecord} (is : l.transferEnd = .stopped) : finalReply l = countReply .stopped l.wordsSent := by
  simp only [finalReply, is]

theorem finalReply_mapChanged {l : LinkRecord} (is : l.transferEnd = .mapChanged) :
    finalReply l = countReply .mapChanged l.wordsSent := by
  simp only [finalReply, is]

theorem finalReply_phase {l : LinkRecord} (is : l.transferEnd = .phase) : finalReply l = plainReply .phase := by
  simp only [finalReply, is]

/-- Settles O55. -/
theorem recallSendsOneWordPerEntry : Obligations.RecallSendsOneWordPerEntry := by
  unfold Obligations.RecallSendsOneWordPerEntry
  have heardLowest {n : StationId} {s : State} {first : Option LocalIndex} (lowest : lowestPresent (s.station n).map = first) :
      lowestPresent (((heard n s).setInHand none).station n).map = first := by
    have map : (((heard n s).setInHand none).station n).map = (s.station n).map :=
      (congrArg Station.map (heard_station n s)).trans rfl
    rw [map, lowest]
  refine ⟨fun n op i s ready attached lowest => ?starts, fun n i e s run sending selected gap running cursor entry => ?first,
    fun n i k e w s run sending selected flies running cursor next entry => ?next,
    fun n i w s run sending selected flies running cursor last => ?last, fun n op s ready attached lowest => ?empty⟩
  case starts =>
    rw [exec_recallMap ready op attached, startTransfer_first (heardLowest lowest)]
    rfl
  case empty =>
    rw [exec_recallMap ready op attached, startTransfer_first (heardLowest lowest)]
    rfl
  case first =>
    refine congrArg Host.Outcome.next ((endOpeningGap_gap run sending gap).trans
      ((continueTransfer_runs running selected cursor entry).trans ?_))
    rw [startWord, ← cursor]
  case next =>
    have after : cursorAfter s = some k := (cursorAfter_eq selected cursor).trans next
    have flying : s.link.inFlight ≠ none := by rw [flies]; simp
    have ended : wordOver s = { s.link with inFlight := none, wordsSent := s.link.wordsSent + 1, cursor := some k } := by
      rw [wordOver, after]
    refine congrArg Host.Outcome.next ((endWord_more run sending flying (.inl (by rw [after]; simp))).trans ?_)
    rw [ended]
    exact continueTransfer_runs running selected rfl entry
  case last =>
    have after : cursorAfter s = none := (cursorAfter_eq selected cursor).trans last
    have flying : s.link.inFlight ≠ none := by rw [flies]; simp
    exact ⟨_, congrArg Host.Outcome.next ((endWord_last run sending flying running after).trans
      (continueTransfer_ended (by simp))), rfl, rfl, rfl⟩

/-! ### STOP and the final reply (R141 to R144) -/

theorem receiveSending_stop {w : BandWord} {s : State} (running : s.link.transferEnd = .running) (stop : wordTag w = .stop) :
    receiveSending w s = takeStop s := by
  simp only [receiveSending, running, ne_eq, not_true_eq_false, if_false, stop, if_true]

theorem takeStop_more {s : State} (more : s.link.inFlight = none ∨ cursorAfter s ≠ none) :
    takeStop s = s.setLink { s.link with transferEnd := .stopped } := by
  have notLast : (decide (s.link.inFlight ≠ none) && (cursorAfter s).isNone) = false := by
    rcases more with gap | entry
    · simp [gap]
    · simp [Option.isNone_eq_false_iff, Option.isSome_iff_ne_none, entry]
  simp only [takeStop, notLast, Bool.false_eq_true, if_false]

theorem takeStop_last {s : State} (flies : s.link.inFlight ≠ none) (last : cursorAfter s = none) :
    takeStop s = s.setLink { s.link with transferEnd := .done } := by
  simp only [takeStop, flies, last, ne_eq, not_false_eq_true, decide_true, Option.isNone_none, Bool.and_self, if_true]

theorem exec_stopWord {n : StationId} {s t : State} (content : Word24) (run : s.run = .run) (sending : s.link.state = .sending)
    (selected : s.link.selected = some n) (received : receiveSending (plainWord 9 n content) s = t) :
    exec (.stopWord n { content := content, driven := false }) s = .next t := by
  refine congrArg Host.Outcome.next ((receiveWord_good (w := plainWord 9 n content) none run rfl
    (checkGood_plainWord 9 n content)).trans ?_)
  rw [receiveGood_sending _ sending selected (wordStation_stop n content), received]

/-- Settles O56. -/
theorem stopEndsTheTransfer : Obligations.StopEndsTheTransfer := by
  unfold Obligations.StopEndsTheTransfer
  intro n content s run sending selected sent
  have receives {t : State} := exec_stopWord (t := t) content run sending selected
  have stop := wordTag_stop n content
  have wordEnds (flies : s.link.inFlight ≠ none) (ended : s.link.transferEnd ≠ .running) :
      exec .dataInWord s = .next (answerWith (finalReply (wordOver s)) true (s.setLink (wordOver s))) :=
    congrArg Host.Outcome.next ((endWord_more run sending flies (.inr ended)).trans
      (continueTransfer_ended (s := s.setLink (wordOver s)) ended))
  have gapEnds (gap : s.link.inFlight = none) (ended : s.link.transferEnd ≠ .running) :
      exec .openingGapEnd s = .next (answerWith (finalReply s.link) true s) :=
    congrArg Host.Outcome.next ((endOpeningGap_gap run sending gap).trans (continueTransfer_ended ended))
  refine ⟨fun running more => receives ((receiveSending_stop running stop).trans (takeStop_more more)),
    fun running flies last => receives ((receiveSending_stop running stop).trans (takeStop_last flies last)),
    fun ended => receives (receiveSending_ended ended _), congrArg Host.Outcome.next (receiveWord_driven none rfl s),
    fun stopped flies => ?stopped, ?finals⟩
  case stopped =>
    refine ⟨_, wordEnds flies (by rw [stopped]; decide), rfl, ?_, rfl⟩
    exact congrArg (fun r => some ({ reply := r, settled := true } : Answer)) (finalReply_stopped stopped)
  case finals =>
    intro final finals
    have finals_of {c : Instr} {l : LinkRecord} (transferEnd : l.transferEnd = s.link.transferEnd)
        (ends : s.link.transferEnd ≠ .running → exec c s = .next (answerWith (finalReply l) true (s.setLink l)))
        (rest : answeringLink (plainReply .ok) true l =
          answeringLink (plainReply .ok) true { s.link with wordsSent := l.wordsSent }) : finals c l.wordsSent := by
      have answered (r : Reply) : (s.setLink l).setLink (answeringLink r true l) =
          s.setLink (answeringLink r true { s.link with wordsSent := l.wordsSent }) :=
        congrArg (fun x : LinkRecord => s.setLink { x with answer := some { reply := r, settled := true } }) rest
      have replies {r : Reply} (ended : s.link.transferEnd ≠ .running) (reply : finalReply l = r) :
          exec c s = .next (s.setLink (answeringLink r true { s.link with wordsSent := l.wordsSent })) := by
        rw [ends ended, reply]
        exact congrArg Host.Outcome.next (answered r)
      exact ⟨fun is => replies (by rw [is]; decide) (finalReply_stopped (transferEnd.trans is)),
        fun is => replies (by rw [is]; decide) (finalReply_done (transferEnd.trans is)),
        fun is => replies (by rw [is]; decide) (finalReply_mapChanged (transferEnd.trans is)),
        fun is => replies (by rw [is]; decide) (finalReply_phase (transferEnd.trans is))⟩
    exact ⟨fun gap => finals_of (l := s.link) rfl (gapEnds gap) rfl, fun flies => finals_of (l := wordOver s) rfl (wordEnds flies) rfl⟩

end Sys2Proof.Machine
end
